-- ==== Sys2Proof/Word.lean ====
section
/-! DEFINITION. The 16-bit word of the link and of the policy banks, and the container for the four
paths or the four zones. -/

namespace Sys2Proof

/-- A word on the link and in the table banks (00_scope, "Words and offsets"). -/
abbrev Word := BitVec 16

/-- Four like things: one for each path, or one for each zone. -/
structure Four (α : Type) where
  i0 : α
  i1 : α
  i2 : α
  i3 : α
deriving DecidableEq, Repr

/-- The same value at all four places. -/
def Four.fill {α : Type} (x : α) : Four α := ⟨x, x, x, x⟩

/-- The value at a path or zone. -/
def Four.get {α : Type} (v : Four α) (i : Fin 4) : α :=
  match i with
  | 0 => v.i0
  | 1 => v.i1
  | 2 => v.i2
  | 3 => v.i3

/-- The value at one path or zone replaced. -/
def Four.set {α : Type} (v : Four α) (i : Fin 4) (x : α) : Four α :=
  match i with
  | 0 => { v with i0 := x }
  | 1 => { v with i1 := x }
  | 2 => { v with i2 := x }
  | 3 => { v with i3 := x }

/-- The four values made from the four indices. -/
def Four.of {α : Type} (f : Fin 4 → α) : Four α := ⟨f 0, f 1, f 2, f 3⟩

/-- Every value changed by a function of its index and itself. -/
def Four.mapIdx {α β : Type} (f : Fin 4 → α → β) (v : Four α) : Four β :=
  ⟨f 0 v.i0, f 1 v.i1, f 2 v.i2, f 3 v.i3⟩

/-- The four indices in rising order. -/
def Four.indices : List (Fin 4) := [0, 1, 2, 3]

end Sys2Proof
end

