-- ==== Sys2Proof/Syntax.lean ====
section
/-! DEFINITION. The commands of the block: one constructor of `Instr` for each row of
spec/opcode_table.json, with the inputs the spec gives that event as operands. -/

namespace Sys2Proof

/-- The two ports at which packets arrive (08, R146). -/
inductive Port where
  | modem
  | frontEnd
deriving DecidableEq, Repr

/-- A packet as received or sent: one header word, its payload words, one check word (08, section 8.1).
The payload holds the words received between header and check word, however many (R146). -/
structure Packet where
  header : Word
  payload : List Word
  check : Word
deriving DecidableEq, Repr

/-- The order in which the three users of the Originated Queue are answered at one frame turn:
the due polls, the Boost Controller's due packets, a SAFE amendment request. R156: "in whichever
order they are taken". -/
inductive QueueOrder where
  | pollBoostSafe
  | pollSafeBoost
  | boostPollSafe
  | boostSafePoll
  | safePollBoost
  | safeBoostPoll
deriving DecidableEq, Repr

/-- What the spec leaves open inside one frame turn (log 5, log 6).
`queue`: the order of R156. `expiryFirst`: a poll's expiry at the turn is taken before the frame close
of the same turn (R84). `held`: the zones whose controller has not yet taken its estimate when the turn's
step ends, in the order in which they take it afterwards, one at a time (R98). -/
structure TurnOrder where
  queue : QueueOrder
  expiryFirst : Bool
  held : List (Fin 4)
deriving DecidableEq, Repr

/-- A turn in which nothing is held back. -/
def TurnOrder.plain : TurnOrder := ⟨.pollBoostSafe, false, []⟩

/-- The three ways the clock of the part moves on: a grain event (R111), a turn made by the timer (R112),
a FRAME-MARK arriving at the Modem Port (R113). -/
inductive Clock where
  | grain
  | timer (o : TurnOrder)
  | mark (p : Packet) (o : TurnOrder)
deriving DecidableEq, Repr

/-- The commands of the block, one constructor for each row of the table of operations and events. -/
inductive Instr where
  /-- RESET_N goes low (R160). -/
  | resetNAssert
  /-- RESET_N goes high (R110). -/
  | resetNRelease
  /-- The grain counter advances (R111). -/
  | grainEvent
  /-- The grain event for tol in AWAITING (R112). -/
  | awaitingWindowEnd
  /-- The counter reaches 80 (R112). -/
  | timerFrameTurn (o : TurnOrder)
  /-- The turn at which a pending switch reaches 0 (R138). -/
  | bankSwitch (k : Clock)
  /-- The turn at which the supply report age exceeds the stale frames (R46). -/
  | supplyStale (k : Clock)
  /-- The turn at which a path's trip back-off decays to 0 (R104). -/
  | tripClear (path : Fin 4) (k : Clock)
  /-- The turn at which a path's bar expires (R104). -/
  | barExpiry (path : Fin 4) (k : Clock)
  /-- The turn at which a zone becomes STALE (R80). -/
  | zoneStale (zone : Fin 4) (k : Clock)
  /-- The grain event, or turn, that brings a zone's poll timer to 0 (R83). -/
  | pollExpiry (zone : Fin 4) (k : Clock)
  /-- The turn at which a quiet release falls due (R67). -/
  | boostQuietRelease (k : Clock)
  /-- The turn at which the boost cooldown ends (R67). -/
  | boostCooldownEnd (k : Clock)
  /-- The grain event, or turn, that brings the boost wait timer to 0 (R66). -/
  | boostWaitExpiry (k : Clock)
  /-- A FRAME-MARK arrives at the Modem Port (R113). -/
  | frameMark (p : Packet) (o : TurnOrder)
  /-- A BURST is taken from the downstream Pass Buffer; the operand is SAFE_SEL1, SAFE_SEL0 (R17, R22). -/
  | burst (straps : BitVec 2)
  /-- A REVISE is taken (R37). -/
  | revise (straps : BitVec 2)
  /-- An AMEND received from the modem is taken (R39). -/
  | amendReceived (straps : BitVec 2)
  /-- A WITHDRAW is taken (R36). -/
  | withdraw
  /-- A TEMP-REPORT arrives at the Front-End Port (R79). -/
  | tempReport (p : Packet)
  /-- A SUPPLY-REPORT arrives at the Front-End Port (R44). -/
  | supplyReport (p : Packet)
  /-- A TRIP-REPORT arrives at the Front-End Port (R100). -/
  | tripReport (p : Packet)
  /-- The next amendment of a request in progress is made; the operand picks the request (R57, R61). -/
  | requestedAmendment (k : Nat)
  /-- A BOOST-READY arrives at the Front-End Port (R65). -/
  | boostReady (p : Packet)
  /-- A packet classified to pass arrives (R151). -/
  | passPacketArrival (port : Port) (p : Packet)
  /-- A malformed packet arrives (R147). -/
  | malformedPacket (port : Port) (p : Packet)
  /-- A misdirected packet arrives (R150). -/
  | misdirectedPacket (port : Port) (p : Packet)
  /-- A GOV-COMMAND for unit 15 arrives (R164). -/
  | govCommandArrival (p : Packet)
  /-- The Command Engine takes the head of the Command Queue (R165). -/
  | commandTake
  /-- The command in execution has an unknown code (R166). -/
  | unknownCommand
  /-- READ-STATUS is executed (R170). -/
  | readStatus
  /-- READ-EVENTS is executed (R178). -/
  | readEvents
  /-- SET-MASK is executed (R173). -/
  | setMask
  /-- READ-ZONE is executed (R171). -/
  | readZone
  /-- READ-PATH is executed (R109). -/
  | readPath
  /-- READ-SCHEDULE is executed (R172). -/
  | readSchedule
  /-- SET-CAP is executed (R107). -/
  | setCap
  /-- CLEAR-BAR is executed (R106). -/
  | clearBar
  /-- READ-TABLE is executed; the operand says how many words a running copy has copied by now (R134, R142). -/
  | readTable (copied : Nat)
  /-- WRITE-TABLE is executed (R135). -/
  | writeTable
  /-- LAUNCH is executed (R136). -/
  | launch
  /-- RECALL is executed (R139). -/
  | recallLaunch
  /-- COPY is executed (R141). -/
  | copy
  /-- The last word of a running copy has been copied (R143). -/
  | copyComplete
  /-- SOFT-RESET is executed; the operand says how many words a running copy has copied by now (R174, R144). -/
  | softReset (copied : Nat)
  /-- The Downstream Arbiter's output is free; the operand is FE_HOLD_IN as sampled (R158). -/
  | downstreamGrant (hold : Bool)
  /-- The Upstream Arbiter's output is free; the operand is MD_HOLD_IN as sampled (R159). -/
  | upstreamGrant (hold : Bool)
deriving DecidableEq, Repr

end Sys2Proof
end

