-- ==== Sys2Proof/Config.lean ====
section
/-! DEFINITION. The values this model fixes where the spec gives none. The spec leaves no RESULT of a
command open, so there is no free value here; every choice between events is a command's operand. -/

namespace Sys2Proof.Config

/-- DESIGN CHOICE, unsafe (log 12): the level of the two hold-in lines as last sampled, right after reset.
Released: 08 section 8.10, "A hold-in pin left unconnected on the board is read as released". No grant reads it:
each grant samples the line anew. -/
def resetHoldIn : Bool := false

/-- DESIGN CHOICE, unsafe (log 12): the strap levels as last read, right after reset. No order reads it:
each order reads the straps anew (R17). -/
def resetStraps : BitVec 2 := 0

end Sys2Proof.Config
end

