-- ==== Sys2Proof/Machine/State.lean ====
section
/-! DEFINITION. The state of the block, block by block as 00_scope lists them, and its value right after
hardware reset. Plain data throughout. -/

namespace Sys2Proof.Machine

/-- What could stop the block with a fault. The spec names nothing that does, so there is no constructor:
no command raises one (safe: nothing is stopped). -/
inductive Fault where
deriving DecidableEq, Repr

/-- Why a command could be turned away. -/
inductive Refusal where
  /-- Raised by an arm of `exec` whose command has no meaning yet; safe: the model stops where the part goes on.
  No arm raises it now. -/
  | notModelled (mnemonic : String)
deriving DecidableEq, Repr

/-- The outcome of a command. -/
abbrev Out (σ : Type) := Host.Outcome σ Fault Refusal

/-! ### Pins -/

/-- The input pins: RESET_N's level (true: high), and the hold-in lines and straps as last sampled (log 12). -/
structure Pins where
  resetN : Bool
  feHoldIn : Bool
  mdHoldIn : Bool
  straps : BitVec 2
deriving DecidableEq, Repr

/-! ### Link Interface (chapter 8) -/

/-- A packet the governor makes, before its check word is computed at the grant (R157). -/
structure Draft where
  unit : Nat
  kind : Nat
  aux : Nat
  payload : List Word
deriving DecidableEq, Repr

/-- A place of the downstream Pass Buffer: the packet, and whether it is ready to leave (R152). -/
structure PassEntry where
  packet : Packet
  ready : Bool
deriving DecidableEq, Repr

/-- The three sources of the Upstream Arbiter (R159). -/
inductive UpSource where
  | pass
  | reply
  | notice
deriving DecidableEq, Repr

/-- The Link Interface: Pass Buffers, hold states, Originated Queue, arbiter states, and the packet whose
transmission began last on each output (log 13). -/
structure Link where
  down : List PassEntry
  up : List Packet
  downHold : Bool
  upHold : Bool
  orig : List Draft
  run : Nat
  last : UpSource
  feOut : Option Packet
  mdOut : Option Packet
deriving DecidableEq, Repr

/-! ### Frame Timer (chapter 6) -/

/-- The device modes (06, section 6.4). -/
inductive Mode where
  | unset
  | governing
  | safe
deriving DecidableEq, Repr

/-- The timer states (R110). -/
inductive TimerState where
  | synced
  | awaiting
  | holdover
deriving DecidableEq, Repr

/-- The Frame Timer (R110). -/
structure FrameTimer where
  frame : Nat
  grain : Nat
  state : TimerState
  missed : Nat
  run : Nat
  mode : Mode
deriving DecidableEq, Repr

/-! ### Burst Schedule (chapter 2) -/

/-- The two frames of the window, as an entry knows its own (R28). -/
inductive Slot where
  | current
  | next
deriving DecidableEq, Repr

/-- The states of an entry (R28). -/
inductive EntryState where
  | booked
  | committed
deriving DecidableEq, Repr

/-- The limit reasons (R14, R15), in the list order that settles ties. -/
inductive Reason where
  | request
  | rating
  | thermal
  | trip
  | cap
  | boost
  | safe
  | late
  | assured
  | bar
  | floor
  | supply
  | mute
  | amended
deriving DecidableEq, Repr

/-- A schedule entry (R28). `serial` is the model's own: it tells entries apart (log 14). -/
structure Entry where
  serial : Nat
  tag : Nat
  path : Fin 4
  band : Nat
  cls : Nat
  modClass : Nat
  slot : Slot
  start : Nat
  length : Nat
  requested : Int
  granted : Int
  lower : Int
  reserved : Int
  dissipation : Int
  state : EntryState
  reason : Reason
  amends : Nat
deriving DecidableEq, Repr

/-- The Burst Schedule in booking order, oldest first (R29), and the serial the next entry gets (log 14). -/
structure Schedule where
  entries : List Entry
  nextSerial : Nat
deriving DecidableEq, Repr

/-! ### Headroom Unit and Boost Controller (chapter 3) -/

/-- What asked for amendments: a path entering TRIPPED, a path entering BARRED, SAFE entry (R58 to R60). -/
inductive RequestKind where
  | trip (path : Fin 4)
  | bar (path : Fin 4)
  | safe
deriving DecidableEq, Repr

/-- An amendment request in progress: the serials of the entries still on its list, in the list's order (R57).
Each holds one claimed slot of the Originated Queue. -/
structure Request where
  kind : RequestKind
  items : List Nat
deriving DecidableEq, Repr

/-- The Headroom Unit: supply state (R44), Supply Map (R47) and amendment requests in progress (R57). -/
structure Headroom where
  volts : Nat
  reported : Bool
  age : Nat
  ceiling : Int
  map : List Int
  requests : List Request
deriving DecidableEq, Repr

/-- The Boost Controller's states (R62). -/
inductive BoostState where
  | off
  | requested
  | ready
  | failed
deriving DecidableEq, Repr

/-- The Boost Controller (R62); `wait` is `none` while the timer is stopped. -/
structure Boost where
  state : BoostState
  wait : Option Nat
  quiet : Nat
  cooldown : Nat
  boosted : Bool
  requestDue : Bool
  releaseDue : Bool
deriving DecidableEq, Repr

/-! ### Heat Model and Sense Tracker (chapter 4) -/

/-- The Heat Model: accumulators by path; accounts, seed states and estimates by zone (R70, R74, R77). -/
structure Heat where
  acc : Four Int
  account : Four Int
  seeded : Four Bool
  estimate : Four Int
deriving DecidableEq, Repr

/-- The standing of a zone's reports (R78). -/
inductive Freshness where
  | seeding
  | fresh
  | stale
  | blind
deriving DecidableEq, Repr

/-- What the Sense Tracker holds for a zone (R78); `poll` is the wait timer of an outstanding poll. -/
structure Sense where
  fresh : Freshness
  sensed : Int
  age : Nat
  poll : Option Nat
  pollDue : Bool
  spacing : Nat
deriving DecidableEq, Repr

/-! ### Zone Controllers and Path Protection (chapter 5) -/

/-- The states of a zone controller (05, section 5.1). -/
inductive ControlState where
  | steady
  | climb
  | ease
  | critical
deriving DecidableEq, Repr

/-- A zone controller; `presented`: an estimate waits to be taken by it (R98, log 6). -/
structure Control where
  state : ControlState
  backoff : Int
  sinceRaise : Nat
  presented : Bool
deriving DecidableEq, Repr

/-- The protection states of a path (R99). -/
inductive Protection where
  | clear
  | tripped
  | barred
deriving DecidableEq, Repr

/-- What Path Protection holds for a path (R99). -/
structure PathState where
  state : Protection
  trip : Int
  barLeft : Nat
  cap : Option Int
  thermal : Int
deriving DecidableEq, Repr

/-! ### Table Store (chapter 7) -/

/-- The contents of a policy bank: the words that are not 0, by rising offset (R123, log 15). -/
structure Bank where
  cells : List (Nat × Word)
deriving DecidableEq, Repr

/-- The two banks. -/
inductive BankId where
  | bank0
  | bank1
deriving DecidableEq, Repr

/-- What became of the most recent accepted LAUNCH (R123). -/
inductive LaunchRecord where
  | none
  | pending
  | cancelled
  | switched
deriving DecidableEq, Repr

/-- A running copy: destination, words copied, tag of the COPY command (R123, R143). -/
structure CopyRun where
  dest : BankId
  progress : Nat
  tag : Nat
deriving DecidableEq, Repr

/-- The Table Store (R123). -/
structure Tables where
  bank0 : Bank
  bank1 : Bank
  mark0 : Bool
  mark1 : Bool
  active : Option BankId
  pending : Option (BankId × Nat)
  launch : LaunchRecord
  copy : Option CopyRun
deriving DecidableEq, Repr

/-! ### Command Engine and Event Register (chapter 9) -/

/-- The Command Engine (R163). -/
structure Engine where
  queue : List Packet
  current : Option Packet
  replies : List Draft
deriving DecidableEq, Repr

/-- The Event Register (R176). `notice` is the announced word of the waiting notice; its flag word is `flags`
until it is granted (R179). -/
structure Events where
  flags : Word
  mask : Word
  notice : Option Word
deriving DecidableEq, Repr

/-! ### The whole part -/

/-- The state of the part, and the commands waiting to be taken. `updates` is the model's own: the order in which zones
that still have an estimate to take will take it (R98, log 6). -/
structure State where
  pins : Pins
  link : Link
  timer : FrameTimer
  sched : Schedule
  supply : Headroom
  boost : Boost
  heat : Heat
  sense : Four Sense
  control : Four Control
  updates : List (Fin 4)
  path : Four PathState
  tables : Tables
  engine : Engine
  events : Events
  pending : List Instr
deriving DecidableEq, Repr

/-- The part right after hardware reset, RESET_N high: the reset values of R42, R44, R47, R62, R70, R74, R77, R78,
R90, R99, R110, R123, R160, R163 and R176. Not given by the spec: the sampled pins (log 12), `nextSerial` (log 14), `updates` (log 6). -/
def State.reset : State where
  pins := ⟨true, Config.resetHoldIn, Config.resetHoldIn, Config.resetStraps⟩
  link := ⟨[], [], false, false, [], 0, .notice, none, none⟩
  timer := ⟨0, 0, .awaiting, 0, 0, .unset⟩
  sched := ⟨[], 0⟩
  supply := ⟨0, false, 255, 0, List.replicate 160 0, []⟩
  boost := ⟨.off, none, 0, 0, false, false, false⟩
  heat := ⟨Four.fill 0, Four.fill 0, Four.fill false, Four.fill (-160)⟩
  sense := Four.fill ⟨.seeding, -160, 255, none, false, 0⟩
  control := Four.fill ⟨.steady, 0, 0, false⟩
  updates := []
  path := Four.fill ⟨.clear, 0, 0, none, 0⟩
  tables := ⟨⟨[]⟩, ⟨[]⟩, false, false, none, none, .none, none⟩
  engine := ⟨[], none, []⟩
  events := ⟨0, 0xFFFF, none⟩
  pending := []

end Sys2Proof.Machine
end

