-- ==== Sys2Proof/Machine/Flags.lean ====
section
/-! DEFINITION. The Event Register: setting flags, announcing rises, reading and clearing (R176 to R181). -/

namespace Sys2Proof.Machine

/-- The sixteen event flags, in the order of their bits (R176, section 9.8). -/
inductive Flag where
  | tier
  | trip
  | bar
  | boostFail
  | blind
  | frameLost
  | safe
  | slip
  | lateOrder
  | schedFull
  | mute
  | writeDiscard
  | linkError
  | overrun
  | cmdDrop
  | launched
deriving DecidableEq, Repr

/-- The flag's bit in the flag word, the announced word and the mask (section 9.8). -/
def Flag.bit (f : Flag) : Word :=
  match f with
  | .tier => 0x0001
  | .trip => 0x0002
  | .bar => 0x0004
  | .boostFail => 0x0008
  | .blind => 0x0010
  | .frameLost => 0x0020
  | .safe => 0x0040
  | .slip => 0x0080
  | .lateOrder => 0x0100
  | .schedFull => 0x0200
  | .mute => 0x0400
  | .writeDiscard => 0x0800
  | .linkError => 0x1000
  | .overrun => 0x2000
  | .cmdDrop => 0x4000
  | .launched => 0x8000

/-- The flag stands set. -/
def Events.has (e : Events) (f : Flag) : Bool := e.flags &&& f.bit != 0

/-- The flag's mask bit is set. -/
def Events.announces (e : Events) (f : Flag) : Bool := e.mask &&& f.bit != 0

/-- A setting of a flag (R177). A rise with the mask bit set fills the empty slot or adds the flag to the waiting
notice's announced word (R179). -/
def Events.raise (e : Events) (f : Flag) : Events :=
  if e.has f then e
  else
    { e with
      flags := e.flags ||| f.bit
      notice := if e.announces f then some (e.notice.getD 0 ||| f.bit) else e.notice }

/-- A setting made only when its event comes about. -/
def Events.raiseIf (e : Events) (c : Bool) (f : Flag) : Events := if c then e.raise f else e

/-- READ-EVENTS: every flag cleared and a waiting notice withdrawn (R178, R180). -/
def Events.cleared (e : Events) : Events := { e with flags := 0, notice := none }

/-- The Event Register after hardware reset and after SOFT-RESET (R176). -/
def Events.initial : Events := ⟨0, 0xFFFF, none⟩

/-- A block sets a flag. -/
def State.raise (s : State) (f : Flag) : State := { s with events := s.events.raise f }

/-- A block sets a flag when the event that sets it comes about. -/
def State.raiseIf (s : State) (c : Bool) (f : Flag) : State := { s with events := s.events.raiseIf c f }

end Sys2Proof.Machine
end

