-- ==== Sys2Proof/Machine/Operands.lean ====
section
/-! DEFINITION. The operands of the commands: the fields of a packet, of a burst order, of a management command;
well-formedness (R147) and classification (R148, R149) of an arriving packet. -/

namespace Sys2Proof.Machine

/-! ### Power codes (R1) -/

/-- The mute code (00_scope, "Power code"). -/
def muteCode : Int := -512

/-- The lowest power code of the valid range. -/
def minCode : Int := -400

/-- The highest power code of the valid range. -/
def maxCode : Int := 272

/-- A value replaced by the nearer end of a range when it lies outside it (00_scope, "Arithmetic"). -/
def clampTo (lo hi x : Int) : Int := max lo (min hi x)

/-- A requested power as the part uses it (R1): mute is kept, any other code is clamped. -/
def clampRequest (x : Int) : Int := if x = muteCode then muteCode else clampTo minCode maxCode x

/-- A code written as a word (R124, section 8.7). -/
def codeWord (x : Int) : Word := BitVec.ofInt 16 x

/-- A count written as a word. -/
def natWord (n : Nat) : Word := BitVec.ofNat 16 n

/-- A number as a path or zone, when it is 0 to 3. -/
def index4 (n : Nat) : Option (Fin 4) := if h : n < 4 then some ⟨n, h⟩ else none

/-! ### Packet kinds (section 8.1) -/

namespace Kind
def frameMark : Nat := 1
def burst : Nat := 2
def withdraw : Nat := 3
def revise : Nat := 4
def amend : Nat := 5
def poll : Nat := 6
def boostRequest : Nat := 7
def boostRelease : Nat := 8
def command : Nat := 9
def tempReport : Nat := 10
def supplyReport : Nat := 11
def tripReport : Nat := 12
def boostReady : Nat := 13
def reply : Nat := 14
def notice : Nat := 15
end Kind

/-- The least and greatest payload length of each kind (section 8.1). -/
def kindLengths (kind : Nat) : Nat × Nat :=
  match kind with
  | 0 => (0, 12)
  | 1 => (1, 1)
  | 2 => (4, 4)
  | 3 => (1, 1)
  | 4 => (2, 2)
  | 5 => (2, 2)
  | 6 => (1, 1)
  | 7 => (0, 0)
  | 8 => (0, 0)
  | 9 => (1, 12)
  | 10 => (2, 2)
  | 11 => (1, 1)
  | 12 => (1, 1)
  | 13 => (0, 0)
  | 14 => (1, 12)
  | _ => (2, 2)

end Sys2Proof.Machine

namespace Sys2Proof

open Machine

/-! ### Header fields (section 8.7) -/

/-- Unit tag: header bits 15 to 12. -/
def Packet.unit (p : Packet) : Nat := p.header.toNat / 4096

/-- Kind: header bits 11 to 8. -/
def Packet.kind (p : Packet) : Nat := p.header.toNat / 256 % 16

/-- Payload length field: header bits 7 to 4. -/
def Packet.lengthField (p : Packet) : Nat := p.header.toNat / 16 % 16

/-- Aux: header bits 3 to 0. -/
def Packet.aux (p : Packet) : Nat := p.header.toNat % 16

/-- The modulo-65536 sum of all the packet's words (R147). -/
def Packet.sum (p : Packet) : Word := p.header + p.payload.foldr (· + ·) 0 + p.check

/-- Payload word `i`, counted from 0. -/
def Packet.word (p : Packet) (i : Nat) : Word := p.payload.getD i 0

/-- R147: the sum is 0, the length field is the number of payload words, and that length is one of the kind's. -/
def Packet.wellFormed (p : Packet) : Bool :=
  p.sum == 0 && p.lengthField == p.payload.length &&
    (kindLengths p.kind).1 ≤ p.payload.length && p.payload.length ≤ (kindLengths p.kind).2

/-! ### Fields of BURST, REVISE, AMEND and WITHDRAW (section 8.7) -/

/-- Tag: payload word 1, bits 15 to 8. -/
def Packet.orderTag (p : Packet) : Nat := (p.word 0).toNat / 256

/-- Path: payload word 1, bits 7 to 6. -/
def Packet.orderPath (p : Packet) : Fin 4 := ⟨(p.word 0).toNat / 64 % 4, Nat.mod_lt _ (by decide)⟩

/-- Class: payload word 1, bits 5 to 4. -/
def Packet.orderClass (p : Packet) : Nat := (p.word 0).toNat / 16 % 4

/-- Band: payload word 2, bits 15 to 11. -/
def Packet.orderBand (p : Packet) : Nat := (p.word 1).toNat / 2048

/-- Modulation class: payload word 2, bits 10 to 8. -/
def Packet.orderMod (p : Packet) : Nat := (p.word 1).toNat / 256 % 8

/-- Frame: payload word 2, bits 7 to 0. -/
def Packet.orderFrame (p : Packet) : Nat := (p.word 1).toNat % 256

/-- Start: payload word 3, bits 15 to 8. -/
def Packet.orderStart (p : Packet) : Nat := (p.word 2).toNat / 256

/-- Length as sent: payload word 3, bits 7 to 0. -/
def Packet.orderLength (p : Packet) : Nat := (p.word 2).toNat % 256

/-- Where the power field lies in the payload, counted from 0: the fourth word of a BURST, the second of a REVISE or
AMEND (R153). -/
def Packet.powerIndex (p : Packet) : Nat := if p.kind = Kind.burst then 3 else 1

/-- The power field as a signed code. -/
def Packet.power (p : Packet) : Int := (p.word p.powerIndex).toInt

/-- The power field rewritten and the check word recomputed as R153 gives: old check plus old power word minus new power
word. Where the code is the one that arrived this leaves the packet as it is. -/
def Packet.setPower (p : Packet) (code : Int) : Packet :=
  { p with
    payload := p.payload.set p.powerIndex (codeWord code)
    check := p.check + p.word p.powerIndex - codeWord code }

/-! ### Management commands (section 9.8) -/

/-- Command code: bits 15 to 8 of the first payload word. -/
def Packet.commandCode (p : Packet) : Nat := (p.word 0).toNat / 256

/-- Parameter byte: bits 7 to 0 of the first payload word. -/
def Packet.parameter (p : Packet) : Nat := (p.word 0).toNat % 256

end Sys2Proof

namespace Sys2Proof.Machine

/-! The command codes (section 9.8). -/

namespace Code
def readStatus : Nat := 0x01
def readEvents : Nat := 0x02
def setMask : Nat := 0x03
def readZone : Nat := 0x04
def readPath : Nat := 0x05
def readSchedule : Nat := 0x06
def setCap : Nat := 0x07
def clearBar : Nat := 0x08
def readTable : Nat := 0x10
def writeTable : Nat := 0x11
def launch : Nat := 0x12
def recallLaunch : Nat := 0x13
def copy : Nat := 0x14
def softReset : Nat := 0x1F
end Code

/-- The least and greatest payload length the code table gives a command; `none` for a code that names no command. -/
def commandLengths (code : Nat) : Option (Nat × Nat) :=
  if code = Code.readStatus then some (1, 1)
  else if code = Code.readEvents then some (1, 1)
  else if code = Code.setMask then some (2, 2)
  else if code = Code.readZone then some (1, 1)
  else if code = Code.readPath then some (1, 1)
  else if code = Code.readSchedule then some (1, 1)
  else if code = Code.setCap then some (2, 2)
  else if code = Code.clearBar then some (1, 1)
  else if code = Code.readTable then some (3, 3)
  else if code = Code.writeTable then some (3, 12)
  else if code = Code.launch then some (1, 1)
  else if code = Code.recallLaunch then some (1, 1)
  else if code = Code.copy then some (1, 1)
  else if code = Code.softReset then some (1, 1)
  else none

/-- Step 2 of R166: the payload length is one the code table gives. -/
def commandLengthOk (p : Packet) : Bool :=
  match commandLengths p.commandCode with
  | some (lo, hi) => lo ≤ p.payload.length && p.payload.length ≤ hi
  | none => false

/-- A bank value of 0 or 1 (R134 to R136). -/
def bankOf? (n : Nat) : Option BankId :=
  if n = 0 then some .bank0 else if n = 1 then some .bank1 else none

/-- What the Link Interface does with a packet at its arrival (R147 to R150). -/
inductive Handling where
  /-- malformed and dropped: addressed to unit 15, or longer than 15 payload words (R146, R147) -/
  | malformedDrop
  /-- malformed and passed on unchanged (R147) -/
  | malformedPass
  /-- misdirected: dropped (R150) -/
  | misdirected
  /-- a GOV-COMMAND for the governor: to the Command Queue (R164) -/
  | command
  /-- a FRAME-MARK: taken by the Frame Timer and passed (R113) -/
  | mark
  /-- BURST, REVISE, AMEND, WITHDRAW: passed, not ready before it is taken (R148, R152) -/
  | order
  /-- passed, not interpreted -/
  | pass
  /-- a TEMP-REPORT for the governor: consumed (R149) -/
  | tempConsumed
  /-- a BOOST-READY for the governor: consumed (R149) -/
  | readyConsumed
  /-- a TEMP-REPORT taken and passed -/
  | tempPassed
  /-- a SUPPLY-REPORT taken and passed -/
  | supplyPassed
  /-- a TRIP-REPORT taken and passed -/
  | tripPassed
deriving DecidableEq, Repr

/-- R148: the handling of a well-formed packet at the Modem Port. -/
def classifyModem (unit kind : Nat) : Handling :=
  if kind = Kind.frameMark then .mark
  else if unit = 15 then (if kind = Kind.command then .command else .misdirected)
  else if kind = Kind.burst ∨ kind = Kind.revise ∨ kind = Kind.amend ∨ kind = Kind.withdraw then .order
  else .pass

/-- R149: the handling of a well-formed packet at the Front-End Port. -/
def classifyFrontEnd (unit kind : Nat) : Handling :=
  if unit = 15 then
    (if kind = Kind.tempReport then .tempConsumed
     else if kind = Kind.boostReady then .readyConsumed
     else .misdirected)
  else if kind = Kind.tempReport then .tempPassed
  else if kind = Kind.supplyReport then .supplyPassed
  else if kind = Kind.tripReport then .tripPassed
  else .pass

/-- R146 to R149: the handling of a packet arriving at a port. -/
def classify (port : Port) (p : Packet) : Handling :=
  if p.wellFormed then
    match port with
    | .modem => classifyModem p.unit p.kind
    | .frontEnd => classifyFrontEnd p.unit p.kind
  else if p.unit = 15 ∨ 15 < p.payload.length then .malformedDrop
  else .malformedPass

/-- The header word of a packet the governor makes (R157, section 8.7). -/
def Draft.header (d : Draft) : Word :=
  natWord (d.unit * 4096 + d.kind * 256 + d.payload.length * 16 + d.aux)

/-- A packet the governor makes, completed at its grant: its check word makes the sum of its words 0 (R157). -/
def Draft.seal (d : Draft) : Packet where
  header := d.header
  payload := d.payload
  check := - (d.header + d.payload.foldr (· + ·) 0)

/-- An AMEND packet: to all front-end units, tag and path of the entry, its new code (R157, section 8.7). -/
def Draft.amend (tag : Nat) (path : Fin 4) (code : Int) : Draft :=
  ⟨14, Kind.amend, 0, [natWord (tag * 256 + path.val * 64), codeWord code]⟩

/-- A POLL packet for a zone, to the sense unit (R82, R157). -/
def Draft.poll (unit : Nat) (zone : Fin 4) : Draft := ⟨unit, Kind.poll, 0, [natWord zone.val]⟩

/-- A BOOST-REQUEST packet to the supply unit (R62, R157). -/
def Draft.boostRequest (unit : Nat) : Draft := ⟨unit, Kind.boostRequest, 0, []⟩

/-- A BOOST-RELEASE packet to the supply unit (R62, R157). -/
def Draft.boostRelease (unit : Nat) : Draft := ⟨unit, Kind.boostRelease, 0, []⟩

/-- A GOV-REPLY packet answering the command with this tag (R167). -/
def Draft.reply (tag : Nat) (payload : List Word) : Draft := ⟨0, Kind.reply, tag, payload⟩

/-- A GOV-NOTICE packet: flag word and announced word (R179, section 9.8). -/
def Draft.notice (flags announced : Word) : Draft := ⟨0, Kind.notice, 0, [flags, announced]⟩

end Sys2Proof.Machine
end

