-- ==== Sys2Proof/Machine/Banks.lean ====
section
/-! DEFINITION. The addressed memory of the part: the two policy banks as canonical lists of words (R123, R124),
reading, writing, and the image a copy leaves (R142). -/

namespace Sys2Proof.Machine

/-- The number of words of a bank (R123). -/
def bankSize : Nat := 4096

/-- The word at an offset; an unlisted offset holds 0 (R123: every word 0 after reset). -/
def readCells : List (Nat × Word) → Nat → Word
  | [], _ => 0
  | (k, w) :: rest, a => if k = a then w else readCells rest a

/-- A word put into the list, which stays in rising order and lists no word 0. -/
def writeCells : List (Nat × Word) → Nat → Word → List (Nat × Word)
  | [], a, w => if w = 0 then [] else [(a, w)]
  | (k, v) :: rest, a, w =>
    if a < k then (if w = 0 then (k, v) :: rest else (a, w) :: (k, v) :: rest)
    else if a = k then (if w = 0 then rest else (a, w) :: rest)
    else (k, v) :: writeCells rest a w

/-- The cells rise strictly from `lo` on, lie below the bank's size, and none is 0. -/
def cellsOk : Nat → List (Nat × Word) → Bool
  | _, [] => true
  | lo, (k, w) :: rest => decide (lo ≤ k) && decide (k < bankSize) && w != 0 && cellsOk (k + 1) rest

/-- The canonical form of a bank (log 15). -/
def Bank.wf (b : Bank) : Bool := cellsOk 0 b.cells

/-- A bank with every word 0. -/
def Bank.zero : Bank := ⟨[]⟩

/-- The word at an offset. -/
def Bank.read (b : Bank) (a : Nat) : Word := readCells b.cells a

/-- One word written. -/
def Bank.write (b : Bank) (a : Nat) (w : Word) : Bank := ⟨writeCells b.cells a w⟩

/-- Words written from an offset onward (R135). -/
def Bank.writeAll (b : Bank) : Nat → List Word → Bank
  | _, [] => b
  | a, w :: ws => (b.write a w).writeAll (a + 1) ws

/-- The words from an offset onward (R134). -/
def Bank.readMany (b : Bank) (a n : Nat) : List Word := (List.range n).map fun i => b.read (a + i)

/-- The destination of a copy when the first `n` words have been copied: the source's words below `n`, the words it held
before at and above `n` (R142). -/
def Bank.splice (src dst : Bank) (n : Nat) : Bank :=
  ⟨src.cells.filter (fun c => c.1 < n) ++ dst.cells.filter (fun c => n ≤ c.1)⟩

/-- A field read as an unsigned integer (R124). -/
def Bank.nat (b : Bank) (a : Nat) : Nat := (b.read a).toNat

/-- A field read as an unsigned integer, as an exact number (R124). -/
def Bank.uint (b : Bank) (a : Nat) : Int := ((b.read a).toNat : Int)

/-- A power code or temperature code, read signed (R124). -/
def Bank.sint (b : Bank) (a : Nat) : Int := (b.read a).toInt

/-- The other bank. -/
def BankId.other : BankId → BankId
  | .bank0 => .bank1
  | .bank1 => .bank0

/-- A bank's number as READ-STATUS reports it (section 9.8). -/
def BankId.number : BankId → Nat
  | .bank0 => 0
  | .bank1 => 1

/-- The contents of a bank. -/
def Tables.bank (t : Tables) : BankId → Bank
  | .bank0 => t.bank0
  | .bank1 => t.bank1

/-- The contents of a bank replaced. -/
def Tables.setBank (t : Tables) (i : BankId) (b : Bank) : Tables :=
  match i with
  | .bank0 => { t with bank0 := b }
  | .bank1 => { t with bank1 := b }

/-- The validation mark of a bank. -/
def Tables.mark (t : Tables) : BankId → Bool
  | .bank0 => t.mark0
  | .bank1 => t.mark1

/-- The validation mark of a bank set or cleared. -/
def Tables.setMark (t : Tables) (i : BankId) (m : Bool) : Tables :=
  match i with
  | .bank0 => { t with mark0 := m }
  | .bank1 => { t with mark1 := m }

/-- R130: the bank in force for a frame of the window, if one is. -/
def Tables.inForce (t : Tables) : Slot → Option Bank
  | .current => t.active.map t.bank
  | .next =>
    match t.pending with
    | some (b, 1) => some (t.bank b)
    | _ => t.active.map t.bank

end Sys2Proof.Machine
end

