-- ==== Sys2Proof/Machine/Curves.lean ====
section
/-! DEFINITION. Curve arithmetic: evaluation rounding up (R3), supply curve rounding down (R45), the fitting
inverse (R5). -/

namespace Sys2Proof.Machine

/-- Division rounding toward plus infinity (00_scope, "Arithmetic"); the divisor is positive where it is used. -/
def ceilDiv (a b : Int) : Int := -((-a) / b)

/-- R3 on a code that is not mute: the first breakpoint's value at or below it, the last one's at or above it, and between
two breakpoints the straight line rounded up. -/
def curveUp : List (Int × Int) → Int → Int
  | [], _ => 0
  | [(_, v)], _ => v
  | (p0, v0) :: (p1, v1) :: rest, x =>
    if x ≤ p0 then v0
    else if x < p1 then v0 + ceilDiv ((v1 - v0) * (x - p0)) (p1 - p0)
    else curveUp ((p1, v1) :: rest) x

/-- R3: a curve at a power code; 0 at the mute code. -/
def evalCurve (pts : List (Int × Int)) (code : Int) : Int :=
  if code = muteCode then 0 else curveUp pts code

/-- R45: the supply curve at a voltage, the straight line rounded down. -/
def curveDown : List (Int × Int) → Int → Int
  | [], _ => 0
  | [(_, v)], _ => v
  | (p0, v0) :: (p1, v1) :: rest, x =>
    if x ≤ p0 then v0
    else if x < p1 then v0 + (v1 - v0) * (x - p0) / (p1 - p0)
    else curveDown ((p1, v1) :: rest) x

/-- The largest code among `lo`, ..., `lo + n` at which the curve is at most `h`. -/
def fitDown (f : Int → Int) (h lo : Int) : Nat → Option Int
  | 0 => if f lo ≤ h then some lo else none
  | n + 1 => if f (lo + (n + 1 : Nat)) ≤ h then some (lo + (n + 1 : Nat)) else fitDown f h lo n

/-- R5: the largest code from `lo` to `hi` at which the curve is at most `h`, or none. -/
def fitInverse (f : Int → Int) (h lo hi : Int) : Option Int :=
  if lo ≤ hi then fitDown f h lo (hi - lo).toNat else none

end Sys2Proof.Machine
end

