-- ==== Sys2Proof/Machine/Records.lean ====
section
/-! DEFINITION. The directory of a bank and the records of its seven tables (R125 to R129), the band search (R6). -/

namespace Sys2Proof.Machine

/-! The table kinds (R125). -/

namespace Table
def limits : Nat := 1
def zones : Nat := 2
def coupling : Nat := 3
def bands : Nat := 4
def curves : Nat := 5
def modClass : Nat := 6
def supply : Nat := 7
end Table

/-- The words of one record of each kind (R125). -/
def recordWords (kind : Nat) : Nat :=
  match kind with
  | 1 => 21
  | 2 => 18
  | 3 => 1
  | 4 => 5
  | 5 => 16
  | 6 => 1
  | 7 => 18
  | _ => 0

/-- The count is one R125 gives for the kind. -/
def countOk (kind count : Nat) : Bool :=
  match kind with
  | 1 => count == 1
  | 2 => count == 4
  | 3 => count == 16
  | 4 => 1 ≤ count && count ≤ 128
  | 5 => 1 ≤ count && count ≤ 64
  | 6 => count == 8
  | 7 => count == 1
  | _ => false

/-- A directory entry with its number (R125). -/
structure DirEntry where
  index : Nat
  kind : Nat
  base : Nat
  count : Nat
deriving DecidableEq, Repr

/-- The number of words of the entry's region (R125). -/
def DirEntry.size (e : DirEntry) : Nat := recordWords e.kind * e.count

/-- Directory entry `i`: words 3i, 3i + 1 and 3i + 2 (R125). -/
def Bank.dirEntry (b : Bank) (i : Nat) : DirEntry := ⟨i, b.nat (3 * i), b.nat (3 * i + 1), b.nat (3 * i + 2)⟩

/-- The sixteen entries. -/
def Bank.directory (b : Bank) : List DirEntry := (List.range 16).map b.dirEntry

/-- The entry of a table. In a bank that passed validation each kind has exactly one (R131); a bank without one is
never in force (Law 8, log 16). -/
def Bank.tableEntry (b : Bank) (kind : Nat) : DirEntry :=
  (b.directory.find? fun e => e.kind == kind).getD ⟨16, kind, 0, 0⟩

/-- The offset of record `k` of a table (R125). -/
def Bank.record (b : Bank) (kind k : Nat) : Nat := (b.tableEntry kind).base + recordWords kind * k

/-- The number of records of a table. -/
def Bank.count (b : Bank) (kind : Nat) : Nat := (b.tableEntry kind).count

/-- The LIMITS record (R126). -/
structure Limits where
  safeCeiling : Int
  lateCeiling : Int
  boostThreshold : Int
  boostWait : Nat
  boostRelease : Nat
  boostCooldown : Nat
  commitLead : Nat
  amendLead : Nat
  tripStep : Int
  tripDecay : Int
  barFrames : Nat
  markTolerance : Nat
  holdoverLimit : Nat
  safeExit : Nat
  pollWait : Nat
  senseTag : Nat
  supplyTag : Nat
  fallback : Four Nat
deriving DecidableEq, Repr

/-- The LIMITS record of a bank (R126). -/
def Bank.limits (b : Bank) : Limits :=
  let a := b.record Table.limits 0
  { safeCeiling := b.sint a
    lateCeiling := b.sint (a + 1)
    boostThreshold := b.sint (a + 2)
    boostWait := b.nat (a + 3)
    boostRelease := b.nat (a + 4)
    boostCooldown := b.nat (a + 5)
    commitLead := b.nat (a + 6)
    amendLead := b.nat (a + 7)
    tripStep := b.uint (a + 8)
    tripDecay := b.uint (a + 9)
    barFrames := b.nat (a + 10)
    markTolerance := b.nat (a + 11)
    holdoverLimit := b.nat (a + 12)
    safeExit := b.nat (a + 13)
    pollWait := b.nat (a + 14)
    senseTag := b.nat (a + 15)
    supplyTag := b.nat (a + 16)
    fallback := Four.of fun p => b.nat (a + 17 + p.val) }

/-- A ZONES record (R127). -/
structure ZoneRec where
  ambient : Int
  scale : Int
  leak : Int
  rebaseGap : Int
  seedAssumption : Int
  fall : Int
  settleLow : Int
  settleHigh : Int
  rise : Int
  surge : Int
  critical : Int
  climbStep : Int
  surgeStep : Int
  easeStep : Int
  maxBackoff : Int
  dwell : Nat
  staleFrames : Nat
  blindMargin : Int
deriving DecidableEq, Repr

/-- The ZONES record that begins at an offset (R127). -/
def Bank.zoneAt (b : Bank) (a : Nat) : ZoneRec :=
  { ambient := b.sint a
    scale := b.uint (a + 1)
    leak := b.uint (a + 2)
    rebaseGap := b.uint (a + 3)
    seedAssumption := b.sint (a + 4)
    fall := b.sint (a + 5)
    settleLow := b.sint (a + 6)
    settleHigh := b.sint (a + 7)
    rise := b.sint (a + 8)
    surge := b.sint (a + 9)
    critical := b.sint (a + 10)
    climbStep := b.uint (a + 11)
    surgeStep := b.uint (a + 12)
    easeStep := b.uint (a + 13)
    maxBackoff := b.uint (a + 14)
    dwell := b.nat (a + 15)
    staleFrames := b.nat (a + 16)
    blindMargin := b.uint (a + 17) }

/-- The ZONES record of a zone (R127). -/
def Bank.zone (b : Bank) (z : Fin 4) : ZoneRec := b.zoneAt (b.record Table.zones z.val)

/-- The COUPLING word of a path and zone (R125, R129). -/
def Bank.couplingWord (b : Bank) (p z : Fin 4) : Nat := b.nat (b.record Table.coupling (4 * p.val + z.val))

/-- The heat coupling: the remainder of the word on division by 512 (R129). -/
def Bank.coupling (b : Bank) (p z : Fin 4) : Int := ((b.couplingWord p z % 512 : Nat) : Int)

/-- The back-off weight: the quotient (R129). -/
def Bank.weight (b : Bank) (p z : Fin 4) : Int := ((b.couplingWord p z / 512 : Nat) : Int)

/-- The modulation back-off of a class (R7, R129). -/
def Bank.modBackoff (b : Bank) (m : Nat) : Int := b.uint (b.record Table.modClass m)

/-- Eight breakpoints of two words each from an offset on; `x` reads the first word of each. -/
def Bank.points (b : Bank) (x : Nat → Int) (a : Nat) : List (Int × Int) :=
  (List.range 8).map fun i => (x (a + 2 * i), b.uint (a + 2 * i + 1))

/-- The breakpoints of a curve (R128). -/
def Bank.curve (b : Bank) (k : Nat) : List (Int × Int) := b.points b.sint (b.record Table.curves k)

/-- The breakpoints of the supply curve (R129, R45). -/
def Bank.supplyPoints (b : Bank) : List (Int × Int) := b.points b.uint (b.record Table.supply 0)

/-- The supply stale frames (R129). -/
def Bank.supplyStale (b : Bank) : Nat := b.nat (b.record Table.supply 0 + 16)

/-- The supply floor ceiling (R129). -/
def Bank.supplyFloor (b : Bank) : Int := b.uint (b.record Table.supply 0 + 17)

/-- A BANDS record (R128). -/
structure BandRec where
  band : Nat
  rated : Int
  floor : Int
  assured : Int
  dissCurve : Nat
  curCurve : Nat
deriving DecidableEq, Repr

/-- The BANDS record that begins at an offset (R128). -/
def Bank.bandAt (b : Bank) (a : Nat) : BandRec :=
  { band := b.nat a % 32
    rated := b.sint (a + 1)
    floor := b.sint (a + 2)
    assured := b.sint (a + 3)
    dissCurve := b.nat (a + 4) / 64
    curCurve := b.nat (a + 4) % 64 }

/-- The record of a path and band, if BANDS holds one (R6, R128). -/
def Bank.findBand (b : Bank) (path : Fin 4) (band : Nat) : Option BandRec :=
  ((List.range (b.count Table.bands)).find? fun k =>
    b.nat (b.record Table.bands k) == path.val * 32 + band).map fun k => b.bandAt (b.record Table.bands k)

/-- R6: the record of the path and band, or else that of the path and its fallback band, which validation guarantees. -/
def Bank.resolveBand (b : Bank) (path : Fin 4) (band : Nat) : BandRec :=
  (b.findBand path band).getD
    ((b.findBand path (b.limits.fallback.get path)).getD (b.bandAt (b.record Table.bands 0)))

/-- R4: the supply current of a band at a power code. -/
def Bank.current (b : Bank) (r : BandRec) (code : Int) : Int := evalCurve (b.curve r.curCurve) code

/-- R4: the dissipation of a band at a power code. -/
def Bank.dissipation (b : Bank) (r : BandRec) (code : Int) : Int := evalCurve (b.curve r.dissCurve) code

/-- The bank in force for a frame of the window. While the mode is not UNSET there is one; without one every word
reads 0 (log 16). -/
def State.bankFor (s : State) (slot : Slot) : Bank := (s.tables.inForce slot).getD Bank.zero

/-- The LIMITS record in force for the current frame. -/
def State.limits (s : State) : Limits := (s.bankFor .current).limits

end Sys2Proof.Machine
end

