-- ==== Sys2Proof/Machine/Ops.lean ====
section
/-! DEFINITION. The shared operations over the queues and buffers of the link, the Supply Map, the Burst Schedule,
the heat accumulators and the Command Engine. -/

namespace Sys2Proof.Machine

/-! ### Running a command -/

/-- A command's effect while RESET_N is high. While it is low no packet is received or sent, no grain is counted and no
mark is taken (R110, R160): nothing happens (log 19). -/
def State.live (s : State) (f : State → State) : Out State :=
  .next (if s.pins.resetN then f s else s)

/-! ### Pass Buffers and hold states (R151, R154) -/

/-- The places of a Pass Buffer (R151). -/
def passCapacity : Nat := 16

/-- The hold state after a change of a Pass Buffer's count (R154). -/
def holdAfter (count : Nat) (hold : Bool) : Bool :=
  if 12 ≤ count then true else if count ≤ 8 then false else hold

/-- A packet enters the downstream Pass Buffer at its tail. -/
def Link.enterDown (l : Link) (p : Packet) (ready : Bool) : Link :=
  { l with down := l.down ++ [⟨p, ready⟩], downHold := holdAfter (l.down.length + 1) l.downHold }

/-- A packet enters the upstream Pass Buffer at its tail. -/
def Link.enterUp (l : Link) (p : Packet) : Link :=
  { l with up := l.up ++ [p], upHold := holdAfter (l.up.length + 1) l.upHold }

/-- A packet enters the Pass Buffer of its direction; `ready` concerns the downstream one (R152). -/
def Link.enter (l : Link) (port : Port) (p : Packet) (ready : Bool) : Link :=
  match port with
  | .modem => l.enterDown p ready
  | .frontEnd => l.enterUp p

/-- The Pass Buffer that packets arriving at a port enter is full (R151). -/
def Link.full (l : Link) (port : Port) : Bool :=
  match port with
  | .modem => passCapacity ≤ l.down.length
  | .frontEnd => passCapacity ≤ l.up.length

/-- A packet classified to pass enters its Pass Buffer and `taken` is done with it, or it is dropped with OVERRUN and no
block takes it (R151). -/
def State.pass (s : State) (port : Port) (p : Packet) (ready : Bool) (taken : State → State) : State :=
  if s.link.full port then s.raise .overrun
  else taken { s with link := s.link.enter port p ready }

/-- The order that is taken next: the first packet of the downstream Pass Buffer that is not ready (R20, R152). -/
def Link.nextOrder (l : Link) : Option Packet := (l.down.find? fun e => !e.ready).map (·.packet)

/-- The first packet that is not ready rewritten and made ready. -/
def finishFirst (f : Packet → Packet) : List PassEntry → List PassEntry
  | [] => []
  | e :: rest => if e.ready then e :: finishFirst f rest else ⟨f e.packet, true⟩ :: rest

/-- The handling of the order taken is complete: its packet, rewritten in its place, becomes ready (R19, R152, R153). -/
def Link.finishOrder (l : Link) (f : Packet → Packet) : Link := { l with down := finishFirst f l.down }

/-- The granted code is written into the packet of the order taken (R19). -/
def State.writePower (s : State) (code : Int) : State :=
  { s with link := s.link.finishOrder (·.setPower code) }

/-! ### Originated Queue (R156) -/

/-- The places of the Originated Queue. -/
def origCapacity : Nat := 12

/-- The claimed slots: one for each entry still on the list of a request in progress (R57, R156, log 17). -/
def Headroom.claimed (h : Headroom) : Nat := (h.requests.map fun r => r.items.length).sum

/-- The free slots: 12 less the packets held less the slots claimed (R156). -/
def State.freeSlots (s : State) : Nat := origCapacity - s.link.orig.length - s.supply.claimed

/-- A packet joins the Originated Queue at the tail. -/
def Link.place (l : Link) (d : Draft) : Link := { l with orig := l.orig ++ [d] }

/-- Packets join the Originated Queue at the tail, in order. -/
def Link.placeAll (l : Link) (ds : List Draft) : Link := { l with orig := l.orig ++ ds }

/-! ### Supply Map (R47 to R49) -/

/-- The row a schedule span begins at: the next slot's rows follow the current slot's 80 (R47). -/
def rowBase : Slot → Nat
  | .current => 0
  | .next => 80

/-- The first row of an entry's span, which is also its absolute start (R47, R51). -/
def Entry.row (e : Entry) : Nat := rowBase e.slot + e.start

/-- The rows of a span. -/
def spanRows (lo len : Nat) : List Nat := (List.range len).map (lo + ·)

/-- The reservation of a row. -/
def rowOf (m : List Int) (g : Nat) : Int := m.getD g 0

/-- A difference added to each row of a span. -/
def addRows (m : List Int) (lo len : Nat) (d : Int) : List Int :=
  m.mapIdx fun g x => if lo ≤ g ∧ g < lo + len then x + d else x

/-- R49: rows 80 to 159 move into rows 0 to 79, and the new next rows are 0. -/
def shiftRows (m : List Int) : List Int := m.drop 80 ++ List.replicate 80 0

/-- The least of a list of headrooms. -/
def leastOf : List Int → Int
  | [] => 0
  | [x] => x
  | x :: y :: rest => min x (leastOf (y :: rest))

/-- The Supply Map with a difference added over a span. -/
def Headroom.addSpan (h : Headroom) (lo len : Nat) (d : Int) : Headroom := { h with map := addRows h.map lo len d }

/-! ### Burst Schedule (chapter 2) -/

/-- The places of the Burst Schedule (R24). -/
def scheduleCapacity : Nat := 32

/-- Two spans share a grain of the same frame (R23, R51). -/
def spansMeet (lo len lo' len' : Nat) : Bool := lo < lo' + len' && lo' < lo + len

/-- R35: the entry a WITHDRAW, REVISE or received AMEND names: the one of highest rank with its tag and path. -/
def Schedule.find (c : Schedule) (tag : Nat) (path : Fin 4) : Option Entry :=
  c.entries.reverse.find? fun e => e.tag == tag && e.path == path

/-- The entry with a serial. -/
def Schedule.bySerial (c : Schedule) (n : Nat) : Option Entry := c.entries.find? fun e => e.serial == n

/-- Entries leave the list; those behind move up (R29). -/
def Schedule.remove (c : Schedule) (gone : Entry → Bool) : Schedule :=
  { c with entries := c.entries.filter fun e => !gone e }

/-- The entry with a serial changed in its place. -/
def Schedule.update (c : Schedule) (n : Nat) (f : Entry → Entry) : Schedule :=
  { c with entries := c.entries.map fun e => if e.serial = n then f e else e }

/-- A BOOKED entry freed: its reserved current is subtracted from each row of its span and no heat is charged
(R36, R48). -/
def State.freeEntry (s : State) (e : Entry) : State :=
  { s with
    sched := s.sched.remove fun x => x.serial == e.serial
    supply := s.supply.addSpan e.row e.length (-e.reserved) }

/-- R30: an entry's granted power lowered: reserved current and dissipation rate are evaluated again at the new code with
the curves of its band, in the bank in force for its frame (R34), and the Supply Map follows. `reason` and `amends` are
given by the caller's rule. -/
def Entry.lowered (e : Entry) (b : Bank) (code : Int) (reason : Reason) (amends : Nat) : Entry :=
  { e with
    granted := code
    reserved := b.current (b.resolveBand e.path e.band) code
    dissipation := b.dissipation (b.resolveBand e.path e.band) code
    reason := reason
    amends := amends }

/-- The entry of that serial replaced by its lowered form, and the Supply Map rows of its span adjusted by the difference
of the reserved currents (R30, R48). -/
def State.replaceEntry (s : State) (e e' : Entry) : State :=
  { s with
    sched := s.sched.update e.serial fun _ => e'
    supply := s.supply.addSpan e.row e.length (e'.reserved - e.reserved) }

/-- R41: an amendment made at one entry: the new code, reason AMENDED, the amend count up by 1 to at most 255; and the
AMEND packet that announces it is placed in the Originated Queue (R55, R57). -/
def State.amendEntry (s : State) (e : Entry) (code : Int) : State :=
  let e' := e.lowered (s.bankFor e.slot) code .amended (min 255 (e.amends + 1))
  { s.replaceEntry e e' with link := s.link.place (Draft.amend e.tag e.path code) }

/-! ### Heat accumulators (R70) -/

/-- The upper end of an account or accumulator (R2). -/
def heatMax : Int := 2147483647

/-- A charge added to a path's frame heat accumulator, saturating (R70). -/
def Heat.charge (h : Heat) (path : Fin 4) (amount : Int) : Heat :=
  { h with acc := h.acc.set path (min heatMax (h.acc.get path + amount)) }

/-- The heat of an entry at its close: dissipation rate times its full length (R32). -/
def Entry.heat (e : Entry) : Int := e.dissipation * (e.length : Int)

/-- The entries that close are charged in booking order and freed (R32, R33). Their reservations stay in the map (R48). -/
def State.closeEntries (s : State) (closes : Entry → Bool) : State :=
  { s with
    heat := (s.sched.entries.filter closes).foldl (fun h e => h.charge e.path e.heat) s.heat
    sched := s.sched.remove closes }

/-- The BOOKED entries of the current slot that have reached their commit grain become COMMITTED (R31, R33). -/
def Schedule.commitUpTo (c : Schedule) (lead g : Nat) : Schedule :=
  { c with entries := c.entries.map fun e =>
      if e.slot = .current ∧ e.state = .booked ∧ e.start ≤ g + lead then { e with state := .committed } else e }

/-- R33 step 3: next-slot entries are relabelled to the current slot. -/
def Schedule.relabel (c : Schedule) : Schedule :=
  { c with entries := c.entries.map fun e => { e with slot := .current } }

/-! ### Command Engine (chapter 9) -/

/-- The places of the Command Queue and of the Reply Queue (R163). -/
def engineCapacity : Nat := 8

/-- A copy whose words are all copied waits for a place in the Reply Queue (R143). -/
def Tables.copyWaiting (t : Tables) : Bool :=
  match t.copy with
  | some c => c.progress == bankSize
  | none => false

/-- The Reply Queue has a place for the command in execution; a completing copy is given the first free place (R167). -/
def State.replyRoom (s : State) : Bool := s.engine.replies.length < engineCapacity && !s.tables.copyWaiting

/-- The command in execution is answered: its reply joins the Reply Queue and the engine is free (R165, R167). -/
def State.answer (s : State) (p : Packet) (payload : List Word) : State :=
  { s with engine :=
      { s.engine with
        current := none
        replies := s.engine.replies ++ [Draft.reply p.aux payload] } }

/-- A status word: command code in bits 15 to 8, status code in bits 7 to 0 (section 9.8). -/
def statusWord (code status : Nat) : Word := natWord (code * 256 + status)

end Sys2Proof.Machine

/-! The status codes of a reply (section 9.8). -/

namespace Sys2Proof.Machine.Status

def done : Nat := 0x00
def discarded : Nat := 0x01
def pending : Nat := 0x02
def busy : Nat := 0x03
def range : Nat := 0x04
def invalid : Nat := 0x05
def noBank : Nat := 0x06
def unknown : Nat := 0x07
def late : Nat := 0x08
def nothing : Nat := 0x09

end Sys2Proof.Machine.Status
end

