-- ==== Sys2Proof/Machine/Arbiters.lean ====
section
/-! DEFINITION. The two arbiters: DOWNSTREAM_GRANT (R155, R158) and UPSTREAM_GRANT (R155, R159). -/

namespace Sys2Proof.Machine

/-! ### Downstream -/

/-- The pass source is ready: there is a packet at the head of the downstream Pass Buffer and it is ready (R152). -/
def Link.passReady (l : Link) : Bool :=
  match l.down with
  | e :: _ => e.ready
  | [] => false

/-- The pass source granted: the head leaves, the hold state is tested, the run count becomes 0 (R154, R158). -/
def Link.grantPass (l : Link) : Link :=
  match l.down with
  | e :: rest =>
    { l with
      down := rest
      downHold := holdAfter rest.length l.downHold
      run := 0
      feOut := some e.packet }
  | [] => l

/-- The Originated Queue granted: its head leaves with its check word computed now, and the run count rises (R157, R158). -/
def Link.grantOriginated (l : Link) : Link :=
  match l.orig with
  | d :: rest =>
    { l with
      orig := rest
      run := min 2 (l.run + 1)
      feOut := some d.seal }
  | [] => l

/-- R158: the first case that applies. -/
def Link.grantDown (l : Link) : Link :=
  if l.run = 2 ∧ l.passReady then l.grantPass
  else if l.orig ≠ [] then l.grantOriginated
  else if l.passReady then l.grantPass
  else l

/-- DOWNSTREAM_GRANT: FE_HOLD_IN is sampled, and where it is released a grant is made (R155, R158). -/
def execDownstreamGrant (hold : Bool) (s : State) : Out State :=
  s.live fun s =>
    { s with
      pins := { s.pins with feHoldIn := hold }
      link := if hold then s.link else s.link.grantDown }

/-! ### Upstream -/

/-- The source holds a packet. -/
def State.hasUp (s : State) : UpSource → Bool
  | .pass => !s.link.up.isEmpty
  | .reply => !s.engine.replies.isEmpty
  | .notice => s.events.notice.isSome

/-- The three sources in the order of the cycle that begins after one of them (R159). -/
def UpSource.after : UpSource → List UpSource
  | .pass => [.reply, .notice, .pass]
  | .reply => [.notice, .pass, .reply]
  | .notice => [.pass, .reply, .notice]

/-- R159: the source granted, if any holds a packet. -/
def State.upChoice (s : State) : Option UpSource := s.link.last.after.find? s.hasUp

/-- The head of the upstream Pass Buffer leaves, and the hold state is tested (R154, R159). -/
def Link.grantUpPass (l : Link) : Link :=
  match l.up with
  | p :: rest =>
    { l with
      up := rest
      upHold := holdAfter rest.length l.upHold
      last := .pass
      mdOut := some p }
  | [] => l

/-- A packet of the governor begins its transmission at the Modem Port (R157, R159). -/
def Link.sendUp (l : Link) (from_ : UpSource) (d : Draft) : Link := { l with last := from_, mdOut := some d.seal }

/-- R159: the chosen source granted. A reply's place, or the notice slot, is free from that moment (R167, R180). -/
def State.grantUp (s : State) : UpSource → State
  | .pass => { s with link := s.link.grantUpPass }
  | .reply =>
    match s.engine.replies with
    | d :: rest => { s with link := s.link.sendUp .reply d, engine := { s.engine with replies := rest } }
    | [] => s
  | .notice =>
    match s.events.notice with
    | some announced =>
      { s with
        link := s.link.sendUp .notice (Draft.notice s.events.flags announced)
        events := { s.events with notice := none } }
    | none => s

/-- R159: the grant, if there is one to make. -/
def State.grantNextUp (s : State) : State :=
  match s.upChoice with
  | some c => s.grantUp c
  | none => s

/-- UPSTREAM_GRANT: MD_HOLD_IN is sampled, and where it is released a grant is made (R155, R159). -/
def execUpstreamGrant (hold : Bool) (s : State) : Out State :=
  s.live fun s =>
    let t := { s with pins := { s.pins with mdHoldIn := hold } }
    if hold then t else t.grantNextUp

end Sys2Proof.Machine
end

