-- ==== Sys2Proof/Machine/Boost.lean ====
section
/-! DEFINITION. The Boost Controller (R62 to R69). Its packets go to the supply unit tag of the LIMITS record in force
for the current frame when they are placed. -/

namespace Sys2Proof.Machine

/-- A BOOST-REQUEST queued: REQUESTED, the wait timer started at boost wait (R63, R68). -/
def Boost.requested (b : Boost) (wait : Nat) : Boost := { b with state := .requested, wait := some wait }

/-- R63: a boost demand handed over by an admission. -/
def State.boostDemand (s : State) : State :=
  if s.boost.state = .off ∧ s.boost.requestDue = false then
    if s.boost.releaseDue = false ∧ 0 < s.freeSlots then
      { s with
        boost := s.boost.requested s.limits.boostWait
        link := s.link.place (Draft.boostRequest s.limits.supplyTag) }
    else { s with boost := { s.boost with requestDue := true } }
  else s

/-- R64: a grant above BT of an admission computed in full, while READY. -/
def Boost.noteGrant (b : Boost) (above : Bool) : Boost :=
  if above && b.state == .ready then { b with quiet := 0, boosted := true } else b

/-- A release queued now if the Originated Queue has a free slot, else the release-due marker set (R65, R69). `left` is the
release-due marker after a release has been queued. -/
def State.releaseNow (s : State) (left : Bool) : State :=
  if 0 < s.freeSlots then
    { s with
      boost := { s.boost with releaseDue := left }
      link := s.link.place (Draft.boostRelease s.limits.supplyTag) }
  else { s with boost := { s.boost with releaseDue := true } }

/-- R65: a BOOST-READY addressed to the governor. In UNSET it has no effect. The release that answers a late
readiness answers every release that is due, so the marker is clear once it is queued (R68). -/
def State.takeReady (s : State) : State :=
  if s.timer.mode = .unset then s
  else
    match s.boost.state with
    | .requested => { s with boost := { s.boost with state := .ready, wait := none, quiet := 0 } }
    | .ready => s
    | .off => s.releaseNow false
    | .failed => s.releaseNow false

/-- The wait timer is at its expiry: this grain event brings it to 0 (R66). -/
def Boost.expires (b : Boost) : Bool :=
  b.state == .requested && (match b.wait with
    | some n => n ≤ 1
    | none => false)

/-- R66: the wait timer falls by 1 at a grain event, the frame turn included; at 0 the controller becomes FAILED. -/
def Boost.tick (b : Boost) (cooldown : Nat) : Boost :=
  if b.expires then { b with state := .failed, wait := none, cooldown := cooldown }
  else if b.state = .requested then { b with wait := b.wait.map (· - 1) }
  else b

/-- R66 for the part: the timer falls and an expiry sets BOOST_FAIL. -/
def State.boostTick (s : State) : State :=
  { s with
    boost := s.boost.tick s.limits.boostCooldown
    events := s.events.raiseIf s.boost.expires .boostFail }

/-- R67: the quiet count at a turn in READY. -/
def Boost.countQuiet (b : Boost) (release : Nat) : Boost :=
  if b.boosted then { b with quiet := 0 } else { b with quiet := min release (b.quiet + 1) }

/-- R67: the action of a turn by the state before it; a controller in REQUESTED does nothing beyond its timer's grain event
(log 8). The boosted-frame marker is then cleared. -/
def Boost.turn (b : Boost) (release : Nat) : Boost :=
  let b' := match b.state with
    | .ready => b.countQuiet release
    | .failed =>
      if b.cooldown ≤ 1 then { b with cooldown := 0, state := .off } else { b with cooldown := b.cooldown - 1 }
    | .off => b
    | .requested => b
  { b' with boosted := false }

/-- R67: after the count, a release is due from the quiet count of a READY controller whose last frame held no boosted
grant. `boosted` is the marker before the turn. A release that a full queue deferred is due again where this test, made anew
with the boost release now in force, finds it so: after a switch that raises boost release that is the model's choice (log 30). -/
def Boost.quietDue (b : Boost) (boosted : Bool) (release : Nat) : Bool :=
  b.state == .ready && !boosted && release ≤ b.quiet

/-- R68: one BOOST-RELEASE answers every release that is due. -/
def Boost.released (b : Boost) (quiet : Bool) : Boost :=
  { b with
    releaseDue := false
    state := if quiet then .off else b.state
    quiet := if quiet then 0 else b.quiet }

/-- R68: the attempt for a due release. -/
def State.attemptRelease (s : State) (quiet : Bool) : State :=
  if (quiet || s.boost.releaseDue) && decide (0 < s.freeSlots) then
    { s with
      boost := s.boost.released quiet
      link := s.link.place (Draft.boostRelease s.limits.supplyTag) }
  else s

/-- R68: the attempt for a due request; not made while a release is still due. `blocked`: a release from the quiet count
is still due. A request is due only in OFF (R63). -/
def State.attemptRequest (s : State) (blocked : Bool) : State :=
  if s.boost.requestDue && s.boost.state == .off && !blocked && !s.boost.releaseDue && decide (0 < s.freeSlots) then
    { s with
      boost := { s.boost.requested s.limits.boostWait with requestDue := false }
      link := s.link.place (Draft.boostRequest s.limits.supplyTag) }
  else s

/-- R67 at a frame turn: the count by state and, for a controller that was REQUESTED, its timer's grain event. -/
def State.boostCount (s : State) : State :=
  if s.boost.state = .requested then { s.boostTick with boost := { s.boostTick.boost with boosted := false } }
  else { s with boost := s.boost.turn s.limits.boostRelease }

/-- R67: the turn finds a release due from the quiet count. -/
def State.quietReleaseDue (s : State) : Bool :=
  s.boost.state == .ready && s.boostCount.boost.quietDue s.boost.boosted s.limits.boostRelease

/-- R68 at a frame turn: one attempt for each due packet, a release first. -/
def State.attemptDue (s : State) (quiet : Bool) : State :=
  (s.attemptRelease quiet).attemptRequest ((s.attemptRelease quiet).boost.state == .ready && quiet)

/-- R67 and R68 at a frame turn. -/
def State.boostTurn (s : State) : State := s.boostCount.attemptDue s.quietReleaseDue

/-- R69: the Boost Controller's part of SOFT-RESET, made after the POLL packets have left the Originated Queue. A marker
already set is kept (log 9). -/
def State.boostSoftReset (s : State) : State :=
  let running := s.boost.state == .requested || s.boost.state == .ready
  let off := { s with boost :=
    { s.boost with state := .off, wait := none, quiet := 0, cooldown := 0, boosted := false, requestDue := false } }
  if running then off.releaseNow s.boost.releaseDue else off

end Sys2Proof.Machine
end

