-- ==== Sys2Proof/Machine/Ceiling.lean ====
section
/-! DEFINITION. The ceiling arithmetic of an admission: headroom term, ceiling, first grant, lower bound, boost demand
and limit reason (R7 to R14), and the working record (R18). -/

namespace Sys2Proof.Machine

/-- A burst order, or an entry that a REVISE computes again, as the Admission Unit handles it (R18, R20, R21, R37). -/
structure Order where
  tag : Nat
  path : Fin 4
  band : Nat
  cls : Nat
  modClass : Nat
  slot : Slot
  start : Nat
  length : Nat
  request : Int
  late : Bool
deriving DecidableEq, Repr

/-- The values one ceiling is formed from (R8): the band record and table values, the back-offs, cap and protection state
of the path, and which of the boost, safe and late terms apply (R10). -/
structure CeilingTerms where
  rated : Int
  floor : Int
  assured : Int
  modBackoff : Int
  thermal : Int
  trip : Int
  cap : Option Int
  boostApplies : Bool
  boostThreshold : Int
  safeApplies : Bool
  safeCeiling : Int
  lateApplies : Bool
  lateCeiling : Int
  isAssured : Bool
  barred : Bool
deriving DecidableEq, Repr

/-- R9: the headroom term H. -/
def CeilingTerms.headroom (t : CeilingTerms) : Int := t.rated - t.modBackoff - t.thermal - t.trip

/-- R14 step 1: the reason H carries. -/
def CeilingTerms.headroomReason (t : CeilingTerms) : Reason :=
  if 0 < t.trip then .trip else if 0 < t.thermal then .thermal else .rating

/-- A ceiling and its reason met by a further term: the lesser stands, and a tie keeps the earlier reason (R10, R14). -/
def lesser (c : Int × Reason) (v : Int) (r : Reason) : Int × Reason := if v < c.1 then (v, r) else c

/-- R10: H and the four terms that apply, in turn. -/
def CeilingTerms.least (t : CeilingTerms) : Int × Reason :=
  let c := (t.headroom, t.headroomReason)
  let c := match t.cap with
    | some v => lesser c v .cap
    | none => c
  let c := if t.boostApplies then lesser c t.boostThreshold .boost else c
  let c := if t.safeApplies then lesser c t.safeCeiling .safe else c
  if t.lateApplies then lesser c t.lateCeiling .late else c

/-- R11, and steps 3 and 4 of R14: the assured floor, then the bar. -/
def CeilingTerms.ceiling (t : CeilingTerms) : Int × Reason :=
  let c := t.least
  let c := if t.isAssured ∧ c.1 < t.assured then (t.assured, .assured) else c
  if t.barred then (t.floor, .bar) else c

/-- R12: the first grant P1. -/
def CeilingTerms.firstGrant (t : CeilingTerms) (request : Int) : Int :=
  max (min request t.ceiling.1) (min request t.floor)

/-- R12: the lower bound L. -/
def CeilingTerms.lowerBound (t : CeilingTerms) (request : Int) : Int := min (t.firstGrant request) t.floor

/-- R14 step 5: the limit reason. -/
def CeilingTerms.reason (t : CeilingTerms) (request : Int) : Reason :=
  if t.firstGrant request = request then .request
  else if t.firstGrant request = t.ceiling.1 then t.ceiling.2
  else .floor

/-- R13: the order demands boost when its request and its ceiling without the boost term exceed the threshold. -/
def CeilingTerms.demandsBoost (t : CeilingTerms) (request : Int) : Bool :=
  t.boostThreshold < min request { t with boostApplies := false }.ceiling.1

/-- R8: the terms as they stand, for a band record, modulation class and class of a path, in a bank. -/
def State.ceilingTerms (s : State) (b : Bank) (r : BandRec) (path : Fin 4) (modClass cls : Nat) (late : Bool) :
    CeilingTerms :=
  { rated := r.rated
    floor := r.floor
    assured := r.assured
    modBackoff := b.modBackoff modClass
    thermal := (s.path.get path).thermal
    trip := (s.path.get path).trip
    cap := (s.path.get path).cap
    boostApplies := s.boost.state != .ready
    boostThreshold := b.limits.boostThreshold
    safeApplies := s.timer.mode == .safe
    safeCeiling := b.limits.safeCeiling
    lateApplies := late
    lateCeiling := b.limits.lateCeiling
    isAssured := cls == 3
    barred := (s.path.get path).state == .barred }

/-- The working record of the order in hand (R18): made when the order is taken and discarded when its power has been
written, so it lives inside one step (log 25). -/
structure WorkingRecord where
  order : Order
  bank : Bank
  band : BandRec
  terms : CeilingTerms
deriving DecidableEq, Repr

/-- The working record of an order, with the inputs of R8 as they stand. -/
def State.workingRecord (s : State) (o : Order) : WorkingRecord :=
  let b := s.bankFor o.slot
  let r := b.resolveBand o.path o.band
  ⟨o, b, r, s.ceilingTerms b r o.path o.modClass o.cls o.late⟩

/-- P1 of the order in hand. -/
def WorkingRecord.firstGrant (w : WorkingRecord) : Int := w.terms.firstGrant w.order.request

/-- L of the order in hand. -/
def WorkingRecord.lower (w : WorkingRecord) : Int := w.terms.lowerBound w.order.request

/-- I(P) of the order in hand (R4). -/
def WorkingRecord.current (w : WorkingRecord) (code : Int) : Int := w.bank.current w.band code

/-- The first row of the order's span. -/
def WorkingRecord.row (w : WorkingRecord) : Nat := rowBase w.order.slot + w.order.start

/-- R17: the strap ceiling. -/
def strapCeiling (straps : BitVec 2) : Int :=
  if straps = 0 then 48 else if straps = 1 then 96 else if straps = 2 then 144 else 184

end Sys2Proof.Machine
end

