-- ==== Sys2Proof/Machine/Fit.lean ====
section
/-! DEFINITION. The supply fit of an order: headroom, candidates, plan, commitment (R50 to R56), and the amendment
requests of protection and mode (R57 to R61). -/

namespace Sys2Proof.Machine

/-! ### Supply state -/

/-- The report age exceeds the supply stale frames of the bank in force for the current frame (R46). -/
def State.supplyAged (s : State) : Bool :=
  s.timer.mode != .unset && s.supply.reported && (s.bankFor .current).supplyStale < s.supply.age

/-- R46: the supply ceiling from the mode, the report marker, the age and the voltage. -/
def State.supplyCeiling (s : State) : Int :=
  if s.timer.mode = .unset then 0
  else if s.supply.reported = false then (s.bankFor .current).supplyFloor
  else if (s.bankFor .current).supplyStale < s.supply.age then (s.bankFor .current).supplyFloor
  else curveDown (s.bankFor .current).supplyPoints (s.supply.volts : Int)

/-- S recomputed (R46). -/
def State.recomputeSupply (s : State) : State := { s with supply := { s.supply with ceiling := s.supplyCeiling } }

/-- R44: a supply report taken. -/
def State.takeSupply (s : State) (mv : Nat) : State :=
  { s with supply := { s.supply with volts := min 6000 mv, age := 0, reported := true } }.recomputeSupply

/-- R44, R46, R49 at a frame turn: the map shifts, the age rises, S is recomputed. -/
def State.supplyTurn (s : State) : State :=
  { s with supply :=
    { s.supply with map := shiftRows s.supply.map, age := min 255 (s.supply.age + 1) } }.recomputeSupply

/-! ### Candidates and plan -/

/-- What the fit uses of a candidate entry: its rows, codes and current curve (R51, R52). -/
structure Candidate where
  serial : Nat
  row : Nat
  length : Nat
  granted : Int
  lower : Int
  curve : List (Int × Int)
deriving DecidableEq, Repr

/-- The candidate's current at a code. -/
def Candidate.current (c : Candidate) (code : Int) : Int := evalCurve c.curve code

/-- The amend lead of the LIMITS record in force for an entry's frame (R51, R57). -/
def State.amendLeadOf (s : State) (e : Entry) : Nat := (s.bankFor e.slot).limits.amendLead

/-- R51: the entry meets every condition of a candidate for the order. -/
def State.isCandidate (s : State) (w : WorkingRecord) (e : Entry) : Bool :=
  e.state == .booked && s.timer.grain + s.amendLeadOf e ≤ e.row && e.path != w.order.path &&
    e.cls < w.order.cls && spansMeet e.row e.length w.row w.order.length && decide (e.lower < e.granted)

/-- An entry as a candidate. -/
def State.asCandidate (s : State) (e : Entry) : Candidate :=
  let b := s.bankFor e.slot
  ⟨e.serial, e.row, e.length, e.granted, e.lower, b.curve (b.resolveBand e.path e.band).curCurve⟩

/-- R51: the candidates ranked by class, lowest first, and within a class by booking rank, highest first; as many as the
Originated Queue has free slots. A Late order has none. -/
def State.candidates (s : State) (w : WorkingRecord) : List Candidate :=
  if w.order.late then []
  else
    let ranked := [0, 1, 2].flatMap fun c =>
      s.sched.entries.reverse.filter fun e => e.cls == c && s.isCandidate w e
    (ranked.take s.freeSlots).map s.asCandidate

/-- The least headroom S − reserved over the rows of a span (R50). -/
def spanHeadroom (ceiling : Int) (m : List Int) (lo len : Nat) : Int :=
  leastOf ((spanRows lo len).map fun g => ceiling - rowOf m g)

/-- A current fits every row of a span (R50, R52). -/
def fitsSpan (ceiling : Int) (m : List Int) (lo len : Nat) (cur : Int) : Bool :=
  (spanRows lo len).all fun g => cur ≤ ceiling - rowOf m g

/-- R52: the planned code of a candidate reached by the walk: the fitting inverse of its curve over the shared rows, or its
lower bound. -/
def plannedCode (ceiling : Int) (lo len : Nat) (cur : Int) (m : List Int) (c : Candidate) : Int :=
  let shared := (spanRows lo len).filter fun g => c.row ≤ g && g < c.row + c.length
  let h := leastOf (shared.map fun g => ceiling - cur - rowOf m g + c.current c.granted)
  (fitInverse c.current h c.lower c.granted).getD c.lower

/-- R52: the walk over the candidates for a target current. Answers whether the target fits at its end, and the candidates
planned below their granted codes, each with its planned code. -/
def planWalk (ceiling : Int) (lo len : Nat) (cur : Int) : List Candidate → List Int → Bool × List (Nat × Int)
  | [], m => (fitsSpan ceiling m lo len cur, [])
  | c :: cs, m =>
    if fitsSpan ceiling m lo len cur then (true, [])
    else
      let code := plannedCode ceiling lo len cur m c
      let r := planWalk ceiling lo len cur cs (addRows m c.row c.length (c.current code - c.current c.granted))
      (r.1, if code < c.granted then (c.serial, code) :: r.2 else r.2)

/-- R54: the headroom h* with every candidate at its lower bound. -/
def floorHeadroom (ceiling : Int) (m : List Int) (lo len : Nat) (cs : List Candidate) : Int :=
  leastOf ((spanRows lo len).map fun g =>
    ceiling - rowOf m g +
      ((cs.filter fun c => c.row ≤ g && g < c.row + c.length).map fun c => c.current c.granted - c.current c.lower).sum)

/-- What a fit answers: the grant, the limit reason, the amendments to commit, and whether supply muted the order. -/
structure FitResult where
  grant : Int
  reason : Reason
  plan : List (Nat × Int)
  muted : Bool
deriving DecidableEq, Repr

/-- R50 to R54: the fit of the order in hand against the map and ceiling as they stand. -/
def State.fit (s : State) (w : WorkingRecord) : FitResult :=
  let reason := w.terms.reason w.order.request
  let p1 := w.firstGrant
  if w.order.request = muteCode then ⟨muteCode, reason, [], false⟩
  else
    let ceiling := s.supply.ceiling
    let m := s.supply.map
    let len := w.order.length
    if w.current p1 ≤ spanHeadroom ceiling m w.row len then ⟨p1, reason, [], false⟩
    else
      let cs := s.candidates w
      let plan := planWalk ceiling w.row len (w.current p1) cs m
      if plan.1 then ⟨p1, reason, plan.2, false⟩
      else
        match fitInverse w.current (floorHeadroom ceiling m w.row len cs) w.lower p1 with
        | some p => ⟨p, .supply, (planWalk ceiling w.row len (w.current p) cs m).2, false⟩
        | none => ⟨muteCode, .mute, [], true⟩

/-! ### Commitment and booking -/

/-- One amendment of a plan, made at the entry with that serial (R55). -/
def State.amendSerial (s : State) (serial : Nat) (code : Int) : State :=
  match s.sched.bySerial serial with
  | some e => s.amendEntry e code
  | none => s

/-- R55: the plan committed, in the order of the walk. -/
def State.commitPlan (s : State) (plan : List (Nat × Int)) : State :=
  plan.foldl (fun s p => s.amendSerial p.1 p.2) s

/-- The entry an order is booked as (R28). -/
def WorkingRecord.entry (w : WorkingRecord) (serial : Nat) (grant : Int) (reason : Reason) : Entry :=
  { serial := serial
    tag := w.order.tag
    path := w.order.path
    band := w.band.band
    cls := w.order.cls
    modClass := w.order.modClass
    slot := w.order.slot
    start := w.order.start
    length := w.order.length
    requested := w.order.request
    granted := grant
    lower := w.lower
    reserved := w.current grant
    dissipation := w.bank.dissipation w.band grant
    state := if w.order.late then .committed else .booked
    reason := reason
    amends := 0 }

/-- R28, R56: the entry joins the end of the list and its reserved current is added to each row of its span. -/
def State.book (s : State) (e : Entry) : State :=
  { s with
    sched := ⟨s.sched.entries ++ [e], s.sched.nextSerial + 1⟩
    supply := s.supply.addSpan e.row e.length e.reserved }

/-- The stages of one admission after the classification (R18): the boost demand (R13, R63), the supply fit (R50 to R55),
the booking (R56), the note of a grant above BT (R64), the flag MUTE (R54). The ceiling is formed before the demand is
handed over, so the demand does not change it (R13). -/
def State.admission (s : State) (o : Order) : State × Int :=
  let w := s.workingRecord o
  let demanded := if w.terms.demandsBoost o.request then s.boostDemand else s
  let f := demanded.fit w
  let booked := (demanded.commitPlan f.plan).book (w.entry s.sched.nextSerial f.grant f.reason)
  let noted := { booked with
    boost := booked.boost.noteGrant (w.terms.boostThreshold < f.grant)
    events := booked.events.raiseIf f.muted .mute }
  (noted, f.grant)

/-! ### Amendment requests -/

/-- R58, R59, R60: the target code of an entry under a request, with the inputs as they stand. -/
def State.targetCode (s : State) (kind : RequestKind) (e : Entry) : Int :=
  let b := s.bankFor e.slot
  let r := b.resolveBand e.path e.band
  match kind with
  | .trip _ => (s.ceilingTerms b r e.path e.modClass e.cls false).firstGrant e.requested
  | .bar _ => r.floor
  | .safe => if e.cls = 3 then max b.limits.safeCeiling (max r.assured e.lower) else max b.limits.safeCeiling e.lower

/-- The entry lies within the request's scope: the path's entries, or every path's (R58 to R60). -/
def RequestKind.covers (kind : RequestKind) (e : Entry) : Bool :=
  match kind with
  | .trip p => e.path == p
  | .bar p => e.path == p
  | .safe => true

/-- R57: the entry is listed by a request taken now. -/
def State.isListed (s : State) (kind : RequestKind) (e : Entry) : Bool :=
  e.state == .booked && kind.covers e && s.timer.grain + s.amendLeadOf e ≤ e.row && s.targetCode kind e < e.granted

/-- An entry put before the first one with an absolute start at or above its own. -/
def insertByRow (e : Entry) : List Entry → List Entry
  | [] => [e]
  | x :: rest => if e.row ≤ x.row then e :: x :: rest else x :: insertByRow e rest

/-- Entries ranked by absolute start, earliest first; equal starts keep their order (R57). -/
def rankByRow (es : List Entry) : List Entry := es.foldr insertByRow []

/-- R57: a request taken: the schedule is surveyed, and as many of the ranked entries as the Originated Queue has free
slots are listed, each claiming one. A request that lists nothing ends at once. -/
def State.takeRequest (s : State) (kind : RequestKind) : State :=
  let items := ((rankByRow (s.sched.entries.filter (s.isListed kind))).take s.freeSlots).map (·.serial)
  match items with
  | [] => s
  | _ :: _ => { s with supply := { s.supply with requests := s.supply.requests ++ [⟨kind, items⟩] } }

/-- The first item of a request leaves its list and its slot is no longer claimed; a request with no item left ends. -/
def dropFirstItem (rs : List Request) (k : Nat) : List Request :=
  (rs.modify k fun r => { r with items := r.items.tail }).filter fun r => !r.items.isEmpty

/-- R57, R61: the next amendment of the request in progress `k` is taken: made if its entry is still BOOKED and its target
still lies below the grant, dropped otherwise; its slot becomes the AMEND packet's, or is released. -/
def State.makeRequested (s : State) (k : Nat) : State :=
  match s.supply.requests[k]? with
  | none => s
  | some r =>
    match r.items with
    | [] => s
    | n :: _ =>
      let taken := { s with supply := { s.supply with requests := dropFirstItem s.supply.requests k } }
      match taken.sched.bySerial n with
      | none => taken
      | some e =>
        if e.state = .booked ∧ taken.targetCode r.kind e < e.granted then taken.amendEntry e (taken.targetCode r.kind e)
        else taken

end Sys2Proof.Machine
end

