-- ==== Sys2Proof/Machine/Thermal.lean ====
section
/-! DEFINITION. Heat Model, Sense Tracker, Zone Controllers and Path Protection (R70 to R109). -/

namespace Sys2Proof.Machine

/-! ### Heat Model -/

/-- Zone z's ZONES record in the bank in force for the current frame. -/
def State.zoneRec (s : State) (z : Fin 4) : ZoneRec := (s.bankFor .current).zone z

/-- R75: the model temperature from an account. -/
def ZoneRec.model (r : ZoneRec) (account : Int) : Int := clampTo (-160) 600 (r.ambient + account / r.scale)

/-- The model temperature of a zone now (R75). -/
def State.modelTemp (s : State) (z : Fin 4) : Int := (s.zoneRec z).model (s.heat.account.get z)

/-- R73: an account after the frame close, from the bank of the frame that has ended. -/
def Heat.closedAccount (h : Heat) (b : Bank) (z : Fin 4) : Int :=
  let a := h.account.get z
  clampTo 0 heatMax
    (a - a * (b.zone z).leak / 4096 + (Four.indices.map fun p => h.acc.get p * b.coupling p z / 256).sum)

/-- R72, R73: the accounts updated and the accumulators cleared, when the frame that has ended had a bank in force. -/
def Heat.close (h : Heat) (ended : Option Bank) : Heat :=
  match ended with
  | some b => { h with account := Four.of (h.closedAccount b), acc := Four.fill 0 }
  | none => h

/-- R76: the estimate of a zone. -/
def State.estimateOf (s : State) (z : Fin 4) : Int :=
  let t := max (s.modelTemp z) (s.sense.get z).sensed
  match (s.sense.get z).fresh with
  | .fresh => t
  | .stale => t
  | .blind => min 600 (t + (s.zoneRec z).blindMargin)
  | .seeding => (s.zoneRec z).seedAssumption

/-- R72, R77: the estimates formed and presented to the controllers, when a bank is in force for the frame begun. -/
def State.formEstimates (s : State) : State :=
  if s.tables.active.isSome then
    { s with
      heat := { s.heat with estimate := Four.of s.estimateOf }
      control := s.control.mapIdx fun _ c => { c with presented := true } }
  else s

/-- R72: the frame close, taken whole. -/
def State.frameClose (s : State) (ended : Option Bank) : State :=
  { s with heat := s.heat.close ended }.formEstimates

/-- R86: the account and seed state of a seeded zone. -/
def Heat.seed (h : Heat) (r : ZoneRec) (z : Fin 4) (sensed : Int) : Heat :=
  { h with
    account := h.account.set z (min heatMax (max 0 (sensed - r.ambient) * r.scale))
    seeded := h.seeded.set z true }

/-- R87: the account raised to match a report above the model temperature plus the gap. -/
def Heat.rebase (h : Heat) (r : ZoneRec) (z : Fin 4) (sensed : Int) : Heat :=
  if r.model (h.account.get z) + r.rebaseGap < sensed then
    { h with account := h.account.set z (clampTo 0 heatMax ((sensed - r.ambient) * r.scale)) }
  else h

/-! ### Sense Tracker -/

/-- R79: a zone after a report. -/
def Sense.reported (z : Sense) (temp : Int) : Sense :=
  { z with fresh := .fresh, sensed := temp, age := 0, poll := none, pollDue := false }

/-- R79, R86, R87: a temperature report for a zone field taken; a zone above 3 is ignored. -/
def State.takeTemp (s : State) (zoneField : Nat) (temp : Int) : State :=
  match index4 zoneField with
  | none => s
  | some z =>
    let t := clampTo (-160) 600 temp
    let r := s.zoneRec z
    { s with
      sense := s.sense.set z ((s.sense.get z).reported t)
      heat :=
        if s.timer.mode = .unset then s.heat
        else if s.heat.seeded.get z then s.heat.rebase r z t
        else s.heat.seed r z t }

/-- R83: this grain event brings the zone's wait timer to 0. -/
def Sense.expires (z : Sense) : Bool :=
  match z.poll with
  | some n => n ≤ 1
  | none => false

/-- R83: the wait timer falls by 1; at 0 the poll ends and a STALE zone becomes BLIND. -/
def Sense.tick (z : Sense) : Sense :=
  if z.expires then
    { z with poll := none, fresh := if z.fresh = .stale then .blind else z.fresh }
  else { z with poll := z.poll.map (· - 1) }

/-- R83 for the four zones; every expiry sets BLIND. -/
def State.pollTick (s : State) : State :=
  { s with
    sense := s.sense.mapIdx fun _ z => z.tick
    events := s.events.raiseIf (Four.indices.any fun z => (s.sense.get z).expires) .blind }

/-- R80 step 1: age and poll spacing rise by 1. -/
def Sense.aged (z : Sense) : Sense := { z with age := min 255 (z.age + 1), spacing := min 255 (z.spacing + 1) }

/-- R80 step 3: a FRESH zone older than its stale frames becomes STALE and its poll falls due. -/
def Sense.staled (z : Sense) (stale : Nat) : Sense :=
  if z.fresh = .fresh ∧ stale < z.age then { z with fresh := .stale, pollDue := true } else z

/-- R81: the occasions of a frame turn on which a poll falls due. `first`: the turn of the first switch. -/
def Sense.pollFalls (z : Sense) (stale : Nat) (first : Bool) : Bool :=
  z.poll.isNone &&
    match z.fresh with
    | .fresh => false
    | .stale => true
    | .blind => stale ≤ z.spacing
    | .seeding => first || stale ≤ z.spacing

/-- R80 steps 1, 3 and 4 for one zone while a bank is in force. -/
def Sense.turn (z : Sense) (stale : Nat) (first : Bool) : Sense :=
  let y := z.aged.staled stale
  { y with pollDue := y.pollDue || y.pollFalls stale first }

/-- R85: at the first switch a FRESH zone is handed to the Heat Model as a seed. -/
def State.settleSeeding (s : State) : State :=
  let seedIf := fun (h : Heat) (z : Fin 4) =>
    if (s.sense.get z).fresh = .fresh then h.seed (s.zoneRec z) z (s.sense.get z).sensed else h
  { s with heat := Four.indices.foldl seedIf s.heat }

/-- R80 steps 1 to 3 and the falling due of step 4, at a frame turn; polls are queued apart (R82). -/
def State.senseTurn (s : State) (first : Bool) : State :=
  if s.timer.mode = .unset then { s with sense := s.sense.mapIdx fun _ z => z.aged }
  else
    let t := if first then s.settleSeeding else s
    { t with sense := t.sense.mapIdx fun z y => y.turn (s.zoneRec z).staleFrames first }

/-- R82: a zone whose POLL has been queued. -/
def Sense.polled (z : Sense) (wait : Nat) : Sense := { z with poll := some wait, pollDue := false, spacing := 0 }

/-- R82: the POLL of one zone queued when it is due and a slot is free. -/
def State.queuePoll (s : State) (z : Fin 4) : State :=
  if (s.sense.get z).pollDue ∧ 0 < s.freeSlots then
    { s with
      sense := s.sense.set z ((s.sense.get z).polled s.limits.pollWait)
      link := s.link.place (Draft.poll s.limits.senseTag z) }
  else s

/-- R82: the due POLLs queued in the order of zones 0 to 3, while the mode is GOVERNING or SAFE. -/
def State.queuePolls (s : State) : State :=
  if s.timer.mode = .unset then s else Four.indices.foldl State.queuePoll s

/-- R78: a zone after SOFT-RESET. -/
def Sense.softReset (z : Sense) (governed : Bool) : Sense :=
  { z with poll := none, pollDue := governed && z.fresh != .fresh }

/-! ### Zone Controllers -/

/-- R95: a raise. -/
def Control.raised (c : Control) (r : ZoneRec) (t : Int) : Control :=
  { c with
    backoff := min r.maxBackoff (c.backoff + (if r.surge < t then r.surgeStep else r.climbStep))
    sinceRaise := 0 }

/-- R95: D rises by 1, saturating. -/
def Control.counted (c : Control) : Control := { c with sinceRaise := min 65535 (c.sinceRaise + 1) }

/-- R95: an ease. -/
def Control.eased (c : Control) (r : ZoneRec) : Control :=
  { c.counted with backoff := max 0 (c.backoff - r.easeStep) }

/-- The controller goes over to a state. -/
def Control.goto (c : Control) (st : ControlState) : Control := { c with state := st }

/-- R91: the clamp at the head of each update. -/
def Control.clamped (c : Control) (r : ZoneRec) : Control := { c with backoff := min r.maxBackoff c.backoff }

/-- R91 to R94 on a clamped controller. Where a switch has raised max back-off above the B that a CRITICAL controller holds, it
leaves CRITICAL with the B it held, not with the raised maximum: R91 leaves that open, and the model chooses (log 31). -/
def Control.law (c : Control) (r : ZoneRec) (t : Int) : Control :=
  if r.critical ≤ t then { c with state := .critical, backoff := r.maxBackoff, sinceRaise := 0 }
  else
    match c.state with
    | .critical =>
      if t ≤ r.settleHigh then (c.goto .steady).counted
      else { c with backoff := r.maxBackoff, sinceRaise := 0 }
    | .steady =>
      if r.rise < t then (c.goto .climb).raised r t
      else if t < r.fall ∧ 0 < c.backoff ∧ r.dwell ≤ c.sinceRaise then (c.goto .ease).eased r
      else c.counted
    | .climb =>
      if t ≤ r.settleHigh then (c.goto .steady).counted else c.raised r t
    | .ease =>
      if r.rise < t then (c.goto .climb).raised r t
      else if r.settleLow ≤ t ∨ c.backoff = 0 then (c.goto .steady).counted
      else c.eased r

/-- R90: one update of a controller on an estimate. -/
def Control.update (c : Control) (r : ZoneRec) (t : Int) : Control := { (c.clamped r).law r t with presented := false }

/-- R97: the thermal back-off of a path from the zone back-offs. -/
def thermalBackoff (b : Bank) (control : Four Control) (p : Fin 4) : Int :=
  (Four.indices.map fun z => ceilDiv ((control.get z).backoff * b.weight p z) 15).foldr max 0

/-- R90, R96, R97: a zone's controller runs on its estimate; TIER is set when its state changes; Path Protection recomputes
the four thermal back-offs. -/
def State.runController (s : State) (z : Fin 4) : State :=
  let c := (s.control.get z).update (s.zoneRec z) (s.heat.estimate.get z)
  let control := s.control.set z c
  { s with
    control := control
    path := s.path.mapIdx fun p x => { x with thermal := thermalBackoff (s.bankFor .current) control p }
    events := s.events.raiseIf (c.state != (s.control.get z).state) .tier }

/-- The controllers that have been presented an estimate run on it, but for the zones held back, which take theirs
afterwards in the order given (R98, log 6). -/
def State.runControllers (s : State) (held : List (Fin 4)) : State :=
  { Four.indices.foldl
      (fun s z => if (s.control.get z).presented && !held.contains z then s.runController z else s) s with
    updates := held }

/-- Every controller that still has an estimate to take runs on it. -/
def State.runHeld (s : State) : State := s.runControllers []

/-- The zone whose controller takes its estimate next, if one still has an estimate to take (R98, log 6). -/
def State.nextHeld (s : State) : Option (Fin 4) :=
  (s.updates ++ Four.indices).find? fun z => (s.control.get z).presented

/-- R98: one held update, taken by itself with its own recomputation of the thermal back-offs; none where none is held, and
none while RESET_N is low. It is what the part does while no command waits (log 2, log 6). -/
def State.idle (s : State) : State :=
  match s.nextHeld with
  | some z => if s.pins.resetN then s.runController z else s
  | none => s

/-! ### Path Protection -/

/-- R101 to R103: a path after a trip, in GOVERNING or SAFE. A bar restarted after a bank switch has changed the trip step
takes the trip step of the bank now in force (R182). -/
def PathState.tripped (p : PathState) (l : Limits) : PathState :=
  match p.state with
  | .clear => { p with state := .tripped, trip := l.tripStep }
  | .tripped => { p with state := .barred, trip := l.tripStep, barLeft := l.barFrames }
  | .barred => { p with trip := l.tripStep, barLeft := l.barFrames }

/-- What a trip asks of the Headroom Unit: a trip request from CLEAR, a bar request from TRIPPED, nothing from BARRED. -/
def PathState.tripRequest (p : PathState) (path : Fin 4) : Option RequestKind :=
  match p.state with
  | .clear => some (.trip path)
  | .tripped => some (.bar path)
  | .barred => none

/-- A request handed to the Headroom Unit, when there is one. -/
def State.takeRequest? (s : State) (kind : Option RequestKind) : State :=
  match kind with
  | some k => s.takeRequest k
  | none => s

/-- R100: a trip report taken; a path above 3 changes nothing. -/
def State.takeTrip (s : State) (pathField : Nat) : State :=
  match index4 pathField with
  | none => s
  | some p =>
    let t := s.raise .trip
    if s.timer.mode = .unset then t
    else
      let x := s.path.get p
      { t with
        path := t.path.set p (x.tripped s.limits)
        events := t.events.raiseIf (x.state != Protection.clear) .bar }.takeRequest? (x.tripRequest p)

/-- The expiry of a bar, or its lifting by CLEAR-BAR (R104, R106). -/
def PathState.barEnded (p : PathState) (l : Limits) : PathState :=
  { p with state := .tripped, trip := l.tripStep, barLeft := 0 }

/-- R104: a path at a frame turn, by its state before the turn. -/
def PathState.turn (p : PathState) (l : Limits) : PathState :=
  match p.state with
  | .clear => p
  | .tripped =>
    let t := max 0 (p.trip - l.tripDecay)
    { p with trip := t, state := if t = 0 then .clear else .tripped }
  | .barred => if p.barLeft ≤ 1 then p.barEnded l else { p with barLeft := p.barLeft - 1 }

/-- R104 for the four paths, in GOVERNING and SAFE. -/
def State.pathTurn (s : State) : State :=
  if s.timer.mode = .unset then s else { s with path := s.path.mapIdx fun _ p => p.turn s.limits }

/-- R99: a path after SOFT-RESET. -/
def PathState.softReset (p : PathState) : PathState :=
  { p with state := .clear, trip := 0, barLeft := 0, cap := none }

end Sys2Proof.Machine
end

