-- ==== Sys2Proof/Machine/Clock.lean ====
section
/-! DEFINITION. The clock of the part: the grain event (R111, R112), the frame turn (R119) and its parts, the frame mark
(R113 to R115), SAFE entry and exit (R117, R118), the bank switch (R137, R138). -/

namespace Sys2Proof.Machine

/-- The grains of a frame (00_scope, "Frame and grain"). -/
def frameGrains : Nat := 80

/-- The number after a frame number (R112). -/
def nextFrame (f : Nat) : Nat := (f + 1) % 256

/-- The mark tolerance in use (R112). -/
def State.tolerance (s : State) : Nat := if s.timer.mode = .unset then 2 else s.limits.markTolerance

/-! ### The Frame Timer's own state -/

/-- A frame lost: the missed count rises, the run count becomes 0 (R112). -/
def FrameTimer.missing (t : FrameTimer) : FrameTimer :=
  { t with state := .holdover, missed := min 255 (t.missed + 1), run := 0 }

/-- A frame begun or confirmed by a mark with number `m` (R113, R115). -/
def FrameTimer.synced (t : FrameTimer) (m : Nat) : FrameTimer :=
  { t with frame := m, state := .synced, missed := 0, run := min 255 (t.run + 1) }

/-- What makes a frame turn: the timer, or a mark with its number (section 6.5). -/
inductive Turn where
  | timer
  | mark (m : Nat)
deriving DecidableEq, Repr

/-- The Frame Timer's state after a turn, the mode apart (R112, R115). AWAITING cannot stand at a timer turn (log 20). -/
def FrameTimer.turned (t : FrameTimer) : Turn → FrameTimer
  | .timer =>
    let u := { t with frame := nextFrame t.frame, grain := 0 }
    match t.state with
    | .synced => { u with state := .awaiting }
    | .holdover => u.missing
    | .awaiting => u
  | .mark m => { t.synced m with grain := 0 }

/-- SLIP at a turn on a mark (R115). -/
def FrameTimer.slips (t : FrameTimer) (tol : Nat) : Turn → Bool
  | .timer => false
  | .mark m => decide (t.grain < frameGrains - tol) || decide (m ≠ nextFrame t.frame)

/-- FRAME_LOST at a turn (R112). -/
def FrameTimer.loses (t : FrameTimer) : Turn → Bool
  | .timer => t.state == .holdover
  | .mark _ => false

/-! ### The Table Store at a turn -/

/-- A pending switch takes effect at the turn to come (R137). -/
def Tables.switches (t : Tables) : Bool :=
  match t.pending with
  | some (_, n) => n ≤ 1
  | none => false

/-- R137 and R138: a pending switch counted down, or made at 0. -/
def Tables.turned (t : Tables) : Tables :=
  match t.pending with
  | some (b, n) =>
    if n ≤ 1 then { t with active := some b, pending := none, launch := .switched }
    else { t with pending := some (b, n - 1) }
  | none => t

/-- The switch of the turn to come is the first one (R138). -/
def Tables.firstSwitch (t : Tables) : Bool := t.switches && t.active.isNone

/-! ### SAFE entry and exit -/

/-- SAFE entry as far as the Frame Timer's own state goes (R117). -/
def FrameTimer.enterSafe (t : FrameTimer) : FrameTimer := { t with mode := .safe, run := 0 }

/-- The missed count is tested and found at or above the holdover limit in GOVERNING (R112, R117). -/
def FrameTimer.overLimit (t : FrameTimer) (limit : Nat) : Bool := t.mode == .governing && decide (limit ≤ t.missed)

/-- R118: the test that follows a rise of the run count. -/
def FrameTimer.testExit (t : FrameTimer) (exit : Nat) : FrameTimer :=
  if t.mode = .safe ∧ exit ≤ t.run then { t with mode := .governing } else t

/-! ### The grain event -/

/-- The grain event for grain `g`, the counter at `g`, up to the Frame Timer's own test: held updates are taken at the
latest now (log 6), BOOKED entries commit (R31), ended entries close (R32), the boost and poll timers fall (R66, R83). -/
def State.grainWork (s : State) (g : Nat) : State :=
  let s := s.runHeld
  let s := { s with
    timer := { s.timer with grain := g }
    sched := s.sched.commitUpTo s.limits.commitLead g }
  let s := s.closeEntries fun e => e.slot == .current && e.start + e.length == g
  s.boostTick.pollTick

/-- A SAFE request made when SAFE has been entered (R60). -/
def State.safeRequest (s : State) (entered : Bool) : State := if entered then s.takeRequest .safe else s

/-- The end of an AWAITING window without a mark enters SAFE (R112, R117). -/
def State.windowEntersSafe (s : State) : Bool := s.timer.missing.overLimit s.limits.holdoverLimit

/-- R112: the end of the AWAITING window without a mark, with SAFE entry where the count has reached the limit; the SAFE
request is taken after the grain's commitments (log 7). -/
def State.windowEnd (s : State) : State :=
  State.safeRequest
    { s with
      timer := if s.windowEntersSafe then s.timer.missing.enterSafe else s.timer.missing
      events := (s.events.raise .frameLost).raiseIf s.windowEntersSafe .safe }
    s.windowEntersSafe

/-- The event ends the AWAITING window (R112). -/
def State.endsWindow (s : State) : Bool := s.timer.state == .awaiting && s.timer.grain == s.tolerance

/-- R111: the counter advances to a grain from 1 to 79. At 79 there is no grain event: the timer turns the frame. -/
def State.grainStep (s : State) : State :=
  if s.timer.grain < 79 then
    let t := s.grainWork (s.timer.grain + 1)
    if t.endsWindow then t.windowEnd else t
  else s

/-! ### The frame turn -/

/-- The limits in force for the frame begun (R112, R117, R130). -/
def State.limitsBegun (s : State) : Limits := { s with tables := s.tables.turned }.limits

/-- The Frame Timer after the turn's own change, in GOVERNING from the first switch on (R112, R115, R117). -/
def State.timerTurned (s : State) (turn : Turn) : FrameTimer :=
  if s.tables.firstSwitch then { s.timer.turned turn with mode := .governing } else s.timer.turned turn

/-- SAFE is entered at the turn: a first switch or a frame lost finds the missed count at the holdover limit (R112, R117). -/
def State.entersSafe (s : State) (turn : Turn) : Bool :=
  (s.tables.firstSwitch || s.timer.loses turn) && (s.timerTurned turn).overLimit s.limitsBegun.holdoverLimit

/-- The Frame Timer after SAFE entry, or after the test that follows a mark's rise of the run count (R117, R118). -/
def State.timerBegun (s : State) (turn : Turn) : FrameTimer :=
  if s.entersSafe turn then (s.timerTurned turn).enterSafe
  else
    match turn with
    | .timer => s.timerTurned .timer
    | .mark m => (s.timerTurned (.mark m)).testExit s.limitsBegun.safeExit

/-- The flags the Frame Timer and the Table Store set at a turn (R112, R115, R117, R138). -/
def State.eventsBegun (s : State) (turn : Turn) : Events :=
  (((s.events.raiseIf (s.timer.slips s.tolerance turn) .slip).raiseIf (s.timer.loses turn) .frameLost).raiseIf
    s.tables.switches .launched).raiseIf (s.entersSafe turn) .safe

/-- R119: the Frame Timer's own state at the turn, with the count-down and switch of the bank, the mode at the first switch
and its test, SAFE entry and exit. -/
def State.beginFrame (s : State) (turn : Turn) : State :=
  { s with timer := s.timerBegun turn, tables := s.tables.turned, events := s.eventsBegun turn }

/-- R33 steps 3 and 4: relabelling, and commitment for grain 0 with the commit lead of the frame begun. -/
def State.relabelSchedule (s : State) : State :=
  { s with sched := s.sched.relabel.commitUpTo s.limits.commitLead 0 }

/-- R156: the due polls, the due boost packets and a SAFE request of one turn, one after the other in the order chosen. -/
def State.askQueue (s : State) (order : QueueOrder) (entered : Bool) : State :=
  match order with
  | .pollBoostSafe => s.queuePolls.boostTurn.safeRequest entered
  | .pollSafeBoost => (s.queuePolls.safeRequest entered).boostTurn
  | .boostPollSafe => s.boostTurn.queuePolls.safeRequest entered
  | .boostSafePoll => (s.boostTurn.safeRequest entered).queuePolls
  | .safePollBoost => (s.safeRequest entered).queuePolls.boostTurn
  | .safeBoostPoll => (s.safeRequest entered).boostTurn.queuePolls

/-- The poll timers' grain event and the frame close of one turn, in the order chosen (R84, log 5). -/
def State.closeAndTick (s : State) (ended : Option Bank) (expiryFirst : Bool) : State :=
  if expiryFirst then s.pollTick.frameClose ended else (s.frameClose ended).pollTick

/-- R119: what the blocks do at a frame turn once the Frame Timer has set its own state, up to what they ask of the
Originated Queue. `ended` is the bank of the frame that has ended; `first` says that the turn is that of the first switch. -/
def State.dispatchTurn (s : State) (ended : Option Bank) (first : Bool) (o : TurnOrder) : State :=
  let s := s.closeEntries fun e => e.slot == .current
  let s := s.closeAndTick ended o.expiryFirst
  let s := s.relabelSchedule.supplyTurn
  let s := (s.runControllers o.held).pathTurn
  s.senseTurn first

/-- R119: a frame turn up to what the blocks ask of the Originated Queue. Updates still held from the frame before are taken
first (log 6). -/
def State.turnWork (s : State) (turn : Turn) (o : TurnOrder) : State :=
  (s.runHeld.beginFrame turn).dispatchTurn (s.tables.inForce .current) s.tables.firstSwitch o

/-- R119: a frame turn. -/
def State.frameTurn (s : State) (turn : Turn) (o : TurnOrder) : State :=
  (s.turnWork turn o).askQueue o.queue (s.entersSafe turn)

/-- R112: the counter reaches 80; below 79 it does not. -/
def State.timerStep (s : State) (o : TurnOrder) : State :=
  if s.timer.grain = 79 then s.frameTurn .timer o else s

/-! ### Frame marks -/

/-- R113: a confirmation. -/
def State.confirm (s : State) (m : Nat) : State :=
  { s with
    timer := (s.timer.synced m).testExit s.limits.safeExit
    events := s.events.raiseIf (m != s.timer.frame) .slip }

/-- R113 to R115: a frame mark with number `m` taken by the Frame Timer. -/
def State.takeMark (s : State) (m : Nat) (o : TurnOrder) : State :=
  if s.timer.grain < s.tolerance then
    if s.timer.state = .synced then s.raise .slip else s.confirm m
  else s.frameTurn (.mark m) o

/-! ### Arrivals -/

/-- A GOV-COMMAND joins the Command Queue, or is dropped with CMD_DROP (R164). -/
def State.queueCommand (s : State) (p : Packet) : State :=
  if s.engine.queue.length < engineCapacity then
    { s with engine := { s.engine with queue := s.engine.queue ++ [p] } }
  else s.raise .cmdDrop

/-- A packet arrives at a port and is handled as it is classified (R146 to R151); the blocks that read it take it at its
arrival. The order is that of the frame turn a mark may make. -/
def State.arrive (s : State) (port : Port) (p : Packet) (o : TurnOrder) : State :=
  match classify port p with
  | .malformedDrop => s.raise .linkError
  | .malformedPass => s.pass port p true fun s => s.raise .linkError
  | .misdirected => s.raise .linkError
  | .command => s.queueCommand p
  | .mark => s.pass port p true fun s => s.takeMark ((p.word 0).toNat % 256) o
  | .order => s.pass port p false id
  | .pass => s.pass port p true id
  | .tempConsumed => s.takeTemp (p.word 0).toNat (p.word 1).toInt
  | .readyConsumed => s.takeReady
  | .tempPassed => s.pass port p true fun s => s.takeTemp (p.word 0).toNat (p.word 1).toInt
  | .supplyPassed => s.pass port p true fun s => s.takeSupply (p.word 0).toNat
  | .tripPassed => s.pass port p true fun s => s.takeTrip (p.word 0).toNat

/-- The clock of the part moves on by one of its three indications (R111 to R113). -/
def State.tick (s : State) : Clock → State
  | .grain => s.grainStep
  | .timer o => s.timerStep o
  | .mark p o => s.arrive .modem p o

end Sys2Proof.Machine
end

