-- ==== Sys2Proof/Machine/Arrivals.lean ====
section
/-! DEFINITION. The meanings of the arrivals (R146 to R151, R164). Whatever the packet, it is handled as it is classified:
the row's name says which packet the event is about (WellFormed, log 23). -/

namespace Sys2Proof.Machine

/-- FRAME_MARK (R113). -/
def execFrameMark (p : Packet) (o : TurnOrder) (s : State) : Out State := s.live fun s => s.arrive .modem p o

/-- TEMP_REPORT (R79). -/
def execTempReport (p : Packet) (s : State) : Out State := s.live fun s => s.arrive .frontEnd p .plain

/-- SUPPLY_REPORT (R44). -/
def execSupplyReport (p : Packet) (s : State) : Out State := s.live fun s => s.arrive .frontEnd p .plain

/-- TRIP_REPORT (R100). -/
def execTripReport (p : Packet) (s : State) : Out State := s.live fun s => s.arrive .frontEnd p .plain

/-- BOOST_READY (R65). -/
def execBoostReady (p : Packet) (s : State) : Out State := s.live fun s => s.arrive .frontEnd p .plain

/-- PASS_PACKET_ARRIVAL (R151). -/
def execPassPacketArrival (port : Port) (p : Packet) (s : State) : Out State := s.live fun s => s.arrive port p .plain

/-- MALFORMED_PACKET (R147). -/
def execMalformedPacket (port : Port) (p : Packet) (s : State) : Out State := s.live fun s => s.arrive port p .plain

/-- MISDIRECTED_PACKET (R150). -/
def execMisdirectedPacket (port : Port) (p : Packet) (s : State) : Out State := s.live fun s => s.arrive port p .plain

/-- GOV_COMMAND_ARRIVAL (R164). -/
def execGovCommandArrival (p : Packet) (s : State) : Out State := s.live fun s => s.arrive .modem p .plain

end Sys2Proof.Machine
end

