-- ==== Sys2Proof/Machine/Clocked.lean ====
section
/-! DEFINITION. The meanings of the clock's commands: GRAIN_EVENT, AWAITING_WINDOW_END, TIMER_FRAME_TURN, and the rows that
name what comes about in one step of the clock. -/

namespace Sys2Proof.Machine

/-- A step of the clock in which something comes about: the step is made whole; where the thing does not come about in it,
the event named is not there and nothing happens (log 3, log 4). -/
def State.tickWhen (s : State) (k : Clock) (happens : State → State → Bool) : State :=
  if happens s (s.tick k) then s.tick k else s

/-- GRAIN_EVENT (R111). -/
def execGrainEvent (s : State) : Out State := s.live State.grainStep

/-- The next grain event is the one for grain tol in AWAITING (R112). -/
def State.windowDue (s : State) : Bool := s.timer.state == .awaiting && s.timer.grain + 1 == s.tolerance

/-- AWAITING_WINDOW_END: the grain event for grain tol in AWAITING (R112). -/
def execAwaitingWindowEnd (s : State) : Out State := s.live fun s => if s.windowDue then s.grainStep else s

/-- TIMER_FRAME_TURN (R112). -/
def execTimerFrameTurn (o : TurnOrder) (s : State) : Out State := s.live fun s => s.timerStep o

/-- A pending switch has taken effect between two states (R138). -/
def switched (s t : State) : Bool := s.tables.switches && t.tables.pending.isNone

/-- BANK_SWITCH (R138). -/
def execBankSwitch (k : Clock) (s : State) : Out State := s.live fun s => s.tickWhen k switched

/-- The supply report has become too old between two states (R46). -/
def staled (s t : State) : Bool := !s.supplyAged && t.supplyAged

/-- SUPPLY_STALE (R46). -/
def execSupplyStale (k : Clock) (s : State) : Out State := s.live fun s => s.tickWhen k staled

/-- A path has gone from one protection state to another. -/
def protectionMoved (path : Fin 4) (before after : Protection) (s t : State) : Bool :=
  (s.path.get path).state == before && (t.path.get path).state == after

/-- TRIP_CLEAR (R104). -/
def execTripClear (path : Fin 4) (k : Clock) (s : State) : Out State :=
  s.live fun s => s.tickWhen k (protectionMoved path .tripped .clear)

/-- BAR_EXPIRY (R104). -/
def execBarExpiry (path : Fin 4) (k : Clock) (s : State) : Out State :=
  s.live fun s => s.tickWhen k (protectionMoved path .barred .tripped)

/-- A zone has gone from FRESH to STALE (R80). -/
def zoneStaled (zone : Fin 4) (s t : State) : Bool :=
  (s.sense.get zone).fresh == .fresh && (t.sense.get zone).fresh == .stale

/-- ZONE_STALE (R80). -/
def execZoneStale (zone : Fin 4) (k : Clock) (s : State) : Out State := s.live fun s => s.tickWhen k (zoneStaled zone)

/-- A grain event or turn between two states has brought a zone's wait timer to 0 (R83). -/
def pollExpired (zone : Fin 4) (s t : State) : Bool :=
  (s.sense.get zone).expires && t.timer.grain != s.timer.grain

/-- POLL_EXPIRY (R83). -/
def execPollExpiry (zone : Fin 4) (k : Clock) (s : State) : Out State := s.live fun s => s.tickWhen k (pollExpired zone)

/-- A turn between two states has found a quiet release due: it has been queued, or the quiet count stands at boost release
and waits for a slot (R67, R68). -/
def quietReleased (s t : State) : Bool :=
  s.timer.grain != 0 && t.timer.grain == 0 && s.boost.state == .ready &&
    (t.boost.state == .off || (t.boost.state == .ready && decide (t.limits.boostRelease ≤ t.boost.quiet)))

/-- BOOST_QUIET_RELEASE (R67). -/
def execBoostQuietRelease (k : Clock) (s : State) : Out State := s.live fun s => s.tickWhen k quietReleased

/-- The cooldown has ended between two states (R67). -/
def cooled (s t : State) : Bool := s.boost.state == .failed && t.boost.state != .failed

/-- BOOST_COOLDOWN_END (R67). -/
def execBoostCooldownEnd (k : Clock) (s : State) : Out State := s.live fun s => s.tickWhen k cooled

/-- The boost wait timer has expired between two states (R66). -/
def waitExpired (s t : State) : Bool := s.boost.state == .requested && t.boost.state == .failed

/-- BOOST_WAIT_EXPIRY (R66). -/
def execBoostWaitExpiry (k : Clock) (s : State) : Out State := s.live fun s => s.tickWhen k waitExpired

end Sys2Proof.Machine
end

