-- ==== Sys2Proof/Machine/Validate.lean ====
section
/-! DEFINITION. Validation of a bank in two passes, reporting the first failure (R131, R132). -/

namespace Sys2Proof.Machine

/-- The reasons of a failed validation (R131, R132, section 9.8). -/
inductive FailReason where
  | missingKind
  | duplicateKind
  | outOfBank
  | overlap
  | badCount
  | badValue
  | badOrder
  | notMonotone
  | badRef
  | duplicateBand
deriving DecidableEq, Repr

/-- The reason's code in an INVALID reply (section 9.8). -/
def FailReason.code : FailReason → Nat
  | .missingKind => 0x01
  | .duplicateKind => 0x02
  | .outOfBank => 0x03
  | .overlap => 0x04
  | .badCount => 0x05
  | .badValue => 0x06
  | .badOrder => 0x07
  | .notMonotone => 0x08
  | .badRef => 0x09
  | .duplicateBand => 0x0A

/-- Two regions share a word. -/
def DirEntry.overlaps (e f : DirEntry) : Bool := e.base < f.base + f.size && f.base < e.base + e.size

/-- The first pass on the entries still to walk, after the non-empty entries in `earlier` (R131). -/
def firstPass : List DirEntry → List DirEntry → Option (Nat × FailReason)
  | [], earlier =>
    if (List.range 7).all fun k => earlier.any fun e => e.kind == k + 1 then none else some (16, .missingKind)
  | e :: rest, earlier =>
    if e.kind = 0 then firstPass rest earlier
    else if 7 < e.kind then some (e.index, .badValue)
    else if earlier.any fun f => f.kind == e.kind then some (e.index, .duplicateKind)
    else if !countOk e.kind e.count then some (e.index, .badCount)
    else if !(48 ≤ e.base && e.base + e.size ≤ 4096) then some (e.index, .outOfBank)
    else if earlier.any e.overlaps then some (e.index, .overlap)
    else firstPass rest (earlier ++ [e])

/-- A power code of the valid range. -/
def codeOk (x : Int) : Bool := minCode ≤ x && x ≤ maxCode

/-- A temperature code of the range (R127). -/
def tempOk (x : Int) : Bool := -160 ≤ x && x ≤ 600

/-- A count in a range. -/
def within (lo hi x : Nat) : Bool := lo ≤ x && x ≤ hi

/-- Every field of LIMITS lies in its range (R126). -/
def Limits.inRange (l : Limits) : Bool :=
  codeOk l.safeCeiling && codeOk l.lateCeiling && codeOk l.boostThreshold &&
  within 1 255 l.boostWait && within 1 1000 l.boostRelease && within 1 1000 l.boostCooldown &&
  within 1 16 l.commitLead && within l.commitLead 40 l.amendLead &&
  within 0 255 l.tripStep.toNat && within 1 255 l.tripDecay.toNat && within 1 1000 l.barFrames &&
  within 1 8 l.markTolerance && within 1 16 l.holdoverLimit && within 1 16 l.safeExit &&
  within 1 80 l.pollWait && within 1 13 l.senseTag && within 1 13 l.supplyTag &&
  Four.indices.all fun p => within 0 31 (l.fallback.get p)

/-- Each path's fallback band has a BANDS record (R132). -/
def Bank.fallbacksPresent (b : Bank) : Bool :=
  Four.indices.all fun p => (b.findBand p (b.limits.fallback.get p)).isSome

/-- Every field of a ZONES record lies in its range (R127). -/
def ZoneRec.inRange (z : ZoneRec) : Bool :=
  tempOk z.ambient && within 1 65535 z.scale.toNat && within 1 4095 z.leak.toNat && within 0 255 z.rebaseGap.toNat &&
  tempOk z.seedAssumption && tempOk z.fall && tempOk z.settleLow && tempOk z.settleHigh && tempOk z.rise &&
  tempOk z.surge && tempOk z.critical && within 1 32 z.climbStep.toNat && within 1 64 z.surgeStep.toNat &&
  within 1 16 z.easeStep.toNat && within 0 255 z.maxBackoff.toNat && within 0 1000 z.dwell &&
  within 1 254 z.staleFrames && within 0 255 z.blindMargin.toNat

/-- The thresholds stand in their order (R132). -/
def ZoneRec.ordered (z : ZoneRec) : Bool :=
  z.fall < z.settleLow && z.settleLow ≤ z.settleHigh && z.settleHigh < z.rise && z.rise < z.surge && z.surge < z.critical

/-- A strictly ascending list. -/
def ascending : List Int → Bool
  | a :: b :: rest => a < b && ascending (b :: rest)
  | _ => true

/-- A list that does not decrease. -/
def nondecreasing : List Int → Bool
  | a :: b :: rest => a ≤ b && nondecreasing (b :: rest)
  | _ => true

/-- The first check a record of a table fails, in the order of R132; `a` is the record's offset, `k` its index. -/
def Bank.recordFault (b : Bank) (kind a k : Nat) : Option FailReason :=
  match kind with
  | 1 =>
    if !b.limits.inRange then some .badValue
    else if !b.fallbacksPresent then some .badRef
    else none
  | 2 =>
    if !(b.zoneAt a).inRange then some .badValue
    else if !(b.zoneAt a).ordered then some .badOrder
    else none
  | 3 => if 256 < b.nat a % 512 ∨ 15 < b.nat a / 512 then some .badValue else none
  | 4 =>
    let r := b.bandAt a
    if 127 < b.nat a ∨ !codeOk r.rated ∨ !codeOk r.floor ∨ !codeOk r.assured ∨ 4095 < b.nat (a + 4) then some .badValue
    else if !(r.floor ≤ r.assured && r.assured ≤ r.rated) then some .badOrder
    else if b.count Table.curves ≤ r.dissCurve ∨ b.count Table.curves ≤ r.curCurve ∨
        (b.curve r.curCurve).any (fun p => 8191 < p.2) then some .badRef
    else if (List.range k).any fun j => b.nat (b.record Table.bands j) == b.nat a then some .duplicateBand
    else none
  | 5 =>
    let pts := b.points b.sint a
    if pts.any fun p => !codeOk p.1 || 16383 < p.2 then some .badValue
    else if !(ascending (pts.map (·.1)) && nondecreasing (pts.map (·.2))) then some .notMonotone
    else none
  | 6 => if 64 < b.nat a then some .badValue else none
  | 7 =>
    let pts := b.points b.uint a
    if (pts.any fun p => 6000 < p.1 || 8191 < p.2) || !within 1 254 (b.nat (a + 16)) || 8191 < b.nat (a + 17) then
      some .badValue
    else if !ascending (pts.map (·.1)) then some .notMonotone
    else none
  | _ => none

/-- The second pass: non-empty entries in directory order, records in record order (R132). -/
def Bank.secondPass (b : Bank) : Option (Nat × FailReason) :=
  b.directory.findSome? fun e =>
    if e.kind = 0 then none
    else (List.range e.count).findSome? fun k =>
      (b.recordFault e.kind (e.base + recordWords e.kind * k) k).map fun r => (e.index, r)

/-- Validation: `none` when the bank passes, else the directory index and reason of the first failure (R131, R132). -/
def Bank.validate (b : Bank) : Option (Nat × FailReason) :=
  match firstPass b.directory [] with
  | some e => some e
  | none => b.secondPass

end Sys2Proof.Machine
end

