-- ==== Sys2Proof/Machine/Commands.lean ====
section
/-! DEFINITION. The Command Engine: COMMAND_TAKE (R165) and the execution of every command (R166 to R175, and the rules of
the blocks that own the effects). -/

namespace Sys2Proof.Machine

/-! ### Execution -/

/-- The reply words of a refused command: the status word alone; for a READ-TABLE that carried a count of 1 the status word
twice (R168, log 26). -/
def refusalWords (p : Packet) (status : Nat) : List Word :=
  let w := statusWord p.commandCode status
  if p.commandCode = Code.readTable ∧ p.word 2 = 1 then [w, w] else [w]

/-- The command answered with a refusal. -/
def State.refuse (s : State) (p : Packet) (status : Nat) : State := s.answer p (refusalWords p status)

/-- The command answered with its status word alone. -/
def State.answerStatus (s : State) (p : Packet) (status : Nat) : State :=
  s.answer p [statusWord p.commandCode status]

/-- The command in execution has a code and may be executed now: the Reply Queue has a place for it (R165, R167). -/
def State.executing (s : State) (code : Nat) : Option Packet :=
  match s.engine.current with
  | some p => if p.commandCode = code ∧ s.replyRoom then some p else none
  | none => none

/-- R165, R166: the command in execution with a code is executed: RANGE where its length is wrong, its effect otherwise.
While another command, none, or a full Reply Queue stands there, nothing happens. -/
def State.execute (s : State) (code : Nat) (effect : State → Packet → State) : State :=
  match s.executing code with
  | some p => if commandLengthOk p then effect s p else s.refuse p Status.range
  | none => s

/-- COMMAND_TAKE: the head of the Command Queue becomes the command in execution (R165). -/
def State.takeCommand (s : State) : State :=
  match s.engine.current, s.engine.queue with
  | none, p :: rest => { s with engine := { s.engine with queue := rest, current := some p } }
  | _, _ => s

/-- COMMAND_TAKE (R165). -/
def execCommandTake (s : State) : Out State := s.live State.takeCommand

/-- A command with an unknown code is answered UNKNOWN, its code echoed (R166). -/
def State.answerUnknown (s : State) : State :=
  match s.engine.current with
  | some p => if commandLengths p.commandCode = none ∧ s.replyRoom then s.answerStatus p Status.unknown else s
  | none => s

/-- UNKNOWN_COMMAND (R166). -/
def execUnknownCommand (s : State) : Out State := s.live State.answerUnknown

/-! ### The codes of reported items (section 9.8) -/

/-- Device mode. -/
def Mode.code : Mode → Nat
  | .unset => 0
  | .governing => 1
  | .safe => 2

/-- Timer state. -/
def TimerState.code : TimerState → Nat
  | .synced => 0
  | .awaiting => 1
  | .holdover => 2

/-- Boost state. -/
def BoostState.code : BoostState → Nat
  | .off => 0
  | .requested => 1
  | .ready => 2
  | .failed => 3

/-- Freshness. -/
def Freshness.code : Freshness → Nat
  | .seeding => 0
  | .fresh => 1
  | .stale => 2
  | .blind => 3

/-- Controller state. -/
def ControlState.code : ControlState → Nat
  | .steady => 0
  | .climb => 1
  | .ease => 2
  | .critical => 3

/-- Protection state. -/
def Protection.code : Protection → Nat
  | .clear => 0
  | .tripped => 1
  | .barred => 2

/-- Frame slot. -/
def Slot.code : Slot → Nat
  | .current => 0
  | .next => 1

/-- State of an entry. -/
def EntryState.code : EntryState → Nat
  | .booked => 0
  | .committed => 1

/-- Limit reason. -/
def Reason.code : Reason → Nat
  | .request => 0
  | .rating => 1
  | .thermal => 2
  | .trip => 3
  | .cap => 4
  | .boost => 5
  | .safe => 6
  | .late => 7
  | .assured => 8
  | .bar => 9
  | .floor => 10
  | .supply => 11
  | .mute => 12
  | .amended => 13

/-- A bank, or 15 for none. -/
def bankCode (b : Option BankId) : Nat :=
  match b with
  | some i => i.number
  | none => 15

/-- The no-cap value. -/
def noCap : Word := 0x8000

/-! ### Reading state -/

/-- The reply words of READ-STATUS after the status word (R170, section 9.8). -/
def State.statusItems (s : State) : List Word :=
  [ natWord (s.timer.mode.code * 4096 + s.timer.state.code * 256 + s.timer.frame),
    natWord (s.timer.grain * 256 + s.timer.missed),
    natWord (bankCode s.tables.active * 4096 + bankCode (s.tables.pending.map Prod.fst) * 256 +
      (match s.tables.pending with
        | some (_, n) => n
        | none => 0) * 16 + (if s.tables.copy.isSome then 1 else 0)),
    natWord (s.boost.state.code * 256 + s.sched.entries.length),
    codeWord s.supply.ceiling ]

/-- READ-STATUS (R170). -/
def execReadStatus (s : State) : Out State :=
  s.live fun s => s.execute Code.readStatus fun s p =>
    s.answer p (statusWord Code.readStatus Status.done :: s.statusItems)

/-- READ-EVENTS: the flags and the mask are reported, the flags cleared and a waiting notice withdrawn (R178, R180). -/
def execReadEvents (s : State) : Out State :=
  s.live fun s => s.execute Code.readEvents fun s p =>
    { s.answer p [statusWord Code.readEvents Status.done, s.events.flags, s.events.mask] with
      events := s.events.cleared }

/-- The reply words of READ-ZONE after the status word (R171, section 9.8). -/
def State.zoneItems (s : State) (z : Fin 4) : List Word :=
  let y := s.sense.get z
  let c := s.control.get z
  [ natWord (y.fresh.code * 4096 + c.state.code * 256 + y.age),
    codeWord y.sensed,
    codeWord (s.modelTemp z),
    codeWord (s.heat.estimate.get z),
    codeWord (s.heat.account.get z / 65536),
    codeWord (s.heat.account.get z % 65536),
    codeWord c.backoff,
    natWord c.sinceRaise ]

/-- The power-up values of READ-ZONE (R89, R96). -/
def zonePowerUp : List Word :=
  [natWord 255, codeWord (-160), codeWord (-160), codeWord (-160), 0, 0, 0, 0]

/-- READ-ZONE for a zone in range (R166 step 4, R171). -/
def State.readZone (s : State) (p : Packet) : State :=
  match index4 p.parameter with
  | none => s.refuse p Status.range
  | some z =>
    if s.timer.mode = .unset then s.answer p (statusWord Code.readZone Status.noBank :: zonePowerUp)
    else s.answer p (statusWord Code.readZone Status.done :: s.zoneItems z)

/-- READ-ZONE (R89, R96, R171). -/
def execReadZone (s : State) : Out State := s.live fun s => s.execute Code.readZone State.readZone

/-- The reply words of READ-PATH after the status word (R171, section 9.8). -/
def PathState.items (x : PathState) : List Word :=
  [ codeWord x.thermal,
    codeWord x.trip,
    natWord x.state.code,
    natWord x.barLeft,
    (match x.cap with
      | some c => codeWord c
      | none => noCap) ]

/-- The power-up values of READ-PATH (R109). -/
def pathPowerUp : List Word := [0, 0, 0, 0, noCap]

/-- READ-PATH for a path in range (R166 step 4, R171). -/
def State.readPath (s : State) (p : Packet) : State :=
  match index4 p.parameter with
  | none => s.refuse p Status.range
  | some i =>
    if s.timer.mode = .unset then s.answer p (statusWord Code.readPath Status.noBank :: pathPowerUp)
    else s.answer p (statusWord Code.readPath Status.done :: (s.path.get i).items)

/-- READ-PATH (R109, R171). -/
def execReadPath (s : State) : Out State := s.live fun s => s.execute Code.readPath State.readPath

/-- The reply words of READ-SCHEDULE for an entry, after the status word (R172, section 9.8). -/
def Entry.items (e : Entry) (rank : Nat) : List Word :=
  [ 1,
    natWord (rank * 256 + e.tag),
    natWord (e.band * 2048 + e.modClass * 256 + e.path.val * 64 + e.cls * 16 + e.slot.code * 8 + e.state.code * 4),
    natWord (e.start * 256 + e.length),
    codeWord e.requested,
    codeWord e.granted,
    codeWord e.lower,
    codeWord e.reserved,
    codeWord e.dissipation,
    natWord (e.reason.code * 256 + e.amends) ]

/-- READ-SCHEDULE (R43, R166 step 4, R172). -/
def State.readSchedule (s : State) (p : Packet) : State :=
  if s.timer.mode = .unset then s.answer p [statusWord Code.readSchedule Status.noBank, 0]
  else
    match s.sched.entries[p.parameter]? with
    | some e => s.answer p (statusWord Code.readSchedule Status.done :: e.items p.parameter)
    | none => s.answer p [statusWord Code.readSchedule Status.done, 0]

/-- READ-SCHEDULE (R43, R172). -/
def execReadSchedule (s : State) : Out State := s.live fun s => s.execute Code.readSchedule State.readSchedule

/-! ### Setting state -/

/-- SET-MASK (R173, R181). -/
def execSetMask (s : State) : Out State :=
  s.live fun s => s.execute Code.setMask fun s p =>
    { s.answerStatus p Status.done with events := { s.events with mask := p.word 1 } }

/-- SET-CAP (R107, R173). -/
def State.setCap (s : State) (p : Packet) : State :=
  match index4 p.parameter with
  | none => s.refuse p Status.range
  | some i =>
    let put := fun (c : Option Int) =>
      { s.answerStatus p Status.done with path := s.path.set i { s.path.get i with cap := c } }
    if p.word 1 = noCap then put none
    else if minCode ≤ (p.word 1).toInt ∧ (p.word 1).toInt ≤ maxCode then put (some (p.word 1).toInt)
    else s.refuse p Status.range

/-- SET-CAP (R107). -/
def execSetCap (s : State) : Out State := s.live fun s => s.execute Code.setCap State.setCap

/-- CLEAR-BAR (R106). -/
def State.clearBar (s : State) (p : Packet) : State :=
  match index4 p.parameter with
  | none => s.refuse p Status.range
  | some i =>
    let x := s.path.get i
    { s.answerStatus p Status.done with
      path := s.path.set i (if x.state = .barred then x.barEnded s.limits else x) }

/-- CLEAR-BAR (R106). -/
def execClearBar (s : State) : Out State := s.live fun s => s.execute Code.clearBar State.clearBar

/-! ### The running copy -/

/-- The source of a running copy: the other bank, which is the active one (R141). -/
def CopyRun.source (c : CopyRun) : BankId := c.dest.other

/-- A running copy has copied at least `copied` words: the destination holds the source's words below the progress. It is
not complete before COPY_COMPLETE (R142, log 11). -/
def Tables.advance (t : Tables) (copied : Nat) : Tables :=
  match t.copy with
  | none => t
  | some c =>
    let n := max c.progress (min copied (bankSize - 1))
    { t.setBank c.dest ((t.bank c.source).splice (t.bank c.dest) n) with copy := some { c with progress := n } }

/-! ### Table commands -/

/-- READ-TABLE (R134, R168). -/
def State.readTable (s : State) (p : Packet) : State :=
  match bankOf? p.parameter with
  | none => s.refuse p Status.range
  | some b =>
    let offset := (p.word 1).toNat
    let count := (p.word 2).toNat
    if 1 ≤ count ∧ count ≤ 12 ∧ offset + count ≤ bankSize then s.answer p ((s.tables.bank b).readMany offset count)
    else s.refuse p Status.range

/-- READ-TABLE (R134, R142, R168). -/
def execReadTable (copied : Nat) (s : State) : Out State :=
  s.live fun s => s.execute Code.readTable fun s p => State.readTable { s with tables := s.tables.advance copied } p

/-- A bank is named by the pending switch (R135). -/
def Tables.isPending (t : Tables) (b : BankId) : Bool := t.pending.map Prod.fst == some b

/-- WRITE-TABLE (R135, R168). -/
def State.writeTable (s : State) (p : Packet) : State :=
  let words := p.payload.drop 2
  let offset := (p.word 1).toNat
  match bankOf? p.parameter with
  | none => s.refuse p Status.range
  | some b =>
    if bankSize < offset + words.length then s.refuse p Status.range
    else if s.tables.active = some b then (s.answerStatus p Status.discarded).raise .writeDiscard
    else if s.tables.isPending b then s.answerStatus p Status.pending
    else if s.tables.copy.isSome then s.answerStatus p Status.busy
    else
      { s.answerStatus p Status.done with
        tables := (s.tables.setBank b ((s.tables.bank b).writeAll offset words)).setMark b false }

/-- WRITE-TABLE (R135). -/
def execWriteTable (s : State) : Out State := s.live fun s => s.execute Code.writeTable State.writeTable

/-- A launch of the bank is answered BUSY (R136). -/
def Tables.launchBusy (t : Tables) (b : BankId) : Bool := t.active == some b || t.pending.isSome || t.copy.isSome

/-- An accepted launch: the bank is marked, the switch pends with 2 turns remaining (R133, R136). -/
def Tables.accept (t : Tables) (b : BankId) : Tables :=
  { t.setMark b true with pending := some (b, 2), launch := .pending }

/-- The failure of the launched bank's validation, when it is not marked and fails (R133, R136). -/
def Tables.launchFault (t : Tables) (b : BankId) : Option (Nat × FailReason) :=
  if t.mark b then none else (t.bank b).validate

/-- LAUNCH (R136, R169). -/
def State.launch (s : State) (p : Packet) : State :=
  match bankOf? p.parameter with
  | none => s.refuse p Status.range
  | some b =>
    if s.tables.launchBusy b then s.answerStatus p Status.busy
    else
      match s.tables.launchFault b with
      | some (i, r) => s.answer p [statusWord Code.launch Status.invalid, natWord (i * 256 + r.code)]
      | none => { s.answerStatus p Status.done with tables := s.tables.accept b }

/-- LAUNCH (R136). -/
def execLaunch (s : State) : Out State := s.live fun s => s.execute Code.launch State.launch

/-- A pending switch with 2 turns remaining cancelled (R139, R144). -/
def Tables.cancel (t : Tables) : Tables := { t with pending := none, launch := .cancelled }

/-- A pending switch has 2 turns remaining (R137). -/
def Tables.cancellable (t : Tables) : Bool :=
  match t.pending with
  | some (_, n) => n == 2
  | none => false

/-- RECALL (R139, R169). -/
def State.recall (s : State) (p : Packet) : State :=
  if s.tables.cancellable then { s.answerStatus p Status.done with tables := s.tables.cancel }
  else if s.tables.pending.isSome then s.answerStatus p Status.late
  else if s.tables.launch = .switched then s.answerStatus p Status.late
  else s.answerStatus p Status.nothing

/-- RECALL (R139). -/
def execRecall (s : State) : Out State := s.live fun s => s.execute Code.recallLaunch State.recall

/-- A copy started into the bank that is not active (R141). -/
def Tables.startCopy (t : Tables) (active : BankId) (tag : Nat) : Tables :=
  { t.setMark active.other false with copy := some ⟨active.other, 0, tag⟩ }

/-- COPY: refused at once, or started without a reply; the engine is free either way (R141, R165, R169). -/
def State.startCopy (s : State) (p : Packet) : State :=
  match s.tables.active with
  | none => s.answerStatus p Status.noBank
  | some a =>
    if s.tables.pending.isSome then s.answerStatus p Status.pending
    else if s.tables.copy.isSome then s.answerStatus p Status.busy
    else
      { s with
        tables := s.tables.startCopy a p.aux
        engine := { s.engine with current := none } }

/-- COPY (R141). -/
def execCopy (s : State) : Out State := s.live fun s => s.execute Code.copy State.startCopy

/-- Every word of the copy has been copied; it waits for its reply's place (R143). -/
def Tables.copyDone (t : Tables) (c : CopyRun) : Tables :=
  { t.setBank c.dest (t.bank c.source) with copy := some { c with progress := bankSize } }

/-- The copy completes: the destination is an exact image, it is marked, the engine is idle (R143). -/
def Tables.copyEnd (t : Tables) (c : CopyRun) : Tables :=
  { (t.setBank c.dest (t.bank c.source)).setMark c.dest true with copy := none }

/-- R143: the last word has been copied. The copy completes with its DONE reply, or waits while the Reply Queue is full. -/
def State.finishCopy (s : State) : State :=
  match s.tables.copy with
  | none => s
  | some c =>
    if s.engine.replies.length < engineCapacity then
      { s with
        tables := s.tables.copyEnd c
        engine := { s.engine with
          replies := s.engine.replies ++ [Draft.reply c.tag [statusWord Code.copy Status.done]] } }
    else { s with tables := s.tables.copyDone c }

/-- COPY_COMPLETE (R143). -/
def execCopyComplete (s : State) : Out State := s.live State.finishCopy

/-! ### SOFT-RESET -/

/-- The Table Store's part (R144): a switch at 2 turns cancelled; a running copy aborted with the words copied so far. -/
def Tables.softReset (t : Tables) (copied : Nat) : Tables :=
  let u := { t.advance copied with copy := none }
  if u.cancellable then u.cancel else u

/-- The Link Interface's part: the POLL packets leave the Originated Queue (R161). -/
def Link.softReset (l : Link) : Link := { l with orig := l.orig.filter fun d => d.kind != Kind.poll }

/-- The Command Engine's part: both queues emptied, then the reset's own DONE placed (R175). -/
def Engine.softReset (p : Packet) : Engine :=
  ⟨[], none, [Draft.reply p.aux [statusWord Code.softReset Status.done]]⟩

/-- SOFT-RESET: every block's part, the POLL packets leaving before the Boost Controller queues its release (R174). -/
def State.softReset (s : State) (copied : Nat) (p : Packet) : State :=
  let s := { s with link := s.link.softReset }.boostSoftReset
  { s with
    sense := s.sense.mapIdx fun _ z => z.softReset (s.timer.mode != .unset)
    path := s.path.mapIdx fun _ x => x.softReset
    tables := s.tables.softReset copied
    engine := Engine.softReset p
    events := Events.initial }

/-- SOFT-RESET, executed at once without waiting for a reply place (R165, R175); one of wrong length is an ordinary command
that is refused, and waits for its place (log 18). -/
def State.runSoftReset (s : State) (copied : Nat) : State :=
  match s.engine.current with
  | some p =>
    if p.commandCode = Code.softReset then
      if commandLengthOk p then s.softReset copied p
      else if s.replyRoom then s.refuse p Status.range
      else s
    else s
  | none => s

/-- SOFT-RESET (R174, R175). -/
def execSoftReset (copied : Nat) (s : State) : Out State := s.live fun s => s.runSoftReset copied

end Sys2Proof.Machine
end

