-- ==== Sys2Proof/Machine/Orders.lean ====
section
/-! DEFINITION. The orders taken from the downstream Pass Buffer: BURST (R16 to R27), REVISE and received AMEND (R35 to
R39), WITHDRAW (R35, R36); and REQUESTED_AMENDMENT (R57 to R61). -/

namespace Sys2Proof.Machine

/-! ### The timing of a BURST -/

/-- The length used for booking, reservation, close and heat charge (R21). -/
def burstLength (start length : Nat) : Nat :=
  let l := max 1 (min 80 length)
  if start ≤ 79 then min l (80 - start) else l

/-- The frame slot the order's frame number names, when it lies in the window (R20). -/
def State.frameSlot (s : State) (frame : Nat) : Option Slot :=
  if frame = s.timer.frame then some .current
  else if frame = nextFrame s.timer.frame then some .next
  else none

/-- The classifications of R22 to R24. -/
inductive Classification where
  | normal
  | late
  | past
  | outOfWindow
  | overlapCommitted
  | scheduleFull
deriving DecidableEq, Repr

/-- R22: the classification by timing of an order whose span begins at `start` and has the clamped length `length`. -/
def State.timing (s : State) (slot : Option Slot) (start length : Nat) : Classification :=
  match slot with
  | none => .outOfWindow
  | some f =>
    if 79 < start then .outOfWindow
    else
      match f with
      | .next => .normal
      | .current =>
        if start + length ≤ s.timer.grain then .past
        else if start < s.timer.grain + (s.bankFor .current).limits.commitLead then .late
        else .normal

/-- The BURST as an order for a slot of the window, the request clamped (R1, R21). -/
def burstOrder (p : Packet) (slot : Slot) (late : Bool) : Order :=
  { tag := p.orderTag
    path := p.orderPath
    band := p.orderBand
    cls := p.orderClass
    modClass := p.orderMod
    slot := slot
    start := p.orderStart
    length := burstLength p.orderStart p.orderLength
    request := clampRequest p.power
    late := late }

/-- The entries of the same path and slot that cover a grain of the order's span (R23). -/
def Schedule.overlapping (c : Schedule) (o : Order) : List Entry :=
  c.entries.filter fun e => e.path == o.path && e.slot == o.slot && spansMeet e.start e.length o.start o.length

/-- R23: the overlapping BOOKED entries removed. -/
def State.supersede (s : State) (o : Order) : State := (s.sched.overlapping o).foldl State.freeEntry s

/-! ### Orders that are not booked -/

/-- R16: min(req, LC), the late ceiling of the bank in force for the current frame. -/
def State.unbookedGrant (s : State) (request : Int) : Int := min request s.limits.lateCeiling

/-- R17: min(req, strap ceiling). -/
def strapGrant (request : Int) (straps : BitVec 2) : Int := min request (strapCeiling straps)

/-- R16, R25: a BURST that is not booked: its heat is charged to its path at once, with the band resolved in the bank in
force for the current frame, and the classification's flag is set. -/
def State.refuseBurst (s : State) (p : Packet) (f : Flag) : State × Int :=
  let b := s.bankFor .current
  let grant := s.unbookedGrant (clampRequest p.power)
  let heat := b.dissipation (b.resolveBand p.orderPath p.orderBand) grant *
    (burstLength p.orderStart p.orderLength : Int)
  ({ s with
     heat := s.heat.charge p.orderPath heat
     events := s.events.raise f }, grant)

/-! ### BURST -/

/-- R23 and R24 for an order classed Late or Normal by its timing: Overlap committed, Schedule full, or booked. -/
def State.bookBurst (s : State) (p : Packet) (o : Order) : State × Int :=
  if (s.sched.overlapping o).any fun e => e.state == .committed then s.refuseBurst p .lateOrder
  else
    let t := s.supersede o
    if scheduleCapacity ≤ t.sched.entries.length then t.refuseBurst p .schedFull
    else
      let r := t.admission o
      (r.1.raiseIf o.late .lateOrder, r.2)

/-- R20 to R27: a BURST taken. Answers the state before the packet is written, and the grant. -/
def State.takeBurst (s : State) (p : Packet) (straps : BitVec 2) : State × Int :=
  if s.timer.mode = .unset then (s, strapGrant (clampRequest p.power) straps)
  else
    let slot := s.frameSlot p.orderFrame
    match s.timing slot p.orderStart (burstLength p.orderStart p.orderLength) with
    | .normal => s.bookBurst p (burstOrder p (slot.getD .current) false)
    | .late => s.bookBurst p (burstOrder p (slot.getD .current) true)
    | _ => s.refuseBurst p .lateOrder

/-! ### REVISE and received AMEND -/

/-- R37: the order computed again for a BOOKED entry. -/
def Entry.revised (e : Entry) (request : Int) : Order :=
  { tag := e.tag
    path := e.path
    band := e.band
    cls := e.cls
    modClass := e.modClass
    slot := e.slot
    start := e.start
    length := e.length
    request := request
    late := false }

/-- R38: a COMMITTED entry lowered to min(new request, old grant), or left as it stands. -/
def State.lowerCommitted (s : State) (e : Entry) (request : Int) : State × Int :=
  if request < e.granted then
    (s.replaceEntry e (e.lowered (s.bankFor e.slot) request .request e.amends), request)
  else (s, e.granted)

/-- R35 to R39: a REVISE, or an AMEND received from the modem, taken. -/
def State.takeRevise (s : State) (p : Packet) (straps : BitVec 2) : State × Int :=
  let request := clampRequest p.power
  if s.timer.mode = .unset then (s, strapGrant request straps)
  else
    match s.sched.find p.orderTag p.orderPath with
    | none => (s, s.unbookedGrant request)
    | some e =>
      match e.state with
      | .booked => (s.freeEntry e).admission (e.revised request)
      | .committed => s.lowerCommitted e request

/-! ### WITHDRAW -/

/-- R36: the matched entry is freed while BOOKED; the packet is unchanged. -/
def State.takeWithdraw (s : State) (p : Packet) : State :=
  match s.sched.find p.orderTag p.orderPath with
  | some e => if e.state = .booked then s.freeEntry e else s
  | none => s

/-! ### The meanings -/

/-- The order next to be taken is of a kind: it is taken whole, `take` gives its grant, and the grant is written into its
packet, which becomes ready (R18 to R20, R152, R153). The straps are read at that moment (R17). -/
def State.takeOrder (s : State) (kind : Nat) (straps : BitVec 2) (take : State → Packet → BitVec 2 → State × Int) : State :=
  match s.link.nextOrder with
  | some p =>
    if p.kind = kind then
      let r := take { s with pins := { s.pins with straps := straps } } p straps
      r.1.writePower r.2
    else s
  | none => s

/-- BURST (R20 to R27). -/
def execBurst (straps : BitVec 2) (s : State) : Out State :=
  s.live fun s => s.takeOrder Kind.burst straps State.takeBurst

/-- REVISE (R35 to R39). -/
def execRevise (straps : BitVec 2) (s : State) : Out State :=
  s.live fun s => s.takeOrder Kind.revise straps State.takeRevise

/-- AMEND_RECEIVED: handled as a REVISE (R39). -/
def execAmendReceived (straps : BitVec 2) (s : State) : Out State :=
  s.live fun s => s.takeOrder Kind.amend straps State.takeRevise

/-- The WITHDRAW next to be taken is taken and becomes ready, unchanged (R36, R152). -/
def State.withdrawNext (s : State) : State :=
  match s.link.nextOrder with
  | some p =>
    if p.kind = Kind.withdraw then
      let t := s.takeWithdraw p
      { t with link := t.link.finishOrder id }
    else s
  | none => s

/-- WITHDRAW (R35, R36). -/
def execWithdraw (s : State) : Out State := s.live State.withdrawNext

/-- REQUESTED_AMENDMENT: the next amendment of request `k` among those in progress (R57, R61). -/
def execRequestedAmendment (k : Nat) (s : State) : Out State := s.live fun s => s.makeRequested k

end Sys2Proof.Machine
end

