-- ==== Sys2Proof/Machine/Resets.lean ====
section
/-! DEFINITION. The meanings of RESET_N_ASSERT and RESET_N_RELEASE (R110, R160), and the two hold-out lines. -/

namespace Sys2Proof.Machine

/-- The part at its hardware reset values with RESET_N at a level. The sampled levels of the other input pins stay, and
the commands not yet taken stay in the queue (log 19). -/
def State.atReset (s : State) (level : Bool) : State :=
  { State.reset with
    pins := { s.pins with resetN := level }
    pending := s.pending }

/-- MD_HOLD_OUT: from the downstream hold state, and asserted while RESET_N is low (R154, R160). -/
def State.mdHoldOut (s : State) : Bool := !s.pins.resetN || s.link.downHold

/-- FE_HOLD_OUT: from the upstream hold state, and asserted while RESET_N is low (R154, R160). -/
def State.feHoldOut (s : State) : Bool := !s.pins.resetN || s.link.upHold

/-- RESET_N_ASSERT: every block goes to its reset values and packets in transmission are cut off (R110, R160). -/
def execResetNAssert (s : State) : Out State := .next (if s.pins.resetN then s.atReset false else s)

/-- RESET_N_RELEASE: the part starts from its reset values at grain 0 of frame 0 (R110, R160). -/
def execResetNRelease (s : State) : Out State := .next (if s.pins.resetN then s else s.atReset true)

end Sys2Proof.Machine
end

