-- ==== Sys2Proof/Machine/Dispatch.lean ====
section
/-! DEFINITION. One arm per command: its effect on everything but the queue of waiting commands. -/

namespace Sys2Proof.Machine

def exec (i : Instr) (s : State) : Host.Outcome State Fault Refusal :=
  match i with
  | .resetNAssert => Sys2Proof.Machine.execResetNAssert s
  | .resetNRelease => Sys2Proof.Machine.execResetNRelease s
  | .grainEvent => Sys2Proof.Machine.execGrainEvent s
  | .awaitingWindowEnd => Sys2Proof.Machine.execAwaitingWindowEnd s
  | .timerFrameTurn o => Sys2Proof.Machine.execTimerFrameTurn o s
  | .bankSwitch k => Sys2Proof.Machine.execBankSwitch k s
  | .supplyStale k => Sys2Proof.Machine.execSupplyStale k s
  | .tripClear path k => Sys2Proof.Machine.execTripClear path k s
  | .barExpiry path k => Sys2Proof.Machine.execBarExpiry path k s
  | .zoneStale zone k => Sys2Proof.Machine.execZoneStale zone k s
  | .pollExpiry zone k => Sys2Proof.Machine.execPollExpiry zone k s
  | .boostQuietRelease k => Sys2Proof.Machine.execBoostQuietRelease k s
  | .boostCooldownEnd k => Sys2Proof.Machine.execBoostCooldownEnd k s
  | .boostWaitExpiry k => Sys2Proof.Machine.execBoostWaitExpiry k s
  | .frameMark p o => Sys2Proof.Machine.execFrameMark p o s
  | .burst straps => Sys2Proof.Machine.execBurst straps s
  | .revise straps => Sys2Proof.Machine.execRevise straps s
  | .amendReceived straps => Sys2Proof.Machine.execAmendReceived straps s
  | .withdraw => Sys2Proof.Machine.execWithdraw s
  | .tempReport p => Sys2Proof.Machine.execTempReport p s
  | .supplyReport p => Sys2Proof.Machine.execSupplyReport p s
  | .tripReport p => Sys2Proof.Machine.execTripReport p s
  | .requestedAmendment k => Sys2Proof.Machine.execRequestedAmendment k s
  | .boostReady p => Sys2Proof.Machine.execBoostReady p s
  | .passPacketArrival port p => Sys2Proof.Machine.execPassPacketArrival port p s
  | .malformedPacket port p => Sys2Proof.Machine.execMalformedPacket port p s
  | .misdirectedPacket port p => Sys2Proof.Machine.execMisdirectedPacket port p s
  | .govCommandArrival p => Sys2Proof.Machine.execGovCommandArrival p s
  | .commandTake => Sys2Proof.Machine.execCommandTake s
  | .unknownCommand => Sys2Proof.Machine.execUnknownCommand s
  | .readStatus => Sys2Proof.Machine.execReadStatus s
  | .readEvents => Sys2Proof.Machine.execReadEvents s
  | .setMask => Sys2Proof.Machine.execSetMask s
  | .readZone => Sys2Proof.Machine.execReadZone s
  | .readPath => Sys2Proof.Machine.execReadPath s
  | .readSchedule => Sys2Proof.Machine.execReadSchedule s
  | .setCap => Sys2Proof.Machine.execSetCap s
  | .clearBar => Sys2Proof.Machine.execClearBar s
  | .readTable copied => Sys2Proof.Machine.execReadTable copied s
  | .writeTable => Sys2Proof.Machine.execWriteTable s
  | .launch => Sys2Proof.Machine.execLaunch s
  | .recallLaunch => Sys2Proof.Machine.execRecall s
  | .copy => Sys2Proof.Machine.execCopy s
  | .copyComplete => Sys2Proof.Machine.execCopyComplete s
  | .softReset copied => Sys2Proof.Machine.execSoftReset copied s
  | .downstreamGrant hold => Sys2Proof.Machine.execDownstreamGrant hold s
  | .upstreamGrant hold => Sys2Proof.Machine.execUpstreamGrant hold s

end Sys2Proof.Machine
end

