-- ==== Sys2Proof/Safety.lean ====
section
/-! DEFINITION. The standing properties of the part: the laws of the device that hold in every state a run reaches, and the
ranges and shapes its rules give its state. None of them speaks of the queue of waiting commands. -/

namespace Sys2Proof.Machine

/-- Law 10 (R156), the notice slot apart, which holds one notice by its type. Claimed slots count against the Originated
Queue (R156). -/
def State.queuesBounded (s : State) : Prop :=
  s.engine.queue.length ≤ 8 ∧ s.engine.replies.length ≤ 8 ∧ s.link.orig.length + s.supply.claimed ≤ 12 ∧
    s.link.down.length ≤ 16 ∧ s.link.up.length ≤ 16

/-- The hold state agrees with the buffer's count wherever R154 fixes it. -/
def holdFits (count : Nat) (hold : Bool) : Prop := (12 ≤ count → hold = true) ∧ (count ≤ 8 → hold = false)

/-- Both hold states agree with their counts (R154), and the originated run count is 0 to 2 (R158). -/
def Link.sound (l : Link) : Prop :=
  holdFits l.down.length l.downHold ∧ holdFits l.up.length l.upHold ∧ l.run ≤ 2

/-- The ranges of R110; in SYNCED no mark is missed. -/
def FrameTimer.sound (t : FrameTimer) : Prop :=
  t.frame < 256 ∧ t.grain < 80 ∧ t.missed ≤ 255 ∧ t.run ≤ 255 ∧ (t.state = .synced → t.missed = 0)

/-- The mode is UNSET exactly while no bank has been switched in (R117, R138). -/
def State.modeFollowsBank (s : State) : Prop := s.timer.mode = .unset ↔ s.tables.active = none

/-- A bank has passed validation (R131, R132). -/
def Bank.valid (b : Bank) : Prop := b.validate = none

/-- What holds of the pending switch: its bank is marked and not the active one, with 1 or 2 turns remaining, and no copy
runs (R136, R137, R141). -/
def Tables.pendingSound (t : Tables) : Prop :=
  ∀ b n, t.pending = some (b, n) → t.mark b = true ∧ t.active ≠ some b ∧ (n = 1 ∨ n = 2) ∧ t.copy = none

/-- What holds of a running copy: its destination is the other bank than the active one and is not marked, its progress is
at most 4096 words, the words below the progress are the source's (R141, R142). -/
def Tables.copySound (t : Tables) : Prop :=
  ∀ c, t.copy = some c → t.active = some c.source ∧ t.mark c.dest = false ∧ c.progress ≤ bankSize ∧
    ∀ a, a < c.progress → (t.bank c.dest).read a = (t.bank c.source).read a

/-- Law 8 and what keeps it: banks in canonical form (log 15), a marked bank has passed validation (R133), the active bank
is marked (R138). -/
def Tables.sound (t : Tables) : Prop :=
  t.bank0.wf = true ∧ t.bank1.wf = true ∧
    (∀ b, t.mark b = true → (t.bank b).valid) ∧
    (∀ b, t.active = some b → t.mark b = true) ∧
    t.pendingSound ∧ t.copySound

/-- An entry's span lies within its frame (R21, R28). -/
def Entry.spanOk (e : Entry) : Prop := 1 ≤ e.length ∧ e.start + e.length ≤ 80

/-- Two entries cover a same grain of a same frame on a same path. -/
def Entry.collides (e f : Entry) : Bool :=
  e.path == f.path && e.slot == f.slot && spansMeet e.start e.length f.start f.length

/-- Law 2 (R29): at most 32 entries, no two of which collide; spans within their frames; serials that rise along the booking
order (log 14). -/
def Schedule.sound (c : Schedule) : Prop :=
  c.entries.length ≤ 32 ∧
    c.entries.Pairwise (fun e f => e.serial < f.serial ∧ e.collides f = false) ∧
    (∀ e ∈ c.entries, e.spanOk ∧ e.serial < c.nextSerial)

/-- The Supply Map has its 160 rows (R47), the voltage and the age lie in their ranges (R44). -/
def Headroom.sound (h : Headroom) : Prop := h.map.length = 160 ∧ h.volts ≤ 6000 ∧ h.age ≤ 255

/-- A heat value lies in its range (R70, R74). -/
def inHeatRange (x : Int) : Prop := 0 ≤ x ∧ x ≤ heatMax

/-- Law 6 (R74) for accounts and accumulators. -/
def Heat.sound (h : Heat) : Prop := ∀ i, inHeatRange (h.acc.get i) ∧ inHeatRange (h.account.get i)

/-- A zone's sensed temperature, age and poll spacing lie in their ranges (R78); a poll is outstanding or due only for a
zone that is not FRESH (R79, R81). -/
def Sense.sound (z : Sense) : Prop :=
  (-160 ≤ z.sensed ∧ z.sensed ≤ 600) ∧ z.age ≤ 255 ∧ z.spacing ≤ 255 ∧ (z.fresh = .fresh → z.poll = none ∧ z.pollDue = false)

/-- Law 9 (R63): a request is due only in OFF, so none is queued while one is outstanding; the wait timer runs exactly in
REQUESTED (R62). -/
def Boost.sound (b : Boost) : Prop :=
  (b.requestDue = true → b.state = .off) ∧ (b.state = .requested ↔ b.wait.isSome = true)

/-- Law 5 (R97): every zone back-off and every thermal back-off lies in 0 to 255. -/
def State.backoffsSound (s : State) : Prop :=
  (∀ z, 0 ≤ (s.control.get z).backoff ∧ (s.control.get z).backoff ≤ 255) ∧
    ∀ p, 0 ≤ (s.path.get p).thermal ∧ (s.path.get p).thermal ≤ 255

/-- What stands while the mode is UNSET: an empty schedule and map (R42), S at 0 (R46), no heat (R70), no request, no packet
made, Boost OFF, controllers at rest (R90), paths CLEAR (R100). -/
def State.quiet (s : State) : Prop :=
  s.sched.entries = [] ∧ s.supply.ceiling = 0 ∧ (∀ g, rowOf s.supply.map g = 0) ∧ s.supply.requests = [] ∧
    s.link.orig = [] ∧ s.boost.state = .off ∧ s.boost.requestDue = false ∧ s.boost.releaseDue = false ∧
    (∀ i, s.heat.acc.get i = 0 ∧ s.heat.account.get i = 0 ∧ s.heat.seeded.get i = false) ∧
    (∀ z, s.control.get z = ⟨.steady, 0, 0, false⟩ ∧ (s.sense.get z).poll = none ∧ (s.sense.get z).pollDue = false) ∧
    ∀ p, (s.path.get p).state = .clear ∧ (s.path.get p).trip = 0 ∧ (s.path.get p).barLeft = 0 ∧
      (s.path.get p).thermal = 0

/-- R27, R42: while the mode is UNSET the part stands quiet. -/
def State.quietInUnset (s : State) : Prop := s.timer.mode = .unset → s.quiet

/-! ### Names the statements use -/

/-- The command by which an indication of the clock comes without anything named coming about in it. -/
def commandOf : Clock → Instr
  | .grain => .grainEvent
  | .timer o => .timerFrameTurn o
  | .mark p o => .frameMark p o

/-- The frame turn an indication makes, if it makes one: the timer's at grain 79 (R112), or that of a mark that finds a place
in the Pass Buffer and comes at or after grain tol (R113, R115). -/
def State.turnOf (s : State) : Clock → Option (Turn × TurnOrder)
  | .grain => none
  | .timer o => if s.timer.grain = 79 then some (.timer, o) else none
  | .mark p o =>
    if classify .modem p = .mark ∧ s.link.full .modem = false ∧ s.tolerance ≤ s.timer.grain then
      some (.mark ((p.word 0).toNat % 256), o)
    else none

/-- The state an indication's turn is made from: a mark has entered the downstream Pass Buffer (R113). -/
def State.beforeTurn (s : State) : Clock → State
  | .mark p _ => { s with link := s.link.enterDown p true }
  | _ => s

/-- The bank in force for the frame that a turn begins, if one is (R130, R138). -/
def State.bankBegun (s : State) : Bank := (s.tables.turned.inForce .current).getD Bank.zero

/-- The mode after a turn has set the Frame Timer's own state and before SAFE entry and exit: GOVERNING from the first
switch (R117). -/
def State.modeBegun (s : State) : Mode := if s.tables.firstSwitch then .governing else s.timer.mode

/-- Section 8.7: bits `hi` down to `lo` of a word as a number; bit 15 is the most significant. -/
def wordBits (w : Word) (hi lo : Nat) : Nat := w.toNat / 2 ^ lo % 2 ^ (hi + 1 - lo)

/-- The command of each execution row, by its code; the two with an operand say how far a running copy is. -/
def commandRow (copied : Nat) (code : Nat) : Option Instr :=
  if code = 0x01 then some .readStatus
  else if code = 0x02 then some .readEvents
  else if code = 0x03 then some .setMask
  else if code = 0x04 then some .readZone
  else if code = 0x05 then some .readPath
  else if code = 0x06 then some .readSchedule
  else if code = 0x07 then some .setCap
  else if code = 0x08 then some .clearBar
  else if code = 0x10 then some (.readTable copied)
  else if code = 0x11 then some .writeTable
  else if code = 0x12 then some .launch
  else if code = 0x13 then some .recallLaunch
  else if code = 0x14 then some .copy
  else if code = 0x1F then some (.softReset copied)
  else none

/-! ### What a clock event sets, takes and asks for (R98, R156, R177) -/

/-- R177: one content of the Event Register comes from another by settings of flags, one after the other, and the flags set are
exactly those that meet `P`. -/
def Events.sets (e : Events) (P : Flag → Prop) (e' : Events) : Prop :=
  ∃ raised : List Flag, e' = raised.foldl (fun e f => e.raise f) e ∧ ∀ f, f ∈ raised ↔ P f

/-- R66: this clock event brings the boost wait timer to 0. -/
def State.boostRunsOut (s : State) : Prop := s.boost.state = .requested ∧ ∃ n, s.boost.wait = some n ∧ n ≤ 1

/-- R83: this clock event brings a zone's poll wait timer to 0. -/
def State.pollRunsOut (s : State) : Prop := ∃ (z : Fin 4) (n : Nat), (s.sense.get z).poll = some n ∧ n ≤ 1

/-- The flags a grain event sets from one state to another, the end of the AWAITING window apart: TIER where a controller that
took its estimate changed its state (R96), BOOST_FAIL and BLIND where a timer ran out (R66, R83). -/
def State.grainSets (s t : State) (f : Flag) : Prop :=
  (f = .tier ∧ ∃ z, (t.control.get z).state ≠ (s.control.get z).state) ∨ (f = .boostFail ∧ s.boostRunsOut) ∨
    (f = .blind ∧ s.pollRunsOut)

/-- R98: a zone's controller once it has taken an estimate left from the frame before (log 6). -/
def State.caughtUp (s : State) (z : Fin 4) : Control :=
  if (s.control.get z).presented then
    (s.control.get z).update ((s.bankFor .current).zone z) (s.heat.estimate.get z)
  else s.control.get z

/-- The flags a frame turn sets from one state to another: SLIP at a mark that comes early or with another number than the next
(R115), FRAME_LOST at a timer's turn in HOLDOVER (R112), LAUNCHED at a switch (R138), SAFE at SAFE entry (R117), TIER where a
controller's update changed its state (R96), BOOST_FAIL and BLIND where a timer ran out (R66, R83). -/
def State.turnSets (s : State) (turn : Turn) (t : State) (f : Flag) : Prop :=
  (f = .slip ∧ ∃ m, turn = .mark m ∧ (s.timer.grain < 80 - s.tolerance ∨ m ≠ (s.timer.frame + 1) % 256)) ∨
  (f = .frameLost ∧ turn = .timer ∧ s.timer.state = .holdover) ∨
  (f = .launched ∧ ∃ b n, s.tables.pending = some (b, n) ∧ n ≤ 1) ∨
  (f = .safe ∧ t.timer.mode = .safe ∧ s.modeBegun ≠ .safe) ∨
  (f = .tier ∧ ∃ z, (s.caughtUp z).state ≠ (s.control.get z).state ∨ (t.control.get z).state ≠ (s.caughtUp z).state) ∨
  (f = .boostFail ∧ s.boostRunsOut) ∨ (f = .blind ∧ s.pollRunsOut)

/-- R156: the orders of a turn's users in which due polls are answered before the Boost Controller (log 5). -/
def pollsAhead (q : QueueOrder) : Prop := q = .pollBoostSafe ∨ q = .pollSafeBoost ∨ q = .safePollBoost

/-- R156: the orders of a turn's users in which a SAFE request is answered before the Boost Controller (log 5). -/
def safeAhead (q : QueueOrder) : Prop := q = .pollSafeBoost ∨ q = .safePollBoost ∨ q = .safeBoostPoll

/-- R156: the orders of a turn's users in which due polls are answered before a SAFE request (log 5). -/
def pollsBeforeSafe (q : QueueOrder) : Prop := q = .pollBoostSafe ∨ q = .pollSafeBoost ∨ q = .boostPollSafe

/-- R98, R97: every controller that still had an estimate to take has taken it (log 6), and then every path's thermal back-off is
the greatest over the zones of ceil(B × weight / 15), at least 0; where none had, no path has changed. -/
def State.takesHeld (s t : State) : Prop :=
  let ceiled := fun (p y : Fin 4) => -((-((t.control.get y).backoff * (s.bankFor .current).weight p y)) / 15)
  (∀ z, t.control.get z = s.caughtUp z) ∧ t.updates = [] ∧
  ((∃ z, (s.control.get z).presented = true) → ∀ p,
    (∀ y, ceiled p y ≤ (t.path.get p).thermal) ∧ 0 ≤ (t.path.get p).thermal ∧
      ((t.path.get p).thermal = 0 ∨ ∃ y, (t.path.get p).thermal = ceiled p y)) ∧
  ((∀ z, (s.control.get z).presented = false) → t.control = s.control ∧ t.path = s.path)

/-! ### Validation as the rules give it (R125, R131, R132) -/

/-- The first check of a list that fails gives its reason. -/
def firstFails : List (Prop × FailReason) → FailReason → Prop
  | [], _ => False
  | (fails, q) :: rest, r => (fails ∧ r = q) ∨ (¬ fails ∧ firstFails rest r)

/-- R125: the words of a record, and the least and greatest count, of each table kind. -/
def tableShape (kind : Nat) : Nat × Nat × Nat :=
  match kind with
  | 1 => (21, 1, 1)
  | 2 => (18, 4, 4)
  | 3 => (1, 16, 16)
  | 4 => (5, 1, 128)
  | 5 => (16, 1, 64)
  | 6 => (1, 8, 8)
  | 7 => (18, 1, 1)
  | _ => (0, 1, 0)

/-- R125: the kind, base and count of directory entry `i`. -/
def Bank.kindAt (b : Bank) (i : Nat) : Nat := (b.read (3 * i)).toNat
def Bank.baseAt (b : Bank) (i : Nat) : Nat := (b.read (3 * i + 1)).toNat
def Bank.countAt (b : Bank) (i : Nat) : Nat := (b.read (3 * i + 2)).toNat

/-- R125: a word lies in the region of entry `i`. -/
def Bank.inRegion (b : Bank) (i w : Nat) : Prop :=
  b.baseAt i ≤ w ∧ w < b.baseAt i + (tableShape (b.kindAt i)).1 * b.countAt i

/-- R131: entry `i` ends the first pass with this reason, when no earlier entry has ended it. -/
def Bank.entryFails (b : Bank) (i : Nat) (r : FailReason) : Prop :=
  b.kindAt i ≠ 0 ∧ firstFails
    [ (7 < b.kindAt i, .badValue),
      (∃ j, j < i ∧ b.kindAt j = b.kindAt i, .duplicateKind),
      (¬ ((tableShape (b.kindAt i)).2.1 ≤ b.countAt i ∧ b.countAt i ≤ (tableShape (b.kindAt i)).2.2), .badCount),
      (b.baseAt i < 48 ∨ ∃ w, b.inRegion i w ∧ 4095 < w, .outOfBank),
      (∃ j w, j < i ∧ b.kindAt j ≠ 0 ∧ b.inRegion i w ∧ b.inRegion j w, .overlap) ] r

/-- R126 to R129, R132: the checks of a record of a table kind that begins at offset `a`, `k` records after the table's first,
in their order, each with the reason of its failure. -/
def Bank.checks (b : Bank) (kind a k : Nat) : List (Prop × FailReason) :=
  let u := fun i => (b.read (a + i)).toNat
  let c := fun i => (b.read (a + i)).toInt
  let code := fun x : Int => -400 ≤ x ∧ x ≤ 272
  let temp := fun x : Int => -160 ≤ x ∧ x ≤ 600
  let between := fun (lo x hi : Nat) => lo ≤ x ∧ x ≤ hi
  let names := fun (j word : Nat) => j < b.count Table.bands ∧ (b.read (b.record Table.bands j)).toNat = word
  match kind with
  | 1 =>
    [ (¬ (code (c 0) ∧ code (c 1) ∧ code (c 2) ∧ between 1 (u 3) 255 ∧ between 1 (u 4) 1000 ∧ between 1 (u 5) 1000 ∧
          between 1 (u 6) 16 ∧ between (u 6) (u 7) 40 ∧ u 8 ≤ 255 ∧ between 1 (u 9) 255 ∧ between 1 (u 10) 1000 ∧
          between 1 (u 11) 8 ∧ between 1 (u 12) 16 ∧ between 1 (u 13) 16 ∧ between 1 (u 14) 80 ∧ between 1 (u 15) 13 ∧
          between 1 (u 16) 13 ∧ ∀ p, p < 4 → u (17 + p) ≤ 31), .badValue),
      (∃ p, p < 4 ∧ ∀ j, ¬ names j (p * 32 + u (17 + p)), .badRef) ]
  | 2 =>
    [ (¬ (temp (c 0) ∧ 1 ≤ u 1 ∧ between 1 (u 2) 4095 ∧ u 3 ≤ 255 ∧ (∀ i, 4 ≤ i → i ≤ 10 → temp (c i)) ∧
          between 1 (u 11) 32 ∧ between 1 (u 12) 64 ∧ between 1 (u 13) 16 ∧ u 14 ≤ 255 ∧ u 15 ≤ 1000 ∧
          between 1 (u 16) 254 ∧ u 17 ≤ 255), .badValue),
      (¬ (c 5 < c 6 ∧ c 6 ≤ c 7 ∧ c 7 < c 8 ∧ c 8 < c 9 ∧ c 9 < c 10), .badOrder) ]
  | 3 => [(256 < u 0 % 512 ∨ 15 < u 0 / 512, .badValue)]
  | 4 =>
    [ (127 < u 0 ∨ ¬ code (c 1) ∨ ¬ code (c 2) ∨ ¬ code (c 3) ∨ 4095 < u 4, .badValue),
      (¬ (c 2 ≤ c 3 ∧ c 3 ≤ c 1), .badOrder),
      (b.count Table.curves ≤ u 4 / 64 ∨ b.count Table.curves ≤ u 4 % 64 ∨
        ∃ i, i < 8 ∧ 8191 < (b.read (b.record Table.curves (u 4 % 64) + 2 * i + 1)).toNat, .badRef),
      (∃ j, j < k ∧ (b.read (b.record Table.bands j)).toNat = u 0, .duplicateBand) ]
  | 5 =>
    [ (∃ i, i < 8 ∧ (¬ code (c (2 * i)) ∨ 16383 < u (2 * i + 1)), .badValue),
      (∃ i, i < 7 ∧ (c (2 * i + 2) ≤ c (2 * i) ∨ u (2 * i + 3) < u (2 * i + 1)), .notMonotone) ]
  | 6 => [(64 < u 0, .badValue)]
  | 7 =>
    [ ((∃ i, i < 8 ∧ (6000 < u (2 * i) ∨ 8191 < u (2 * i + 1))) ∨ ¬ between 1 (u 16) 254 ∨ 8191 < u 17, .badValue),
      (∃ i, i < 7 ∧ u (2 * i + 2) ≤ u (2 * i), .notMonotone) ]
  | _ => []

/-- R132: record `k` of entry `i` fails with this reason, when no earlier record has failed. -/
def Bank.recordFails (b : Bank) (i k : Nat) (r : FailReason) : Prop :=
  b.kindAt i ≠ 0 ∧ k < b.countAt i ∧
    firstFails (b.checks (b.kindAt i) (b.baseAt i + (tableShape (b.kindAt i)).1 * k) k) r

/-- R131, R132: the directory index and reason with which validation ends. -/
def Bank.fails (b : Bank) (i : Nat) (r : FailReason) : Prop :=
  let passed := fun n => ∀ j, j < n → ∀ q, ¬ b.entryFails j q
  let absent := ∃ kind, 1 ≤ kind ∧ kind ≤ 7 ∧ ∀ j, j < 16 → b.kindAt j ≠ kind
  (i < 16 ∧ passed i ∧ b.entryFails i r) ∨
    (passed 16 ∧ absent ∧ i = 16 ∧ r = .missingKind) ∨
    (passed 16 ∧ ¬ absent ∧ i < 16 ∧ ∃ k, b.recordFails i k r ∧
      ∀ j m, j < i ∨ (j = i ∧ m < k) → ∀ q, ¬ b.recordFails j m q)

/-! ### An admission as the rules give it (R13, R50 to R56, R63, R64) -/

/-- A current fits every row of a span (R50, R52). -/
def rowsFit (ceiling : Int) (m : List Int) (lo len : Nat) (cur : Int) : Prop :=
  ∀ g, lo ≤ g → g < lo + len → cur ≤ ceiling - rowOf m g

/-- The current of an entry at a code, with the current curve of its band in the bank in force for its frame (R4, R30). -/
def State.currentOf (s : State) (e : Entry) (code : Int) : Int :=
  (s.bankFor e.slot).current ((s.bankFor e.slot).resolveBand e.path e.band) code

/-- R51: the candidates of a fit. The entries that meet its conditions, ranked by class, lowest first, and within a class by
booking rank, highest first (a later booking has the greater serial), as many as there are free slots; none for a Late order. -/
def State.candidatesAre (s : State) (w : WorkingRecord) (cs : List Entry) : Prop :=
  (w.order.late = true → cs = []) ∧
  (w.order.late = false → ∃ ranked : List Entry,
    cs = ranked.take (12 - s.link.orig.length - s.supply.claimed) ∧
    ranked.Pairwise (fun a b => a.cls < b.cls ∨ (a.cls = b.cls ∧ b.serial < a.serial)) ∧
    ∀ e, e ∈ ranked ↔ e ∈ s.sched.entries ∧ e.state = .booked ∧
      s.timer.grain + (s.bankFor e.slot).limits.amendLead ≤ e.row ∧ e.path ≠ w.order.path ∧ e.cls < w.order.cls ∧
      (∃ g, e.row ≤ g ∧ g < e.row + e.length ∧ w.row ≤ g ∧ g < w.row + w.order.length) ∧ e.lower < e.granted)

/-- R52: the planned code of a candidate the walk reaches with a planned map, for a target current: the largest code from its
lower bound to its grant at which every shared row carries the target, or the lower bound when there is none. -/
def State.planned (s : State) (w : WorkingRecord) (target : Int) (m : List Int) (e : Entry) (code : Int) : Prop :=
  let carries := fun q : Int => ∀ g, e.row ≤ g → g < e.row + e.length → w.row ≤ g → g < w.row + w.order.length →
    rowOf m g - s.currentOf e e.granted + s.currentOf e q + target ≤ s.supply.ceiling
  (e.lower ≤ code ∧ code ≤ e.granted ∧ carries code ∧ ∀ q, code < q → q ≤ e.granted → ¬ carries q) ∨
    (code = e.lower ∧ ∀ q, e.lower ≤ q → q ≤ e.granted → ¬ carries q)

/-- R52: the walk over candidates from a planned map on: the candidates planned below their grants with their codes, and the
planned map at its end. It stops as soon as the target fits. -/
inductive Walk (s : State) (w : WorkingRecord) (target : Int) : List Entry → List Int → List (Entry × Int) → List Int → Prop
  | fits {cs m} : rowsFit s.supply.ceiling m w.row w.order.length target → Walk s w target cs m [] m
  | done {m} : ¬ rowsFit s.supply.ceiling m w.row w.order.length target → Walk s w target [] m [] m
  | next {e cs m code plan m'} : ¬ rowsFit s.supply.ceiling m w.row w.order.length target → s.planned w target m e code →
      Walk s w target cs (addRows m e.row e.length (s.currentOf e code - s.currentOf e e.granted)) plan m' →
      Walk s w target (e :: cs) m (if code < e.granted then (e, code) :: plan else plan) m'

/-- R50, R53, R54: what the fit of the order in hand grants, with which limit reason, and which amendments it commits. -/
def State.fitIs (s : State) (w : WorkingRecord) (grant : Int) (reason : Reason) (plan : List (Entry × Int)) : Prop :=
  let p1 := w.firstGrant
  let stands := w.terms.reason w.order.request
  (w.order.request = muteCode → grant = muteCode ∧ reason = stands ∧ plan = []) ∧
  (w.order.request ≠ muteCode → ∃ cs plan₁ ended, s.candidatesAre w cs ∧
    Walk s w (w.current p1) cs s.supply.map plan₁ ended ∧
    (rowsFit s.supply.ceiling ended w.row w.order.length (w.current p1) → grant = p1 ∧ reason = stands ∧ plan = plan₁) ∧
    (¬ rowsFit s.supply.ceiling ended w.row w.order.length (w.current p1) →
      let atBounds := fun p : Int => ∀ g, w.row ≤ g → g < w.row + w.order.length →
        w.current p ≤ s.supply.ceiling - rowOf s.supply.map g +
          ((cs.filter fun e => e.row ≤ g && g < e.row + e.length).map
            fun e => s.currentOf e e.granted - s.currentOf e e.lower).sum
      ((∃ p, w.lower ≤ p ∧ p ≤ p1 ∧ atBounds p) →
        w.lower ≤ grant ∧ grant ≤ p1 ∧ atBounds grant ∧ (∀ p, grant < p → p ≤ p1 → ¬ atBounds p) ∧ reason = .supply ∧
        ∃ m, Walk s w (w.current grant) cs s.supply.map plan m) ∧
      ((∀ p, w.lower ≤ p → p ≤ p1 → ¬ atBounds p) → grant = muteCode ∧ reason = .mute ∧ plan = [])))

/-- R13, R63: the state after an order's boost demand has been handed over. -/
def State.afterDemand (s : State) (w : WorkingRecord) : State :=
  let asks := w.terms.demandsBoost w.order.request && s.boost.state == .off && !s.boost.requestDue
  let queues := asks && !s.boost.releaseDue && decide (s.link.orig.length + s.supply.claimed < 12)
  { s with
    boost :=
      if queues then { s.boost with state := .requested, wait := some s.limits.boostWait }
      else if asks then { s.boost with requestDue := true }
      else s.boost
    link := { s.link with orig := s.link.orig ++ (if queues then [⟨s.limits.supplyTag, 7, 0, []⟩] else []) } }

/-- An entry as the amendments of a plan leave it (R41, R55). -/
def State.amendedBy (s : State) (plan : List (Entry × Int)) (x : Entry) : Entry :=
  match plan.find? fun a => a.1.serial == x.serial with
  | some a =>
    let b := s.bankFor x.slot
    { x with
      granted := a.2
      reserved := s.currentOf x a.2
      dissipation := b.dissipation (b.resolveBand x.path x.band) a.2
      reason := .amended
      amends := min 255 (x.amends + 1) }
  | none => x

/-- R18: what the admission of an order makes of a state, from its ceiling to its booking, and the code it grants. The order's
boost demand is handed over, the fit decides, the amendments of its plan are made and announced in the walk's order, the entry
joins the end of the list and its current its rows, a grant above the boost threshold is noted in READY, a mute by supply sets
MUTE. Nothing else changes. -/
def State.admits (s : State) (o : Order) (t : State) (grant : Int) : Prop :=
  let w := s.workingRecord o
  let u := s.afterDemand w
  ∃ plan reason, u.fitIs w grant reason plan ∧
    let e : Entry := ⟨s.sched.nextSerial, o.tag, o.path, w.band.band, o.cls, o.modClass, o.slot, o.start, o.length, o.request,
      grant, w.lower, w.current grant, w.bank.dissipation w.band grant, if o.late then .committed else .booked, reason, 0⟩
    let amended := plan.foldl (fun m a => addRows m a.1.row a.1.length (s.currentOf a.1 a.2 - a.1.reserved)) s.supply.map
    t = { u with
      sched := ⟨s.sched.entries.map (s.amendedBy plan) ++ [e], s.sched.nextSerial + 1⟩
      supply := { s.supply with map := addRows amended w.row o.length e.reserved }
      link := { u.link with orig := u.link.orig ++ plan.map fun a =>
        ⟨14, 5, 0, [BitVec.ofNat 16 (a.1.tag * 256 + a.1.path.val * 64), BitVec.ofInt 16 a.2]⟩ }
      boost := if u.boost.state = .ready ∧ w.bank.limits.boostThreshold < grant then
        { u.boost with quiet := 0, boosted := true } else u.boost
      events := if reason = .mute then s.events.raise .mute else s.events }

/-- A power code the part holds: mute, or a code of the valid range (R1, R28). -/
def codeRange (x : Int) : Prop := x = muteCode ∨ (minCode ≤ x ∧ x ≤ maxCode)

/-- R4, R30: every entry carries the current and the dissipation of its band at its grant, in the bank in force for its frame;
its fields lie in their ranges (R28), its grant does not exceed its request (Law 1), and only a mute request has a mute lower
bound (R12). -/
def State.entriesPriced (s : State) : Prop :=
  ∀ e ∈ s.sched.entries,
    e.reserved = s.currentOf e e.granted ∧
    e.dissipation = (s.bankFor e.slot).dissipation ((s.bankFor e.slot).resolveBand e.path e.band) e.granted ∧
    e.band < 32 ∧ e.cls < 4 ∧ e.amends ≤ 255 ∧ codeRange e.requested ∧ codeRange e.granted ∧ codeRange e.lower ∧
    e.granted ≤ e.requested ∧ (e.lower = muteCode → e.requested = muteCode)

/-- R47: every row of the Supply Map holds at least the sum of the reserved currents of the entries whose spans cover it, and at
most 8191. -/
def State.mapSound (s : State) : Prop :=
  ∀ g, g < 160 →
    ((s.sched.entries.filter fun e => e.row ≤ g && g < e.row + e.length).map fun e => e.reserved).sum ≤ rowOf s.supply.map g ∧
    rowOf s.supply.map g ≤ 8191

/-- Ranges that hold with validated banks: S (R44), estimates (Law 6, R74), the Boost Controller's timer and counts, a release due
only in OFF and FAILED (R62, R68), trip back-off, bar frames left and cap (R99). -/
def State.ranged (s : State) : Prop :=
  (0 ≤ s.supply.ceiling ∧ s.supply.ceiling ≤ 8191) ∧
  (∀ z, -160 ≤ s.heat.estimate.get z ∧ s.heat.estimate.get z ≤ 600) ∧
  ((∀ n, s.boost.wait = some n → n ≤ 255) ∧ s.boost.quiet ≤ 1000 ∧ s.boost.cooldown ≤ 1000 ∧
    (s.boost.releaseDue = true → s.boost.state = .off ∨ s.boost.state = .failed)) ∧
  ∀ p, (0 ≤ (s.path.get p).trip ∧ (s.path.get p).trip ≤ 255) ∧ (s.path.get p).barLeft ≤ 1000 ∧
    ∀ c, (s.path.get p).cap = some c → minCode ≤ c ∧ c ≤ maxCode

end Sys2Proof.Machine
end

