-- ==== Sys2Proof/Certificates/Slice0/Obligations.lean ====
section
/-! DEFINITION. The statements about this model, for the provers. Each holds in every state that meets its premises, reached
by a run or not; where a law needs the state's invariant, the invariant is a premise, and its being kept is a statement of
its own. -/

open Sys2Proof Sys2Proof.Machine

/-! ### The step -/

/-- A step executes the command at the front of the queue with the queue's rest. On an empty queue a zone's controller that
still has an estimate to take takes it, one at a time and in the order the turn's operand gave (R98, log 6); with no such zone,
and while RESET_N is low, the state stays as it is. What an empty queue does is the model's choice (log 2, log 6). -/
def Obligations.StepExecutesTheFrontCommand : Prop :=
  (∀ (c : Instr) (rest : List Instr) (s : State), s.pending = c :: rest → step s = exec c { s with pending := rest }) ∧
    ∀ s : State, s.pending = [] →
      ((s.pins.resetN = false ∨ ∀ z, (s.control.get z).presented = false) → step s = .next s) ∧
      ∀ z : Fin 4, s.pins.resetN = true →
        ((s.updates ++ [0, 1, 2, 3]).find? fun y => (s.control.get y).presented) = some z →
        step s = .next (s.runController z)

/-- No command stops the part, and none changes the queue of waiting commands.
While RESET_N is low nothing but its release acts on the part; while it is high its release does nothing. -/
def Obligations.EveryCommandAnswersANextState : Prop :=
  (∀ (c : Instr) (s : State), ∃ t, exec c s = .next t ∧ t.pending = s.pending) ∧
  ((∀ (c : Instr) (s : State), s.pins.resetN = false → c ≠ .resetNRelease → exec c s = .next s) ∧
     ∀ s : State, s.pins.resetN = true → exec .resetNRelease s = .next s)

/-! ### Reset -/

/-- RESET_N going low puts every block at its reset values and asserts both hold-out lines; going high it starts the part from
those values with both lines released. The sampled levels of the other pins stay (the model's choice, log 19).
The values of hardware reset that the rules give, block by block. -/
def Obligations.HardwareResetLoadsTheResetValues : Prop :=
  ((∀ s : State, s.pins.resetN = true → ∃ t, exec .resetNAssert s = .next t ∧
     t.pins = { s.pins with resetN := false } ∧ t.mdHoldOut = true ∧ t.feHoldOut = true ∧
     { t with pins := s.pins, pending := s.pending } = { State.reset with pins := s.pins, pending := s.pending }) ∧
   ∀ s : State, s.pins.resetN = false → ∃ t, exec .resetNRelease s = .next t ∧
     t.pins = { s.pins with resetN := true } ∧ t.mdHoldOut = false ∧ t.feHoldOut = false ∧
     { t with pins := s.pins, pending := s.pending } = { State.reset with pins := s.pins, pending := s.pending }) ∧
  (let s := State.reset
   s.timer = ⟨0, 0, .awaiting, 0, 0, .unset⟩ ∧
     s.sched.entries = [] ∧
     (s.supply.volts = 0 ∧ s.supply.reported = false ∧ s.supply.age = 255 ∧ s.supply.ceiling = 0) ∧
     (s.supply.map.length = 160 ∧ ∀ g, rowOf s.supply.map g = 0) ∧ s.supply.claimed = 0 ∧
     s.boost = ⟨.off, none, 0, 0, false, false, false⟩ ∧
     (∀ i, s.heat.acc.get i = 0 ∧ s.heat.account.get i = 0 ∧ s.heat.seeded.get i = false) ∧
     (∀ z, s.sense.get z = ⟨.seeding, -160, 255, none, false, 0⟩) ∧
     (∀ z, (s.control.get z).state = .steady ∧ (s.control.get z).backoff = 0 ∧ (s.control.get z).sinceRaise = 0) ∧
     (∀ p, s.path.get p = ⟨.clear, 0, 0, none, 0⟩) ∧
     (∀ a, s.tables.bank0.read a = 0 ∧ s.tables.bank1.read a = 0) ∧
     (s.tables.mark0 = false ∧ s.tables.mark1 = false ∧ s.tables.active = none ∧ s.tables.pending = none ∧
       s.tables.launch = .none ∧ s.tables.copy = none) ∧
     (s.engine.queue = [] ∧ s.engine.current = none ∧ s.engine.replies = []) ∧
     (s.events.flags = 0 ∧ s.events.mask = 0xFFFF ∧ s.events.notice = none) ∧
     (s.link.down = [] ∧ s.link.up = [] ∧ s.link.orig = [] ∧ s.link.downHold = false ∧ s.link.upHold = false ∧
       s.link.run = 0 ∧ s.link.last = .notice) ∧
     s.mdHoldOut = false ∧ s.feHoldOut = false)

/-! ### Arrivals -/

/-- A packet classified to pass joins the tail of its direction's Pass Buffer, ready unless it is an order, and the hold state
follows the count; at a buffer of 16 it is dropped with OVERRUN.
A mark that finds the Pass Buffer full is dropped with OVERRUN and is not taken.
From the modem an order is a well-formed BURST, WITHDRAW, REVISE or AMEND for a unit other than 15, and of the other well-formed
packets for such a unit all but FRAME-MARK are passed; from the front end all but the three report kinds are. -/
def Obligations.PassingPacketEntersItsBuffer : Prop :=
  ((∀ (s : State) (p : Packet), s.pins.resetN = true → classify .modem p = .pass ∨ classify .modem p = .order →
     (s.link.down.length < 16 → exec (.passPacketArrival .modem p) s = .next { s with link := { s.link with
       down := s.link.down ++ [⟨p, classify .modem p == .pass⟩]
       downHold := if 12 ≤ s.link.down.length + 1 then true
         else if s.link.down.length + 1 ≤ 8 then false else s.link.downHold } }) ∧
     (16 ≤ s.link.down.length → exec (.passPacketArrival .modem p) s = .next (s.raise .overrun))) ∧
   ∀ (s : State) (p : Packet), s.pins.resetN = true → classify .frontEnd p = .pass →
     (s.link.up.length < 16 → exec (.passPacketArrival .frontEnd p) s = .next { s with link := { s.link with
       up := s.link.up ++ [p]
       upHold := if 12 ≤ s.link.up.length + 1 then true
         else if s.link.up.length + 1 ≤ 8 then false else s.link.upHold } }) ∧
     (16 ≤ s.link.up.length → exec (.passPacketArrival .frontEnd p) s = .next (s.raise .overrun))) ∧
  (∀ (s : State) (p : Packet) (o : TurnOrder), s.pins.resetN = true → p.wellFormed = true → p.kind = 1 →
     16 ≤ s.link.down.length → exec (.frameMark p o) s = .next (s.raise .overrun)) ∧
  ∀ p : Packet,
    (classify .modem p = .order ↔ p.wellFormed = true ∧ p.unit ≠ 15 ∧ (p.kind = 2 ∨ p.kind = 3 ∨ p.kind = 4 ∨ p.kind = 5)) ∧
    (classify .modem p = .pass ↔ p.wellFormed = true ∧ p.unit ≠ 15 ∧
      p.kind ≠ 1 ∧ p.kind ≠ 2 ∧ p.kind ≠ 3 ∧ p.kind ≠ 4 ∧ p.kind ≠ 5) ∧
    (classify .frontEnd p = .pass ↔ p.wellFormed = true ∧ p.unit ≠ 15 ∧ p.kind ≠ 10 ∧ p.kind ≠ 11 ∧ p.kind ≠ 12)

/-- A malformed packet is dropped with LINK_ERROR when it is addressed to unit 15 or has more than 15 payload words; any other
is passed on unchanged and ready, with LINK_ERROR and the hold state following the count, or dropped with OVERRUN alone at a full
buffer.
The header's fields lie at their bits (section 8.7). A packet is well formed exactly when the sum of its words is 0, its length field
is the number of its payload words, and that number lies in the range the kind table of section 8.1 gives its kind. -/
def Obligations.MalformedPacketIsDroppedOrPassedOn : Prop :=
  (∀ (s : State) (p : Packet), s.pins.resetN = true → p.wellFormed = false →
    (p.unit = 15 ∨ 15 < p.payload.length →
      ∀ port, exec (.malformedPacket port p) s = .next (s.raise .linkError)) ∧
    (p.unit ≠ 15 → p.payload.length ≤ 15 →
      (16 ≤ s.link.down.length → exec (.malformedPacket .modem p) s = .next (s.raise .overrun)) ∧
      (s.link.down.length < 16 → exec (.malformedPacket .modem p) s = .next { s.raise .linkError with link := { s.link with
        down := s.link.down ++ [⟨p, true⟩]
        downHold := if 12 ≤ s.link.down.length + 1 then true
          else if s.link.down.length + 1 ≤ 8 then false else s.link.downHold } }) ∧
      (16 ≤ s.link.up.length → exec (.malformedPacket .frontEnd p) s = .next (s.raise .overrun)) ∧
      (s.link.up.length < 16 → exec (.malformedPacket .frontEnd p) s = .next { s.raise .linkError with link := { s.link with
        up := s.link.up ++ [p]
        upHold := if 12 ≤ s.link.up.length + 1 then true
          else if s.link.up.length + 1 ≤ 8 then false else s.link.upHold } }))) ∧
  ∀ p : Packet,
    let lengths : List (Nat × Nat) := [(0, 12), (1, 1), (4, 4), (1, 1), (2, 2), (2, 2), (1, 1), (0, 0), (0, 0), (1, 12),
      (2, 2), (1, 1), (1, 1), (0, 0), (1, 12), (2, 2)]
    (p.unit = wordBits p.header 15 12 ∧ p.kind = wordBits p.header 11 8 ∧ p.lengthField = wordBits p.header 7 4 ∧
      p.aux = wordBits p.header 3 0) ∧
    p.sum = p.header + p.payload.foldr (· + ·) 0 + p.check ∧
    (p.wellFormed = true ↔ p.sum = 0 ∧ p.lengthField = p.payload.length ∧
      ∃ least greatest, lengths[p.kind]? = some (least, greatest) ∧ least ≤ p.payload.length ∧ p.payload.length ≤ greatest)

/-- A well-formed packet to unit 15 that no block takes is dropped with LINK_ERROR and leaves no other trace.
A command for the governor joins the Command Queue, whatever the Pass Buffer holds, or is dropped with CMD_DROP when 8
wait. -/
def Obligations.UnitFifteenPacketsAreTakenOrDropped : Prop :=
  ((∀ (s : State) (p : Packet), s.pins.resetN = true → p.wellFormed = true → p.unit = 15 → p.kind ≠ 9 → p.kind ≠ 1 →
     exec (.misdirectedPacket .modem p) s = .next (s.raise .linkError)) ∧
   ∀ (s : State) (p : Packet), s.pins.resetN = true → p.wellFormed = true → p.unit = 15 → p.kind ≠ 10 → p.kind ≠ 13 →
     exec (.misdirectedPacket .frontEnd p) s = .next (s.raise .linkError)) ∧
  (∀ (s : State) (p : Packet), s.pins.resetN = true → p.wellFormed = true → p.unit = 15 → p.kind = 9 →
     (s.engine.queue.length < 8 → exec (.govCommandArrival p) s =
       .next { s with engine := { s.engine with queue := s.engine.queue ++ [p] } }) ∧
     (8 ≤ s.engine.queue.length → exec (.govCommandArrival p) s = .next (s.raise .cmdDrop)))

/-- The setting of a flag: the flag word becomes itself with the flag's bit set, and nothing but the flag word and the notice
changes. A flag that is set stays set, and a set flag's setting changes nothing; a rise with the mask bit set fills the empty
notice slot or adds to the waiting notice, a rise with the mask bit clear does neither.
The sixteen flags stand at bits 0 to 15 of flag word, announced word and mask, in the order of section 9.8. -/
def Obligations.FlagRiseIsAnnouncedThroughItsMaskBit : Prop :=
  (Flag.bit .tier = 0x0001 ∧ Flag.bit .trip = 0x0002 ∧ Flag.bit .bar = 0x0004 ∧ Flag.bit .boostFail = 0x0008 ∧
    Flag.bit .blind = 0x0010 ∧ Flag.bit .frameLost = 0x0020 ∧ Flag.bit .safe = 0x0040 ∧ Flag.bit .slip = 0x0080 ∧
    Flag.bit .lateOrder = 0x0100 ∧ Flag.bit .schedFull = 0x0200 ∧ Flag.bit .mute = 0x0400 ∧
    Flag.bit .writeDiscard = 0x0800 ∧ Flag.bit .linkError = 0x1000 ∧ Flag.bit .overrun = 0x2000 ∧
    Flag.bit .cmdDrop = 0x4000 ∧ Flag.bit .launched = 0x8000) ∧
  (∀ (e : Events) (f : Flag), (e.has f = true ↔ e.flags &&& f.bit ≠ 0) ∧ (e.announces f = true ↔ e.mask &&& f.bit ≠ 0)) ∧
  ∀ (s : State) (f : Flag),
    (s.raise f = { s with events := (s.raise f).events } ∧ (s.raise f).events.flags = s.events.flags ||| f.bit) ∧
    (s.raise f).events.has f = true ∧ (s.raise f).events.mask = s.events.mask ∧
    (∀ g, s.events.has g = true → (s.raise f).events.has g = true) ∧
    (s.events.has f = true → s.raise f = s) ∧
    (s.events.has f = false → s.events.announces f = true →
      (s.events.notice = none → (s.raise f).events.notice = some f.bit) ∧
      ∀ w, s.events.notice = some w → (s.raise f).events.notice = some (w ||| f.bit)) ∧
    (s.events.has f = false → s.events.announces f = false → (s.raise f).events.notice = s.events.notice)

/-- A temperature report for a zone 0 to 3 makes it FRESH with age 0 and ends its poll; in UNSET nothing is handed on; else it
seeds an UNSEEDED zone, or re-bases a SEEDED one when it lies above the model temperature by more than the gap. Addressed
to the governor it enters no buffer.
A temperature report for a zone above 3 changes no state but the buffer it passes through; one that finds the buffer full
is not taken. The model temperature is ambient plus the account over the scale, rounded down and clamped to -160 to 600 (R75). -/
def Obligations.TemperatureReportRefreshesItsZone : Prop :=
  (∀ (s : State) (p : Packet) (z : Fin 4), s.pins.resetN = true → p.wellFormed = true → p.kind = 10 →
     (p.unit = 15 ∨ s.link.up.length < 16) → (p.word 0).toNat = z.val →
     let v := clampTo (-160) 600 (p.word 1).toInt
     let r := (s.bankFor .current).zone z
     ∃ t, exec (.tempReport p) s = .next t ∧
       t = { s with link := t.link, sense := t.sense, heat := t.heat } ∧
       t.link = (if p.unit = 15 then s.link else s.link.enterUp p) ∧
       t.sense = s.sense.set z ⟨.fresh, v, 0, none, false, (s.sense.get z).spacing⟩ ∧
       (s.timer.mode = .unset → t.heat = s.heat) ∧
       (s.timer.mode ≠ .unset → s.heat.seeded.get z = false → t.heat = { s.heat with
         account := s.heat.account.set z (min heatMax (max 0 (v - r.ambient) * r.scale))
         seeded := s.heat.seeded.set z true }) ∧
       (s.timer.mode ≠ .unset → s.heat.seeded.get z = true →
         (s.modelTemp z + r.rebaseGap < v → t.heat = { s.heat with
           account := s.heat.account.set z (clampTo 0 heatMax ((v - r.ambient) * r.scale)) }) ∧
         (v ≤ s.modelTemp z + r.rebaseGap → t.heat = s.heat))) ∧
  (∀ (s : State) (p : Packet), s.pins.resetN = true → p.wellFormed = true → p.kind = 10 →
     (p.unit = 15 → 4 ≤ (p.word 0).toNat → exec (.tempReport p) s = .next s) ∧
     (p.unit ≠ 15 → s.link.up.length < 16 → 4 ≤ (p.word 0).toNat →
       exec (.tempReport p) s = .next { s with link := s.link.enterUp p }) ∧
     (p.unit ≠ 15 → 16 ≤ s.link.up.length → exec (.tempReport p) s = .next (s.raise .overrun))) ∧
  (∀ (s : State) (z : Fin 4), let r := (s.bankFor .current).zone z;
     s.modelTemp z = clampTo (-160) 600 (r.ambient + s.heat.account.get z / r.scale)) ∧
  ∀ lo hi x : Int, lo ≤ hi → clampTo lo hi x = if x < lo then lo else if hi < x then hi else x

/-- A supply report sets the voltage, at most 6000 mV, the age to 0 and the report marker, recomputes S, and continues
upstream; at a full buffer it is not taken. The supply curve's values are stated in `CurveAndFittingInverse`. -/
def Obligations.SupplyReportRecomputesTheCeiling : Prop :=
  ∀ (s : State) (p : Packet), s.pins.resetN = true → p.wellFormed = true → p.kind = 11 → p.unit ≠ 15 →
    let v := min 6000 (p.word 0).toNat
    (s.link.up.length < 16 → exec (.supplyReport p) s = .next { s with
      link := s.link.enterUp p
      supply := { s.supply with
        volts := v
        age := 0
        reported := true
        ceiling := if s.timer.mode = .unset then 0
          else curveDown (s.bankFor .current).supplyPoints (v : Int) } }) ∧
    (16 ≤ s.link.up.length → exec (.supplyReport p) s = .next (s.raise .overrun))

/-- A trip report for a path 0 to 3 sets TRIP and continues upstream; in UNSET it does no more; else it trips a CLEAR path,
bars a TRIPPED one, restarts the bar of a BARRED one, the last two with BAR. A request is handed on from CLEAR and TRIPPED
only. A path above 3 changes nothing but the buffer. A report that finds the buffer full is dropped with OVERRUN and not taken.
A bar restarted takes the trip step now in force, where a bank switch has changed it (R182). -/
def Obligations.TripReportEscalatesItsPath : Prop :=
  ∀ (s : State) (p : Packet), s.pins.resetN = true → p.wellFormed = true → p.kind = 12 → p.unit ≠ 15 →
    (16 ≤ s.link.up.length → exec (.tripReport p) s = .next (s.raise .overrun)) ∧
    (s.link.up.length < 16 →
    (∀ i : Fin 4, (p.word 0).toNat = i.val →
      ∃ t, exec (.tripReport p) s = .next t ∧
        t = { s with link := s.link.enterUp p, path := t.path, events := t.events, supply := t.supply } ∧
        (∀ j, j ≠ i → t.path.get j = s.path.get j) ∧
        (s.timer.mode = .unset → t.path = s.path ∧ t.supply = s.supply ∧ t.events = s.events.raise .trip) ∧
        (s.timer.mode ≠ .unset →
          ((s.path.get i).state = .clear → t.events = s.events.raise .trip ∧
            t.path.get i = { s.path.get i with state := .tripped, trip := s.limits.tripStep } ∧
            t.supply = (State.takeRequest { s with path := t.path } (.trip i)).supply) ∧
          ((s.path.get i).state = .tripped → t.events = (s.events.raise .trip).raise .bar ∧
            t.path.get i = { s.path.get i with
              state := .barred, trip := s.limits.tripStep, barLeft := s.limits.barFrames } ∧
            t.supply = (State.takeRequest { s with path := t.path } (.bar i)).supply) ∧
          ((s.path.get i).state = .barred → t.events = (s.events.raise .trip).raise .bar ∧ t.supply = s.supply ∧
            t.path.get i = { s.path.get i with trip := s.limits.tripStep, barLeft := s.limits.barFrames }))) ∧
    (4 ≤ (p.word 0).toNat → exec (.tripReport p) s = .next { s with link := s.link.enterUp p }))

/-- A readiness addressed to the governor: from REQUESTED the controller becomes READY, stops its timer and clears its quiet
count; in UNSET and in READY it has no effect; from OFF and FAILED one BOOST-RELEASE is queued, which answers every release
that is due, so that the release-due marker is clear, or the marker is set when no slot is free. -/
def Obligations.BoostReadyAnswersTheRequest : Prop :=
  ∀ (s : State) (p : Packet), s.pins.resetN = true → p.wellFormed = true → p.kind = 13 → p.unit = 15 →
    (s.timer.mode = .unset → exec (.boostReady p) s = .next s) ∧
    (s.timer.mode ≠ .unset →
      (s.boost.state = .requested → exec (.boostReady p) s =
        .next { s with boost := { s.boost with state := .ready, wait := none, quiet := 0 } }) ∧
      (s.boost.state = .ready → exec (.boostReady p) s = .next s) ∧
      (s.boost.state = .off ∨ s.boost.state = .failed →
        (s.link.orig.length + s.supply.claimed < 12 → exec (.boostReady p) s = .next { s with
          boost := { s.boost with releaseDue := false }
          link := { s.link with orig := s.link.orig ++ [⟨s.limits.supplyTag, 8, 0, []⟩] } }) ∧
        (12 ≤ s.link.orig.length + s.supply.claimed → exec (.boostReady p) s =
          .next { s with boost := { s.boost with releaseDue := true } })))

/-! ### The clock -/

/-- A grain event that does not end the AWAITING window raises the counter by 1 and leaves the rest of the Frame Timer; BOOKED
entries of the current slot at their commit grain become COMMITTED, entries of the current slot that end there are charged in
full and freed; running poll and boost timers fall by 1; the supply state, the tables, the link, the engine stay. Every controller
that still has an estimate to take takes it (`State.takesHeld`); where none has, controllers and paths stay. That a controller takes
an estimate held back at the latest now is the model's choice (log 6). The flags set are TIER where that changed a controller's
state, BOOST_FAIL and BLIND where a timer ran out, and no other (`State.grainSets`). tol is 2 in UNSET and else the mark tolerance.
At grain 79 there is no grain event, and below it no timer turn: the command then leaves the state as it is, which is the model's
choice (log 3). The grain event that ends the AWAITING window is AwaitingWindowEndsWithoutAMark. -/
def Obligations.GrainEventCommitsAndClosesEntries : Prop :=
  (∀ s : State, s.pins.resetN = true → s.timer.grain < 79 → s.windowDue = false →
     let g := s.timer.grain + 1
     let ends := fun e : Entry => e.slot == .current && e.start + e.length == g
     ∃ t, exec .grainEvent s = .next t ∧
       t.timer = { s.timer with grain := g } ∧
       t.sched.entries = (s.sched.entries.filter fun e => !ends e).map (fun e =>
         if e.slot = .current ∧ e.state = .booked ∧ e.start ≤ g + s.limits.commitLead then { e with state := .committed }
         else e) ∧
       t.heat = (s.sched.entries.filter ends).foldl (fun h e => h.charge e.path (e.dissipation * e.length)) s.heat ∧
       t.supply = s.supply ∧ t.tables = s.tables ∧ t.link = s.link ∧ t.engine = s.engine ∧ t.pins = s.pins ∧
       (∀ z : Fin 4, ((s.sense.get z).poll = none → t.sense.get z = s.sense.get z) ∧
         ∀ n, (s.sense.get z).poll = some (n + 2) → t.sense.get z = { s.sense.get z with poll := some (n + 1) }) ∧
       (s.boost.state ≠ .requested → t.boost = s.boost) ∧
       (∀ n, s.boost.state = .requested → s.boost.wait = some (n + 2) →
         t.boost = { s.boost with wait := some (n + 1) }) ∧
       (∀ i : Fin 4, t.path.get i = { s.path.get i with thermal := (t.path.get i).thermal }) ∧
       s.takesHeld t ∧ s.events.sets (s.grainSets t) t.events) ∧
  (∀ s : State, s.tolerance = (if s.timer.mode = .unset then 2 else s.limits.markTolerance) ∧
     (s.windowDue = true ↔ s.timer.state = .awaiting ∧ s.timer.grain + 1 = s.tolerance)) ∧
  (∀ s : State, (s.timer.grain = 79 → exec .grainEvent s = .next s) ∧
     ∀ o : TurnOrder, s.timer.grain < 79 → exec (.timerFrameTurn o) s = .next s)

/-- The grain event for grain tol in AWAITING: HOLDOVER, the missed count up by 1, the run count 0, FRAME_LOST; in GOVERNING at
the holdover limit the mode becomes SAFE, SAFE is set and the SAFE amendment request is handed on, after the grain's commitments
and closes (the model's reading, log 7). Entries commit and close, poll and boost timers fall and controllers take estimates held
back (log 6) as at every other grain event. The flags set are FRAME_LOST, SAFE at that entry, and those of every grain event. Both
names of the event do the same. -/
def Obligations.AwaitingWindowEndsWithoutAMark : Prop :=
  ∀ s : State, s.pins.resetN = true → s.timer.state = .awaiting → s.timer.grain < 79 →
    s.timer.grain + 1 = s.tolerance →
    let missed := min 255 (s.timer.missed + 1)
    let g := s.timer.grain + 1
    let ends := fun e : Entry => e.slot == .current && e.start + e.length == g
    ∃ t, exec .awaitingWindowEnd s = .next t ∧ exec .grainEvent s = .next t ∧
      t.timer.state = .holdover ∧ t.timer.grain = s.timer.grain + 1 ∧ t.timer.frame = s.timer.frame ∧
      t.timer.missed = missed ∧ t.timer.run = 0 ∧ t.events.has .frameLost = true ∧
      (s.timer.mode = .governing → s.limits.holdoverLimit ≤ missed →
        t.timer.mode = .safe ∧ t.events.has .safe = true ∧
        t.supply = (State.takeRequest { t with supply := s.supply } .safe).supply) ∧
      (s.timer.mode ≠ .governing ∨ missed < s.limits.holdoverLimit →
        t.timer.mode = s.timer.mode ∧ t.supply = s.supply) ∧
      t.link = s.link ∧ t.supply.map = s.supply.map ∧ t.tables = s.tables ∧ t.engine = s.engine ∧ t.pins = s.pins ∧
      t.sched.entries = (s.sched.entries.filter fun e => !ends e).map (fun e =>
        if e.slot = .current ∧ e.state = .booked ∧ e.start ≤ g + s.limits.commitLead then { e with state := .committed }
        else e) ∧
      t.heat = (s.sched.entries.filter ends).foldl (fun h e => h.charge e.path (e.dissipation * e.length)) s.heat ∧
      (∀ z : Fin 4, ((s.sense.get z).poll = none → t.sense.get z = s.sense.get z) ∧
        ∀ n, (s.sense.get z).poll = some (n + 2) → t.sense.get z = { s.sense.get z with poll := some (n + 1) }) ∧
      (s.boost.state ≠ .requested → t.boost = s.boost) ∧
      (∀ n, s.boost.state = .requested → s.boost.wait = some (n + 2) →
        t.boost = { s.boost with wait := some (n + 1) }) ∧
      (∀ i : Fin 4, t.path.get i = { s.path.get i with thermal := (t.path.get i).thermal }) ∧
      s.takesHeld t ∧
      s.events.sets (fun f => s.grainSets t f ∨ f = .frameLost ∨
        (f = .safe ∧ s.timer.mode = .governing ∧ s.limits.holdoverLimit ≤ missed)) t.events

/-- A turn made by the timer: the next frame at grain 0; from SYNCED the state becomes AWAITING with the counts as they stand;
in HOLDOVER the missed count rises, the run count becomes 0 and FRAME_LOST is set, and in GOVERNING at the holdover limit of
the bank in force for the frame begun the mode becomes SAFE. Pins, engine, sensed temperatures, Pass Buffers and, where no
switch is pending, the tables stay.
At every turn, a mark's too, that enters SAFE, the SAFE amendment request is handed on, with the requests in progress before it and
the Originated Queue as it stands when its turn among that queue's three users comes (the operand's order, log 5): the packets of the
users asked before it have joined, those of the users asked after it have not. That the request surveys the schedule as the turn leaves
it, relabelled and committed, and the map shifted, is the model's reading (log 7). At every other turn no request is handed on.
The flags a turn sets are those of `State.turnSets` and no other: SLIP, FRAME_LOST, LAUNCHED, SAFE as the turn gives cause, BOOST_FAIL
and BLIND where a timer ran out, TIER where a controller changed its state, one that takes an estimate held back included (log 6). -/
def Obligations.TimerTurnsTheFrame : Prop :=
  (∀ (s : State) (o : TurnOrder), s.pins.resetN = true → s.timer.grain = 79 →
    ∃ t, exec (.timerFrameTurn o) s = .next t ∧
      (t.pins = s.pins ∧ t.engine = s.engine ∧ t.link = { s.link with orig := t.link.orig } ∧
        (s.tables.pending = none → t.tables = s.tables) ∧ ∀ z, (t.sense.get z).sensed = (s.sense.get z).sensed) ∧
      t.timer.frame = (s.timer.frame + 1) % 256 ∧ t.timer.grain = 0 ∧
      (s.timer.state = .synced → t.timer.state = .awaiting ∧ t.timer.missed = s.timer.missed ∧
        (s.tables.firstSwitch = false → t.timer.run = s.timer.run ∧ t.timer.mode = s.timer.mode)) ∧
      (s.timer.state = .holdover → t.timer.state = .holdover ∧ t.timer.missed = min 255 (s.timer.missed + 1) ∧
        t.timer.run = 0 ∧ t.events.has .frameLost = true ∧
        (s.modeBegun = .governing → s.bankBegun.limits.holdoverLimit ≤ min 255 (s.timer.missed + 1) →
          t.timer.mode = .safe ∧ t.events.has .safe = true) ∧
        (s.modeBegun ≠ .governing ∨ min 255 (s.timer.missed + 1) < s.bankBegun.limits.holdoverLimit →
          t.timer.mode = s.modeBegun))) ∧
  ∀ (s : State) (k : Clock) (turn : Turn) (o : TurnOrder), s.pins.resetN = true → s.turnOf k = some (turn, o) →
    ∃ t, exec (commandOf k) s = .next t ∧
      (t.timer.mode = .safe → s.modeBegun ≠ .safe →
        t.events.has .safe = true ∧ t.timer.run = 0 ∧
        ∃ n, s.link.orig.length ≤ n ∧ n ≤ t.link.orig.length ∧
          (o.queue = .safePollBoost ∨ o.queue = .safeBoostPoll → n = s.link.orig.length) ∧
          (∀ d ∈ (t.link.orig.take n).drop s.link.orig.length,
            (d.kind = 6 → pollsBeforeSafe o.queue) ∧ (d.kind ≠ 6 → ¬ safeAhead o.queue)) ∧
          (∀ d ∈ t.link.orig.drop n, (d.kind = 6 → ¬ pollsBeforeSafe o.queue) ∧ (d.kind ≠ 6 → safeAhead o.queue)) ∧
          t.supply = (State.takeRequest { t with
            supply := { t.supply with requests := s.supply.requests }
            link := { t.link with orig := t.link.orig.take n } } .safe).supply) ∧
      (t.timer.mode ≠ .safe ∨ s.modeBegun = .safe → t.supply.requests = s.supply.requests) ∧
      s.events.sets (s.turnSets turn t) t.events

/-- A mark taken in SYNCED before grain tol is ignored but for SLIP, and still passes downstream. -/
def Obligations.DuplicateMarkIsIgnored : Prop :=
  ∀ (s : State) (p : Packet) (o : TurnOrder), s.pins.resetN = true → p.wellFormed = true → p.kind = 1 →
    s.link.down.length < 16 → s.timer.state = .synced → s.timer.grain < s.tolerance →
    exec (.frameMark p o) s =
      .next { s with link := s.link.enterDown p true, events := s.events.raise .slip }

/-- A mark taken in AWAITING or HOLDOVER before grain tol confirms the frame: SYNCED, its number adopted, the missed count 0, the
run count up by 1, the counter unchanged, SLIP where the number differs; in SAFE the mode becomes GOVERNING when the run
count has reached the safe exit. No other block acts on it. -/
def Obligations.MarkConfirmsTheTimersFrame : Prop :=
  ∀ (s : State) (p : Packet) (o : TurnOrder), s.pins.resetN = true → p.wellFormed = true → p.kind = 1 →
    s.link.down.length < 16 → s.timer.state ≠ .synced → s.timer.grain < s.tolerance →
    let m := (p.word 0).toNat % 256
    let run := min 255 (s.timer.run + 1)
    exec (.frameMark p o) s = .next { s with
      link := s.link.enterDown p true
      timer := { s.timer with
        frame := m
        state := .synced
        missed := 0
        run := run
        mode := if s.timer.mode = .safe ∧ s.limits.safeExit ≤ run then .governing else s.timer.mode }
      events := s.events.raiseIf (m != s.timer.frame) .slip }

/-- A mark taken at or after grain tol turns the frame: its number adopted, grain 0, SYNCED, the missed count 0, the run count up
by 1, in UNSET too; SLIP before grain 80 − tol, or where the number is not the one expected. In SAFE the run count is tested
against the safe exit of the bank in force for the frame begun. At the first switch the mode becomes GOVERNING, with the run count
up by 1, or, where the missed count of 0 already is at the holdover limit, SAFE with the run count 0. The mark passes downstream;
engine, sensed temperatures, the rest of the link but the Originated Queue and, where no switch is pending, the tables stay. The flags
set are those of `State.turnSets` and no other, TIER for a controller that takes an estimate held back included (log 6). -/
def Obligations.MarkTurnsTheFrame : Prop :=
  ∀ (s : State) (p : Packet) (o : TurnOrder), s.pins.resetN = true → p.wellFormed = true → p.kind = 1 →
    s.link.down.length < 16 → s.tolerance ≤ s.timer.grain →
    let m := (p.word 0).toNat % 256
    ∃ t, exec (.frameMark p o) s = .next t ∧
      (t.pins = s.pins ∧ t.engine = s.engine ∧ t.link = { s.link.enterDown p true with orig := t.link.orig } ∧
        (s.tables.pending = none → t.tables = s.tables) ∧ ∀ z, (t.sense.get z).sensed = (s.sense.get z).sensed) ∧
      t.timer.frame = m ∧ t.timer.grain = 0 ∧ t.timer.state = .synced ∧ t.timer.missed = 0 ∧
      (s.timer.grain < 80 - s.tolerance ∨ m ≠ (s.timer.frame + 1) % 256 → t.events.has .slip = true) ∧
      (80 - s.tolerance ≤ s.timer.grain → m = (s.timer.frame + 1) % 256 → s.events.has .slip = false →
        t.events.has .slip = false) ∧
      (s.tables.firstSwitch = false →
        t.timer.run = min 255 (s.timer.run + 1) ∧
        (s.timer.mode = .unset → t.timer.mode = .unset) ∧
        (s.timer.mode = .governing → t.timer.mode = .governing) ∧
        (s.timer.mode = .safe → t.timer.mode =
          if s.bankBegun.limits.safeExit ≤ min 255 (s.timer.run + 1) then .governing else .safe)) ∧
      (s.tables.firstSwitch = true →
        (0 < s.bankBegun.limits.holdoverLimit → t.timer.run = min 255 (s.timer.run + 1) ∧ t.timer.mode = .governing) ∧
        (s.bankBegun.limits.holdoverLimit = 0 → t.timer.run = 0 ∧ t.timer.mode = .safe)) ∧
      s.events.sets (s.turnSets (.mark m) t) t.events

/-- At every frame turn, the timer's or a mark's, the Supply Map discards its current rows, moves the next rows into their place
and zeroes the new next rows; every entry that is left has been relabelled to the current slot. -/
def Obligations.FrameTurnShiftsTheSupplyMap : Prop :=
  ∀ (s : State) (k : Clock) (turn : Turn) (o : TurnOrder), s.pins.resetN = true → s.turnOf k = some (turn, o) →
    s.supply.map.length = 160 →
    ∃ t, exec (commandOf k) s = .next t ∧ t.supply.map.length = 160 ∧
      (∀ g, g < 80 → rowOf t.supply.map g = rowOf s.supply.map (80 + g)) ∧
      (∀ g, 80 ≤ g → g < 160 → rowOf t.supply.map g = 0) ∧
      ∀ f ∈ t.sched.entries, f.slot = .current

/-- At every frame turn the supply report ages and S is formed anew from the mode and bank of the frame begun.
The turn at which the supply report grows too old, in GOVERNING or SAFE: S becomes the supply floor ceiling of the bank in
force for the frame begun. That the row SUPPLY_STALE is that whole turn, under another name, is the model's choice (log 4). -/
def Obligations.FrameTurnRecomputesTheSupplyCeiling : Prop :=
  (∀ (s : State) (k : Clock) (turn : Turn) (o : TurnOrder), s.pins.resetN = true → s.turnOf k = some (turn, o) →
     let age := min 255 (s.supply.age + 1)
     ∃ t, exec (commandOf k) s = .next t ∧ t.supply.age = age ∧ t.supply.volts = s.supply.volts ∧
       t.supply.reported = s.supply.reported ∧
       t.supply.ceiling =
         (if s.modeBegun = .unset then 0
         else if s.supply.reported = false ∨ s.bankBegun.supplyStale < age then s.bankBegun.supplyFloor
         else curveDown s.bankBegun.supplyPoints (s.supply.volts : Int))) ∧
  (∀ (s : State) (k : Clock) (turn : Turn) (o : TurnOrder), s.pins.resetN = true → s.turnOf k = some (turn, o) →
     s.timer.mode ≠ .unset → s.supply.reported = true → s.supply.age ≤ (s.bankFor .current).supplyStale →
     s.bankBegun.supplyStale < min 255 (s.supply.age + 1) →
     ∃ t, exec (.supplyStale k) s = .next t ∧ exec (commandOf k) s = .next t ∧
       t.supply.age = min 255 (s.supply.age + 1) ∧ t.supply.ceiling = s.bankBegun.supplyFloor)

/-- At every frame turn the entries of the current slot close, and those of the next slot become current in their order, the
BOOKED ones with start within the commit lead of the bank in force for the frame begun becoming COMMITTED.
The frame close at a turn that is not the first switch: the frame's charges, those of the entries the turn closes included,
are coupled into the leaked accounts with the bank of the frame that has ended, and the accumulators are cleared; in UNSET
neither changes.
Where a bank is in force for the frame begun every zone's estimate is formed anew with that bank: the greater of model and sensed
temperature for a FRESH or STALE zone, with the blind margin, at most 600, for a BLIND one, the seed assumption for a SEEDING one; a
poll's expiry at the turn counts where the operand takes it before the close (log 5). At the first switch a FRESH zone is seeded.
Where none is, no estimate is formed. -/
def Obligations.FrameTurnClosesTheFrame : Prop :=
  (∀ (s : State) (k : Clock) (turn : Turn) (o : TurnOrder), s.pins.resetN = true → s.turnOf k = some (turn, o) →
     ∃ t, exec (commandOf k) s = .next t ∧
       t.sched.entries = (s.sched.entries.filter fun e => e.slot == .next).map fun e =>
         if e.state = .booked ∧ e.start ≤ s.bankBegun.limits.commitLead then
           { e with slot := .current, state := .committed }
         else { e with slot := .current }) ∧
  (∀ (s : State) (k : Clock) (turn : Turn) (o : TurnOrder), s.pins.resetN = true → s.turnOf k = some (turn, o) →
     s.tables.firstSwitch = false →
     ∃ t, exec (commandOf k) s = .next t ∧
       (∀ b, s.tables.inForce .current = some b →
         let h := (s.sched.entries.filter fun e => e.slot == .current).foldl
           (fun h e => h.charge e.path (e.dissipation * e.length)) s.heat
         ∀ i : Fin 4, t.heat.acc.get i = 0 ∧
           t.heat.account.get i = clampTo 0 heatMax (h.account.get i - h.account.get i * (b.zone i).leak / 4096 +
             (h.acc.get 0 * b.coupling 0 i / 256 + (h.acc.get 1 * b.coupling 1 i / 256 +
               (h.acc.get 2 * b.coupling 2 i / 256 + (h.acc.get 3 * b.coupling 3 i / 256 + 0)))))) ∧
       (s.tables.inForce .current = none → s.sched.entries = [] → t.heat = s.heat)) ∧
  (∀ (s : State) (k : Clock) (turn : Turn) (o : TurnOrder), s.pins.resetN = true → s.turnOf k = some (turn, o) →
     ∃ t, exec (commandOf k) s = .next t ∧
       (s.tables.active ≠ none ∨ s.tables.firstSwitch = true → ∀ z : Fin 4,
         let r := s.bankBegun.zone z
         let y := s.sense.get z
         let expired : Bool := o.expiryFirst && (match y.poll with
           | some n => decide (n ≤ 1)
           | none => false)
         let account := if s.tables.firstSwitch then s.heat.account.get z else t.heat.account.get z
         let hot := max (clampTo (-160) 600 (r.ambient + account / r.scale)) y.sensed
         (y.fresh = .fresh ∨ (y.fresh = .stale ∧ expired = false) → t.heat.estimate.get z = hot) ∧
         (y.fresh = .blind ∨ (y.fresh = .stale ∧ expired = true) →
           t.heat.estimate.get z = min 600 (hot + r.blindMargin)) ∧
         (y.fresh = .seeding → t.heat.estimate.get z = r.seedAssumption) ∧
         (s.tables.firstSwitch = true → y.fresh = .fresh →
           t.heat.account.get z = min heatMax (max 0 (y.sensed - r.ambient) * r.scale) ∧ t.heat.seeded.get z = true) ∧
         (s.tables.firstSwitch = true → y.fresh ≠ .fresh →
           t.heat.account.get z = s.heat.account.get z ∧ t.heat.seeded.get z = s.heat.seeded.get z) ∧
         (s.tables.firstSwitch = false → t.heat.seeded.get z = s.heat.seeded.get z)) ∧
       (s.tables.active = none → s.tables.firstSwitch = false → t.heat.estimate = s.heat.estimate))

/-- At every frame turn outside UNSET a TRIPPED path's trip back-off decays and at 0 the path is CLEAR; a BARRED path's count
falls and at 0 it is TRIPPED with the full trip step; a CLEAR path stays. The bank is that of the frame begun.
The rows that name the end of a trip and of a bar are that turn, which is the model's choice (log 4): they answer what the turn
answers, with the path CLEAR, or TRIPPED again. -/
def Obligations.FrameTurnDecaysTripsAndBars : Prop :=
  (∀ (s : State) (k : Clock) (turn : Turn) (o : TurnOrder), s.pins.resetN = true → s.turnOf k = some (turn, o) →
     s.timer.mode ≠ .unset →
     ∃ t, exec (commandOf k) s = .next t ∧ ∀ i : Fin 4,
       let x := s.path.get i
       let y := t.path.get i
       let l := s.bankBegun.limits
       y.cap = x.cap ∧
         (x.state = .clear → y.state = .clear ∧ y.trip = x.trip ∧ y.barLeft = x.barLeft) ∧
         (x.state = .tripped → y.trip = max 0 (x.trip - l.tripDecay) ∧ y.barLeft = x.barLeft ∧
           y.state = if x.trip ≤ l.tripDecay then .clear else .tripped) ∧
         (x.state = .barred → 2 ≤ x.barLeft →
           y.state = .barred ∧ y.barLeft = x.barLeft - 1 ∧ y.trip = x.trip) ∧
         (x.state = .barred → x.barLeft ≤ 1 → y.state = .tripped ∧ y.barLeft = 0 ∧ y.trip = l.tripStep)) ∧
  (∀ (s : State) (k : Clock) (turn : Turn) (o : TurnOrder) (i : Fin 4), s.pins.resetN = true →
     s.turnOf k = some (turn, o) → s.timer.mode ≠ .unset →
     ((s.path.get i).state = .tripped → (s.path.get i).trip ≤ s.bankBegun.limits.tripDecay →
       ∃ t, exec (.tripClear i k) s = .next t ∧ exec (commandOf k) s = .next t ∧
         (t.path.get i).state = .clear ∧ (t.path.get i).trip = 0) ∧
     ((s.path.get i).state = .barred → (s.path.get i).barLeft ≤ 1 →
       ∃ t, exec (.barExpiry i k) s = .next t ∧ exec (commandOf k) s = .next t ∧
         (t.path.get i).state = .tripped ∧ (t.path.get i).trip = s.bankBegun.limits.tripStep ∧
         (t.path.get i).barLeft = 0))

/-- At a turn a pending switch with 2 turns remaining is left with 1, and one with 1 takes effect: its bank becomes active, the
switch none, the record SWITCHED, LAUNCHED set, contents and marks unchanged; at the first one the mode leaves UNSET, for
GOVERNING while the missed count lies below the new holdover limit and for SAFE otherwise. That the row BANK_SWITCH is that whole
turn, under another name, is the model's choice (log 4). The first switch, the mode and the bank of the frame a turn begins, as the other
statements name them. -/
def Obligations.PendingSwitchCountsDownAndSwitches : Prop :=
  (∀ s : State,
    (s.tables.firstSwitch = true ↔ s.tables.active = none ∧ ∃ b n, s.tables.pending = some (b, n) ∧ n ≤ 1) ∧
    (s.modeBegun = if s.tables.firstSwitch = true then .governing else s.timer.mode) ∧
    (∀ b n, s.tables.pending = some (b, n) → n ≤ 1 → s.bankBegun = s.tables.bank b) ∧
    ((∀ b n, s.tables.pending = some (b, n) → 1 < n) →
      ∀ a, s.tables.active = some a → s.bankBegun = s.tables.bank a)) ∧
  ∀ (s : State) (k : Clock) (turn : Turn) (o : TurnOrder) (b : BankId), s.pins.resetN = true →
    s.turnOf k = some (turn, o) →
    (s.tables.pending = some (b, 2) → ∃ t, exec (commandOf k) s = .next t ∧
      t.tables = { s.tables with pending := some (b, 1) }) ∧
    (s.tables.pending = some (b, 1) → ∃ t, exec (.bankSwitch k) s = .next t ∧ exec (commandOf k) s = .next t ∧
      t.tables = { s.tables with active := some b, pending := none, launch := .switched } ∧
      t.events.has .launched = true ∧
      (s.tables.active = none → t.timer.mode =
        if (s.tables.bank b).limits.holdoverLimit ≤ t.timer.missed then .safe else .governing))

/-- The turn at which a FRESH zone's age exceeds its stale frames, the first switch included: the zone becomes STALE, and its poll is
outstanding or due. That the row ZONE_STALE is that whole turn, under another name, is the model's choice (log 4).
At every turn that begins a frame outside UNSET every zone ages, may become STALE, and may have a poll fall due: where it becomes
STALE, where it is STALE with no poll outstanding, where it is BLIND or SEEDING with none and its poll spacing has reached its stale
frames, where it is SEEDING at the first switch, and where one is due already. A due POLL is queued, with its wait started at poll
wait and its spacing 0, or stays due because the Originated Queue is full; where polls are asked first (the operand's order, log 5)
the due ones join the queue in the order of zones as far as there are free slots. A poll that expires at the turn has ended before
the zone ages (log 10). -/
def Obligations.ZoneGoesStaleAtATurn : Prop :=
  (∀ (s : State) (k : Clock) (turn : Turn) (o : TurnOrder) (z : Fin 4), s.pins.resetN = true →
    s.turnOf k = some (turn, o) → s.modeBegun ≠ .unset → (s.sense.get z).fresh = .fresh →
    (s.bankBegun.zone z).staleFrames < min 255 ((s.sense.get z).age + 1) →
    ∃ t, exec (.zoneStale z k) s = .next t ∧ exec (commandOf k) s = .next t ∧
      (t.sense.get z).fresh = .stale ∧ (t.sense.get z).age = min 255 ((s.sense.get z).age + 1) ∧
      (t.sense.get z).sensed = (s.sense.get z).sensed ∧
      ((t.sense.get z).pollDue = true ∨ (t.sense.get z).poll.isSome = true)) ∧
  ∀ (s : State) (k : Clock) (turn : Turn) (o : TurnOrder), s.pins.resetN = true → s.turnOf k = some (turn, o) →
    s.modeBegun ≠ .unset →
    let l := s.bankBegun.limits
    let poll := fun z : Fin 4 => (⟨l.senseTag, 6, 0, [BitVec.ofNat 16 z.val]⟩ : Draft)
    let stale := fun z : Fin 4 => (s.bankBegun.zone z).staleFrames
    let age := fun z : Fin 4 => min 255 ((s.sense.get z).age + 1)
    let spacing := fun z : Fin 4 => min 255 ((s.sense.get z).spacing + 1)
    let waiting := fun z : Fin 4 => match (s.sense.get z).poll with
      | some n => decide (2 ≤ n)
      | none => false
    let goes := fun z : Fin 4 => (s.sense.get z).fresh == .fresh && decide (stale z < age z)
    let standing := fun z : Fin 4 =>
      if goes z then .stale
      else if (s.sense.get z).fresh = .stale ∧ (s.sense.get z).poll.isSome ∧ waiting z = false then .blind
      else (s.sense.get z).fresh
    let due := fun z : Fin 4 => (s.sense.get z).pollDue || goes z || (!waiting z && (match standing z with
      | .fresh => false
      | .stale => true
      | .blind => decide (stale z ≤ spacing z)
      | .seeding => s.tables.firstSwitch || decide (stale z ≤ spacing z)))
    ∃ t, exec (commandOf k) s = .next t ∧
      (∀ z, (t.sense.get z).fresh = standing z ∧ (t.sense.get z).age = age z ∧
        (t.sense.get z).sensed = (s.sense.get z).sensed ∧
        (due z = false → (t.sense.get z).pollDue = false ∧ (t.sense.get z).spacing = spacing z ∧
          (t.sense.get z).poll = if waiting z then (s.sense.get z).poll.map (· - 1) else none) ∧
        (due z = true →
          ((t.sense.get z).poll = some l.pollWait ∧ (t.sense.get z).pollDue = false ∧ (t.sense.get z).spacing = 0 ∧
            poll z ∈ t.link.orig) ∨
          ((t.sense.get z).pollDue = true ∧ (t.sense.get z).spacing = spacing z ∧
            12 ≤ t.link.orig.length + t.supply.claimed))) ∧
      (o.queue = .pollBoostSafe ∨ o.queue = .pollSafeBoost → ∃ rest, t.link.orig = s.link.orig ++
        ((([0, 1, 2, 3] : List (Fin 4)).filter due).take (12 - s.link.orig.length - s.supply.claimed)).map poll ++ rest)

/-- The grain event, or turn, that brings a poll's timer to 0: BLIND is set and a STALE zone becomes BLIND; a BLIND or SEEDING zone
stays. At a grain event the poll is then none. At a turn the expiry comes before that turn's ageing (the model's reading,
log 10). That the row POLL_EXPIRY is that whole grain event or turn, under another name, is the model's choice (log 4). -/
def Obligations.UnansweredPollExpires : Prop :=
  ∀ (s : State) (z : Fin 4), s.pins.resetN = true → (s.sense.get z).poll = some 1 →
    (s.timer.grain < 79 → ∃ t, exec (.pollExpiry z .grain) s = .next t ∧ exec .grainEvent s = .next t ∧
      t.events.has .blind = true ∧
      t.sense.get z = { s.sense.get z with
        poll := none
        fresh := if (s.sense.get z).fresh = .stale then .blind else (s.sense.get z).fresh }) ∧
    ∀ (k : Clock) (turn : Turn) (o : TurnOrder), s.turnOf k = some (turn, o) → s.timer.grain ≠ 0 →
      (s.sense.get z).fresh ≠ .fresh →
      ∃ t, exec (.pollExpiry z k) s = .next t ∧ exec (commandOf k) s = .next t ∧ t.events.has .blind = true ∧
        (t.sense.get z).fresh = if (s.sense.get z).fresh = .stale then .blind else (s.sense.get z).fresh

/-- The grain event, or turn, that brings the boost wait timer to 0: FAILED, the timer stopped, BOOST_FAIL set, the cooldown count at
boost cooldown, no packet sent by the controller. That a turn which is the expiry does not also count the cooldown down is the
model's reading (log 8); that the row BOOST_WAIT_EXPIRY is that whole grain event or turn, under another name, is the model's choice
(log 4). -/
def Obligations.BoostWaitExpires : Prop :=
  ∀ s : State, s.pins.resetN = true → s.boost.state = .requested → s.boost.wait = some 1 →
    (s.timer.grain < 79 → ∃ t, exec (.boostWaitExpiry .grain) s = .next t ∧ exec .grainEvent s = .next t ∧
      t.boost = { s.boost with state := .failed, wait := none, cooldown := s.limits.boostCooldown } ∧
      t.events.has .boostFail = true ∧ t.link = s.link) ∧
    ∀ (k : Clock) (turn : Turn) (o : TurnOrder), s.turnOf k = some (turn, o) →
      ∃ t, exec (.boostWaitExpiry k) s = .next t ∧ exec (commandOf k) s = .next t ∧
        t.boost.state = .failed ∧ t.boost.wait = none ∧ t.boost.cooldown = s.bankBegun.limits.boostCooldown ∧
        t.events.has .boostFail = true

/-- The turn at which the quiet count of a READY controller reaches boost release with no boosted grant in the frame ended: with a
free slot, asked for before polls and SAFE request, a BOOST-RELEASE is queued and the controller is OFF; it is OFF, or stays
READY with the count at boost release, in every order. The turn at which a FAILED controller's cooldown falls to 0: the controller is
OFF. That the rows that name the two are that whole turn is the model's choice (log 4).
At every turn the controller acts by its state, clears the boosted-frame marker and makes one attempt for each due packet, a release
first and a request only where no release is left due: with a free slot the packet is queued, a release clears its marker and, where
the quiet count asked for it, leaves READY for OFF; a request leaves OFF for REQUESTED with the timer at boost wait. `free` is the
number of free slots when the controller is asked: 12 less the packets then held, those of polls answered before it included, less the
slots then claimed, those of a SAFE request answered before it included (the operand's order, log 5). That a wait which expires at the
turn leaves the cooldown at its full value is the model's reading (log 8); that a release the quiet count asked for is due again only
where the count, tested anew, reaches the boost release now in force is the model's choice (log 30). -/
def Obligations.QuietBoostAndCooldownEndAtATurn : Prop :=
  (∀ (s : State) (k : Clock) (turn : Turn) (o : TurnOrder), s.pins.resetN = true → s.turnOf k = some (turn, o) →
     s.timer.grain ≠ 0 → s.boost.state = .ready → s.boost.boosted = false → s.boost.requestDue = false →
     s.bankBegun.limits.boostRelease ≤ s.boost.quiet + 1 →
     ∃ t, exec (.boostQuietRelease k) s = .next t ∧ exec (commandOf k) s = .next t ∧
       (t.boost.state = .off ∨ (t.boost.state = .ready ∧ t.boost.quiet = s.bankBegun.limits.boostRelease)) ∧
       (o.queue = .boostPollSafe ∨ o.queue = .boostSafePoll → s.link.orig.length + s.supply.claimed < 12 →
         t.boost.state = .off ∧ t.boost.quiet = 0 ∧
         ⟨s.bankBegun.limits.supplyTag, 8, 0, []⟩ ∈ t.link.orig)) ∧
  (∀ (s : State) (k : Clock) (turn : Turn) (o : TurnOrder), s.pins.resetN = true → s.turnOf k = some (turn, o) →
     s.boost.state = .failed → s.boost.cooldown ≤ 1 → s.boost.requestDue = false →
     ∃ t, exec (.boostCooldownEnd k) s = .next t ∧ exec (commandOf k) s = .next t ∧
       t.boost.state = .off ∧ t.boost.cooldown = 0) ∧
  (∀ (s : State) (k : Clock) (turn : Turn) (o : TurnOrder), s.pins.resetN = true → s.turnOf k = some (turn, o) →
     ∃ t free claimed ahead after, exec (commandOf k) s = .next t ∧
       free = 12 - (s.link.orig.length + ahead.length) - claimed ∧
       (safeAhead o.queue → claimed = t.supply.claimed) ∧ (¬ safeAhead o.queue → claimed = s.supply.claimed) ∧
       (∀ d ∈ ahead ++ after, d.kind = 6) ∧ (pollsAhead o.queue → after = []) ∧ (¬ pollsAhead o.queue → ahead = []) ∧
       let b := s.boost
       let l := s.bankBegun.limits
       let quiet := if b.boosted then 0 else min l.boostRelease (b.quiet + 1)
       let quietDue := b.state == .ready && !b.boosted && decide (l.boostRelease ≤ quiet)
       let releases := (quietDue || b.releaseDue) && decide (1 ≤ free)
       let expires := match b.wait with
         | some n => decide (n ≤ 1)
         | none => false
       let state := match b.state with
         | .ready => if quietDue && releases then .off else .ready
         | .failed => if b.cooldown ≤ 1 then .off else .failed
         | .off => .off
         | .requested => if expires then .failed else .requested
       let requests := b.requestDue && state == .off && (!b.releaseDue || releases) &&
         decide ((if releases then 2 else 1) ≤ free)
       t.boost.state = (if requests then .requested else state) ∧
       t.boost.wait = (if requests then some l.boostWait
         else if b.state = .requested then (if expires then none else b.wait.map (· - 1)) else b.wait) ∧
       t.boost.quiet = (if b.state = .ready then (if quietDue && releases then 0 else quiet) else b.quiet) ∧
       t.boost.cooldown = (match b.state with
         | .failed => b.cooldown - 1
         | .requested => if expires then l.boostCooldown else b.cooldown
         | _ => b.cooldown) ∧
       t.boost.boosted = false ∧ t.boost.requestDue = (b.requestDue && !requests) ∧
       t.boost.releaseDue = (b.releaseDue && !releases) ∧
       t.link.orig = s.link.orig ++ ahead ++ (if releases then [⟨l.supplyTag, 8, 0, []⟩] else []) ++
         (if requests then [⟨l.supplyTag, 7, 0, []⟩] else []) ++ after)

/-! ### Zone control -/

/-- One update of a zone controller, after B has been held to max back-off: at or above critical CRITICAL at the maximum; the cases
of CRITICAL, STEADY, CLIMB and EASE below it; a raise by the surge or climb step, an ease by the ease step. That a zone which
leaves CRITICAL when a switch has raised its max back-off keeps the B it held is the model's choice (log 31).
A run of a zone's controller: the zone's state, B and D are those of one update on its estimate, TIER is set when the state
changes, and every path's thermal back-off becomes the greatest over the zones of ceil(B × weight / 15), at least 0.
At every frame turn that begins a frame with a bank in force, each zone but those the operand holds back (log 6) has run once on the
estimate the turn presents, with that bank, TIER is set where its state has changed, and the thermal back-offs follow from the
back-offs as they then stand; the zones held back still have the estimate to take. An update left from the frame before is made first,
on its own estimate (log 6). Where no bank is in force for the frame begun and no update is left, no controller runs. -/
def Obligations.ControllersAndThermalBackoffs : Prop :=
  (∀ (c : Control) (r : ZoneRec) (t : Int),
     let b := min r.maxBackoff c.backoff
     let d := min 65535 (c.sinceRaise + 1)
     let raised := min r.maxBackoff (b + if r.surge < t then r.surgeStep else r.climbStep)
     (r.critical ≤ t → c.update r t = ⟨.critical, r.maxBackoff, 0, false⟩) ∧
     (t < r.critical →
       (c.state = .critical → t ≤ r.settleHigh → c.update r t = ⟨.steady, b, d, false⟩) ∧
       (c.state = .critical → r.settleHigh < t → c.update r t = ⟨.critical, r.maxBackoff, 0, false⟩) ∧
       (c.state = .steady → r.rise < t → c.update r t = ⟨.climb, raised, 0, false⟩) ∧
       (c.state = .steady → t ≤ r.rise → t < r.fall → 0 < b → r.dwell ≤ c.sinceRaise →
         c.update r t = ⟨.ease, max 0 (b - r.easeStep), d, false⟩) ∧
       (c.state = .steady → t ≤ r.rise → (r.fall ≤ t ∨ b ≤ 0 ∨ c.sinceRaise < r.dwell) →
         c.update r t = ⟨.steady, b, d, false⟩) ∧
       (c.state = .climb → t ≤ r.settleHigh → c.update r t = ⟨.steady, b, d, false⟩) ∧
       (c.state = .climb → r.settleHigh < t → c.update r t = ⟨.climb, raised, 0, false⟩) ∧
       (c.state = .ease → r.rise < t → c.update r t = ⟨.climb, raised, 0, false⟩) ∧
       (c.state = .ease → t ≤ r.rise → (r.settleLow ≤ t ∨ b = 0) → c.update r t = ⟨.steady, b, d, false⟩) ∧
       (c.state = .ease → t ≤ r.rise → t < r.settleLow → b ≠ 0 →
         c.update r t = ⟨.ease, max 0 (b - r.easeStep), d, false⟩))) ∧
  (∀ (s : State) (z : Fin 4),
     let t := s.runController z
     let ceiled := fun (p y : Fin 4) => -((-((t.control.get y).backoff * (s.bankFor .current).weight p y)) / 15)
     t.control.get z = (s.control.get z).update ((s.bankFor .current).zone z) (s.heat.estimate.get z) ∧
       (∀ y, y ≠ z → t.control.get y = s.control.get y) ∧
       ((t.control.get z).state ≠ (s.control.get z).state → t.events.has .tier = true) ∧
       ((t.control.get z).state = (s.control.get z).state → t.events = s.events) ∧
       ∀ p, (∀ y, ceiled p y ≤ (t.path.get p).thermal) ∧ 0 ≤ (t.path.get p).thermal ∧
         ((t.path.get p).thermal = 0 ∨ ∃ y, (t.path.get p).thermal = ceiled p y) ∧
         t.path.get p = { s.path.get p with thermal := (t.path.get p).thermal }) ∧
  (∀ (s : State) (k : Clock) (turn : Turn) (o : TurnOrder), s.pins.resetN = true → s.turnOf k = some (turn, o) →
     let before := fun z : Fin 4 => if (s.control.get z).presented then
       (s.control.get z).update ((s.bankFor .current).zone z) (s.heat.estimate.get z) else s.control.get z
     ∃ t, exec (commandOf k) s = .next t ∧ t.updates = o.held ∧
       let ceiled := fun (p y : Fin 4) => -((-((t.control.get y).backoff * s.bankBegun.weight p y)) / 15)
       (s.tables.active ≠ none ∨ s.tables.firstSwitch = true →
         (∀ z, z ∉ o.held →
           t.control.get z = (before z).update (s.bankBegun.zone z) (t.heat.estimate.get z) ∧
           ((t.control.get z).state ≠ (before z).state → t.events.has .tier = true)) ∧
         (∀ z, z ∈ o.held → t.control.get z = { before z with presented := true }) ∧
         ((∃ z, z ∉ o.held) → ∀ p, (∀ y, ceiled p y ≤ (t.path.get p).thermal) ∧ 0 ≤ (t.path.get p).thermal ∧
           ((t.path.get p).thermal = 0 ∨ ∃ y, (t.path.get p).thermal = ceiled p y))) ∧
       (s.tables.active = none → s.tables.firstSwitch = false → (∀ z, (s.control.get z).presented = false) →
         t.control = s.control ∧ ∀ p, (t.path.get p).thermal = (s.path.get p).thermal))

/-! ### Curves and ceilings -/

/-- A curve at a code: 0 at the mute code, the first value at or below the first breakpoint, the last at or above the last, and
between two neighbouring breakpoints the straight line rounded up; where the values do not decrease, it does not decrease.
The fitting inverse is the largest code of its range at which the curve does not exceed the headroom, and none when there is no
such code; for a curve that does not decrease over the range every code of the range up to it fits, and for one that is never
negative in the range a negative headroom has none.
The supply curve of R45 at a voltage: likewise, with the straight line rounded down. -/
def Obligations.CurveAndFittingInverse : Prop :=
  (∀ (pts : List (Int × Int)) (x : Int), pts ≠ [] → pts.Pairwise (fun a b => a.1 < b.1) →
     evalCurve pts muteCode = 0 ∧
     (x ≠ muteCode →
       (∀ f, pts.head? = some f → x ≤ f.1 → evalCurve pts x = f.2) ∧
       (∀ l, pts.getLast? = some l → l.1 ≤ x → evalCurve pts x = l.2) ∧
       ∀ (i : Nat) (a b : Int × Int), pts[i]? = some a → pts[i + 1]? = some b → a.1 ≤ x → x < b.1 →
         evalCurve pts x = a.2 + -((-((b.2 - a.2) * (x - a.1))) / (b.1 - a.1))) ∧
     (pts.Pairwise (fun a b => a.2 ≤ b.2) →
       ∀ y, x ≠ muteCode → y ≠ muteCode → x ≤ y → evalCurve pts x ≤ evalCurve pts y)) ∧
  (∀ (f : Int → Int) (h lo hi : Int),
     (∀ p, fitInverse f h lo hi = some p → lo ≤ p ∧ p ≤ hi ∧ f p ≤ h ∧ (∀ q, p < q → q ≤ hi → h < f q) ∧
       ((∀ x y, lo ≤ x → x ≤ y → y ≤ hi → f x ≤ f y) → ∀ q, lo ≤ q → q ≤ p → f q ≤ h)) ∧
     (fitInverse f h lo hi = none ↔ ∀ p, lo ≤ p → p ≤ hi → h < f p) ∧
     ((∀ x, lo ≤ x → x ≤ hi → 0 ≤ f x) → h < 0 → fitInverse f h lo hi = none)) ∧
  (∀ (pts : List (Int × Int)) (x : Int), pts ≠ [] → pts.Pairwise (fun a b => a.1 < b.1) →
     (∀ f, pts.head? = some f → x ≤ f.1 → curveDown pts x = f.2) ∧
     (∀ l, pts.getLast? = some l → l.1 ≤ x → curveDown pts x = l.2) ∧
     ∀ (i : Nat) (a b : Int × Int), pts[i]? = some a → pts[i + 1]? = some b → a.1 ≤ x → x < b.1 →
       curveDown pts x = a.2 + (b.2 - a.2) * (x - a.1) / (b.1 - a.1))

/-- The ceiling and the first grant of an order for a frame slot, from the state as it stands, the bank in force for that frame
and the resolved record: the headroom term, the four terms that may lower it, the assured floor, the bar; then
P1 = max(min(req, C), min(req, Fl)) and L = min(P1, Fl).
The limit reason is that of the term that set P1, the first of those that share the least value (R14). The order demands boost when
the lesser of its request and its ceiling without the boost term exceeds the threshold (R13).
The request is the mute code, or the requested code clamped to -400 to 272 (R1). The record is the one of BANDS with the order's
path and band, or else that of the path and its fallback band (R6). The working record holds these values for the order. -/
def Obligations.CeilingAndFirstGrant : Prop :=
  (∀ (s : State) (o : Order) (req : Int),
    let b := s.bankFor o.slot
    let r := b.resolveBand o.path o.band
    let path := o.path
    let m := o.modClass
    let cls := o.cls
    let late := o.late
    let t := (s.workingRecord o).terms
    let x := s.path.get path
    let h := r.rated - b.modBackoff m - x.thermal - x.trip
    let c1 := match x.cap with
      | some v => min h v
      | none => h
    let c2 := if s.boost.state = .ready then c1 else min c1 b.limits.boostThreshold
    let c3 := if s.timer.mode = .safe then min c2 b.limits.safeCeiling else c2
    let c4 := if late then min c3 b.limits.lateCeiling else c3
    let c5 := if cls = 3 then max c4 r.assured else c4
    let c := if x.state = .barred then r.floor else c5
    let w := s.workingRecord o
    w.order = o ∧ w.bank = b ∧ w.band = r ∧ w.row = rowBase o.slot + o.start ∧ w.firstGrant = t.firstGrant o.request ∧
      w.lower = t.lowerBound o.request ∧ (∀ code, w.current code = b.current r code) ∧
      t = s.ceilingTerms b r path m cls late ∧
    t.headroom = h ∧ t.ceiling.1 = c ∧ t.firstGrant req = max (min req c) (min req r.floor) ∧
      t.lowerBound req = min (max (min req c) (min req r.floor)) r.floor ∧
      (let r0 : Reason := if 0 < x.trip then .trip else if 0 < x.thermal then .thermal else .rating
       let r1 : Reason := match x.cap with
         | some v => if v < h then .cap else r0
         | none => r0
       let r2 : Reason := if s.boost.state ≠ .ready ∧ b.limits.boostThreshold < c1 then .boost else r1
       let r3 : Reason := if s.timer.mode = .safe ∧ b.limits.safeCeiling < c2 then .safe else r2
       let r4 : Reason := if late = true ∧ b.limits.lateCeiling < c3 then .late else r3
       let r5 : Reason := if cls = 3 ∧ c4 < r.assured then .assured else r4
       let r6 : Reason := if x.state = .barred then .bar else r5
       let p1 := max (min req c) (min req r.floor)
       t.reason req = if p1 = req then .request else if p1 = c then r6 else .floor) ∧
      (let d3 := if s.timer.mode = .safe then min c1 b.limits.safeCeiling else c1
       let d4 := if late then min d3 b.limits.lateCeiling else d3
       let d5 := if cls = 3 then max d4 r.assured else d4
       let d := if x.state = .barred then r.floor else d5
       t.demandsBoost req = true ↔ b.limits.boostThreshold < min req d)) ∧
  (∀ x : Int, (x = -512 → clampRequest x = -512) ∧ (x ≠ -512 → x < -400 → clampRequest x = -400) ∧
     (-400 ≤ x → x ≤ 272 → clampRequest x = x) ∧ (272 < x → clampRequest x = 272)) ∧
  (∀ (b : Bank) (path : Fin 4) (band : Nat),
     let n := b.count Table.bands
     let at_ := b.record Table.bands
     let names := fun (k band : Nat) => k < n ∧ (b.read (at_ k)).toNat = path.val * 32 + band
     let fallback := (b.read (b.record Table.limits 0 + 17 + path.val)).toNat
     (∀ k, names k band → (∀ j < k, ¬ names j band) → b.resolveBand path band = b.bandAt (at_ k)) ∧
     ((∀ j, ¬ names j band) → ∀ k, names k fallback → (∀ j < k, ¬ names j fallback) →
       b.resolveBand path band = b.bandAt (at_ k)))

/-! ### Orders -/

/-- The classification by timing: Out of window, Past, Late, Normal, with the length clamped to 1 to 80 and, where the start is 79 or
less, to the frame's end. A frame number names the current frame, else the next one modulo 256, else no frame of the window. -/
def Obligations.BurstTimingClassification : Prop :=
  ∀ (s : State) (start length : Nat),
    let n := s.timer.grain
    let lead := (s.bankFor .current).limits.commitLead
    let len := burstLength start length
    len = (if start ≤ 79 then min (max 1 (min 80 length)) (80 - start) else max 1 (min 80 length)) ∧
    (1 ≤ len ∧ len ≤ 80 ∧ (start ≤ 79 → start + len ≤ 80)) ∧
    (∀ frame, s.frameSlot frame = if frame = s.timer.frame then some .current
      else if frame = (s.timer.frame + 1) % 256 then some .next else none) ∧
    (∀ frame, frame ≠ s.timer.frame → frame ≠ (s.timer.frame + 1) % 256 →
      s.timing (s.frameSlot frame) start len = .outOfWindow) ∧
    (∀ slot, 79 < start → s.timing slot start len = .outOfWindow) ∧
    (start ≤ 79 →
      (start + len ≤ n → s.timing (s.frameSlot s.timer.frame) start len = .past) ∧
      (n < start + len → start < n + lead → s.timing (s.frameSlot s.timer.frame) start len = .late) ∧
      (n < start + len → n + lead ≤ start → s.timing (s.frameSlot s.timer.frame) start len = .normal) ∧
      ((s.timer.frame + 1) % 256 ≠ s.timer.frame →
        s.timing (s.frameSlot ((s.timer.frame + 1) % 256)) start len = .normal))

/-- In UNSET a BURST, a REVISE and a received AMEND are granted the lesser of the clamped request and the strap ceiling, which is
written into the packet in its place, and nothing else changes; the strap levels read are kept as the pins' (the model's choice,
log 12). -/
def Obligations.UnsetOrdersMeetTheStrapCeiling : Prop :=
  ∀ (s : State) (p : Packet) (straps : BitVec 2), s.pins.resetN = true → s.timer.mode = .unset →
    s.link.nextOrder = some p →
    let ceiling : Int := if straps = 0 then 48 else if straps = 1 then 96 else if straps = 2 then 144 else 184
    let after := { s with
      pins := { s.pins with straps := straps }
      link := s.link.finishOrder fun q => q.setPower (min (clampRequest p.power) ceiling) }
    (p.kind = 2 → exec (.burst straps) s = .next after) ∧
    (p.kind = 4 → exec (.revise straps) s = .next after) ∧
    (p.kind = 5 → exec (.amendReceived straps) s = .next after)

/-- Outside UNSET a BURST that is out of the window, past, overlapped by a COMMITTED entry or without a place is granted the lesser
of the clamped request and the late ceiling, is not booked, and has its heat charged to its path at once. The strap levels read
are kept as the pins' (the model's choice, log 12). A charge adds to the accumulator of its path alone, saturating at 2147483647;
two spans meet exactly when they share a grain. -/
def Obligations.UnbookedBurstIsChargedAtOnce : Prop :=
  (∀ (h : Heat) (path : Fin 4) (amount : Int),
    h.charge path amount = { h with acc := (h.charge path amount).acc } ∧
      ∀ i, (h.charge path amount).acc.get i = if i = path then min 2147483647 (h.acc.get i + amount) else h.acc.get i) ∧
  (∀ lo len lo' len' : Nat, 1 ≤ len → 1 ≤ len' →
    (spansMeet lo len lo' len' = true ↔ ∃ g, lo ≤ g ∧ g < lo + len ∧ lo' ≤ g ∧ g < lo' + len')) ∧
  ∀ (s : State) (p : Packet) (straps : BitVec 2), s.pins.resetN = true → s.timer.mode ≠ .unset →
    s.link.nextOrder = some p → p.kind = 2 →
    let b := s.bankFor .current
    let len := burstLength p.orderStart p.orderLength
    let grant := min (clampRequest p.power) b.limits.lateCeiling
    let heat := b.dissipation (b.resolveBand p.orderPath p.orderBand) grant * len
    let timing := s.timing (s.frameSlot p.orderFrame) p.orderStart len
    let slot := (s.frameSlot p.orderFrame).getD .current
    let overlaps := fun e : Entry => e.path = p.orderPath ∧ e.slot = slot ∧
      spansMeet e.start e.length p.orderStart len = true
    let after := fun f : Flag => { s with
      pins := { s.pins with straps := straps }
      link := s.link.finishOrder fun q => q.setPower grant
      heat := s.heat.charge p.orderPath heat
      events := s.events.raise f }
    (timing = .outOfWindow ∨ timing = .past → exec (.burst straps) s = .next (after .lateOrder)) ∧
    (timing = .normal ∨ timing = .late →
      ((∃ e ∈ s.sched.entries, overlaps e ∧ e.state = .committed) →
        exec (.burst straps) s = .next (after .lateOrder)) ∧
      ((∀ e ∈ s.sched.entries, ¬ overlaps e) → 32 ≤ s.sched.entries.length →
        exec (.burst straps) s = .next (after .schedFull)))

/-- Outside UNSET a BURST classed Normal or Late, with a place, no overlap and room for its first grant on every row, is booked at
the end of the list, BOOKED when Normal and COMMITTED when Late, with that grant written into its packet, its current added to
every row of its span, and no other entry changed.
A BURST classed Normal or Late whose overlapping entries are all BOOKED, with a place left once they are gone, is admitted in full, a
requested mute code included: those entries are removed and their currents subtracted, then the admission does what `State.admits`
spells (demand, fit by first grant, amendments, reduction or mute, booking, note); the grant is written into the packet, a Late one
sets LATE_ORDER, and the strap levels read are kept as the pins' (the model's choice, log 12). -/
def Obligations.FittingBurstIsBookedAtItsFirstGrant : Prop :=
  (∀ (s : State) (p : Packet) (straps : BitVec 2) (slot : Slot) (late : Bool), s.pins.resetN = true →
    s.timer.mode ≠ .unset → s.link.nextOrder = some p → p.kind = 2 → s.frameSlot p.orderFrame = some slot →
    let len := burstLength p.orderStart p.orderLength
    s.timing (some slot) p.orderStart len = (if late then .late else .normal) →
    (∀ e ∈ s.sched.entries, ¬ (e.path = p.orderPath ∧ e.slot = slot ∧
      spansMeet e.start e.length p.orderStart len = true)) →
    s.sched.entries.length < 32 →
    let b := s.bankFor slot
    let r := b.resolveBand p.orderPath p.orderBand
    let req := clampRequest p.power
    let c := s.ceilingTerms b r p.orderPath p.orderMod p.orderClass late
    let row := rowBase slot + p.orderStart
    let cur := b.current r (c.firstGrant req)
    req ≠ muteCode → (∀ g, row ≤ g → g < row + len → cur ≤ s.supply.ceiling - rowOf s.supply.map g) →
    ∃ t e, exec (.burst straps) s = .next t ∧ t.sched.entries = s.sched.entries ++ [e] ∧
      e.tag = p.orderTag ∧ e.path = p.orderPath ∧ e.band = r.band ∧ e.cls = p.orderClass ∧ e.modClass = p.orderMod ∧
      e.slot = slot ∧ e.start = p.orderStart ∧ e.length = len ∧ e.requested = req ∧ e.granted = c.firstGrant req ∧
      e.lower = c.lowerBound req ∧ e.reserved = cur ∧ e.dissipation = b.dissipation r (c.firstGrant req) ∧
      e.state = (if late then .committed else .booked) ∧ e.reason = c.reason req ∧ e.amends = 0 ∧
      t.supply = { s.supply with map := addRows s.supply.map row len cur } ∧
      t.link = { s.link.finishOrder fun q => q.setPower (c.firstGrant req) with orig := t.link.orig } ∧
      (late = true → t.events.has .lateOrder = true) ∧ (late = false → t.events = s.events) ∧
      t.heat = s.heat ∧ t.path = s.path ∧ t.control = s.control ∧ t.sense = s.sense ∧ t.tables = s.tables ∧
      t.timer = s.timer ∧ t.engine = s.engine) ∧
  (∀ (s : State) (p : Packet) (straps : BitVec 2) (slot : Slot) (late : Bool), s.sched.sound → s.pins.resetN = true →
    s.timer.mode ≠ .unset → s.link.nextOrder = some p → p.kind = 2 → s.frameSlot p.orderFrame = some slot →
    let len := burstLength p.orderStart p.orderLength
    s.timing (some slot) p.orderStart len = (if late then .late else .normal) →
    let overlaps := fun e : Entry => e.path == p.orderPath && e.slot == slot && spansMeet e.start e.length p.orderStart len
    let kept := s.sched.entries.filter fun e => !overlaps e
    (∀ e ∈ s.sched.entries, overlaps e = true → e.state = .booked) → kept.length < 32 →
    let freed := { s with
      sched := { s.sched with entries := kept }
      supply := { s.supply with
        map := (s.sched.entries.filter overlaps).foldl (fun m (e : Entry) => addRows m e.row e.length (-e.reserved)) s.supply.map } }
    ∃ t grant, freed.admits ⟨p.orderTag, p.orderPath, p.orderBand, p.orderClass, p.orderMod, slot, p.orderStart, len,
        clampRequest p.power, late⟩ t grant ∧
      exec (.burst straps) s = .next { t with
        pins := { s.pins with straps := straps }
        link := t.link.finishOrder fun q => q.setPower grant
        events := if late then t.events.raise .lateOrder else t.events })

/-- Law 1. Whatever the state, an order leaves with a code no higher than its request after clamping.
Law 3. With the banks sound, the entries apart and priced and the map's rows carrying them, a BURST, REVISE or received AMEND
leaves every row of the entry it books, its serial new, at or below the supply ceiling, and a mute booking reserves nothing. -/
def Obligations.NoOrderIsGrantedAboveItsRequest : Prop :=
  (∀ (s : State) (p : Packet) (straps : BitVec 2),
    (s.takeBurst p straps).2 ≤ clampRequest p.power ∧ (s.takeRevise p straps).2 ≤ clampRequest p.power ∧
    (s.link.nextOrder = some p → s.pins.resetN = true →
      (p.kind = 2 → ∃ t, exec (.burst straps) s = .next t ∧
        t.link.down = (s.link.finishOrder fun q => q.setPower (s.takeBurst p straps).2).down) ∧
      (p.kind = 4 → ∃ t, exec (.revise straps) s = .next t ∧
        t.link.down = (s.link.finishOrder fun q => q.setPower (s.takeRevise p straps).2).down) ∧
      (p.kind = 5 → ∃ t, exec (.amendReceived straps) s = .next t ∧
        t.link.down = (s.link.finishOrder fun q => q.setPower (s.takeRevise p straps).2).down))) ∧
  (∀ (s t : State) (straps : BitVec 2) (c : Instr), s.tables.sound → s.sched.sound → s.supply.sound → s.ranged →
    s.entriesPriced → s.mapSound → c = .burst straps ∨ c = .revise straps ∨ c = .amendReceived straps → exec c s = .next t →
    ∀ e ∈ t.sched.entries, s.sched.nextSerial ≤ e.serial →
      (e.granted = muteCode → e.reserved = 0) ∧
      (e.granted ≠ muteCode → ∀ g, e.row ≤ g → g < e.row + e.length → rowOf t.supply.map g ≤ s.supply.ceiling))

/-- A REVISE or received AMEND outside UNSET: against a COMMITTED entry the lesser of the new request and the old grant stands, in the
entry and in the packet; a lower grant re-evaluates reserved current and dissipation, adjusts the map and gives the reason
REQUEST; without a match the packet carries the lesser of the request and the late ceiling.
A REVISE or received AMEND that matches a BOOKED entry frees it and books the order again at the end of the list, with the entry's
fields, the new request and an amend count of 0: it is admitted in full as a Normal order (`State.admits`), after the entry's
current has been subtracted from the map. The strap levels read are kept as the pins' (the model's choice, log 12).
A difference added to a span of the Supply Map is added to each of its rows and to no other; the current frame's rows begin at 0, the
next frame's at 80. -/
def Obligations.ReviseRebooksOrLowersItsEntry : Prop :=
  (rowBase .current = 0 ∧ rowBase .next = 80 ∧ (∀ e : Entry, e.row = rowBase e.slot + e.start) ∧
    ∀ (m : List Int) (lo len : Nat) (d : Int), (addRows m lo len d).length = m.length ∧
      ∀ g, rowOf m g = m.getD g 0 ∧
        rowOf (addRows m lo len d) g = if lo ≤ g ∧ g < lo + len ∧ g < m.length then rowOf m g + d else rowOf m g) ∧
  (∀ (s : State) (p : Packet) (straps : BitVec 2) (c : Instr), s.pins.resetN = true → s.timer.mode ≠ .unset →
     s.link.nextOrder = some p →
     (c = .revise straps ∧ p.kind = 4) ∨ (c = .amendReceived straps ∧ p.kind = 5) →
     let req := clampRequest p.power
     let s' := { s with pins := { s.pins with straps := straps } }
     let write := fun grant : Int => s.link.finishOrder fun q => q.setPower grant
     (∀ e, s.sched.find p.orderTag p.orderPath = some e → e.state = .committed →
       (e.granted ≤ req → exec c s = .next { s' with link := write e.granted }) ∧
       (req < e.granted →
         let b := s.bankFor e.slot
         let r := b.resolveBand e.path e.band
         let e' := { e with
           granted := req
           reserved := b.current r req
           dissipation := b.dissipation r req
           reason := .request }
         let rows := addRows s.supply.map (rowBase e.slot + e.start) e.length (e'.reserved - e.reserved)
         exec c s = .next { s' with
           link := write req
           sched := { s.sched with entries := s.sched.entries.map fun x => if x.serial = e.serial then e' else x }
           supply := { s.supply with map := rows } })) ∧
     (s.sched.find p.orderTag p.orderPath = none →
       exec c s = .next { s' with link := write (min req s.limits.lateCeiling) })) ∧
  (∀ (s : State) (p : Packet) (straps : BitVec 2) (c : Instr) (e : Entry), s.pins.resetN = true →
     s.timer.mode ≠ .unset → s.link.nextOrder = some p →
     (c = .revise straps ∧ p.kind = 4) ∨ (c = .amendReceived straps ∧ p.kind = 5) →
     s.sched.find p.orderTag p.orderPath = some e → e.state = .booked →
     (∃ t es n, exec c s = .next t ∧ t.sched.entries = es ++ [n] ∧
       es.map (·.serial) = (s.sched.entries.filter fun x => !(x.serial == e.serial)).map (·.serial) ∧
       n.tag = e.tag ∧ n.path = e.path ∧ n.cls = e.cls ∧ n.modClass = e.modClass ∧ n.slot = e.slot ∧
       n.start = e.start ∧ n.length = e.length ∧ n.requested = clampRequest p.power ∧ n.state = .booked ∧
       n.band = ((s.bankFor e.slot).resolveBand e.path e.band).band ∧
       n.amends = 0 ∧ t.link.down = (s.link.finishOrder fun q => q.setPower n.granted).down ∧
       t.heat = s.heat ∧ t.path = s.path ∧ t.tables = s.tables ∧ t.timer = s.timer) ∧
     (s.sched.sound → e.cls < 4 →
       let freed := { s with
         sched := { s.sched with entries := s.sched.entries.filter fun x => !(x.serial == e.serial) }
         supply := { s.supply with map := addRows s.supply.map e.row e.length (-e.reserved) } }
       ∃ t grant, freed.admits ⟨e.tag, e.path, e.band, e.cls, e.modClass, e.slot, e.start, e.length, clampRequest p.power,
           false⟩ t grant ∧
         exec c s = .next { t with
           pins := { s.pins with straps := straps }
           link := t.link.finishOrder fun q => q.setPower grant }))

/-- A WITHDRAW passes on unchanged: a matched BOOKED entry is freed and its current subtracted from its span, with no heat; a
COMMITTED entry is kept; without a match nothing is done. No flag is set and no reply is made.
A WITHDRAW, REVISE or received AMEND names the entry with its tag and path that stands last in booking order. -/
def Obligations.WithdrawFreesTheLatestBookedMatch : Prop :=
  (∀ (s : State) (p : Packet), s.pins.resetN = true → s.link.nextOrder = some p → p.kind = 3 →
     (∀ e, s.sched.find p.orderTag p.orderPath = some e → e.state = .booked →
       let rows := addRows s.supply.map (rowBase e.slot + e.start) e.length (-e.reserved)
       exec .withdraw s = .next { s with
         link := s.link.finishOrder id
         sched := { s.sched with entries := s.sched.entries.filter fun x => !(x.serial == e.serial) }
         supply := { s.supply with map := rows } }) ∧
     (∀ e, s.sched.find p.orderTag p.orderPath = some e → e.state = .committed →
       exec .withdraw s = .next { s with link := s.link.finishOrder id }) ∧
     (s.sched.find p.orderTag p.orderPath = none →
       exec .withdraw s = .next { s with link := s.link.finishOrder id })) ∧
  (∀ (c : Schedule) (tag : Nat) (path : Fin 4),
     (∀ e, c.find tag path = some e → ∃ before after, c.entries = before ++ e :: after ∧ e.tag = tag ∧ e.path = path ∧
       ∀ x ∈ after, ¬ (x.tag = tag ∧ x.path = path)) ∧
     (c.find tag path = none ↔ ∀ x ∈ c.entries, ¬ (x.tag = tag ∧ x.path = path)))

/-- A rewritten order's power field holds the code, its other words but the check word stay, and the sum of its words stays as it
was. When the handling of an order completes, the first packet of the downstream Pass Buffer that is not ready is rewritten in its
place and made ready; every other packet stays as and where it is. With no such packet nothing changes.
A packet the governor makes with a payload of at most 15 words leaves with a sum of words of 0, its payload as made, and in its
header the unit, kind, length and aux it was made with.
The fields of an order lie at their words and bits (section 8.7). The order taken next is the first packet of the downstream Pass
Buffer that is not ready. -/
def Obligations.RewrittenAndOriginatedPacketsSumToZero : Prop :=
  (∀ (p : Packet) (code : Int), p.powerIndex < p.payload.length →
     (p.setPower code).sum = p.sum ∧ (p.setPower code).header = p.header ∧
       (p.setPower code).payload.length = p.payload.length ∧
       (p.setPower code).word p.powerIndex = BitVec.ofInt 16 code ∧
       (∀ i, i ≠ p.powerIndex → (p.setPower code).word i = p.word i) ∧
       (code = p.power → p.setPower code = p)) ∧
  (∀ d : Draft, d.unit < 16 → d.kind < 16 → d.aux < 16 → d.payload.length < 16 →
     d.seal.sum = 0 ∧ d.seal.payload = d.payload ∧ d.seal.unit = d.unit ∧ d.seal.kind = d.kind ∧ d.seal.aux = d.aux ∧
       d.seal.lengthField = d.payload.length) ∧
  (∀ (l : Link) (f : Packet → Packet),
     (∀ before e after, l.down = before ++ e :: after → (∀ x ∈ before, x.ready = true) → e.ready = false →
       l.finishOrder f = { l with down := before ++ ⟨f e.packet, true⟩ :: after }) ∧
     ((∀ x ∈ l.down, x.ready = true) → l.finishOrder f = l) ∧
     (∀ before e after, l.down = before ++ e :: after → (∀ x ∈ before, x.ready = true) → e.ready = false →
       l.nextOrder = some e.packet) ∧
     ((∀ x ∈ l.down, x.ready = true) → l.nextOrder = none)) ∧
  ∀ p : Packet,
    let word := fun i : Nat => p.payload.getD i 0
    (∀ i, p.word i = word i) ∧
    (p.orderTag = wordBits (word 0) 15 8 ∧ p.orderPath.val = wordBits (word 0) 7 6 ∧ p.orderClass = wordBits (word 0) 5 4) ∧
    (p.orderBand = wordBits (word 1) 15 11 ∧ p.orderMod = wordBits (word 1) 10 8 ∧ p.orderFrame = wordBits (word 1) 7 0) ∧
    (p.orderStart = wordBits (word 2) 15 8 ∧ p.orderLength = wordBits (word 2) 7 0) ∧
    (p.kind = 2 → p.powerIndex = 3) ∧ (p.kind ≠ 2 → p.powerIndex = 1) ∧ p.power = (word p.powerIndex).toInt

/-! ### Amendment requests -/

/-- A request taken ranks the entries that are BOOKED, in its scope, at or beyond their amend lead and above their targets by
absolute start, equal starts in booking order, and lists from the head as many as there are free slots, claiming one for each. It
joins the requests in progress, or, listing none, ends at once. The targets are those of R58 to R60. That the claimed slots are the
entries still listed, counted, is the model's (log 17).
The next amendment of a request, the one in progress that the operand counts to (the model's choice, log 24): made while its entry is still BOOKED and above its target, which becomes its grant with reason
AMENDED, the amend count up by 1, current, dissipation and map re-evaluated and an AMEND to all units placed; dropped otherwise.
Either way its item leaves the list and one slot is no longer claimed. With no such request the state stays as it is (the model's
choice, log 3). -/
def Obligations.AmendmentRequestsListAndLower : Prop :=
  (∀ (s : State) (kind : RequestKind),
     let t := s.takeRequest kind
     let inScope := fun e : Entry => match kind with
       | .trip p => e.path == p
       | .bar p => e.path == p
       | .safe => true
     let wanted := fun e : Entry => e.state == .booked && inScope e &&
       decide (s.timer.grain + (s.bankFor e.slot).limits.amendLead ≤ e.row) && decide (s.targetCode kind e < e.granted)
     ∃ ranked : List Entry, ranked.Perm (s.sched.entries.filter wanted) ∧ ranked.Pairwise (fun a b => a.row ≤ b.row) ∧
       (∀ r, ranked.filter (fun e => e.row == r) = s.sched.entries.filter (fun e => wanted e && e.row == r)) ∧
       let listed := ranked.take (12 - s.link.orig.length - s.supply.claimed)
       t = { s with supply := { s.supply with requests :=
         if listed = [] then s.supply.requests else s.supply.requests ++ [⟨kind, listed.map fun e => e.serial⟩] } } ∧
       t.supply.claimed = s.supply.claimed + listed.length) ∧
  (∀ (s : State) (e : Entry),
     let b := s.bankFor e.slot
     let r := b.resolveBand e.path e.band
     (∀ p, s.targetCode (.bar p) e = r.floor) ∧
     (e.cls ≠ 3 → s.targetCode .safe e = max b.limits.safeCeiling e.lower) ∧
     (e.cls = 3 → s.targetCode .safe e = max (max b.limits.safeCeiling r.assured) e.lower) ∧
     ∀ (p : Fin 4) (o : Order), o.path = e.path → o.band = e.band → o.cls = e.cls → o.modClass = e.modClass →
       o.slot = e.slot → o.late = false → s.targetCode (.trip p) e = (s.workingRecord o).terms.firstGrant e.requested) ∧
  (∀ (c : Schedule) (n : Nat), (∀ e, c.bySerial n = some e → e ∈ c.entries ∧ e.serial = n) ∧
     (c.bySerial n = none ↔ ∀ e ∈ c.entries, e.serial ≠ n)) ∧
  (∀ h : Headroom, h.claimed = (h.requests.map fun r => r.items.length).sum) ∧
  (∀ (s : State) (k : Nat), s.pins.resetN = true →
     (s.supply.requests[k]? = none → exec (.requestedAmendment k) s = .next s) ∧
     ∀ (r : Request), s.supply.requests[k]? = some r →
       (r.items = [] → exec (.requestedAmendment k) s = .next s) ∧
       ∀ (n : Nat) (rest : List Nat), r.items = n :: rest →
         ∃ t, exec (.requestedAmendment k) s = .next t ∧ t.supply.claimed + 1 = s.supply.claimed ∧
           ((∀ q ∈ s.supply.requests, q.items ≠ []) → t.supply.requests = s.supply.requests.take k ++
             (if rest = [] then [] else [⟨r.kind, rest⟩]) ++ s.supply.requests.drop (k + 1)) ∧
           (∀ e, s.sched.bySerial n = some e → e.state = .booked → s.targetCode r.kind e < e.granted →
             let b := s.bankFor e.slot
             let code := s.targetCode r.kind e
             let e' := { e with
               granted := code
               reserved := b.current (b.resolveBand e.path e.band) code
               dissipation := b.dissipation (b.resolveBand e.path e.band) code
               reason := .amended
               amends := min 255 (e.amends + 1) }
             t = { s with
               sched := { s.sched with entries := s.sched.entries.map (fun x => if x.serial = n then e' else x) }
               supply := { s.supply with
                 map := addRows s.supply.map (rowBase e.slot + e.start) e.length (e'.reserved - e.reserved)
                 requests := t.supply.requests }
               link := { s.link with orig := s.link.orig ++
                 [⟨14, 5, 0, [BitVec.ofNat 16 (e.tag * 256 + e.path.val * 64), BitVec.ofInt 16 code]⟩] } }) ∧
           ((∀ e, s.sched.bySerial n = some e → e.state = .committed ∨ e.granted ≤ s.targetCode r.kind e) →
             t = { s with supply := { s.supply with requests := t.supply.requests } }))

/-! ### The Command Engine -/

/-- With no command in execution the head of the Command Queue is taken; otherwise, or with an empty queue, nothing happens (the
model's choice for a command row given where it does not arise, log 3).
While the Reply Queue is full, or a completing copy waits for its next place, the command in execution waits with none of its
effect made; SOFT-RESET is left out here. A completing copy waits for a place exactly while its progress is 4096. -/
def Obligations.EngineTakesTheHeadAndWaitsForAPlace : Prop :=
  (∀ t : Tables, t.copyWaiting = true ↔ ∃ c, t.copy = some c ∧ c.progress = 4096) ∧
  (∀ s : State, s.pins.resetN = true →
     (∀ p rest, s.engine.current = none → s.engine.queue = p :: rest → exec .commandTake s =
       .next { s with engine := { s.engine with queue := rest, current := some p } }) ∧
     (s.engine.current ≠ none ∨ s.engine.queue = [] → exec .commandTake s = .next s)) ∧
  (∀ (s : State) (p : Packet) (copied : Nat) (c : Instr), s.engine.current = some p →
     8 ≤ s.engine.replies.length ∨ s.tables.copyWaiting = true →
     (commandRow copied p.commandCode = some c → p.commandCode ≠ 0x1F → exec c s = .next s) ∧
     (commandRow copied p.commandCode = none → exec .unknownCommand s = .next s))

/-- An unknown code is answered UNKNOWN, its code echoed; a known command whose payload length is not one the code table gives is
answered RANGE with one word, or with two where a READ-TABLE carried a count of 1 (for a wrong length the model's reading, log
26). Neither has any other effect. The lengths of the code table of section 9.8, and the codes it names; the code lies in bits 15 to 8
of the first payload word, the parameter byte in bits 7 to 0. -/
def Obligations.UnknownAndWrongLengthCommandsAreRefused : Prop :=
  (∀ (s : State) (p : Packet) (copied : Nat), s.pins.resetN = true → s.engine.current = some p →
    s.engine.replies.length < 8 → s.tables.copyWaiting = false →
    let answer := fun words : List Word => { s with engine := { s.engine with
      current := none
      replies := s.engine.replies ++ [⟨0, 14, p.aux, words⟩] } }
    (commandRow copied p.commandCode = none → exec .unknownCommand s =
      .next (answer [BitVec.ofNat 16 (p.commandCode * 256 + 7)])) ∧
    ∀ c, commandRow copied p.commandCode = some c → commandLengthOk p = false →
      let w : Word := BitVec.ofNat 16 (p.commandCode * 256 + 4)
      exec c s = .next (answer (if p.commandCode = 0x10 ∧ p.word 2 = 1 then [w, w] else [w]))) ∧
  (∀ (p : Packet) (copied : Nat),
    let code := p.commandCode
    let n := p.payload.length
    (code = wordBits (p.payload.getD 0 0) 15 8 ∧ p.parameter = wordBits (p.payload.getD 0 0) 7 0) ∧
    (commandLengthOk p = true ↔
      (code ∈ [0x01, 0x02, 0x04, 0x05, 0x06, 0x08, 0x12, 0x13, 0x14, 0x1F] ∧ n = 1) ∨ ((code = 0x03 ∨ code = 0x07) ∧ n = 2) ∨
        (code = 0x10 ∧ n = 3) ∨ (code = 0x11 ∧ 3 ≤ n ∧ n ≤ 12)) ∧
    (commandRow copied code = none ↔
      code ∉ [0x01, 0x02, 0x03, 0x04, 0x05, 0x06, 0x07, 0x08, 0x10, 0x11, 0x12, 0x13, 0x14, 0x1F]))

/-- What a read command of the right length answers: exactly one reply with the command's tag, and nothing else in the part changes.
READ-STATUS and READ-SCHEDULE at the entry named; READ-ZONE and READ-PATH by range and mode. The words of each reply are laid out as
section 9.8 gives, each word the sum of its items at their places, a signed item in two's complement. -/
def Obligations.ReadCommandsReportState : Prop :=
  ∀ (s : State) (p : Packet), s.pins.resetN = true → s.engine.current = some p → s.engine.replies.length < 8 →
    s.tables.copyWaiting = false → p.payload.length = 1 →
    let answer := fun words : List Word => { s with engine := { s.engine with
      current := none
      replies := s.engine.replies ++ [⟨0, 14, p.aux, words⟩] } }
    let u : Nat → Word := BitVec.ofNat 16
    let i : Int → Word := BitVec.ofInt 16
    (p.commandCode = 0x01 →
      let mode := match s.timer.mode with
        | .unset => 0
        | .governing => 1
        | .safe => 2
      let timer := match s.timer.state with
        | .synced => 0
        | .awaiting => 1
        | .holdover => 2
      let bank := fun b : Option BankId => match b with
        | some .bank0 => 0
        | some .bank1 => 1
        | none => 15
      let turns := match s.tables.pending with
        | some (_, n) => n
        | none => 0
      let copying := if s.tables.copy = none then 0 else 1
      let boost := match s.boost.state with
        | .off => 0
        | .requested => 1
        | .ready => 2
        | .failed => 3
      exec .readStatus s = .next (answer [0x0100, u (mode * 4096 + timer * 256 + s.timer.frame),
        u (s.timer.grain * 256 + s.timer.missed),
        u (bank s.tables.active * 4096 + bank (s.tables.pending.map Prod.fst) * 256 + turns * 16 + copying),
        u (boost * 256 + s.sched.entries.length), i s.supply.ceiling])) ∧
    (p.commandCode = 0x04 →
      (4 ≤ p.parameter → exec .readZone s = .next (answer [0x0404])) ∧
      ∀ z : Fin 4, p.parameter = z.val →
        (s.timer.mode = .unset → exec .readZone s =
          .next (answer [0x0406, 0x00FF, 0xFF60, 0xFF60, 0xFF60, 0, 0, 0, 0])) ∧
        (s.timer.mode ≠ .unset →
          let y := s.sense.get z
          let c := s.control.get z
          let r := (s.bankFor .current).zone z
          let account := s.heat.account.get z
          let fresh := match y.fresh with
            | .seeding => 0
            | .fresh => 1
            | .stale => 2
            | .blind => 3
          let state := match c.state with
            | .steady => 0
            | .climb => 1
            | .ease => 2
            | .critical => 3
          exec .readZone s = .next (answer [0x0400, u (fresh * 4096 + state * 256 + y.age), i y.sensed,
            i (max (-160) (min 600 (r.ambient + account / r.scale))), i (s.heat.estimate.get z), i (account / 65536),
            i (account % 65536), i c.backoff, u c.sinceRaise]))) ∧
    (p.commandCode = 0x05 →
      (4 ≤ p.parameter → exec .readPath s = .next (answer [0x0504])) ∧
      ∀ q : Fin 4, p.parameter = q.val →
        (s.timer.mode = .unset → exec .readPath s = .next (answer [0x0506, 0, 0, 0, 0, 0x8000])) ∧
        (s.timer.mode ≠ .unset →
          let x := s.path.get q
          let state := match x.state with
            | .clear => 0
            | .tripped => 1
            | .barred => 2
          let cap := match x.cap with
            | some c => i c
            | none => 0x8000
          exec .readPath s = .next (answer [0x0500, i x.thermal, i x.trip, u state, u x.barLeft, cap]))) ∧
    (p.commandCode = 0x06 →
      (s.timer.mode = .unset → exec .readSchedule s = .next (answer [0x0606, 0])) ∧
      (s.timer.mode ≠ .unset →
        (s.sched.entries.length ≤ p.parameter → exec .readSchedule s = .next (answer [0x0600, 0])) ∧
        ∀ e, s.sched.entries[p.parameter]? = some e →
          let slot := match e.slot with
            | .current => 0
            | .next => 1
          let state := match e.state with
            | .booked => 0
            | .committed => 1
          let reason := match e.reason with
            | .request => 0
            | .rating => 1
            | .thermal => 2
            | .trip => 3
            | .cap => 4
            | .boost => 5
            | .safe => 6
            | .late => 7
            | .assured => 8
            | .bar => 9
            | .floor => 10
            | .supply => 11
            | .mute => 12
            | .amended => 13
          exec .readSchedule s = .next (answer [0x0600, 1, u (p.parameter * 256 + e.tag),
            u (e.band * 2048 + e.modClass * 256 + e.path.val * 64 + e.cls * 16 + slot * 8 + state * 4),
            u (e.start * 256 + e.length), i e.requested, i e.granted, i e.lower, i e.reserved, i e.dissipation,
            u (reason * 256 + e.amends)])))

/-- READ-EVENTS reports the flags and the mask, clears every flag and withdraws a waiting notice; the mask stays.
SET-MASK replaces the mask and acts on no flag and no waiting notice; SET-CAP sets a code of the valid range, removes the cap on
the no-cap value and is RANGE otherwise; CLEAR-BAR ends a bar as its expiry does and changes no other path. Each answers its
status word alone, in every mode. -/
def Obligations.EventsMaskCapAndBarCommands : Prop :=
  (∀ (s : State) (p : Packet), s.pins.resetN = true → s.engine.current = some p → s.engine.replies.length < 8 →
     s.tables.copyWaiting = false → p.commandCode = 0x02 → p.payload.length = 1 →
     exec .readEvents s = .next { s with
       engine := { s.engine with
         current := none
         replies := s.engine.replies ++ [⟨0, 14, p.aux, [0x0200, s.events.flags, s.events.mask]⟩] }
       events := { s.events with flags := 0, notice := none } }) ∧
  (∀ (s : State) (p : Packet), s.pins.resetN = true → s.engine.current = some p → s.engine.replies.length < 8 →
     s.tables.copyWaiting = false →
     let answer := fun word : Word => { s with engine := { s.engine with
       current := none
       replies := s.engine.replies ++ [⟨0, 14, p.aux, [word]⟩] } }
     (p.commandCode = 0x03 → p.payload.length = 2 → exec .setMask s =
       .next { answer 0x0300 with events := { s.events with mask := p.word 1 } }) ∧
     (p.commandCode = 0x07 → p.payload.length = 2 →
       (4 ≤ p.parameter → exec .setCap s = .next (answer 0x0704)) ∧
       ∀ i : Fin 4, p.parameter = i.val →
         (p.word 1 = 0x8000 → exec .setCap s =
           .next { answer 0x0700 with path := s.path.set i { s.path.get i with cap := none } }) ∧
         (-400 ≤ (p.word 1).toInt → (p.word 1).toInt ≤ 272 → exec .setCap s =
           .next { answer 0x0700 with path := s.path.set i { s.path.get i with cap := some (p.word 1).toInt } }) ∧
         (p.word 1 ≠ 0x8000 → (p.word 1).toInt < -400 ∨ 272 < (p.word 1).toInt →
           exec .setCap s = .next (answer 0x0704))) ∧
     (p.commandCode = 0x08 → p.payload.length = 1 →
       (4 ≤ p.parameter → exec .clearBar s = .next (answer 0x0804)) ∧
       ∀ i : Fin 4, p.parameter = i.val →
         ((s.path.get i).state = .barred → exec .clearBar s = .next { answer 0x0800 with
           path := s.path.set i { s.path.get i with state := .tripped, trip := s.limits.tripStep, barLeft := 0 } }) ∧
         ((s.path.get i).state ≠ .barred → exec .clearBar s = .next (answer 0x0800))))

/-- READ-TABLE answers the words from the offset onward with no status word, the words a running copy has copied included, or RANGE.
It changes no bank but the destination of a running copy, which then holds the source's words below the progress; how far the
copy has come is the command's operand (the model's choice, log 11). The two banks bear the numbers 0 and 1; a copy's source is the
other bank than its destination. -/
def Obligations.ReadTableReturnsTheWords : Prop :=
  (BankId.number .bank0 = 0 ∧ BankId.number .bank1 = 1 ∧ BankId.other .bank0 = .bank1 ∧ BankId.other .bank1 = .bank0 ∧
    (∀ c : CopyRun, c.source = c.dest.other) ∧
    ∀ t : Tables, t.bank .bank0 = t.bank0 ∧ t.bank .bank1 = t.bank1 ∧ t.mark .bank0 = t.mark0 ∧ t.mark .bank1 = t.mark1) ∧
  ∀ (s : State) (p : Packet) (copied : Nat), s.pins.resetN = true → s.engine.current = some p →
    s.engine.replies.length < 8 → s.tables.copyWaiting = false → p.commandCode = 0x10 → p.payload.length = 3 →
    let offset := (p.word 1).toNat
    let count := (p.word 2).toNat
    ∃ t words, exec (.readTable copied) s = .next t ∧
      t = { s with
        engine := { s.engine with
          current := none
          replies := s.engine.replies ++ [⟨0, 14, p.aux, words⟩] }
        tables := t.tables } ∧
      (s.tables.copy = none → t.tables = s.tables) ∧
      (∀ c, s.tables.copy = some c → t.tables.bank c.source = s.tables.bank c.source ∧
        ∃ n, c.progress ≤ n ∧ (n = c.progress ∨ n ≤ copied) ∧ t.tables.copy = some { c with progress := n } ∧
          ∀ a, (t.tables.bank c.dest).read a =
            if a < n then (s.tables.bank c.source).read a else (s.tables.bank c.dest).read a) ∧
      (∀ b : BankId, p.parameter = b.number → 1 ≤ count → count ≤ 12 → offset + count ≤ 4096 →
        words.length = count ∧ ∀ i, i < count → words[i]? = some ((t.tables.bank b).read (offset + i))) ∧
      (2 ≤ p.parameter ∨ count = 0 ∨ 12 < count ∨ 4096 < offset + count →
        words = if count = 1 then [0x1004, 0x1004] else [0x1004])

/-- WRITE-TABLE by the first condition that holds: RANGE, DISCARDED with WRITE_DISCARD for the active bank, PENDING for a bank awaiting
its switch, BUSY while a copy runs; else the words are written, every other word stays, and the mark is cleared. -/
def Obligations.WriteTableWritesWholeOrNotAtAll : Prop :=
  ∀ (s : State) (p : Packet), s.pins.resetN = true → s.engine.current = some p → s.engine.replies.length < 8 →
    s.tables.copyWaiting = false → p.commandCode = 0x11 → 3 ≤ p.payload.length → p.payload.length ≤ 12 →
    let offset := (p.word 1).toNat
    let n := p.payload.length - 2
    let answer := fun word : Word => { s with engine := { s.engine with
      current := none
      replies := s.engine.replies ++ [⟨0, 14, p.aux, [word]⟩] } }
    (2 ≤ p.parameter ∨ 4096 < offset + n → exec .writeTable s = .next (answer 0x1104)) ∧
    ∀ b : BankId, p.parameter = b.number → offset + n ≤ 4096 →
      (s.tables.active = some b → exec .writeTable s = .next ((answer 0x1101).raise .writeDiscard)) ∧
      (s.tables.active ≠ some b →
        (s.tables.pending.map Prod.fst = some b → exec .writeTable s = .next (answer 0x1102)) ∧
        (s.tables.pending.map Prod.fst ≠ some b →
          (s.tables.copy ≠ none → exec .writeTable s = .next (answer 0x1103)) ∧
          (s.tables.copy = none → (s.tables.bank b).wf = true → ∃ t, exec .writeTable s = .next t ∧
            t = { answer 0x1100 with tables := t.tables } ∧
            (∀ a, (t.tables.bank b).read a =
              if offset ≤ a ∧ a < offset + n then p.word (a - offset + 2) else (s.tables.bank b).read a) ∧
            t.tables.mark b = false ∧ t.tables.bank b.other = s.tables.bank b.other ∧
            t.tables.mark b.other = s.tables.mark b.other ∧ t.tables.active = s.tables.active ∧
            t.tables.pending = s.tables.pending ∧ t.tables.launch = s.tables.launch ∧ t.tables.copy = none)))

/-- LAUNCH: RANGE; BUSY for the active bank, a pending switch or a running copy; INVALID with index and reason where an unmarked bank
fails validation; else the bank is marked and pends with 2 turns remaining. RECALL cancels a switch at 2 turns, and is LATE at
1 turn or after a switch, NONE otherwise.
Validation ends with the index and reason that `Bank.fails` spells: the first directory entry to fail a check of the first pass, a
kind that is missing, or the first record to fail a check of the second pass (R131, R132); a table's count and records are those its
directory entry gives (R125). The reasons' codes are those of section 9.8.
Every field of every record is read from its own word, a power or temperature code signed, every other field unsigned (R124 to R129);
a band's current follows the curve that the low six bits of its curve word name, its dissipation the curve the bits above name (R4). -/
def Obligations.LaunchAndRecall : Prop :=
  (∀ (s : State) (p : Packet), s.pins.resetN = true → s.engine.current = some p → s.engine.replies.length < 8 →
     s.tables.copyWaiting = false → p.payload.length = 1 →
     let answer := fun words : List Word => { s with engine := { s.engine with
       current := none
       replies := s.engine.replies ++ [⟨0, 14, p.aux, words⟩] } }
     (p.commandCode = 0x12 →
       (2 ≤ p.parameter → exec .launch s = .next (answer [0x1204])) ∧
       ∀ b : BankId, p.parameter = b.number →
         (s.tables.active = some b ∨ s.tables.pending ≠ none ∨ s.tables.copy ≠ none →
           exec .launch s = .next (answer [0x1203])) ∧
         (s.tables.active ≠ some b → s.tables.pending = none → s.tables.copy = none →
           (∀ i r, s.tables.mark b = false → (s.tables.bank b).validate = some (i, r) →
             exec .launch s = .next (answer [0x1205, BitVec.ofNat 16 (i * 256 + r.code)])) ∧
           (s.tables.mark b = true ∨ (s.tables.bank b).validate = none → ∃ t, exec .launch s = .next t ∧
             t = { answer [0x1200] with tables := t.tables } ∧
             t.tables.pending = some (b, 2) ∧ t.tables.launch = .pending ∧ t.tables.mark b = true ∧
             t.tables.mark b.other = s.tables.mark b.other ∧ t.tables.bank0 = s.tables.bank0 ∧
             t.tables.bank1 = s.tables.bank1 ∧ t.tables.active = s.tables.active ∧ t.tables.copy = none))) ∧
     (p.commandCode = 0x13 →
       (∀ b, s.tables.pending = some (b, 2) → exec .recallLaunch s =
         .next { answer [0x1300] with tables := { s.tables with pending := none, launch := .cancelled } }) ∧
       (∀ b, s.tables.pending = some (b, 1) → exec .recallLaunch s = .next (answer [0x1308])) ∧
       (s.tables.pending = none →
         (s.tables.launch = .switched → exec .recallLaunch s = .next (answer [0x1308])) ∧
         (s.tables.launch ≠ .switched → exec .recallLaunch s = .next (answer [0x1309]))))) ∧
  (∀ (b : Bank) (i : Nat) (r : FailReason), b.validate = some (i, r) ↔ b.fails i r) ∧
  (∀ (b : Bank) (i : Nat), i < 16 → (∀ j, j < i → b.kindAt j ≠ b.kindAt i) →
    b.count (b.kindAt i) = b.countAt i ∧
      ∀ k, b.record (b.kindAt i) k = b.baseAt i + (tableShape (b.kindAt i)).1 * k) ∧
  (∀ (b : Bank),
    let word := fun a : Nat => (b.read a).toNat
    let code := fun a : Nat => (b.read a).toInt
    let breakpoints := fun (x : Nat → Int) (a : Nat) => (List.range 8).map fun i => (x (a + 2 * i), (word (a + 2 * i + 1) : Int))
    [1, 2, 3, 4, 5, 6, 7].map (fun k => (tableShape k).1) = [21, 18, 1, 5, 16, 1, 18] ∧
    (∀ i, b.kindAt i = word (3 * i) ∧ b.baseAt i = word (3 * i + 1) ∧ b.countAt i = word (3 * i + 2)) ∧
    (let a := b.record 1 0;
      b.limits =
        { safeCeiling := code a, lateCeiling := code (a + 1), boostThreshold := code (a + 2), boostWait := word (a + 3),
          boostRelease := word (a + 4), boostCooldown := word (a + 5), commitLead := word (a + 6), amendLead := word (a + 7),
          tripStep := word (a + 8), tripDecay := word (a + 9), barFrames := word (a + 10), markTolerance := word (a + 11),
          holdoverLimit := word (a + 12), safeExit := word (a + 13), pollWait := word (a + 14), senseTag := word (a + 15),
          supplyTag := word (a + 16), fallback := ⟨word (a + 17), word (a + 18), word (a + 19), word (a + 20)⟩ }) ∧
    (∀ z : Fin 4, let a := b.record 2 z.val;
      b.zone z =
        { ambient := code a, scale := word (a + 1), leak := word (a + 2), rebaseGap := word (a + 3),
          seedAssumption := code (a + 4), fall := code (a + 5), settleLow := code (a + 6), settleHigh := code (a + 7),
          rise := code (a + 8), surge := code (a + 9), critical := code (a + 10), climbStep := word (a + 11),
          surgeStep := word (a + 12), easeStep := word (a + 13), maxBackoff := word (a + 14), dwell := word (a + 15),
          staleFrames := word (a + 16), blindMargin := word (a + 17) }) ∧
    (∀ p z : Fin 4, let w := word (b.record 3 (4 * p.val + z.val));
      b.coupling p z = ((w % 512 : Nat) : Int) ∧ b.weight p z = ((w / 512 : Nat) : Int)) ∧
    (∀ a : Nat, b.bandAt a =
      { band := word a % 32, rated := code (a + 1), floor := code (a + 2), assured := code (a + 3),
        dissCurve := word (a + 4) / 64, curCurve := word (a + 4) % 64 }) ∧
    (∀ k, b.curve k = breakpoints code (b.record 5 k)) ∧ (∀ m, b.modBackoff m = word (b.record 6 m)) ∧
    (let a := b.record 7 0;
      b.supplyPoints = breakpoints (fun a => (word a : Int)) a ∧ b.supplyStale = word (a + 16) ∧
        b.supplyFloor = word (a + 17)) ∧
    ∀ (r : BandRec) (x : Int), b.current r x = evalCurve (b.curve r.curCurve) x ∧
      b.dissipation r x = evalCurve (b.curve r.dissCurve) x) ∧
  (FailReason.code .missingKind = 1 ∧ FailReason.code .duplicateKind = 2 ∧ FailReason.code .outOfBank = 3 ∧
    FailReason.code .overlap = 4 ∧ FailReason.code .badCount = 5 ∧ FailReason.code .badValue = 6 ∧
    FailReason.code .badOrder = 7 ∧ FailReason.code .notMonotone = 8 ∧ FailReason.code .badRef = 9 ∧
    FailReason.code .duplicateBand = 10)

/-- COPY: NOBANK without an active bank, PENDING, BUSY; else it starts into the other bank, whose mark is cleared, with no reply and the
engine free. When the last word is copied the destination holds the source's contents and is marked, and DONE with the COPY's
tag joins the Reply Queue; at a full Reply Queue the copy stays running with every word copied. -/
def Obligations.CopyImagesTheActiveBank : Prop :=
  (∀ (s : State) (p : Packet), s.pins.resetN = true → s.engine.current = some p → s.engine.replies.length < 8 →
    s.tables.copyWaiting = false → p.commandCode = 0x14 → p.payload.length = 1 →
    let answer := fun word : Word => { s with engine := { s.engine with
      current := none
      replies := s.engine.replies ++ [⟨0, 14, p.aux, [word]⟩] } }
    (s.tables.active = none → exec .copy s = .next (answer 0x1406)) ∧
    ∀ a, s.tables.active = some a →
      (s.tables.pending ≠ none → exec .copy s = .next (answer 0x1402)) ∧
      (s.tables.pending = none →
        (s.tables.copy ≠ none → exec .copy s = .next (answer 0x1403)) ∧
        (s.tables.copy = none → ∃ t, exec .copy s = .next t ∧
          t = { s with engine := { s.engine with current := none }, tables := t.tables } ∧
          t.tables.copy = some ⟨a.other, 0, p.aux⟩ ∧ t.tables.mark a.other = false ∧
          t.tables.mark a = s.tables.mark a ∧ t.tables.bank0 = s.tables.bank0 ∧
          t.tables.bank1 = s.tables.bank1 ∧ t.tables.active = some a ∧ t.tables.pending = none))) ∧
  ∀ (s : State) (c : CopyRun), s.pins.resetN = true → s.tables.copy = some c →
    ∃ t, exec .copyComplete s = .next t ∧ t = { s with tables := t.tables, engine := t.engine } ∧
      t.tables.bank c.dest = s.tables.bank c.source ∧ t.tables.bank c.source = s.tables.bank c.source ∧
      t.tables.mark c.source = s.tables.mark c.source ∧ t.tables.active = s.tables.active ∧
      t.tables.pending = s.tables.pending ∧
      (s.engine.replies.length < 8 → t.tables.copy = none ∧ t.tables.mark c.dest = true ∧
        t.engine = { s.engine with replies := s.engine.replies ++ [⟨0, 14, c.tag, [0x1400]⟩] }) ∧
      (8 ≤ s.engine.replies.length → t.engine = s.engine ∧ t.tables.mark c.dest = s.tables.mark c.dest ∧
        t.tables.copy = some { c with progress := 4096 })

/-- SOFT-RESET: the POLL packets leave the Originated Queue, the Boost Controller is OFF with a BOOST-RELEASE queued or due from
REQUESTED and READY, paths are CLEAR without caps and keep their thermal back-offs, polls are cancelled, a switch at 2 turns is
cancelled and one at 1 kept, a copy is aborted, both queues are emptied and the reset's own DONE placed, flags clear and
mask all ones; timer, schedule, supply, heat, controllers and Pass Buffers stay. Both banks keep their contents but the destination of
an aborted copy, which keeps the words copied so far and its old words beyond them; how far the copy has come is the command's
operand (the model's choice, log 11). That a release-due marker already set is kept where
the reset queues a release is the model's reading (log 9). -/
def Obligations.SoftResetMakesEveryBlocksPart : Prop :=
  ∀ (s : State) (p : Packet) (copied : Nat), s.pins.resetN = true → s.engine.current = some p →
    p.commandCode = 0x1F → p.payload.length = 1 →
    ∃ t, exec (.softReset copied) s = .next t ∧
      t.timer = s.timer ∧ t.sched = s.sched ∧ t.supply = s.supply ∧ t.heat = s.heat ∧ t.control = s.control ∧
      t.pins = s.pins ∧ t.link = { s.link with orig := t.link.orig } ∧
      (let kept := s.link.orig.filter fun d => d.kind != 6
        let running := s.boost.state = .requested ∨ s.boost.state = .ready
        let room := kept.length + s.supply.claimed < 12
        t.boost.state = .off ∧ t.boost.wait = none ∧ t.boost.quiet = 0 ∧ t.boost.cooldown = 0 ∧
          t.boost.boosted = false ∧ t.boost.requestDue = false ∧
          (running → room → t.link.orig = kept ++ [⟨s.limits.supplyTag, 8, 0, []⟩] ∧
            t.boost.releaseDue = s.boost.releaseDue) ∧
          (running → ¬ room → t.link.orig = kept ∧ t.boost.releaseDue = true) ∧
          (¬ running → t.link.orig = kept ∧ t.boost.releaseDue = s.boost.releaseDue)) ∧
      (∀ z : Fin 4, t.sense.get z = { s.sense.get z with
        poll := none
        pollDue := decide (s.timer.mode ≠ .unset ∧ (s.sense.get z).fresh ≠ .fresh) }) ∧
      (∀ i : Fin 4, t.path.get i = ⟨.clear, 0, 0, none, (s.path.get i).thermal⟩) ∧
      t.tables.copy = none ∧ t.tables.active = s.tables.active ∧
      t.tables.mark0 = s.tables.mark0 ∧ t.tables.mark1 = s.tables.mark1 ∧
      (∀ b, s.tables.pending = some (b, 2) → t.tables.pending = none ∧ t.tables.launch = .cancelled) ∧
      ((∀ b, s.tables.pending ≠ some (b, 2)) →
        t.tables.pending = s.tables.pending ∧ t.tables.launch = s.tables.launch) ∧
      (s.tables.copy = none → t.tables.bank0 = s.tables.bank0 ∧ t.tables.bank1 = s.tables.bank1) ∧
      (∀ c, s.tables.copy = some c → t.tables.bank c.source = s.tables.bank c.source ∧
        ∃ n, c.progress ≤ n ∧ (n = c.progress ∨ n ≤ copied) ∧
          ∀ a, (t.tables.bank c.dest).read a =
            if a < n then (s.tables.bank c.source).read a else (s.tables.bank c.dest).read a) ∧
      t.engine = ⟨[], none, [⟨0, 14, p.aux, [0x1F00]⟩]⟩ ∧ t.events = ⟨0, 0xFFFF, none⟩

/-! ### The arbiters -/

/-- The Downstream Arbiter, FE_HOLD_IN released: at a run count of 2 a ready pass source goes first and the count becomes 0; else the
head of the Originated Queue, completed with its check word, and the count rises to at most 2; else a ready pass source; else
no grant. The hold state follows the count of a buffer that a packet has left. FE_HOLD_IN asserted, no grant is made. After
hardware reset the run count is 0. The sampled level is kept as the pin's (the model's choice, log 12). -/
def Obligations.DownstreamArbiterGrantsInOrder : Prop :=
  ∀ (s : State), s.pins.resetN = true →
    let pins := { s.pins with feHoldIn := false }
    let pass := fun (e : PassEntry) (rest : List PassEntry) => { s with
      pins := pins
      link := { s.link with
        down := rest
        downHold := if 12 ≤ rest.length then true else if rest.length ≤ 8 then false else s.link.downHold
        run := 0
        feOut := some e.packet } }
    (∀ e rest, s.link.down = e :: rest → e.ready = true → s.link.run = 2 →
      exec (.downstreamGrant false) s = .next (pass e rest)) ∧
    (∀ d rest, s.link.orig = d :: rest →
      (s.link.run ≠ 2 ∨ s.link.down = [] ∨ ∃ e es, s.link.down = e :: es ∧ e.ready = false) →
      exec (.downstreamGrant false) s = .next { s with
        pins := pins
        link := { s.link with orig := rest, run := min 2 (s.link.run + 1), feOut := some d.seal } }) ∧
    (∀ e rest, s.link.orig = [] → s.link.down = e :: rest → e.ready = true →
      exec (.downstreamGrant false) s = .next (pass e rest)) ∧
    (s.link.orig = [] → (s.link.down = [] ∨ ∃ e es, s.link.down = e :: es ∧ e.ready = false) →
      exec (.downstreamGrant false) s = .next { s with pins := pins }) ∧
    exec (.downstreamGrant true) s = .next { s with pins := { s.pins with feHoldIn := true } } ∧
    State.reset.link.run = 0

/-- The Upstream Arbiter, MD_HOLD_IN released, grants the first source that holds a packet in the cycle Pass Buffer, Reply Queue, notice
slot after the source granted last, and that source again when only it does; what is granted leaves its source at that moment,
a notice with its flag word as the flags stand. MD_HOLD_IN asserted, no grant is made. After hardware reset the source granted
last is the notice slot. The sampled level is kept as the pin's (the model's choice, log 12). -/
def Obligations.UpstreamArbiterGrantsInCycle : Prop :=
  ∀ (s : State), s.pins.resetN = true →
    let pins := { s.pins with mdHoldIn := false }
    let none_ := exec (.upstreamGrant false) s = .next { s with pins := pins }
    let pass := ∃ p rest, s.link.up = p :: rest ∧ exec (.upstreamGrant false) s = .next { s with
      pins := pins
      link := { s.link with
        up := rest
        upHold := if 12 ≤ rest.length then true else if rest.length ≤ 8 then false else s.link.upHold
        last := .pass
        mdOut := some p } }
    let reply := ∃ d rest, s.engine.replies = d :: rest ∧ exec (.upstreamGrant false) s = .next { s with
      pins := pins
      link := { s.link with last := .reply, mdOut := some d.seal }
      engine := { s.engine with replies := rest } }
    let notice := ∃ w, s.events.notice = some w ∧ exec (.upstreamGrant false) s = .next { s with
      pins := pins
      link := { s.link with last := .notice, mdOut := some (Draft.seal ⟨0, 15, 0, [s.events.flags, w]⟩) }
      events := { s.events with notice := none } }
    let hasPass := s.link.up ≠ []
    let hasReply := s.engine.replies ≠ []
    let hasNotice := s.events.notice ≠ none
    (s.link.last = .notice → (hasPass → pass) ∧ (¬ hasPass → hasReply → reply) ∧
      (¬ hasPass → ¬ hasReply → hasNotice → notice)) ∧
    (s.link.last = .pass → (hasReply → reply) ∧ (¬ hasReply → hasNotice → notice) ∧
      (¬ hasReply → ¬ hasNotice → hasPass → pass)) ∧
    (s.link.last = .reply → (hasNotice → notice) ∧ (¬ hasNotice → hasPass → pass) ∧
      (¬ hasNotice → ¬ hasPass → hasReply → reply)) ∧
    (¬ hasPass → ¬ hasReply → ¬ hasNotice → none_) ∧
    exec (.upstreamGrant true) s = .next { s with pins := { s.pins with mdHoldIn := true } } ∧
    State.reset.link.last = .notice

/-! ### Laws -/

/-- Law 11, one command at a time: the downstream Pass Buffer stays as it is, or gains one packet at its tail, or loses its head,
which is the packet sent, or has its first packet that is not ready made ready in its place, that packet as it was or with its
power rewritten (which changes the power word and the check word alone); every other packet stays whole and in its place. The
upstream buffer likewise, with nothing rewritten. -/
def Obligations.PassingPacketsKeepTheirOrder : Prop :=
  ∀ (c : Instr) (s t : State), c ≠ .resetNAssert → c ≠ .resetNRelease → exec c s = .next t →
    (t.link.down = s.link.down ∨
      (∃ e, t.link.down = s.link.down ++ [e]) ∨
      (∃ e, s.link.down = e :: t.link.down ∧ t.link.feOut = some e.packet) ∨
      ∃ before e after p, s.link.down = before ++ e :: after ∧ (∀ x ∈ before, x.ready = true) ∧ e.ready = false ∧
        t.link.down = before ++ ⟨p, true⟩ :: after ∧ (p = e.packet ∨ ∃ code, p = e.packet.setPower code)) ∧
    (t.link.up = s.link.up ∨ (∃ p, t.link.up = s.link.up ++ [p]) ∨
      ∃ p, s.link.up = p :: t.link.up ∧ t.link.mdOut = some p)

/-- Law 4: no command raises the granted power of an entry that stays in the schedule. -/
def Obligations.GrantedPowerNeverRises : Prop :=
  ∀ (c : Instr) (s t : State), s.sched.sound → c ≠ .resetNAssert → c ≠ .resetNRelease → exec c s = .next t →
    ∀ e ∈ s.sched.entries, ∀ f ∈ t.sched.entries, f.serial = e.serial → f.granted ≤ e.granted ∧ f.requested = e.requested ∧
      f.lower = e.lower ∧ f.tag = e.tag ∧ f.path = e.path ∧ f.start = e.start ∧ f.length = e.length

/-- Law 7: no command but hardware reset changes the contents of the active bank or of a bank awaiting its switch.
Law 8, first half: a bank that becomes active does so at a frame turn, from a pending switch with 1 turn remaining, and it has
passed validation.
Law 8, second half: the bank in force for the next frame is the pending bank when its switch has 1 turn remaining, else the active
bank (R130); no command but hardware reset changes the bank in force for the current or the next frame, except that at a frame
turn the bank in force for the frame begun is the one that was in force for it as the next frame. -/
def Obligations.GoverningBanksAreValidAndNotWritten : Prop :=
  (∀ (c : Instr) (s t : State), s.tables.sound → c ≠ .resetNAssert → c ≠ .resetNRelease → exec c s = .next t →
     ∀ b : BankId, s.tables.active = some b ∨ s.tables.pending.map Prod.fst = some b →
       t.tables.bank b = s.tables.bank b) ∧
  (∀ (c : Instr) (s t : State) (b : BankId), s.tables.sound → exec c s = .next t → t.tables.active = some b →
     s.tables.active ≠ some b → s.tables.pending = some (b, 1) ∧ (s.tables.bank b).valid ∧ t.timer.grain = 0 ∧
       t.tables.launch = .switched) ∧
  (∀ t : Tables, t.inForce .current = t.active.map t.bank ∧
     (∀ b, t.pending = some (b, 1) → t.inForce .next = some (t.bank b)) ∧
     ((∀ b, t.pending ≠ some (b, 1)) → t.inForce .next = t.active.map t.bank)) ∧
  (∀ (c : Instr) (s t : State), s.tables.sound → c ≠ .resetNAssert → c ≠ .resetNRelease → exec c s = .next t →
     (t.tables.inForce .current = s.tables.inForce .current ∧ t.tables.inForce .next = s.tables.inForce .next) ∨
     (t.timer.grain = 0 ∧ t.tables.inForce .current = s.tables.inForce .next))

/-- Law 9: a command raises the number of BOOST-REQUEST packets waiting only from OFF, by one, and leaves the controller
REQUESTED. -/
def Obligations.OneBoostRequestAtATime : Prop :=
  ∀ (c : Instr) (s t : State), s.boost.sound → exec c s = .next t →
    let requests := fun l : Link => (l.orig.filter fun d => d.kind == 7).length
    requests t.link ≤ requests s.link ∨
      (requests t.link = requests s.link + 1 ∧ t.boost.state = .requested ∧ s.boost.state = .off)

/-- Law 10 as an invariant: every step keeps the bounds of the queues and buffers and the standing of the hold states. -/
def Obligations.EveryStepKeepsTheQueueBounds : Prop :=
  ∀ s t : State, s.queuesBounded → s.link.sound → step s = .next t → t.queuesBounded ∧ t.link.sound

/-- Laws 7 and 8 as an invariant: every step keeps the banks in canonical form, marked banks validated, the active bank marked, a
pending switch to a marked non-active bank, a copy into the other bank; and the mode UNSET exactly while no bank is active. -/
def Obligations.EveryStepKeepsTheTablesSound : Prop :=
  ∀ s t : State, s.tables.sound → s.modeFollowsBank → step s = .next t → t.tables.sound ∧ t.modeFollowsBank

/-- Law 2 as an invariant: every step keeps at most 32 entries, no two on one path covering one grain of one frame, spans inside their
frames; and the Supply Map's 160 rows with voltage and age in range.
With the banks sound, every step also keeps: every entry carries the current and the dissipation of its band at its grant, with its
fields in their ranges, its grant at most its request (Law 1), and only a mute request with a mute lower bound; and every row of the
map holds at least the sum of the reserved currents of the entries that cover it, and at most 8191 (R47). -/
def Obligations.EveryStepKeepsTheScheduleSound : Prop :=
  (∀ s t : State, s.sched.sound → s.supply.sound → step s = .next t → t.sched.sound ∧ t.supply.sound) ∧
  (∀ s t : State, s.tables.sound → s.sched.sound → s.supply.sound → s.ranged → s.entriesPriced →
     s.mapSound → step s = .next t → t.entriesPriced ∧ t.mapSound)

/-- The ranges of the Frame Timer, and of accounts, accumulators, sensed temperatures and ages, are kept by every step, as is the Boost
Controller's standing (Law 9).
With the banks sound, so are S in 0 to 8191, the estimates in -160 to 600 (Law 6), the wait timer, the quiet and cooldown counts in
their ranges with a release due only in OFF and FAILED (R62), trip back-off in 0 to 255, bar frames left to 1000 and a cap in the range
of power codes (R99). -/
def Obligations.EveryStepKeepsTheRanges : Prop :=
  (∀ s t : State, s.timer.sound → s.heat.sound → (∀ z, (s.sense.get z).sound) → s.boost.sound →
    (∀ e ∈ s.sched.entries, 0 ≤ e.dissipation) → step s = .next t →
    t.timer.sound ∧ t.heat.sound ∧ (∀ z, (t.sense.get z).sound) ∧ t.boost.sound ∧
      ∀ e ∈ t.sched.entries, 0 ≤ e.dissipation) ∧
  (∀ s t : State, s.tables.sound → (∀ z, (s.sense.get z).sound) → s.boost.sound → s.ranged → step s = .next t → t.ranged)

/-- Law 5 as an invariant: with the tables sound, every step keeps every zone back-off and thermal back-off in 0 to 255. -/
def Obligations.EveryStepKeepsTheBackoffs : Prop :=
  ∀ s t : State, s.tables.sound → s.backoffsSound → step s = .next t → t.backoffsSound

/-- While the mode is UNSET the part stands quiet, and every step keeps it so. -/
def Obligations.EveryStepKeepsUnsetQuiet : Prop :=
  ∀ s t : State, s.modeFollowsBank → s.quietInUnset → step s = .next t → t.quietInUnset

/-- Every invariant stated here holds right after hardware reset. -/
def Obligations.ResetStateMeetsEveryInvariant : Prop :=
  let s := State.reset
  s.queuesBounded ∧ s.link.sound ∧ s.tables.sound ∧ s.modeFollowsBank ∧ s.sched.sound ∧ s.supply.sound ∧
    s.timer.sound ∧ s.heat.sound ∧ (∀ z, (s.sense.get z).sound) ∧ s.boost.sound ∧ s.backoffsSound ∧ s.quietInUnset ∧
    (∀ e ∈ s.sched.entries, 0 ≤ e.dissipation) ∧ s.entriesPriced ∧ s.mapSound ∧ s.ranged
end

