-- ==== Sys2Proof/Laws/State.lean ====
section
/-! SUPPORT. Frames: what each named update of State leaves unchanged, field by field. -/

namespace Sys2Proof.Machine

@[simp] theorem raise_frame (s : State) (f : Flag) :
    (s.raise f).pins = s.pins ∧ (s.raise f).link = s.link ∧ (s.raise f).timer = s.timer ∧
    (s.raise f).sched = s.sched ∧ (s.raise f).supply = s.supply ∧ (s.raise f).boost = s.boost ∧
    (s.raise f).heat = s.heat ∧ (s.raise f).sense = s.sense ∧ (s.raise f).control = s.control ∧
    (s.raise f).path = s.path ∧ (s.raise f).tables = s.tables ∧ (s.raise f).engine = s.engine ∧
    (s.raise f).pending = s.pending := by
  exact ⟨rfl, rfl, rfl, rfl, rfl, rfl, rfl, rfl, rfl, rfl, rfl, rfl, rfl⟩

@[simp] theorem raiseIf_frame (s : State) (c : Bool) (f : Flag) :
    (s.raiseIf c f).pins = s.pins ∧ (s.raiseIf c f).link = s.link ∧ (s.raiseIf c f).timer = s.timer ∧
    (s.raiseIf c f).sched = s.sched ∧ (s.raiseIf c f).supply = s.supply ∧ (s.raiseIf c f).boost = s.boost ∧
    (s.raiseIf c f).heat = s.heat ∧ (s.raiseIf c f).sense = s.sense ∧ (s.raiseIf c f).control = s.control ∧
    (s.raiseIf c f).path = s.path ∧ (s.raiseIf c f).tables = s.tables ∧ (s.raiseIf c f).engine = s.engine ∧
    (s.raiseIf c f).pending = s.pending := by
  exact ⟨rfl, rfl, rfl, rfl, rfl, rfl, rfl, rfl, rfl, rfl, rfl, rfl, rfl⟩

@[simp] theorem writePower_frame (s : State) (code : Int) :
    (s.writePower code).pins = s.pins ∧ (s.writePower code).timer = s.timer ∧
    (s.writePower code).sched = s.sched ∧ (s.writePower code).supply = s.supply ∧
    (s.writePower code).boost = s.boost ∧ (s.writePower code).heat = s.heat ∧
    (s.writePower code).sense = s.sense ∧ (s.writePower code).control = s.control ∧
    (s.writePower code).path = s.path ∧ (s.writePower code).tables = s.tables ∧
    (s.writePower code).engine = s.engine ∧ (s.writePower code).events = s.events ∧
    (s.writePower code).pending = s.pending := by
  exact ⟨rfl, rfl, rfl, rfl, rfl, rfl, rfl, rfl, rfl, rfl, rfl, rfl, rfl⟩

@[simp] theorem freeEntry_frame (s : State) (e : Entry) :
    (s.freeEntry e).pins = s.pins ∧ (s.freeEntry e).link = s.link ∧ (s.freeEntry e).timer = s.timer ∧
    (s.freeEntry e).boost = s.boost ∧ (s.freeEntry e).heat = s.heat ∧ (s.freeEntry e).sense = s.sense ∧
    (s.freeEntry e).control = s.control ∧ (s.freeEntry e).path = s.path ∧ (s.freeEntry e).tables = s.tables ∧
    (s.freeEntry e).engine = s.engine ∧ (s.freeEntry e).events = s.events ∧
    (s.freeEntry e).pending = s.pending := by
  exact ⟨rfl, rfl, rfl, rfl, rfl, rfl, rfl, rfl, rfl, rfl, rfl, rfl⟩

@[simp] theorem replaceEntry_frame (s : State) (e e' : Entry) :
    (s.replaceEntry e e').pins = s.pins ∧ (s.replaceEntry e e').link = s.link ∧
    (s.replaceEntry e e').timer = s.timer ∧ (s.replaceEntry e e').boost = s.boost ∧
    (s.replaceEntry e e').heat = s.heat ∧ (s.replaceEntry e e').sense = s.sense ∧
    (s.replaceEntry e e').control = s.control ∧ (s.replaceEntry e e').path = s.path ∧
    (s.replaceEntry e e').tables = s.tables ∧ (s.replaceEntry e e').engine = s.engine ∧
    (s.replaceEntry e e').events = s.events ∧ (s.replaceEntry e e').pending = s.pending := by
  exact ⟨rfl, rfl, rfl, rfl, rfl, rfl, rfl, rfl, rfl, rfl, rfl, rfl⟩

@[simp] theorem amendEntry_frame (s : State) (e : Entry) (code : Int) :
    (s.amendEntry e code).pins = s.pins ∧ (s.amendEntry e code).timer = s.timer ∧
    (s.amendEntry e code).boost = s.boost ∧ (s.amendEntry e code).heat = s.heat ∧
    (s.amendEntry e code).sense = s.sense ∧ (s.amendEntry e code).control = s.control ∧
    (s.amendEntry e code).path = s.path ∧ (s.amendEntry e code).tables = s.tables ∧
    (s.amendEntry e code).engine = s.engine ∧ (s.amendEntry e code).events = s.events ∧
    (s.amendEntry e code).pending = s.pending := by
  exact ⟨rfl, rfl, rfl, rfl, rfl, rfl, rfl, rfl, rfl, rfl, rfl⟩

@[simp] theorem closeEntries_frame (s : State) (closes : Entry → Bool) :
    (s.closeEntries closes).pins = s.pins ∧ (s.closeEntries closes).link = s.link ∧
    (s.closeEntries closes).timer = s.timer ∧ (s.closeEntries closes).supply = s.supply ∧
    (s.closeEntries closes).boost = s.boost ∧ (s.closeEntries closes).sense = s.sense ∧
    (s.closeEntries closes).control = s.control ∧ (s.closeEntries closes).path = s.path ∧
    (s.closeEntries closes).tables = s.tables ∧ (s.closeEntries closes).engine = s.engine ∧
    (s.closeEntries closes).events = s.events ∧ (s.closeEntries closes).pending = s.pending := by
  exact ⟨rfl, rfl, rfl, rfl, rfl, rfl, rfl, rfl, rfl, rfl, rfl, rfl⟩

@[simp] theorem answer_frame (s : State) (p : Packet) (w : List Word) :
    (s.answer p w).pins = s.pins ∧ (s.answer p w).link = s.link ∧ (s.answer p w).timer = s.timer ∧
    (s.answer p w).sched = s.sched ∧ (s.answer p w).supply = s.supply ∧ (s.answer p w).boost = s.boost ∧
    (s.answer p w).heat = s.heat ∧ (s.answer p w).sense = s.sense ∧ (s.answer p w).control = s.control ∧
    (s.answer p w).path = s.path ∧ (s.answer p w).tables = s.tables ∧ (s.answer p w).events = s.events ∧
    (s.answer p w).pending = s.pending := by
  exact ⟨rfl, rfl, rfl, rfl, rfl, rfl, rfl, rfl, rfl, rfl, rfl, rfl, rfl⟩

@[simp] theorem recomputeSupply_frame (s : State) :
    (s.recomputeSupply).pins = s.pins ∧ (s.recomputeSupply).link = s.link ∧
    (s.recomputeSupply).timer = s.timer ∧ (s.recomputeSupply).sched = s.sched ∧
    (s.recomputeSupply).boost = s.boost ∧ (s.recomputeSupply).heat = s.heat ∧
    (s.recomputeSupply).sense = s.sense ∧ (s.recomputeSupply).control = s.control ∧
    (s.recomputeSupply).path = s.path ∧ (s.recomputeSupply).tables = s.tables ∧
    (s.recomputeSupply).engine = s.engine ∧ (s.recomputeSupply).events = s.events ∧
    (s.recomputeSupply).pending = s.pending := by
  exact ⟨rfl, rfl, rfl, rfl, rfl, rfl, rfl, rfl, rfl, rfl, rfl, rfl, rfl⟩

@[simp] theorem takeSupply_frame (s : State) (mv : Nat) :
    (s.takeSupply mv).pins = s.pins ∧ (s.takeSupply mv).link = s.link ∧ (s.takeSupply mv).timer = s.timer ∧
    (s.takeSupply mv).sched = s.sched ∧ (s.takeSupply mv).boost = s.boost ∧ (s.takeSupply mv).heat = s.heat ∧
    (s.takeSupply mv).sense = s.sense ∧ (s.takeSupply mv).control = s.control ∧
    (s.takeSupply mv).path = s.path ∧ (s.takeSupply mv).tables = s.tables ∧
    (s.takeSupply mv).engine = s.engine ∧ (s.takeSupply mv).events = s.events ∧
    (s.takeSupply mv).pending = s.pending := by
  exact ⟨rfl, rfl, rfl, rfl, rfl, rfl, rfl, rfl, rfl, rfl, rfl, rfl, rfl⟩

@[simp] theorem supplyTurn_frame (s : State) :
    (s.supplyTurn).pins = s.pins ∧ (s.supplyTurn).link = s.link ∧ (s.supplyTurn).timer = s.timer ∧
    (s.supplyTurn).sched = s.sched ∧ (s.supplyTurn).boost = s.boost ∧ (s.supplyTurn).heat = s.heat ∧
    (s.supplyTurn).sense = s.sense ∧ (s.supplyTurn).control = s.control ∧ (s.supplyTurn).path = s.path ∧
    (s.supplyTurn).tables = s.tables ∧ (s.supplyTurn).engine = s.engine ∧ (s.supplyTurn).events = s.events ∧
    (s.supplyTurn).pending = s.pending := by
  exact ⟨rfl, rfl, rfl, rfl, rfl, rfl, rfl, rfl, rfl, rfl, rfl, rfl, rfl⟩

@[simp] theorem releaseNow_frame (s : State) (left : Bool) :
    (s.releaseNow left).pins = s.pins ∧ (s.releaseNow left).timer = s.timer ∧ (s.releaseNow left).sched = s.sched ∧
    (s.releaseNow left).supply = s.supply ∧ (s.releaseNow left).heat = s.heat ∧ (s.releaseNow left).sense = s.sense ∧
    (s.releaseNow left).control = s.control ∧ (s.releaseNow left).path = s.path ∧ (s.releaseNow left).tables = s.tables ∧
    (s.releaseNow left).engine = s.engine ∧ (s.releaseNow left).events = s.events ∧
    (s.releaseNow left).pending = s.pending := by
  unfold State.releaseNow; split <;> simp

@[simp] theorem takeReady_frame (s : State) :
    (s.takeReady).pins = s.pins ∧ (s.takeReady).timer = s.timer ∧ (s.takeReady).sched = s.sched ∧
    (s.takeReady).supply = s.supply ∧ (s.takeReady).heat = s.heat ∧ (s.takeReady).sense = s.sense ∧
    (s.takeReady).control = s.control ∧ (s.takeReady).path = s.path ∧ (s.takeReady).tables = s.tables ∧
    (s.takeReady).engine = s.engine ∧ (s.takeReady).events = s.events ∧ (s.takeReady).pending = s.pending := by
  unfold State.takeReady; split <;> [simp; (split <;> simp)]

@[simp] theorem boostDemand_frame (s : State) :
    (s.boostDemand).pins = s.pins ∧ (s.boostDemand).timer = s.timer ∧ (s.boostDemand).sched = s.sched ∧
    (s.boostDemand).supply = s.supply ∧ (s.boostDemand).heat = s.heat ∧ (s.boostDemand).sense = s.sense ∧
    (s.boostDemand).control = s.control ∧ (s.boostDemand).path = s.path ∧ (s.boostDemand).tables = s.tables ∧
    (s.boostDemand).engine = s.engine ∧ (s.boostDemand).events = s.events ∧
    (s.boostDemand).pending = s.pending := by
  unfold State.boostDemand; split <;> [(split <;> simp); simp]

@[simp] theorem boostTick_frame (s : State) :
    (s.boostTick).pins = s.pins ∧ (s.boostTick).link = s.link ∧ (s.boostTick).timer = s.timer ∧
    (s.boostTick).sched = s.sched ∧ (s.boostTick).supply = s.supply ∧ (s.boostTick).heat = s.heat ∧
    (s.boostTick).sense = s.sense ∧ (s.boostTick).control = s.control ∧ (s.boostTick).path = s.path ∧
    (s.boostTick).tables = s.tables ∧ (s.boostTick).engine = s.engine ∧ (s.boostTick).pending = s.pending := by
  exact ⟨rfl, rfl, rfl, rfl, rfl, rfl, rfl, rfl, rfl, rfl, rfl, rfl⟩

@[simp] theorem attemptRelease_frame (s : State) (q : Bool) :
    (s.attemptRelease q).pins = s.pins ∧ (s.attemptRelease q).timer = s.timer ∧
    (s.attemptRelease q).sched = s.sched ∧ (s.attemptRelease q).supply = s.supply ∧
    (s.attemptRelease q).heat = s.heat ∧ (s.attemptRelease q).sense = s.sense ∧
    (s.attemptRelease q).control = s.control ∧ (s.attemptRelease q).path = s.path ∧
    (s.attemptRelease q).tables = s.tables ∧ (s.attemptRelease q).engine = s.engine ∧
    (s.attemptRelease q).events = s.events ∧ (s.attemptRelease q).pending = s.pending := by
  unfold State.attemptRelease; split <;> simp

@[simp] theorem attemptRequest_frame (s : State) (b : Bool) :
    (s.attemptRequest b).pins = s.pins ∧ (s.attemptRequest b).timer = s.timer ∧
    (s.attemptRequest b).sched = s.sched ∧ (s.attemptRequest b).supply = s.supply ∧
    (s.attemptRequest b).heat = s.heat ∧ (s.attemptRequest b).sense = s.sense ∧
    (s.attemptRequest b).control = s.control ∧ (s.attemptRequest b).path = s.path ∧
    (s.attemptRequest b).tables = s.tables ∧ (s.attemptRequest b).engine = s.engine ∧
    (s.attemptRequest b).events = s.events ∧ (s.attemptRequest b).pending = s.pending := by
  unfold State.attemptRequest; split <;> simp

@[simp] theorem boostCount_frame (s : State) :
    s.boostCount.pins = s.pins ∧ s.boostCount.link = s.link ∧ s.boostCount.timer = s.timer ∧ s.boostCount.sched = s.sched ∧
    s.boostCount.supply = s.supply ∧ s.boostCount.heat = s.heat ∧ s.boostCount.sense = s.sense ∧
    s.boostCount.control = s.control ∧ s.boostCount.path = s.path ∧ s.boostCount.tables = s.tables ∧
    s.boostCount.engine = s.engine ∧ s.boostCount.pending = s.pending := by
  unfold State.boostCount; split <;> simp

@[simp] theorem attemptDue_frame (s : State) (q : Bool) :
    (s.attemptDue q).pins = s.pins ∧ (s.attemptDue q).timer = s.timer ∧ (s.attemptDue q).sched = s.sched ∧
    (s.attemptDue q).supply = s.supply ∧ (s.attemptDue q).heat = s.heat ∧ (s.attemptDue q).sense = s.sense ∧
    (s.attemptDue q).control = s.control ∧ (s.attemptDue q).path = s.path ∧ (s.attemptDue q).tables = s.tables ∧
    (s.attemptDue q).engine = s.engine ∧ (s.attemptDue q).events = s.events ∧ (s.attemptDue q).pending = s.pending := by
  unfold State.attemptDue; simp

@[simp] theorem boostTurn_frame (s : State) :
    (s.boostTurn).pins = s.pins ∧ (s.boostTurn).timer = s.timer ∧ (s.boostTurn).sched = s.sched ∧
    (s.boostTurn).supply = s.supply ∧ (s.boostTurn).heat = s.heat ∧ (s.boostTurn).sense = s.sense ∧
    (s.boostTurn).control = s.control ∧ (s.boostTurn).path = s.path ∧ (s.boostTurn).tables = s.tables ∧
    (s.boostTurn).engine = s.engine ∧ (s.boostTurn).pending = s.pending := by
  unfold State.boostTurn; simp

@[simp] theorem boostSoftReset_frame (s : State) :
    (s.boostSoftReset).pins = s.pins ∧ (s.boostSoftReset).timer = s.timer ∧
    (s.boostSoftReset).sched = s.sched ∧ (s.boostSoftReset).supply = s.supply ∧
    (s.boostSoftReset).heat = s.heat ∧ (s.boostSoftReset).sense = s.sense ∧
    (s.boostSoftReset).control = s.control ∧ (s.boostSoftReset).path = s.path ∧
    (s.boostSoftReset).tables = s.tables ∧ (s.boostSoftReset).engine = s.engine ∧
    (s.boostSoftReset).events = s.events ∧ (s.boostSoftReset).pending = s.pending := by
  unfold State.boostSoftReset; simp only []; split <;> simp

@[simp] theorem book_frame (s : State) (e : Entry) :
    (s.book e).pins = s.pins ∧ (s.book e).link = s.link ∧ (s.book e).timer = s.timer ∧
    (s.book e).boost = s.boost ∧ (s.book e).heat = s.heat ∧ (s.book e).sense = s.sense ∧
    (s.book e).control = s.control ∧ (s.book e).path = s.path ∧ (s.book e).tables = s.tables ∧
    (s.book e).engine = s.engine ∧ (s.book e).events = s.events ∧ (s.book e).pending = s.pending := by
  exact ⟨rfl, rfl, rfl, rfl, rfl, rfl, rfl, rfl, rfl, rfl, rfl, rfl⟩

@[simp] theorem amendSerial_frame (s : State) (n : Nat) (code : Int) :
    (s.amendSerial n code).pins = s.pins ∧ (s.amendSerial n code).timer = s.timer ∧
    (s.amendSerial n code).boost = s.boost ∧ (s.amendSerial n code).heat = s.heat ∧
    (s.amendSerial n code).sense = s.sense ∧ (s.amendSerial n code).control = s.control ∧
    (s.amendSerial n code).path = s.path ∧ (s.amendSerial n code).tables = s.tables ∧
    (s.amendSerial n code).engine = s.engine ∧ (s.amendSerial n code).events = s.events ∧
    (s.amendSerial n code).pending = s.pending := by
  unfold State.amendSerial; split <;> simp

@[simp] theorem commitPlan_frame (s : State) (plan : List (Nat × Int)) :
    (s.commitPlan plan).pins = s.pins ∧ (s.commitPlan plan).timer = s.timer ∧
    (s.commitPlan plan).boost = s.boost ∧ (s.commitPlan plan).heat = s.heat ∧
    (s.commitPlan plan).sense = s.sense ∧ (s.commitPlan plan).control = s.control ∧
    (s.commitPlan plan).path = s.path ∧ (s.commitPlan plan).tables = s.tables ∧
    (s.commitPlan plan).engine = s.engine ∧ (s.commitPlan plan).events = s.events ∧
    (s.commitPlan plan).pending = s.pending := by
  unfold State.commitPlan; induction plan generalizing s with
  | nil => simp
  | cons q rest ih => simp [List.foldl_cons, ih]

@[simp] theorem admission_frame (s : State) (o : Order) :
    ((s.admission o).1).pins = s.pins ∧ ((s.admission o).1).timer = s.timer ∧
    ((s.admission o).1).heat = s.heat ∧ ((s.admission o).1).sense = s.sense ∧
    ((s.admission o).1).control = s.control ∧ ((s.admission o).1).path = s.path ∧
    ((s.admission o).1).tables = s.tables ∧ ((s.admission o).1).engine = s.engine ∧
    ((s.admission o).1).pending = s.pending := by
  unfold State.admission; simp only []; split <;> simp

@[simp] theorem takeRequest_frame (s : State) (k : RequestKind) :
    (s.takeRequest k).pins = s.pins ∧ (s.takeRequest k).link = s.link ∧ (s.takeRequest k).timer = s.timer ∧
    (s.takeRequest k).sched = s.sched ∧ (s.takeRequest k).boost = s.boost ∧ (s.takeRequest k).heat = s.heat ∧
    (s.takeRequest k).sense = s.sense ∧ (s.takeRequest k).control = s.control ∧
    (s.takeRequest k).path = s.path ∧ (s.takeRequest k).tables = s.tables ∧
    (s.takeRequest k).engine = s.engine ∧ (s.takeRequest k).events = s.events ∧
    (s.takeRequest k).pending = s.pending := by
  unfold State.takeRequest; simp only []; split <;> simp

@[simp] theorem takeRequestOpt_frame (s : State) (k : Option RequestKind) :
    (s.takeRequest? k).pins = s.pins ∧ (s.takeRequest? k).link = s.link ∧ (s.takeRequest? k).timer = s.timer ∧
    (s.takeRequest? k).sched = s.sched ∧ (s.takeRequest? k).boost = s.boost ∧
    (s.takeRequest? k).heat = s.heat ∧ (s.takeRequest? k).sense = s.sense ∧
    (s.takeRequest? k).control = s.control ∧ (s.takeRequest? k).path = s.path ∧
    (s.takeRequest? k).tables = s.tables ∧ (s.takeRequest? k).engine = s.engine ∧
    (s.takeRequest? k).events = s.events ∧ (s.takeRequest? k).pending = s.pending := by
  unfold State.takeRequest?; split <;> simp

@[simp] theorem makeRequested_frame (s : State) (k : Nat) :
    (s.makeRequested k).pins = s.pins ∧ (s.makeRequested k).timer = s.timer ∧
    (s.makeRequested k).boost = s.boost ∧ (s.makeRequested k).heat = s.heat ∧
    (s.makeRequested k).sense = s.sense ∧ (s.makeRequested k).control = s.control ∧
    (s.makeRequested k).path = s.path ∧ (s.makeRequested k).tables = s.tables ∧
    (s.makeRequested k).engine = s.engine ∧ (s.makeRequested k).events = s.events ∧
    (s.makeRequested k).pending = s.pending := by
  unfold State.makeRequested; split <;> [simp; (split <;> [simp; (simp only []; split <;> [simp; (split <;> simp)])])]

@[simp] theorem formEstimates_frame (s : State) :
    (s.formEstimates).pins = s.pins ∧ (s.formEstimates).link = s.link ∧ (s.formEstimates).timer = s.timer ∧
    (s.formEstimates).sched = s.sched ∧ (s.formEstimates).supply = s.supply ∧
    (s.formEstimates).boost = s.boost ∧ (s.formEstimates).sense = s.sense ∧ (s.formEstimates).path = s.path ∧
    (s.formEstimates).tables = s.tables ∧ (s.formEstimates).engine = s.engine ∧
    (s.formEstimates).events = s.events ∧ (s.formEstimates).pending = s.pending := by
  unfold State.formEstimates; split <;> simp

@[simp] theorem frameClose_frame (s : State) (b : Option Bank) :
    (s.frameClose b).pins = s.pins ∧ (s.frameClose b).link = s.link ∧ (s.frameClose b).timer = s.timer ∧
    (s.frameClose b).sched = s.sched ∧ (s.frameClose b).supply = s.supply ∧ (s.frameClose b).boost = s.boost ∧
    (s.frameClose b).sense = s.sense ∧ (s.frameClose b).path = s.path ∧ (s.frameClose b).tables = s.tables ∧
    (s.frameClose b).engine = s.engine ∧ (s.frameClose b).events = s.events ∧
    (s.frameClose b).pending = s.pending := by
  unfold State.frameClose; simp

@[simp] theorem takeTemp_frame (s : State) (z : Nat) (t : Int) :
    (s.takeTemp z t).pins = s.pins ∧ (s.takeTemp z t).link = s.link ∧ (s.takeTemp z t).timer = s.timer ∧
    (s.takeTemp z t).sched = s.sched ∧ (s.takeTemp z t).supply = s.supply ∧ (s.takeTemp z t).boost = s.boost ∧
    (s.takeTemp z t).control = s.control ∧ (s.takeTemp z t).path = s.path ∧
    (s.takeTemp z t).tables = s.tables ∧ (s.takeTemp z t).engine = s.engine ∧
    (s.takeTemp z t).events = s.events ∧ (s.takeTemp z t).pending = s.pending := by
  unfold State.takeTemp; split <;> simp

@[simp] theorem pollTick_frame (s : State) :
    (s.pollTick).pins = s.pins ∧ (s.pollTick).link = s.link ∧ (s.pollTick).timer = s.timer ∧
    (s.pollTick).sched = s.sched ∧ (s.pollTick).supply = s.supply ∧ (s.pollTick).boost = s.boost ∧
    (s.pollTick).heat = s.heat ∧ (s.pollTick).control = s.control ∧ (s.pollTick).path = s.path ∧
    (s.pollTick).tables = s.tables ∧ (s.pollTick).engine = s.engine ∧ (s.pollTick).pending = s.pending := by
  exact ⟨rfl, rfl, rfl, rfl, rfl, rfl, rfl, rfl, rfl, rfl, rfl, rfl⟩

@[simp] theorem settleSeeding_frame (s : State) :
    (s.settleSeeding).pins = s.pins ∧ (s.settleSeeding).link = s.link ∧ (s.settleSeeding).timer = s.timer ∧
    (s.settleSeeding).sched = s.sched ∧ (s.settleSeeding).supply = s.supply ∧
    (s.settleSeeding).boost = s.boost ∧ (s.settleSeeding).sense = s.sense ∧
    (s.settleSeeding).control = s.control ∧ (s.settleSeeding).path = s.path ∧
    (s.settleSeeding).tables = s.tables ∧ (s.settleSeeding).engine = s.engine ∧
    (s.settleSeeding).events = s.events ∧ (s.settleSeeding).pending = s.pending := by
  exact ⟨rfl, rfl, rfl, rfl, rfl, rfl, rfl, rfl, rfl, rfl, rfl, rfl, rfl⟩

@[simp] theorem senseTurn_frame (s : State) (first : Bool) :
    (s.senseTurn first).pins = s.pins ∧ (s.senseTurn first).link = s.link ∧
    (s.senseTurn first).timer = s.timer ∧ (s.senseTurn first).sched = s.sched ∧
    (s.senseTurn first).supply = s.supply ∧ (s.senseTurn first).boost = s.boost ∧
    (s.senseTurn first).control = s.control ∧ (s.senseTurn first).path = s.path ∧
    (s.senseTurn first).tables = s.tables ∧ (s.senseTurn first).engine = s.engine ∧
    (s.senseTurn first).events = s.events ∧ (s.senseTurn first).pending = s.pending := by
  unfold State.senseTurn; split <;> [simp; (simp only []; split <;> simp)]

@[simp] theorem queuePoll_frame (s : State) (z : Fin 4) :
    (s.queuePoll z).pins = s.pins ∧ (s.queuePoll z).timer = s.timer ∧ (s.queuePoll z).sched = s.sched ∧
    (s.queuePoll z).supply = s.supply ∧ (s.queuePoll z).boost = s.boost ∧ (s.queuePoll z).heat = s.heat ∧
    (s.queuePoll z).control = s.control ∧ (s.queuePoll z).path = s.path ∧ (s.queuePoll z).tables = s.tables ∧
    (s.queuePoll z).engine = s.engine ∧ (s.queuePoll z).events = s.events ∧
    (s.queuePoll z).pending = s.pending := by
  unfold State.queuePoll; split <;> simp

@[simp] theorem queuePolls_frame (s : State) :
    (s.queuePolls).pins = s.pins ∧ (s.queuePolls).timer = s.timer ∧ (s.queuePolls).sched = s.sched ∧
    (s.queuePolls).supply = s.supply ∧ (s.queuePolls).boost = s.boost ∧ (s.queuePolls).heat = s.heat ∧
    (s.queuePolls).control = s.control ∧ (s.queuePolls).path = s.path ∧ (s.queuePolls).tables = s.tables ∧
    (s.queuePolls).engine = s.engine ∧ (s.queuePolls).events = s.events ∧
    (s.queuePolls).pending = s.pending := by
  unfold State.queuePolls; split <;> simp [Four.indices]

@[simp] theorem runController_frame (s : State) (z : Fin 4) :
    (s.runController z).pins = s.pins ∧ (s.runController z).link = s.link ∧
    (s.runController z).timer = s.timer ∧ (s.runController z).sched = s.sched ∧
    (s.runController z).supply = s.supply ∧ (s.runController z).boost = s.boost ∧
    (s.runController z).heat = s.heat ∧ (s.runController z).sense = s.sense ∧
    (s.runController z).tables = s.tables ∧ (s.runController z).engine = s.engine ∧
    (s.runController z).pending = s.pending := by
  exact ⟨rfl, rfl, rfl, rfl, rfl, rfl, rfl, rfl, rfl, rfl, rfl⟩

@[simp] theorem runControllers_frame (s : State) (held : List (Fin 4)) :
    (s.runControllers held).pins = s.pins ∧ (s.runControllers held).link = s.link ∧
    (s.runControllers held).timer = s.timer ∧ (s.runControllers held).sched = s.sched ∧
    (s.runControllers held).supply = s.supply ∧ (s.runControllers held).boost = s.boost ∧
    (s.runControllers held).heat = s.heat ∧ (s.runControllers held).sense = s.sense ∧
    (s.runControllers held).tables = s.tables ∧ (s.runControllers held).engine = s.engine ∧
    (s.runControllers held).pending = s.pending := by
  unfold State.runControllers; simp only [Four.indices, List.foldl_cons, List.foldl_nil]; (repeat' split) <;> simp

@[simp] theorem runHeld_frame (s : State) :
    (s.runHeld).pins = s.pins ∧ (s.runHeld).link = s.link ∧ (s.runHeld).timer = s.timer ∧
    (s.runHeld).sched = s.sched ∧ (s.runHeld).supply = s.supply ∧ (s.runHeld).boost = s.boost ∧
    (s.runHeld).heat = s.heat ∧ (s.runHeld).sense = s.sense ∧ (s.runHeld).tables = s.tables ∧
    (s.runHeld).engine = s.engine ∧ (s.runHeld).pending = s.pending := by
  unfold State.runHeld; simp

/-- What an idle part does: one held update of a zone that has an estimate to take, or nothing. -/
theorem idle_cases (s : State) :
    s.idle = s ∨ ∃ z, (s.control.get z).presented = true ∧ s.pins.resetN = true ∧ s.idle = s.runController z := by
  unfold State.idle
  split
  · rename_i z hz
    split
    · rename_i hr
      exact Or.inr ⟨z, List.find?_some (p := fun z => (s.control.get z).presented) hz, hr, rfl⟩
    · exact Or.inl rfl
  · exact Or.inl rfl

@[simp] theorem idle_frame (s : State) :
    s.idle.pins = s.pins ∧ s.idle.link = s.link ∧ s.idle.timer = s.timer ∧ s.idle.sched = s.sched ∧
    s.idle.supply = s.supply ∧ s.idle.boost = s.boost ∧ s.idle.heat = s.heat ∧ s.idle.sense = s.sense ∧
    s.idle.tables = s.tables ∧ s.idle.engine = s.engine ∧ s.idle.pending = s.pending := by
  rcases idle_cases s with h | ⟨z, _, _, h⟩ <;> rw [h] <;> simp

/-- With no estimate left to take an idle part does nothing. -/
theorem idle_of_none {s : State} (h : ∀ z, (s.control.get z).presented = false) : s.idle = s := by
  rcases idle_cases s with e | ⟨z, hz, _, _⟩
  · exact e
  · rw [h z] at hz; cases hz

@[simp] theorem takeTrip_frame (s : State) (p : Nat) :
    (s.takeTrip p).pins = s.pins ∧ (s.takeTrip p).link = s.link ∧ (s.takeTrip p).timer = s.timer ∧
    (s.takeTrip p).sched = s.sched ∧ (s.takeTrip p).boost = s.boost ∧ (s.takeTrip p).heat = s.heat ∧
    (s.takeTrip p).sense = s.sense ∧ (s.takeTrip p).control = s.control ∧ (s.takeTrip p).tables = s.tables ∧
    (s.takeTrip p).engine = s.engine ∧ (s.takeTrip p).pending = s.pending := by
  unfold State.takeTrip; split <;> [simp; (simp only []; split <;> simp)]

@[simp] theorem pathTurn_frame (s : State) :
    (s.pathTurn).pins = s.pins ∧ (s.pathTurn).link = s.link ∧ (s.pathTurn).timer = s.timer ∧
    (s.pathTurn).sched = s.sched ∧ (s.pathTurn).supply = s.supply ∧ (s.pathTurn).boost = s.boost ∧
    (s.pathTurn).heat = s.heat ∧ (s.pathTurn).sense = s.sense ∧ (s.pathTurn).control = s.control ∧
    (s.pathTurn).tables = s.tables ∧ (s.pathTurn).engine = s.engine ∧ (s.pathTurn).events = s.events ∧
    (s.pathTurn).pending = s.pending := by
  unfold State.pathTurn; split <;> simp

/-! ### The field `updates` -/

@[simp] theorem raise_updates (s : State) (f : Flag) : (s.raise f).updates = s.updates := rfl

@[simp] theorem raiseIf_updates (s : State) (c : Bool) (f : Flag) : (s.raiseIf c f).updates = s.updates := rfl

@[simp] theorem writePower_updates (s : State) (code : Int) : (s.writePower code).updates = s.updates := rfl

@[simp] theorem freeEntry_updates (s : State) (e : Entry) : (s.freeEntry e).updates = s.updates := rfl

@[simp] theorem replaceEntry_updates (s : State) (e e' : Entry) : (s.replaceEntry e e').updates = s.updates := rfl

@[simp] theorem amendEntry_updates (s : State) (e : Entry) (code : Int) : (s.amendEntry e code).updates = s.updates := rfl

@[simp] theorem closeEntries_updates (s : State) (closes : Entry → Bool) : (s.closeEntries closes).updates = s.updates :=
  rfl

@[simp] theorem answer_updates (s : State) (p : Packet) (w : List Word) : (s.answer p w).updates = s.updates := rfl

@[simp] theorem recomputeSupply_updates (s : State) : s.recomputeSupply.updates = s.updates := rfl

@[simp] theorem takeSupply_updates (s : State) (mv : Nat) : (s.takeSupply mv).updates = s.updates := rfl

@[simp] theorem supplyTurn_updates (s : State) : s.supplyTurn.updates = s.updates := rfl

@[simp] theorem releaseNow_updates (s : State) (left : Bool) : (s.releaseNow left).updates = s.updates :=
  by unfold State.releaseNow; split <;> rfl

@[simp] theorem takeReady_updates (s : State) : s.takeReady.updates = s.updates := by
  unfold State.takeReady; split <;> [rfl; (split <;> simp)]

@[simp] theorem boostDemand_updates (s : State) : s.boostDemand.updates = s.updates := by
  unfold State.boostDemand; split <;> [(split <;> rfl); rfl]

@[simp] theorem boostTick_updates (s : State) : s.boostTick.updates = s.updates := rfl

@[simp] theorem attemptRelease_updates (s : State) (q : Bool) : (s.attemptRelease q).updates = s.updates := by
  unfold State.attemptRelease; split <;> rfl

@[simp] theorem attemptRequest_updates (s : State) (b : Bool) : (s.attemptRequest b).updates = s.updates := by
  unfold State.attemptRequest; split <;> rfl

@[simp] theorem boostCount_updates (s : State) : s.boostCount.updates = s.updates :=
  by unfold State.boostCount; split <;> rfl

@[simp] theorem attemptDue_updates (s : State) (q : Bool) : (s.attemptDue q).updates = s.updates :=
  by unfold State.attemptDue; simp

@[simp] theorem boostTurn_updates (s : State) : s.boostTurn.updates = s.updates := by unfold State.boostTurn; simp

@[simp] theorem boostSoftReset_updates (s : State) : s.boostSoftReset.updates = s.updates := by
  unfold State.boostSoftReset; simp only []; split <;> simp

@[simp] theorem book_updates (s : State) (e : Entry) : (s.book e).updates = s.updates := rfl

@[simp] theorem takeRequest_updates (s : State) (k : RequestKind) : (s.takeRequest k).updates = s.updates := by
  unfold State.takeRequest; simp only []; split <;> rfl

@[simp] theorem queuePoll_updates (s : State) (z : Fin 4) : (s.queuePoll z).updates = s.updates :=
  by unfold State.queuePoll; split <;> rfl

@[simp] theorem runController_updates (s : State) (z : Fin 4) : (s.runController z).updates = s.updates := rfl

@[simp] theorem pathTurn_updates (s : State) : s.pathTurn.updates = s.updates := by unfold State.pathTurn; split <;> rfl

@[simp] theorem takeRequestOpt_updates (s : State) (k : Option RequestKind) : (s.takeRequest? k).updates = s.updates := by
  unfold State.takeRequest?; split <;> simp

@[simp] theorem takeTemp_updates (s : State) (z : Nat) (t : Int) : (s.takeTemp z t).updates = s.updates :=
  by unfold State.takeTemp; split <;> rfl

@[simp] theorem pollTick_updates (s : State) : s.pollTick.updates = s.updates := rfl

@[simp] theorem senseTurn_updates (s : State) (first : Bool) : (s.senseTurn first).updates = s.updates := by
  unfold State.senseTurn; split <;> [rfl; (dsimp only; split <;> rfl)]

@[simp] theorem queuePolls_updates (s : State) : s.queuePolls.updates = s.updates := by
  unfold State.queuePolls; split <;> simp [Four.indices]

@[simp] theorem takeTrip_updates (s : State) (p : Nat) : (s.takeTrip p).updates = s.updates := by
  unfold State.takeTrip; split <;> [rfl; (simp only []; split <;> simp)]

@[simp] theorem runControllers_updates (s : State) (held : List (Fin 4)) : (s.runControllers held).updates = held := rfl

end Sys2Proof.Machine
end

