-- ==== Sys2Proof/Laws/Clock.lean ====
section
/-! SUPPORT. Frames: what the steps of the clock and the arrivals leave unchanged, field by field. -/

namespace Sys2Proof.Machine

@[simp] theorem grainWork_frame (s : State) (g : Nat) :
    (s.grainWork g).pins = s.pins ∧ (s.grainWork g).link = s.link ∧ (s.grainWork g).supply = s.supply ∧
    (s.grainWork g).tables = s.tables ∧ (s.grainWork g).engine = s.engine ∧
    (s.grainWork g).pending = s.pending := by
  unfold State.grainWork; simp

@[simp] theorem safeRequest_frame (s : State) (b : Bool) :
    (s.safeRequest b).pins = s.pins ∧ (s.safeRequest b).link = s.link ∧ (s.safeRequest b).timer = s.timer ∧
    (s.safeRequest b).sched = s.sched ∧ (s.safeRequest b).boost = s.boost ∧ (s.safeRequest b).heat = s.heat ∧
    (s.safeRequest b).sense = s.sense ∧ (s.safeRequest b).control = s.control ∧
    (s.safeRequest b).path = s.path ∧ (s.safeRequest b).tables = s.tables ∧
    (s.safeRequest b).engine = s.engine ∧ (s.safeRequest b).events = s.events ∧
    (s.safeRequest b).pending = s.pending := by
  unfold State.safeRequest; split <;> simp

@[simp] theorem windowEnd_frame (s : State) :
    (s.windowEnd).pins = s.pins ∧ (s.windowEnd).link = s.link ∧ (s.windowEnd).sched = s.sched ∧
    (s.windowEnd).boost = s.boost ∧ (s.windowEnd).heat = s.heat ∧ (s.windowEnd).sense = s.sense ∧
    (s.windowEnd).control = s.control ∧ (s.windowEnd).path = s.path ∧ (s.windowEnd).tables = s.tables ∧
    (s.windowEnd).engine = s.engine ∧ (s.windowEnd).pending = s.pending := by
  unfold State.windowEnd; simp

@[simp] theorem grainStep_frame (s : State) :
    (s.grainStep).pins = s.pins ∧ (s.grainStep).link = s.link ∧ (s.grainStep).tables = s.tables ∧
    (s.grainStep).engine = s.engine ∧ (s.grainStep).pending = s.pending := by
  unfold State.grainStep; simp only []; split <;> [(split <;> simp); simp]

@[simp] theorem beginFrame_frame (s : State) (turn : Turn) :
    (s.beginFrame turn).pins = s.pins ∧ (s.beginFrame turn).link = s.link ∧
    (s.beginFrame turn).sched = s.sched ∧ (s.beginFrame turn).supply = s.supply ∧
    (s.beginFrame turn).boost = s.boost ∧ (s.beginFrame turn).heat = s.heat ∧
    (s.beginFrame turn).sense = s.sense ∧ (s.beginFrame turn).control = s.control ∧
    (s.beginFrame turn).path = s.path ∧ (s.beginFrame turn).engine = s.engine ∧
    (s.beginFrame turn).pending = s.pending := by
  exact ⟨rfl, rfl, rfl, rfl, rfl, rfl, rfl, rfl, rfl, rfl, rfl⟩

@[simp] theorem relabelSchedule_frame (s : State) :
    (s.relabelSchedule).pins = s.pins ∧ (s.relabelSchedule).link = s.link ∧
    (s.relabelSchedule).timer = s.timer ∧ (s.relabelSchedule).supply = s.supply ∧
    (s.relabelSchedule).boost = s.boost ∧ (s.relabelSchedule).heat = s.heat ∧
    (s.relabelSchedule).sense = s.sense ∧ (s.relabelSchedule).control = s.control ∧
    (s.relabelSchedule).path = s.path ∧ (s.relabelSchedule).tables = s.tables ∧
    (s.relabelSchedule).engine = s.engine ∧ (s.relabelSchedule).events = s.events ∧
    (s.relabelSchedule).pending = s.pending := by
  exact ⟨rfl, rfl, rfl, rfl, rfl, rfl, rfl, rfl, rfl, rfl, rfl, rfl, rfl⟩

@[simp] theorem askQueue_frame (s : State) (q : QueueOrder) (b : Bool) :
    (s.askQueue q b).pins = s.pins ∧ (s.askQueue q b).timer = s.timer ∧ (s.askQueue q b).sched = s.sched ∧
    (s.askQueue q b).heat = s.heat ∧ (s.askQueue q b).control = s.control ∧ (s.askQueue q b).path = s.path ∧
    (s.askQueue q b).tables = s.tables ∧ (s.askQueue q b).engine = s.engine ∧
    (s.askQueue q b).pending = s.pending := by
  unfold State.askQueue; split <;> simp

@[simp] theorem closeAndTick_frame (s : State) (b : Option Bank) (e : Bool) :
    (s.closeAndTick b e).pins = s.pins ∧ (s.closeAndTick b e).link = s.link ∧
    (s.closeAndTick b e).timer = s.timer ∧ (s.closeAndTick b e).sched = s.sched ∧
    (s.closeAndTick b e).supply = s.supply ∧ (s.closeAndTick b e).boost = s.boost ∧
    (s.closeAndTick b e).path = s.path ∧ (s.closeAndTick b e).tables = s.tables ∧
    (s.closeAndTick b e).engine = s.engine ∧ (s.closeAndTick b e).pending = s.pending := by
  unfold State.closeAndTick; split <;> simp

@[simp] theorem dispatchTurn_frame (s : State) (b : Option Bank) (first : Bool) (o : TurnOrder) :
    (s.dispatchTurn b first o).pins = s.pins ∧ (s.dispatchTurn b first o).link = s.link ∧
    (s.dispatchTurn b first o).timer = s.timer ∧ (s.dispatchTurn b first o).boost = s.boost ∧
    (s.dispatchTurn b first o).tables = s.tables ∧ (s.dispatchTurn b first o).engine = s.engine ∧
    (s.dispatchTurn b first o).pending = s.pending := by
  unfold State.dispatchTurn; simp

@[simp] theorem turnWork_frame (s : State) (turn : Turn) (o : TurnOrder) :
    (s.turnWork turn o).pins = s.pins ∧ (s.turnWork turn o).link = s.link ∧
    (s.turnWork turn o).boost = s.boost ∧ (s.turnWork turn o).engine = s.engine ∧
    (s.turnWork turn o).pending = s.pending := by
  unfold State.turnWork; simp

@[simp] theorem frameTurn_frame (s : State) (turn : Turn) (o : TurnOrder) :
    (s.frameTurn turn o).pins = s.pins ∧ (s.frameTurn turn o).engine = s.engine ∧
    (s.frameTurn turn o).pending = s.pending := by
  unfold State.frameTurn; simp

@[simp] theorem timerStep_frame (s : State) (o : TurnOrder) :
    (s.timerStep o).pins = s.pins ∧ (s.timerStep o).engine = s.engine ∧
    (s.timerStep o).pending = s.pending := by
  unfold State.timerStep; split <;> simp

@[simp] theorem confirm_frame (s : State) (m : Nat) :
    (s.confirm m).pins = s.pins ∧ (s.confirm m).link = s.link ∧ (s.confirm m).sched = s.sched ∧
    (s.confirm m).supply = s.supply ∧ (s.confirm m).boost = s.boost ∧ (s.confirm m).heat = s.heat ∧
    (s.confirm m).sense = s.sense ∧ (s.confirm m).control = s.control ∧ (s.confirm m).path = s.path ∧
    (s.confirm m).tables = s.tables ∧ (s.confirm m).engine = s.engine ∧ (s.confirm m).pending = s.pending := by
  exact ⟨rfl, rfl, rfl, rfl, rfl, rfl, rfl, rfl, rfl, rfl, rfl, rfl⟩

@[simp] theorem takeMark_frame (s : State) (m : Nat) (o : TurnOrder) :
    (s.takeMark m o).pins = s.pins ∧ (s.takeMark m o).engine = s.engine ∧
    (s.takeMark m o).pending = s.pending := by
  unfold State.takeMark; split <;> [(split <;> simp); simp]

@[simp] theorem queueCommand_frame (s : State) (p : Packet) :
    (s.queueCommand p).pins = s.pins ∧ (s.queueCommand p).link = s.link ∧ (s.queueCommand p).timer = s.timer ∧
    (s.queueCommand p).sched = s.sched ∧ (s.queueCommand p).supply = s.supply ∧
    (s.queueCommand p).boost = s.boost ∧ (s.queueCommand p).heat = s.heat ∧
    (s.queueCommand p).sense = s.sense ∧ (s.queueCommand p).control = s.control ∧
    (s.queueCommand p).path = s.path ∧ (s.queueCommand p).tables = s.tables ∧
    (s.queueCommand p).pending = s.pending := by
  unfold State.queueCommand; split <;> simp

@[simp] theorem arrive_frame (s : State) (port : Port) (p : Packet) (o : TurnOrder) :
    (s.arrive port p o).pins = s.pins ∧ (s.arrive port p o).pending = s.pending := by
  unfold State.arrive; split <;> (try unfold State.pass) <;> (try split) <;> simp

@[simp] theorem tick_frame (s : State) (k : Clock) :
    (s.tick k).pins = s.pins ∧ (s.tick k).pending = s.pending := by
  cases k <;> simp [State.tick]

end Sys2Proof.Machine
end

