-- ==== Sys2Proof/Laws/Arrivals.lean ====
section
/-! SUPPORT. What running a command, entering a Pass Buffer and classifying a packet come to, case by case. -/

namespace Sys2Proof.Machine

/-! ### Running a command -/

theorem live_high {s : State} (h : s.pins.resetN = true) (f : State → State) : s.live f = .next (f s) := by
  simp [State.live, h]

theorem live_low {s : State} (h : s.pins.resetN = false) (f : State → State) : s.live f = .next s := by
  simp [State.live, h]

/-- Every command with `live` answers a next state: what `f` makes, or the state itself. -/
theorem live_next {s t : State} {f : State → State} (h : s.live f = .next t) :
    (s.pins.resetN = true ∧ t = f s) ∨ (s.pins.resetN = false ∧ t = s) := by
  cases hr : s.pins.resetN <;> simp_all [State.live]

/-! ### Pass Buffers -/

theorem full_modem {l : Link} : l.full .modem = true ↔ 16 ≤ l.down.length := decide_eq_true_iff

theorem full_frontEnd {l : Link} : l.full .frontEnd = true ↔ 16 ≤ l.up.length := decide_eq_true_iff

theorem room_modem {l : Link} : l.full .modem = false ↔ l.down.length < 16 :=
  decide_eq_false_iff_not.trans not_le

theorem room_frontEnd {l : Link} : l.full .frontEnd = false ↔ l.up.length < 16 :=
  decide_eq_false_iff_not.trans not_le

theorem pass_full {s : State} {port : Port} (h : s.link.full port = true) (p : Packet) (ready : Bool)
    (taken : State → State) : s.pass port p ready taken = s.raise .overrun := by
  simp [State.pass, h]

theorem pass_room {s : State} {port : Port} (h : s.link.full port = false) (p : Packet) (ready : Bool)
    (taken : State → State) : s.pass port p ready taken = taken { s with link := s.link.enter port p ready } := by
  simp [State.pass, h]

/-! ### Classification of a well-formed packet -/

theorem classify_mark {p : Packet} (h : p.wellFormed = true) (hk : p.kind = 1) : classify .modem p = .mark := by
  simp [classify, h, classifyModem, hk, Kind.frameMark]

theorem classify_command {p : Packet} (h : p.wellFormed = true) (hu : p.unit = 15) (hk : p.kind = 9) :
    classify .modem p = .command := by
  simp [classify, h, classifyModem, hu, hk, Kind.frameMark, Kind.command]

theorem classify_temp {p : Packet} (h : p.wellFormed = true) (hk : p.kind = 10) :
    classify .frontEnd p = if p.unit = 15 then .tempConsumed else .tempPassed := by
  simp [classify, h, classifyFrontEnd, hk, Kind.tempReport]

theorem classify_supply {p : Packet} (h : p.wellFormed = true) (hk : p.kind = 11) (hu : p.unit ≠ 15) :
    classify .frontEnd p = .supplyPassed := by
  simp [classify, h, classifyFrontEnd, hk, hu, Kind.tempReport, Kind.supplyReport]

theorem classify_trip {p : Packet} (h : p.wellFormed = true) (hk : p.kind = 12) (hu : p.unit ≠ 15) :
    classify .frontEnd p = .tripPassed := by
  simp [classify, h, classifyFrontEnd, hk, hu, Kind.tempReport, Kind.supplyReport, Kind.tripReport]

theorem classify_ready {p : Packet} (h : p.wellFormed = true) (hk : p.kind = 13) (hu : p.unit = 15) :
    classify .frontEnd p = .readyConsumed := by
  simp [classify, h, classifyFrontEnd, hk, hu, Kind.tempReport, Kind.boostReady]

theorem classifyModem_cases (u k : Nat) :
    (k = 1 ∧ classifyModem u k = .mark) ∨ (k ≠ 1 ∧ u = 15 ∧ k = 9 ∧ classifyModem u k = .command) ∨
    (k ≠ 1 ∧ u = 15 ∧ k ≠ 9 ∧ classifyModem u k = .misdirected) ∨
    (u ≠ 15 ∧ (k = 2 ∨ k = 3 ∨ k = 4 ∨ k = 5) ∧ classifyModem u k = .order) ∨
    (u ≠ 15 ∧ (k ≠ 1 ∧ k ≠ 2 ∧ k ≠ 3 ∧ k ≠ 4 ∧ k ≠ 5) ∧ classifyModem u k = .pass) := by
  have e : classifyModem u k = if k = 1 then .mark
      else if u = 15 then (if k = 9 then .command else .misdirected)
      else if k = 2 ∨ k = 4 ∨ k = 5 ∨ k = 3 then .order else .pass := rfl
  rw [e]
  by_cases h1 : k = 1
  · simp [h1]
  · by_cases hu : u = 15
    · by_cases h9 : k = 9 <;> simp [h1, hu, h9]
    · by_cases ho : k = 2 ∨ k = 4 ∨ k = 5 ∨ k = 3
      · have : k = 2 ∨ k = 3 ∨ k = 4 ∨ k = 5 := by omega
        simp [h1, hu, ho, this]
      · have : k ≠ 2 ∧ k ≠ 3 ∧ k ≠ 4 ∧ k ≠ 5 := by omega
        simp [h1, hu, this]

theorem classifyFrontEnd_pass_iff (u k : Nat) :
    classifyFrontEnd u k = .pass ↔ u ≠ 15 ∧ k ≠ 10 ∧ k ≠ 11 ∧ k ≠ 12 := by
  have e : classifyFrontEnd u k = if u = 15 then
      (if k = 10 then .tempConsumed else if k = 13 then .readyConsumed else .misdirected)
      else if k = 10 then .tempPassed else if k = 11 then .supplyPassed else if k = 12 then .tripPassed else .pass := rfl
  rw [e]
  by_cases hu : u = 15
  · rw [if_pos hu]; constructor
    · intro h; split at h <;> [cases h; (split at h <;> cases h)]
    · intro h; exact absurd hu h.1
  · rw [if_neg hu]
    by_cases h1 : k = 10
    · simp [h1]
    · by_cases h2 : k = 11
      · simp [h2]
      · by_cases h3 : k = 12 <;> simp [h1, h2, h3, hu]

/-- Only a well-formed packet is handled otherwise than as a malformed one. -/
theorem wellFormed_of_classify {port : Port} {p : Packet} {h : Handling} (hc : classify port p = h) (h1 : h ≠ .malformedDrop)
    (h2 : h ≠ .malformedPass) : p.wellFormed = true := by
  unfold classify at hc
  split at hc
  · assumption
  · split at hc <;> exact absurd hc.symm (by assumption)

theorem classify_modem {p : Packet} (h : p.wellFormed = true) : classify .modem p = classifyModem p.unit p.kind := by
  simp [classify, h]

theorem classify_frontEnd {p : Packet} (h : p.wellFormed = true) :
    classify .frontEnd p = classifyFrontEnd p.unit p.kind := by
  simp [classify, h]

/-! ### Flags -/

theorem Flag.bit_ne_zero (f : Flag) : f.bit ≠ 0 := by cases f <;> decide

@[simp] theorem Events.has_raise_self (e : Events) (f : Flag) : (e.raise f).has f = true := by
  unfold Events.raise
  split
  · assumption
  · have h : (e.flags ||| f.bit) &&& f.bit = f.bit := by ext i; simp; tauto
    simp only [Events.has, h, bne_iff_ne]
    exact Flag.bit_ne_zero f

theorem Events.has_raise {e : Events} {g : Flag} (h : e.has g = true) (f : Flag) : (e.raise f).has g = true := by
  unfold Events.raise
  split
  · assumption
  · simp only [Events.has, bne_iff_ne, ne_eq] at h ⊢
    intro hz; apply h; ext i hi
    have := congrArg (fun x : Word => x[i]) hz
    simp at this ⊢; tauto

theorem Events.has_raiseIf {e : Events} {g : Flag} (h : e.has g = true) (c : Bool) (f : Flag) :
    (e.raiseIf c f).has g = true := by
  unfold Events.raiseIf
  split
  · exact Events.has_raise h f
  · exact h

@[simp] theorem Events.raiseIf_true (e : Events) (f : Flag) : e.raiseIf true f = e.raise f := rfl

@[simp] theorem Events.raiseIf_false (e : Events) (f : Flag) : e.raiseIf false f = e := rfl

theorem Events.raise_mask (e : Events) (f : Flag) : (e.raise f).mask = e.mask := by
  unfold Events.raise; split <;> rfl

/-- A flag other than the one raised stands as it did. -/
theorem Events.has_raise_other {e : Events} {f g : Flag} (h : f ≠ g) : (e.raise f).has g = e.has g := by
  unfold Events.raise
  split
  · rfl
  · have hd : f.bit &&& g.bit = 0 := by cases f <;> cases g <;> first | exact absurd rfl h | decide
    have : (e.flags ||| f.bit) &&& g.bit = e.flags &&& g.bit := by
      ext i hi
      have := congrArg (fun x : Word => x[i]) hd
      simp at this ⊢
      cases hf : f.bit[i] <;> cases hg : g.bit[i] <;> simp_all
    simp [Events.has, this]

theorem Events.has_raiseIf_other {e : Events} {f g : Flag} (h : f ≠ g) (c : Bool) :
    (e.raiseIf c f).has g = e.has g := by
  unfold Events.raiseIf; split
  · exact Events.has_raise_other h
  · rfl

end Sys2Proof.Machine
end

