-- ==== Sys2Proof/Laws/Memory.lean ====
section
/-! SUPPORT. The laws of a policy bank: what a write, a run of writes and a copied image read as, and that each keeps the
canonical form. -/

namespace Sys2Proof.Machine

/-! ### Cells -/

theorem cellsOk_weaken {lo lo' : Nat} {cs : List (Nat × Word)} (h : cellsOk lo cs = true) (hle : lo' ≤ lo) :
    cellsOk lo' cs = true := by
  cases cs with
  | nil => rfl
  | cons c rest =>
    obtain ⟨k, w⟩ := c
    simp only [cellsOk, Bool.and_eq_true, decide_eq_true_eq] at h ⊢
    exact ⟨⟨⟨by omega, h.1.1.2⟩, h.1.2⟩, h.2⟩

theorem readCells_below {lo a : Nat} {cs : List (Nat × Word)} (h : cellsOk lo cs = true) (ha : a < lo) :
    readCells cs a = 0 := by
  induction cs generalizing lo with
  | nil => rfl
  | cons c rest ih =>
    obtain ⟨k, w⟩ := c
    simp only [cellsOk, Bool.and_eq_true, decide_eq_true_eq] at h
    rw [readCells, if_neg (by omega)]
    exact ih h.2 (by omega)

theorem readCells_past {lo a : Nat} {cs : List (Nat × Word)} (h : cellsOk lo cs = true) (ha : bankSize ≤ a) :
    readCells cs a = 0 := by
  induction cs generalizing lo with
  | nil => rfl
  | cons c rest ih =>
    obtain ⟨k, w⟩ := c
    simp only [cellsOk, Bool.and_eq_true, decide_eq_true_eq] at h
    rw [readCells, if_neg (by omega)]
    exact ih h.2

theorem cellsOk_writeCells {lo a : Nat} {w : Word} {cs : List (Nat × Word)} (h : cellsOk lo cs = true)
    (hlo : lo ≤ a) (ha : a < bankSize) : cellsOk lo (writeCells cs a w) = true := by
  induction cs generalizing lo with
  | nil =>
    by_cases hw : w = 0#16
    · simp [writeCells, hw, cellsOk]
    · simp [writeCells, hw, cellsOk, hlo, ha]
  | cons c rest ih =>
    obtain ⟨k, v⟩ := c
    simp only [cellsOk, Bool.and_eq_true, decide_eq_true_eq, bne_iff_ne, ne_eq, BitVec.ofNat_eq_ofNat] at h
    obtain ⟨⟨⟨h1, h2⟩, h3⟩, h4⟩ := h
    by_cases hlt : a < k
    · by_cases hw : w = 0#16
      · simp [writeCells, hlt, hw, cellsOk, h1, h2, h3, h4]
      · have he : writeCells ((k, v) :: rest) a w = (a, w) :: (k, v) :: rest := by simp [writeCells, hlt, hw]
        rw [he]
        simp [cellsOk, hlo, ha, hw, h2, h3, h4]
        omega
    · by_cases heq : a = k
      · by_cases hw : w = 0#16
        · have he : writeCells ((k, v) :: rest) a w = rest := by simp [writeCells, heq, hw]
          rw [he]
          exact cellsOk_weaken h4 (by omega)
        · subst heq
          simp [writeCells, hw, cellsOk, h1, h2, h4]
      · have he : writeCells ((k, v) :: rest) a w = (k, v) :: writeCells rest a w := by simp [writeCells, hlt, heq]
        rw [he]
        simp [cellsOk, h1, h2, h3, ih h4 (show k + 1 ≤ a by omega)]

theorem readCells_writeCells {lo : Nat} {cs : List (Nat × Word)} (h : cellsOk lo cs = true) (a : Nat) (w : Word)
    (x : Nat) : readCells (writeCells cs a w) x = if x = a then w else readCells cs x := by
  induction cs generalizing lo with
  | nil =>
    by_cases hw : w = 0#16
    · simp [writeCells, hw, readCells]
    · by_cases hx : x = a
      · simp [writeCells, hw, readCells, hx]
      · simp [writeCells, hw, readCells, hx, Ne.symm hx]
  | cons c rest ih =>
    obtain ⟨k, v⟩ := c
    simp only [cellsOk, Bool.and_eq_true, decide_eq_true_eq, bne_iff_ne, ne_eq, BitVec.ofNat_eq_ofNat] at h
    obtain ⟨⟨⟨h1, h2⟩, h3⟩, h4⟩ := h
    by_cases hlt : a < k
    · have hb : readCells rest a = 0 := readCells_below h4 (by omega)
      by_cases hw : w = 0#16
      · by_cases hx : x = a
        · subst hx
          have : ¬ k = x := by omega
          simp [writeCells, hlt, hw, readCells, this, hb]
        · simp [writeCells, hlt, hw, hx]
      · by_cases hx : x = a
        · simp [writeCells, hlt, hw, readCells, hx]
        · simp [writeCells, hlt, hw, readCells, hx, Ne.symm hx]
    · by_cases heq : a = k
      · subst heq
        have hb : readCells rest a = 0 := readCells_below h4 (by omega)
        by_cases hw : w = 0#16
        · by_cases hx : x = a
          · subst hx
            simp [writeCells, hw, hb]
          · simp [writeCells, hw, readCells, hx, Ne.symm hx]
        · by_cases hx : x = a
          · simp [writeCells, hw, readCells, hx]
          · simp [writeCells, hw, readCells, hx, Ne.symm hx]
      · simp only [writeCells, hlt, heq, if_false, readCells]
        rw [ih h4]
        by_cases hk : k = x
        · have : ¬ x = a := by omega
          simp [hk, this]
        · simp [hk]

/-! ### Banks -/

theorem Bank.wf_zero : Bank.zero.wf = true := rfl

theorem Bank.read_past {b : Bank} (h : b.wf = true) {a : Nat} (ha : bankSize ≤ a) : b.read a = 0 :=
  readCells_past h ha

/-- A write keeps the canonical form. -/
theorem Bank.wf_write {b : Bank} (h : b.wf = true) {a : Nat} (w : Word) (ha : a < bankSize) : (b.write a w).wf = true :=
  cellsOk_writeCells h (Nat.zero_le a) ha

/-- A write changes the word written and no other. -/
theorem Bank.read_write {b : Bank} (h : b.wf = true) (a : Nat) (w : Word) (x : Nat) :
    (b.write a w).read x = if x = a then w else b.read x :=
  readCells_writeCells h a w x

/-- A run of writes keeps the canonical form. -/
theorem Bank.wf_writeAll {b : Bank} (h : b.wf = true) {a : Nat} {ws : List Word} (ha : a + ws.length ≤ bankSize) :
    (b.writeAll a ws).wf = true := by
  induction ws generalizing b a with
  | nil => exact h
  | cons w rest ih =>
    simp only [List.length_cons] at ha
    exact ih (Bank.wf_write h w (by omega)) (by omega)

/-- A run of writes changes the words of its span and no other. -/
theorem Bank.read_writeAll {b : Bank} (h : b.wf = true) {a : Nat} {ws : List Word} (ha : a + ws.length ≤ bankSize)
    (x : Nat) : (b.writeAll a ws).read x = if a ≤ x ∧ x < a + ws.length then ws.getD (x - a) 0 else b.read x := by
  induction ws generalizing b a with
  | nil =>
    have : ¬ (a ≤ x ∧ x < a + 0) := by omega
    simp only [Bank.writeAll, List.length_nil, this, if_false]
  | cons w rest ih =>
    simp only [List.length_cons] at ha ⊢
    have hw := Bank.wf_write h w (show a < bankSize by omega)
    rw [Bank.writeAll, ih hw (by omega), Bank.read_write h]
    by_cases hx : x = a
    · have h1 : ¬ (a + 1 ≤ x ∧ x < a + 1 + rest.length) := by omega
      have h2 : a ≤ x ∧ x < a + (rest.length + 1) := by omega
      rw [if_neg h1, if_pos hx, if_pos h2]
      simp [hx]
    · by_cases h1 : a + 1 ≤ x ∧ x < a + 1 + rest.length
      · have h2 : a ≤ x ∧ x < a + (rest.length + 1) := by omega
        rw [if_pos h1, if_pos h2]
        have : x - a = (x - (a + 1)) + 1 := by omega
        rw [this, List.getD_cons_succ]
      · have h2 : ¬ (a ≤ x ∧ x < a + (rest.length + 1)) := by omega
        rw [if_neg h1, if_neg h2, if_neg hx]

/-! ### The image of a copy -/

theorem cellsOk_filter {lo : Nat} {cs : List (Nat × Word)} (h : cellsOk lo cs = true) (q : Nat × Word → Bool) :
    cellsOk lo (cs.filter q) = true := by
  induction cs generalizing lo with
  | nil => rfl
  | cons c rest ih =>
    obtain ⟨k, w⟩ := c
    simp only [cellsOk, Bool.and_eq_true] at h
    rw [List.filter_cons]
    split
    · simp only [cellsOk, Bool.and_eq_true]
      exact ⟨h.1, ih h.2⟩
    · have := h.1.1.1
      rw [decide_eq_true_eq] at this
      exact ih (cellsOk_weaken h.2 (by omega))

theorem cellsOk_above {l n : Nat} {zs : List (Nat × Word)} (hz : cellsOk l zs = true) :
    cellsOk n (zs.filter fun c => n ≤ c.1) = true := by
  induction zs generalizing l with
  | nil => rfl
  | cons c rest ih =>
    obtain ⟨k, w⟩ := c
    simp only [cellsOk, Bool.and_eq_true, decide_eq_true_eq] at hz
    rw [List.filter_cons]
    split
    · next hk =>
      simp only [decide_eq_true_eq] at hk
      simp only [cellsOk, Bool.and_eq_true, decide_eq_true_eq]
      exact ⟨⟨⟨hk, hz.1.1.2⟩, hz.1.2⟩, cellsOk_filter hz.2 _⟩
    · exact ih hz.2

theorem cellsOk_lower {l : Nat} {zs : List (Nat × Word)} (hz : cellsOk l zs = true) : ∀ d ∈ zs, l ≤ d.1 := by
  induction zs generalizing l with
  | nil => simp
  | cons d ds ih =>
    obtain ⟨e, v⟩ := d
    intro f hf
    simp only [cellsOk, Bool.and_eq_true, decide_eq_true_eq] at hz
    rcases List.mem_cons.1 hf with rfl | hf
    · exact hz.1.1.1
    · have := ih hz.2 f hf
      omega

theorem cellsOk_splice {lo n : Nat} {xs ys : List (Nat × Word)} (hx : cellsOk lo xs = true) (hy : cellsOk 0 ys = true)
    (hlo : lo ≤ n) :
    cellsOk lo (xs.filter (fun c => c.1 < n) ++ ys.filter (fun c => n ≤ c.1)) = true := by
  induction xs generalizing lo with
  | nil => exact cellsOk_weaken (cellsOk_above hy) hlo
  | cons c rest ih =>
    obtain ⟨k, w⟩ := c
    simp only [cellsOk, Bool.and_eq_true, decide_eq_true_eq] at hx
    rw [List.filter_cons]
    split
    · next hk =>
      simp only [decide_eq_true_eq] at hk
      rw [List.cons_append]
      simp only [cellsOk, Bool.and_eq_true, decide_eq_true_eq]
      exact ⟨⟨⟨hx.1.1.1, hx.1.1.2⟩, hx.1.2⟩, ih hx.2 (by omega)⟩
    · next hk =>
      simp only [decide_eq_true_eq, not_lt] at hk
      have hnil : rest.filter (fun c => decide (c.1 < n)) = [] := by
        rw [List.filter_eq_nil_iff]
        intro c hc
        have := cellsOk_lower hx.2 c hc
        simp only [decide_eq_true_eq, not_lt]
        omega
      rw [hnil, List.nil_append]
      exact cellsOk_weaken (cellsOk_above hy) hlo

/-- The image of a copy is in canonical form. -/
theorem Bank.wf_splice {src dst : Bank} (hs : src.wf = true) (hd : dst.wf = true) (n : Nat) :
    (src.splice dst n).wf = true :=
  cellsOk_splice hs hd (Nat.zero_le n)

theorem readCells_append (xs ys : List (Nat × Word)) (a : Nat) :
    readCells (xs ++ ys) a = if a ∈ xs.map (·.1) then readCells xs a else readCells ys a := by
  induction xs with
  | nil => simp
  | cons c rest ih =>
    obtain ⟨k, w⟩ := c
    by_cases hk : k = a
    · simp [readCells, hk]
    · simp [readCells, hk, ih, Ne.symm hk]

theorem readCells_filter {q : Nat → Bool} (cs : List (Nat × Word)) (a : Nat) :
    readCells (cs.filter fun c => q c.1) a = if q a then readCells cs a else 0 := by
  induction cs with
  | nil => simp [readCells]
  | cons c rest ih =>
    obtain ⟨k, w⟩ := c
    rw [List.filter_cons]
    by_cases hq : q k = true
    · simp only [hq, if_true, readCells]
      by_cases hk : k = a
      · subst hk; simp [hq]
      · simp only [hk, if_false]; exact ih
    · rw [if_neg hq, ih, readCells]
      by_cases hk : k = a
      · subst hk; simp [hq]
      · simp only [hk, if_false]

theorem readCells_not_mem {cs : List (Nat × Word)} {a : Nat} (h : a ∉ cs.map (·.1)) : readCells cs a = 0 := by
  induction cs with
  | nil => rfl
  | cons c rest ih =>
    obtain ⟨k, w⟩ := c
    simp only [List.map_cons, List.mem_cons, not_or] at h
    simp [readCells, Ne.symm h.1, ih h.2]

/-- R142: the image of a copy reads as the source below the progress, and as the old destination from there on. -/
theorem Bank.read_splice (src dst : Bank) (n a : Nat) :
    (src.splice dst n).read a = if a < n then src.read a else dst.read a := by
  have hx : ∀ cs : List (Nat × Word), readCells (cs.filter fun c => decide (c.1 < n)) a =
      if a < n then readCells cs a else 0 := by
    intro cs
    have := readCells_filter (q := fun k => decide (k < n)) cs a
    simpa using this
  have hy : ∀ cs : List (Nat × Word), readCells (cs.filter fun c => decide (n ≤ c.1)) a =
      if n ≤ a then readCells cs a else 0 := by
    intro cs
    have := readCells_filter (q := fun k => decide (n ≤ k)) cs a
    simpa using this
  show readCells (src.cells.filter (fun c => c.1 < n) ++ dst.cells.filter (fun c => n ≤ c.1)) a =
    if a < n then readCells src.cells a else readCells dst.cells a
  rw [readCells_append]
  by_cases ha : a < n
  · have hna : ¬ n ≤ a := by omega
    split
    · rw [hx, if_pos ha]
    · next hm =>
      have h0 := readCells_not_mem hm
      rw [hx, if_pos ha] at h0
      rw [hy, if_neg hna, h0]
  · have hna : n ≤ a := by omega
    split
    · next hm =>
      exfalso
      obtain ⟨c, hc, rfl⟩ := List.mem_map.1 hm
      have := (List.mem_filter.1 hc).2
      simp at this
      omega
    · rw [hy, if_pos hna]

/-! ### The two banks -/

@[simp] theorem Tables.bank_setBank_self (t : Tables) (i : BankId) (b : Bank) : (t.setBank i b).bank i = b := by
  cases i <;> rfl

theorem Tables.bank_setBank_other (t : Tables) {i j : BankId} (b : Bank) (h : j ≠ i) :
    (t.setBank i b).bank j = t.bank j := by
  cases i <;> cases j <;> first | rfl | exact absurd rfl h

@[simp] theorem Tables.bank_setMark (t : Tables) (i j : BankId) (m : Bool) : (t.setMark i m).bank j = t.bank j := by
  cases i <;> cases j <;> rfl

@[simp] theorem Tables.mark_setBank (t : Tables) (i j : BankId) (b : Bank) : (t.setBank i b).mark j = t.mark j := by
  cases i <;> cases j <;> rfl

@[simp] theorem Tables.mark_setMark_self (t : Tables) (i : BankId) (m : Bool) : (t.setMark i m).mark i = m := by
  cases i <;> rfl

theorem Tables.mark_setMark_other (t : Tables) {i j : BankId} (m : Bool) (h : j ≠ i) :
    (t.setMark i m).mark j = t.mark j := by
  cases i <;> cases j <;> first | rfl | exact absurd rfl h

@[simp] theorem Tables.setBank_frame (t : Tables) (i : BankId) (b : Bank) :
    (t.setBank i b).active = t.active ∧ (t.setBank i b).pending = t.pending ∧ (t.setBank i b).launch = t.launch ∧
      (t.setBank i b).copy = t.copy := by
  cases i <;> exact ⟨rfl, rfl, rfl, rfl⟩

@[simp] theorem Tables.setMark_frame (t : Tables) (i : BankId) (m : Bool) :
    (t.setMark i m).active = t.active ∧ (t.setMark i m).pending = t.pending ∧ (t.setMark i m).launch = t.launch ∧
      (t.setMark i m).copy = t.copy := by
  cases i <;> exact ⟨rfl, rfl, rfl, rfl⟩

theorem BankId.other_ne (i : BankId) : i.other ≠ i := by cases i <;> decide

@[simp] theorem BankId.other_other (i : BankId) : i.other.other = i := by cases i <;> rfl

end Sys2Proof.Machine
end

