-- ==== Sys2Proof/Laws/Orders.lean ====
section
/-! SUPPORT. Frames of the orders and of the commands: what each leaves unchanged, field by field. -/

namespace Sys2Proof.Machine

/-! ### Orders -/

@[simp] theorem supersedeList_frame (es : List Entry) (s : State) :
    (es.foldl State.freeEntry s).pins = s.pins ∧ (es.foldl State.freeEntry s).link = s.link ∧
    (es.foldl State.freeEntry s).timer = s.timer ∧ (es.foldl State.freeEntry s).boost = s.boost ∧
    (es.foldl State.freeEntry s).heat = s.heat ∧ (es.foldl State.freeEntry s).sense = s.sense ∧
    (es.foldl State.freeEntry s).control = s.control ∧ (es.foldl State.freeEntry s).path = s.path ∧
    (es.foldl State.freeEntry s).tables = s.tables ∧ (es.foldl State.freeEntry s).engine = s.engine ∧
    (es.foldl State.freeEntry s).events = s.events ∧ (es.foldl State.freeEntry s).pending = s.pending := by
  induction es generalizing s with
  | nil => simp
  | cons e es ih => simp [ih]

@[simp] theorem supersede_frame (s : State) (o : Order) :
    (s.supersede o).pins = s.pins ∧ (s.supersede o).link = s.link ∧ (s.supersede o).timer = s.timer ∧
    (s.supersede o).boost = s.boost ∧ (s.supersede o).heat = s.heat ∧ (s.supersede o).sense = s.sense ∧
    (s.supersede o).control = s.control ∧ (s.supersede o).path = s.path ∧ (s.supersede o).tables = s.tables ∧
    (s.supersede o).engine = s.engine ∧ (s.supersede o).events = s.events ∧
    (s.supersede o).pending = s.pending := by
  unfold State.supersede; simp

@[simp] theorem refuseBurst_frame (s : State) (p : Packet) (f : Flag) :
    (s.refuseBurst p f).1.pins = s.pins ∧ (s.refuseBurst p f).1.link = s.link ∧
    (s.refuseBurst p f).1.timer = s.timer ∧ (s.refuseBurst p f).1.sched = s.sched ∧
    (s.refuseBurst p f).1.supply = s.supply ∧ (s.refuseBurst p f).1.boost = s.boost ∧
    (s.refuseBurst p f).1.sense = s.sense ∧ (s.refuseBurst p f).1.control = s.control ∧
    (s.refuseBurst p f).1.path = s.path ∧ (s.refuseBurst p f).1.tables = s.tables ∧
    (s.refuseBurst p f).1.engine = s.engine ∧ (s.refuseBurst p f).1.pending = s.pending := by
  unfold State.refuseBurst; simp

@[simp] theorem bookBurst_frame (s : State) (p : Packet) (o : Order) :
    (s.bookBurst p o).1.pins = s.pins ∧ (s.bookBurst p o).1.timer = s.timer ∧
    (s.bookBurst p o).1.sense = s.sense ∧ (s.bookBurst p o).1.control = s.control ∧
    (s.bookBurst p o).1.path = s.path ∧ (s.bookBurst p o).1.tables = s.tables ∧
    (s.bookBurst p o).1.engine = s.engine ∧ (s.bookBurst p o).1.pending = s.pending := by
  unfold State.bookBurst; simp only []; (repeat' split) <;> simp

@[simp] theorem takeBurst_frame (s : State) (p : Packet) (straps : BitVec 2) :
    (s.takeBurst p straps).1.pins = s.pins ∧ (s.takeBurst p straps).1.timer = s.timer ∧
    (s.takeBurst p straps).1.sense = s.sense ∧ (s.takeBurst p straps).1.control = s.control ∧
    (s.takeBurst p straps).1.path = s.path ∧ (s.takeBurst p straps).1.tables = s.tables ∧
    (s.takeBurst p straps).1.engine = s.engine ∧ (s.takeBurst p straps).1.pending = s.pending := by
  unfold State.takeBurst; simp only []; (repeat' split) <;> simp

@[simp] theorem lowerCommitted_frame (s : State) (e : Entry) (request : Int) :
    (s.lowerCommitted e request).1.pins = s.pins ∧ (s.lowerCommitted e request).1.link = s.link ∧
    (s.lowerCommitted e request).1.timer = s.timer ∧ (s.lowerCommitted e request).1.boost = s.boost ∧
    (s.lowerCommitted e request).1.heat = s.heat ∧ (s.lowerCommitted e request).1.sense = s.sense ∧
    (s.lowerCommitted e request).1.control = s.control ∧ (s.lowerCommitted e request).1.path = s.path ∧
    (s.lowerCommitted e request).1.tables = s.tables ∧ (s.lowerCommitted e request).1.engine = s.engine ∧
    (s.lowerCommitted e request).1.events = s.events ∧ (s.lowerCommitted e request).1.pending = s.pending := by
  unfold State.lowerCommitted; split <;> simp

@[simp] theorem takeRevise_frame (s : State) (p : Packet) (straps : BitVec 2) :
    (s.takeRevise p straps).1.pins = s.pins ∧ (s.takeRevise p straps).1.timer = s.timer ∧
    (s.takeRevise p straps).1.heat = s.heat ∧ (s.takeRevise p straps).1.sense = s.sense ∧
    (s.takeRevise p straps).1.control = s.control ∧ (s.takeRevise p straps).1.path = s.path ∧
    (s.takeRevise p straps).1.tables = s.tables ∧ (s.takeRevise p straps).1.engine = s.engine ∧
    (s.takeRevise p straps).1.pending = s.pending := by
  unfold State.takeRevise; simp only []; (repeat' split) <;> simp

@[simp] theorem takeWithdraw_frame (s : State) (p : Packet) :
    (s.takeWithdraw p).pins = s.pins ∧ (s.takeWithdraw p).link = s.link ∧ (s.takeWithdraw p).timer = s.timer ∧
    (s.takeWithdraw p).boost = s.boost ∧ (s.takeWithdraw p).heat = s.heat ∧ (s.takeWithdraw p).sense = s.sense ∧
    (s.takeWithdraw p).control = s.control ∧ (s.takeWithdraw p).path = s.path ∧
    (s.takeWithdraw p).tables = s.tables ∧ (s.takeWithdraw p).engine = s.engine ∧
    (s.takeWithdraw p).events = s.events ∧ (s.takeWithdraw p).pending = s.pending := by
  unfold State.takeWithdraw; (repeat' split) <;> simp

/-- What taking an order leaves, when its rule `take` leaves it. -/
theorem takeOrder_frame {α : Type} (g : State → α) (kind : Nat) (straps : BitVec 2)
    (take : State → Packet → BitVec 2 → State × Int)
    (hp : ∀ s : State, g { s with pins := { s.pins with straps := straps } } = g s)
    (hw : ∀ (s : State) (c : Int), g (s.writePower c) = g s)
    (ht : ∀ (s : State) (p : Packet), g (take s p straps).1 = g s) (s : State) :
    g (s.takeOrder kind straps take) = g s := by
  unfold State.takeOrder; (repeat' split) <;> simp [hp, hw, ht]

@[simp] theorem withdrawNext_frame (s : State) :
    (s.withdrawNext).pins = s.pins ∧ (s.withdrawNext).timer = s.timer ∧ (s.withdrawNext).boost = s.boost ∧
    (s.withdrawNext).heat = s.heat ∧ (s.withdrawNext).sense = s.sense ∧ (s.withdrawNext).control = s.control ∧
    (s.withdrawNext).path = s.path ∧ (s.withdrawNext).tables = s.tables ∧ (s.withdrawNext).engine = s.engine ∧
    (s.withdrawNext).events = s.events ∧ (s.withdrawNext).pending = s.pending := by
  unfold State.withdrawNext; (repeat' split) <;> simp

/-! ### Execution of commands -/

/-- A command of the row's code with a place for its reply is executed: RANGE where its length is wrong, else its effect. -/
theorem execute_of {s : State} {p : Packet} {code : Nat} (hc : s.engine.current = some p) (hk : p.commandCode = code)
    (hr : s.engine.replies.length < 8) (hw : s.tables.copyWaiting = false) (effect : State → Packet → State) :
    s.execute code effect = if commandLengthOk p then effect s p else s.refuse p Status.range := by
  have : s.executing code = some p := by simp [State.executing, hc, hk, State.replyRoom, engineCapacity, hr, hw]
  simp [State.execute, this]

/-- A command of a right length has its effect. -/
theorem execute_ok {s : State} {p : Packet} {code lo hi : Nat} (hc : s.engine.current = some p) (hk : p.commandCode = code)
    (hr : s.engine.replies.length < 8) (hw : s.tables.copyWaiting = false) (hl : commandLengths code = some (lo, hi))
    (h1 : lo ≤ p.payload.length) (h2 : p.payload.length ≤ hi) (effect : State → Packet → State) :
    s.execute code effect = effect s p := by
  rw [execute_of hc hk hr hw]
  exact if_pos (by simp [commandLengthOk, hk, hl, h1, h2])

/-- A number of a path or zone, and one above 3. -/
theorem index4_of {n : Nat} {i : Fin 4} (h : n = i.val) : index4 n = some i := by subst h; simp [index4]

theorem index4_none {n : Nat} (h : 4 ≤ n) : index4 n = none := by simp [index4, not_lt.2 h]

/-- While the Reply Queue is full, or a completing copy waits for its place, a command waits with none of its effect made. -/
theorem execute_waits {s : State} {code : Nat} (h : s.replyRoom = false) (effect : State → Packet → State) :
    s.execute code effect = s := by
  have : s.executing code = none := by unfold State.executing; split <;> simp [h]
  simp [State.execute, this]

/-- Whatever stands in the engine, executing answers the state, a refusal or the effect. -/
theorem execute_cases (s : State) (code : Nat) (effect : State → Packet → State) :
    s.execute code effect = s ∨ ∃ p, s.engine.current = some p ∧ p.commandCode = code ∧ s.replyRoom = true ∧
      (s.execute code effect = s.refuse p Status.range ∨ s.execute code effect = effect s p) := by
  unfold State.execute
  split
  · rename_i p he
    right
    unfold State.executing at he
    split at he
    · rename_i q hq
      split at he
      · rename_i hc
        cases he
        exact ⟨_, hq, hc.1, hc.2, by split <;> simp⟩
      · cases he
    · cases he
  · exact Or.inl rfl

/-- What every effect and a refusal leave, execution leaves. -/
theorem execute_frame {α : Type} (g : State → α) (s : State) (code : Nat) (effect : State → Packet → State)
    (hr : ∀ p, g (s.refuse p Status.range) = g s) (he : ∀ p, g (effect s p) = g s) :
    g (s.execute code effect) = g s := by
  rcases execute_cases s code effect with h | ⟨p, _, _, _, h | h⟩ <;> simp [h, hr, he]

@[simp] theorem refuse_frame (s : State) (p : Packet) (n : Nat) :
    (s.refuse p n).pins = s.pins ∧ (s.refuse p n).link = s.link ∧ (s.refuse p n).timer = s.timer ∧
    (s.refuse p n).sched = s.sched ∧ (s.refuse p n).supply = s.supply ∧ (s.refuse p n).boost = s.boost ∧
    (s.refuse p n).heat = s.heat ∧ (s.refuse p n).sense = s.sense ∧ (s.refuse p n).control = s.control ∧
    (s.refuse p n).path = s.path ∧ (s.refuse p n).tables = s.tables ∧ (s.refuse p n).events = s.events ∧
    (s.refuse p n).pending = s.pending := by
  unfold State.refuse; simp

@[simp] theorem answerStatus_frame (s : State) (p : Packet) (n : Nat) :
    (s.answerStatus p n).pins = s.pins ∧ (s.answerStatus p n).link = s.link ∧
    (s.answerStatus p n).timer = s.timer ∧ (s.answerStatus p n).sched = s.sched ∧
    (s.answerStatus p n).supply = s.supply ∧ (s.answerStatus p n).boost = s.boost ∧
    (s.answerStatus p n).heat = s.heat ∧ (s.answerStatus p n).sense = s.sense ∧
    (s.answerStatus p n).control = s.control ∧ (s.answerStatus p n).path = s.path ∧
    (s.answerStatus p n).tables = s.tables ∧ (s.answerStatus p n).events = s.events ∧
    (s.answerStatus p n).pending = s.pending := by
  unfold State.answerStatus; simp

@[simp] theorem readZone_frame (s : State) (p : Packet) :
    (s.readZone p).pins = s.pins ∧ (s.readZone p).link = s.link ∧ (s.readZone p).timer = s.timer ∧
    (s.readZone p).sched = s.sched ∧ (s.readZone p).supply = s.supply ∧ (s.readZone p).boost = s.boost ∧
    (s.readZone p).heat = s.heat ∧ (s.readZone p).sense = s.sense ∧ (s.readZone p).control = s.control ∧
    (s.readZone p).path = s.path ∧ (s.readZone p).tables = s.tables ∧ (s.readZone p).events = s.events ∧
    (s.readZone p).pending = s.pending := by
  unfold State.readZone; (repeat' split) <;> simp

@[simp] theorem readPath_frame (s : State) (p : Packet) :
    (s.readPath p).pins = s.pins ∧ (s.readPath p).link = s.link ∧ (s.readPath p).timer = s.timer ∧
    (s.readPath p).sched = s.sched ∧ (s.readPath p).supply = s.supply ∧ (s.readPath p).boost = s.boost ∧
    (s.readPath p).heat = s.heat ∧ (s.readPath p).sense = s.sense ∧ (s.readPath p).control = s.control ∧
    (s.readPath p).path = s.path ∧ (s.readPath p).tables = s.tables ∧ (s.readPath p).events = s.events ∧
    (s.readPath p).pending = s.pending := by
  unfold State.readPath; (repeat' split) <;> simp

@[simp] theorem readSchedule_frame (s : State) (p : Packet) :
    (s.readSchedule p).pins = s.pins ∧ (s.readSchedule p).link = s.link ∧ (s.readSchedule p).timer = s.timer ∧
    (s.readSchedule p).sched = s.sched ∧ (s.readSchedule p).supply = s.supply ∧
    (s.readSchedule p).boost = s.boost ∧ (s.readSchedule p).heat = s.heat ∧
    (s.readSchedule p).sense = s.sense ∧ (s.readSchedule p).control = s.control ∧
    (s.readSchedule p).path = s.path ∧ (s.readSchedule p).tables = s.tables ∧
    (s.readSchedule p).events = s.events ∧ (s.readSchedule p).pending = s.pending := by
  unfold State.readSchedule; (repeat' split) <;> simp

@[simp] theorem readTable_frame (s : State) (p : Packet) :
    (s.readTable p).pins = s.pins ∧ (s.readTable p).link = s.link ∧ (s.readTable p).timer = s.timer ∧
    (s.readTable p).sched = s.sched ∧ (s.readTable p).supply = s.supply ∧ (s.readTable p).boost = s.boost ∧
    (s.readTable p).heat = s.heat ∧ (s.readTable p).sense = s.sense ∧ (s.readTable p).control = s.control ∧
    (s.readTable p).path = s.path ∧ (s.readTable p).tables = s.tables ∧ (s.readTable p).events = s.events ∧
    (s.readTable p).pending = s.pending := by
  unfold State.readTable; simp only []; (repeat' split) <;> simp

@[simp] theorem setCap_frame (s : State) (p : Packet) :
    (s.setCap p).pins = s.pins ∧ (s.setCap p).link = s.link ∧ (s.setCap p).timer = s.timer ∧
    (s.setCap p).sched = s.sched ∧ (s.setCap p).supply = s.supply ∧ (s.setCap p).boost = s.boost ∧
    (s.setCap p).heat = s.heat ∧ (s.setCap p).sense = s.sense ∧ (s.setCap p).control = s.control ∧
    (s.setCap p).tables = s.tables ∧ (s.setCap p).events = s.events ∧ (s.setCap p).pending = s.pending := by
  unfold State.setCap; simp only []; (repeat' split) <;> simp

@[simp] theorem clearBar_frame (s : State) (p : Packet) :
    (s.clearBar p).pins = s.pins ∧ (s.clearBar p).link = s.link ∧ (s.clearBar p).timer = s.timer ∧
    (s.clearBar p).sched = s.sched ∧ (s.clearBar p).supply = s.supply ∧ (s.clearBar p).boost = s.boost ∧
    (s.clearBar p).heat = s.heat ∧ (s.clearBar p).sense = s.sense ∧ (s.clearBar p).control = s.control ∧
    (s.clearBar p).tables = s.tables ∧ (s.clearBar p).events = s.events ∧
    (s.clearBar p).pending = s.pending := by
  unfold State.clearBar; simp only []; (repeat' split) <;> simp

@[simp] theorem writeTable_frame (s : State) (p : Packet) :
    (s.writeTable p).pins = s.pins ∧ (s.writeTable p).link = s.link ∧ (s.writeTable p).timer = s.timer ∧
    (s.writeTable p).sched = s.sched ∧ (s.writeTable p).supply = s.supply ∧ (s.writeTable p).boost = s.boost ∧
    (s.writeTable p).heat = s.heat ∧ (s.writeTable p).sense = s.sense ∧ (s.writeTable p).control = s.control ∧
    (s.writeTable p).path = s.path ∧ (s.writeTable p).pending = s.pending := by
  unfold State.writeTable; simp only []; (repeat' split) <;> simp

@[simp] theorem launch_frame (s : State) (p : Packet) :
    (s.launch p).pins = s.pins ∧ (s.launch p).link = s.link ∧ (s.launch p).timer = s.timer ∧
    (s.launch p).sched = s.sched ∧ (s.launch p).supply = s.supply ∧ (s.launch p).boost = s.boost ∧
    (s.launch p).heat = s.heat ∧ (s.launch p).sense = s.sense ∧ (s.launch p).control = s.control ∧
    (s.launch p).path = s.path ∧ (s.launch p).events = s.events ∧ (s.launch p).pending = s.pending := by
  unfold State.launch; (repeat' split) <;> simp

@[simp] theorem recall_frame (s : State) (p : Packet) :
    (s.recall p).pins = s.pins ∧ (s.recall p).link = s.link ∧ (s.recall p).timer = s.timer ∧
    (s.recall p).sched = s.sched ∧ (s.recall p).supply = s.supply ∧ (s.recall p).boost = s.boost ∧
    (s.recall p).heat = s.heat ∧ (s.recall p).sense = s.sense ∧ (s.recall p).control = s.control ∧
    (s.recall p).path = s.path ∧ (s.recall p).events = s.events ∧ (s.recall p).pending = s.pending := by
  unfold State.recall; (repeat' split) <;> simp

@[simp] theorem startCopy_frame (s : State) (p : Packet) :
    (s.startCopy p).pins = s.pins ∧ (s.startCopy p).link = s.link ∧ (s.startCopy p).timer = s.timer ∧
    (s.startCopy p).sched = s.sched ∧ (s.startCopy p).supply = s.supply ∧ (s.startCopy p).boost = s.boost ∧
    (s.startCopy p).heat = s.heat ∧ (s.startCopy p).sense = s.sense ∧ (s.startCopy p).control = s.control ∧
    (s.startCopy p).path = s.path ∧ (s.startCopy p).events = s.events ∧
    (s.startCopy p).pending = s.pending := by
  unfold State.startCopy; (repeat' split) <;> simp

@[simp] theorem finishCopy_frame (s : State) :
    (s.finishCopy).pins = s.pins ∧ (s.finishCopy).link = s.link ∧ (s.finishCopy).timer = s.timer ∧
    (s.finishCopy).sched = s.sched ∧ (s.finishCopy).supply = s.supply ∧ (s.finishCopy).boost = s.boost ∧
    (s.finishCopy).heat = s.heat ∧ (s.finishCopy).sense = s.sense ∧ (s.finishCopy).control = s.control ∧
    (s.finishCopy).path = s.path ∧ (s.finishCopy).events = s.events ∧ (s.finishCopy).pending = s.pending := by
  unfold State.finishCopy; (repeat' split) <;> simp

@[simp] theorem takeCommand_frame (s : State) :
    (s.takeCommand).pins = s.pins ∧ (s.takeCommand).link = s.link ∧ (s.takeCommand).timer = s.timer ∧
    (s.takeCommand).sched = s.sched ∧ (s.takeCommand).supply = s.supply ∧ (s.takeCommand).boost = s.boost ∧
    (s.takeCommand).heat = s.heat ∧ (s.takeCommand).sense = s.sense ∧ (s.takeCommand).control = s.control ∧
    (s.takeCommand).path = s.path ∧ (s.takeCommand).tables = s.tables ∧ (s.takeCommand).events = s.events ∧
    (s.takeCommand).pending = s.pending := by
  unfold State.takeCommand; (repeat' split) <;> simp

@[simp] theorem answerUnknown_frame (s : State) :
    (s.answerUnknown).pins = s.pins ∧ (s.answerUnknown).link = s.link ∧ (s.answerUnknown).timer = s.timer ∧
    (s.answerUnknown).sched = s.sched ∧ (s.answerUnknown).supply = s.supply ∧
    (s.answerUnknown).boost = s.boost ∧ (s.answerUnknown).heat = s.heat ∧ (s.answerUnknown).sense = s.sense ∧
    (s.answerUnknown).control = s.control ∧ (s.answerUnknown).path = s.path ∧
    (s.answerUnknown).tables = s.tables ∧ (s.answerUnknown).events = s.events ∧
    (s.answerUnknown).pending = s.pending := by
  unfold State.answerUnknown; (repeat' split) <;> simp

@[simp] theorem softReset_frame (s : State) (copied : Nat) (p : Packet) :
    (s.softReset copied p).pins = s.pins ∧ (s.softReset copied p).timer = s.timer ∧
    (s.softReset copied p).sched = s.sched ∧ (s.softReset copied p).supply = s.supply ∧
    (s.softReset copied p).heat = s.heat ∧ (s.softReset copied p).control = s.control ∧
    (s.softReset copied p).pending = s.pending := by
  unfold State.softReset; simp

@[simp] theorem runSoftReset_frame (s : State) (copied : Nat) :
    (s.runSoftReset copied).pins = s.pins ∧ (s.runSoftReset copied).timer = s.timer ∧
    (s.runSoftReset copied).sched = s.sched ∧ (s.runSoftReset copied).supply = s.supply ∧
    (s.runSoftReset copied).heat = s.heat ∧ (s.runSoftReset copied).control = s.control ∧
    (s.runSoftReset copied).pending = s.pending := by
  unfold State.runSoftReset; (repeat' split) <;> simp

/-! ### Arbiters -/

@[simp] theorem grantUp_frame (s : State) (c : UpSource) :
    (s.grantUp c).pins = s.pins ∧ (s.grantUp c).timer = s.timer ∧ (s.grantUp c).sched = s.sched ∧
    (s.grantUp c).supply = s.supply ∧ (s.grantUp c).boost = s.boost ∧ (s.grantUp c).heat = s.heat ∧
    (s.grantUp c).sense = s.sense ∧ (s.grantUp c).control = s.control ∧ (s.grantUp c).path = s.path ∧
    (s.grantUp c).tables = s.tables ∧ (s.grantUp c).pending = s.pending := by
  unfold State.grantUp; (repeat' split) <;> simp

@[simp] theorem grantNextUp_frame (s : State) :
    (s.grantNextUp).pins = s.pins ∧ (s.grantNextUp).timer = s.timer ∧ (s.grantNextUp).sched = s.sched ∧
    (s.grantNextUp).supply = s.supply ∧ (s.grantNextUp).boost = s.boost ∧ (s.grantNextUp).heat = s.heat ∧
    (s.grantNextUp).sense = s.sense ∧ (s.grantNextUp).control = s.control ∧ (s.grantNextUp).path = s.path ∧
    (s.grantNextUp).tables = s.tables ∧ (s.grantNextUp).pending = s.pending := by
  unfold State.grantNextUp; (repeat' split) <;> simp

end Sys2Proof.Machine
end

