-- ==== Sys2Proof/Laws/Dispatch.lean ====
section
/-! SUPPORT. Every command as the effect it has on a part whose RESET_N is high, and what follows for all of them at once. -/

namespace Sys2Proof.Machine

/-- The effect of a command on a part whose RESET_N is high; the two reset rows apart, which are stated on their own. -/
def effect (c : Instr) (s : State) : State :=
  match c with
  | .resetNAssert => s
  | .resetNRelease => s
  | .grainEvent => s.grainStep
  | .awaitingWindowEnd => if s.windowDue then s.grainStep else s
  | .timerFrameTurn o => s.timerStep o
  | .bankSwitch k => s.tickWhen k switched
  | .supplyStale k => s.tickWhen k staled
  | .tripClear path k => s.tickWhen k (protectionMoved path .tripped .clear)
  | .barExpiry path k => s.tickWhen k (protectionMoved path .barred .tripped)
  | .zoneStale zone k => s.tickWhen k (zoneStaled zone)
  | .pollExpiry zone k => s.tickWhen k (pollExpired zone)
  | .boostQuietRelease k => s.tickWhen k quietReleased
  | .boostCooldownEnd k => s.tickWhen k cooled
  | .boostWaitExpiry k => s.tickWhen k waitExpired
  | .frameMark p o => s.arrive .modem p o
  | .burst straps => s.takeOrder Kind.burst straps State.takeBurst
  | .revise straps => s.takeOrder Kind.revise straps State.takeRevise
  | .amendReceived straps => s.takeOrder Kind.amend straps State.takeRevise
  | .withdraw => s.withdrawNext
  | .tempReport p => s.arrive .frontEnd p .plain
  | .supplyReport p => s.arrive .frontEnd p .plain
  | .tripReport p => s.arrive .frontEnd p .plain
  | .requestedAmendment k => s.makeRequested k
  | .boostReady p => s.arrive .frontEnd p .plain
  | .passPacketArrival port p => s.arrive port p .plain
  | .malformedPacket port p => s.arrive port p .plain
  | .misdirectedPacket port p => s.arrive port p .plain
  | .govCommandArrival p => s.arrive .modem p .plain
  | .commandTake => s.takeCommand
  | .unknownCommand => s.answerUnknown
  | .readStatus =>
    s.execute Code.readStatus fun s p => s.answer p (statusWord Code.readStatus Status.done :: s.statusItems)
  | .readEvents =>
    s.execute Code.readEvents fun s p =>
      { s.answer p [statusWord Code.readEvents Status.done, s.events.flags, s.events.mask] with events := s.events.cleared }
  | .setMask =>
    s.execute Code.setMask fun s p =>
      { s.answerStatus p Status.done with events := { s.events with mask := p.word 1 } }
  | .readZone => s.execute Code.readZone State.readZone
  | .readPath => s.execute Code.readPath State.readPath
  | .readSchedule => s.execute Code.readSchedule State.readSchedule
  | .setCap => s.execute Code.setCap State.setCap
  | .clearBar => s.execute Code.clearBar State.clearBar
  | .readTable copied =>
    s.execute Code.readTable fun s p => State.readTable { s with tables := s.tables.advance copied } p
  | .writeTable => s.execute Code.writeTable State.writeTable
  | .launch => s.execute Code.launch State.launch
  | .recallLaunch => s.execute Code.recallLaunch State.recall
  | .copy => s.execute Code.copy State.startCopy
  | .copyComplete => s.finishCopy
  | .softReset copied => s.runSoftReset copied
  | .downstreamGrant hold =>
    { s with pins := { s.pins with feHoldIn := hold }, link := if hold then s.link else s.link.grantDown }
  | .upstreamGrant hold =>
    if hold then { s with pins := { s.pins with mdHoldIn := hold } }
    else { s with pins := { s.pins with mdHoldIn := hold } }.grantNextUp

/-- Every command but the two reset rows has its effect while RESET_N is high and none while it is low. -/
theorem exec_eq_effect {c : Instr} (ha : c ≠ .resetNAssert) (hr : c ≠ .resetNRelease) (s : State) :
    exec c s = s.live (effect c) := by
  cases c <;> first | rfl | exact absurd rfl ha | exact absurd rfl hr

/-- While RESET_N is high. -/
theorem exec_effect {c : Instr} (ha : c ≠ .resetNAssert) (hr : c ≠ .resetNRelease) {s : State} (h : s.pins.resetN = true) :
    exec c s = .next (effect c s) := by
  rw [exec_eq_effect ha hr, live_high h]

/-- A management command of a right length, in execution with a place for its reply, has its effect. -/
theorem exec_command {c : Instr} {s : State} {p : Packet} {code lo hi : Nat} {eff : State → Packet → State}
    (hr : s.pins.resetN = true) (hc : s.engine.current = some p) (hl : s.engine.replies.length < 8)
    (hw : s.tables.copyWaiting = false) (he : exec c s = s.live fun s => s.execute code eff) (hk : p.commandCode = code)
    (hn : commandLengths code = some (lo, hi)) (h1 : lo ≤ p.payload.length) (h2 : p.payload.length ≤ hi) :
    exec c s = .next (eff s p) := by
  rw [he, live_high hr, execute_ok hc hk hl hw hn h1 h2]

/-- What a command can answer. -/
theorem exec_cases {c : Instr} {s t : State} (h : exec c s = .next t) :
    t = s ∨ ((c = .resetNAssert ∨ c = .resetNRelease) ∧ ∃ level, t = s.atReset level) ∨
      (c ≠ .resetNAssert ∧ c ≠ .resetNRelease ∧ s.pins.resetN = true ∧ t = effect c s) := by
  by_cases ha : c = .resetNAssert
  · subst ha
    simp only [exec, execResetNAssert, Host.Outcome.next.injEq] at h
    split at h
    · exact Or.inr (Or.inl ⟨Or.inl rfl, _, h.symm⟩)
    · exact Or.inl h.symm
  · by_cases hr : c = .resetNRelease
    · subst hr
      simp only [exec, execResetNRelease, Host.Outcome.next.injEq] at h
      split at h
      · exact Or.inl h.symm
      · exact Or.inr (Or.inl ⟨Or.inr rfl, _, h.symm⟩)
    · rw [exec_eq_effect ha hr] at h
      rcases live_next h with ⟨hp, ht⟩ | ⟨_, ht⟩
      · exact Or.inr (Or.inr ⟨ha, hr, hp, ht⟩)
      · exact Or.inl ht

/-- What holds of reset, does not speak of the queue of waiting commands and is kept by every effect and by a held update
taken by itself is kept by every step. -/
theorem step_keeps {P : State → Prop} (hreset : ∀ (s : State) level, P (s.atReset level))
    (hqueue : ∀ (s : State) q, P s → P { s with pending := q }) (heffect : ∀ c s, P s → P (effect c s))
    (hupdate : ∀ s z, (s.control.get z).presented = true → P s → P (s.runController z)) {s t : State}
    (hs : P s) (h : step s = .next t) : P t := by
  unfold step at h
  split at h
  · injection h with h
    rcases idle_cases s with e | ⟨z, hz, _, e⟩
    · rw [← h, e]; exact hs
    · rw [← h, e]; exact hupdate s z hz hs
  · have hq := hqueue s (by assumption) hs
    rcases exec_cases h with rfl | ⟨_, level, rfl⟩ | ⟨_, _, _, rfl⟩
    · exact hq
    · exact hreset _ _
    · exact heffect _ _ hq

end Sys2Proof.Machine
end

