-- ==== Sys2Proof/Laws/Requests.lean ====
section
/-! SUPPORT. The amendment requests: the list a request takes, the slots it claims, the item an amendment uses up. -/

namespace Sys2Proof.Machine

/-! ### Ranking by absolute start -/

theorem insertByRow_perm (e : Entry) (es : List Entry) : (insertByRow e es).Perm (e :: es) := by
  induction es with
  | nil => exact List.Perm.refl _
  | cons x rest ih =>
    unfold insertByRow
    split
    · exact List.Perm.refl _
    · exact (ih.cons x).trans (List.Perm.swap e x rest)

theorem rankByRow_perm (es : List Entry) : (rankByRow es).Perm es := by
  induction es with
  | nil => exact List.Perm.refl _
  | cons e rest ih => exact (insertByRow_perm e _).trans (ih.cons e)

theorem mem_rankByRow {es : List Entry} {e : Entry} : e ∈ rankByRow es ↔ e ∈ es := (rankByRow_perm es).mem_iff

theorem insertByRow_sorted (e : Entry) (es : List Entry) (h : es.Pairwise (fun a b => a.row ≤ b.row)) :
    (insertByRow e es).Pairwise (fun a b => a.row ≤ b.row) := by
  induction es with
  | nil => simp [insertByRow]
  | cons x rest ih =>
    rw [List.pairwise_cons] at h
    unfold insertByRow
    split
    · rename_i hle
      refine List.pairwise_cons.2 ⟨fun y hy => ?_, List.pairwise_cons.2 h⟩
      rcases List.mem_cons.1 hy with rfl | hy
      · exact hle
      · exact le_trans hle (h.1 y hy)
    · rename_i hlt
      refine List.pairwise_cons.2 ⟨fun y hy => ?_, ih h.2⟩
      rcases List.mem_cons.1 ((insertByRow_perm e rest).mem_iff.1 hy) with rfl | hy
      · exact le_of_lt (not_le.1 hlt)
      · exact h.1 y hy

theorem rankByRow_sorted (es : List Entry) : (rankByRow es).Pairwise (fun a b => a.row ≤ b.row) := by
  induction es with
  | nil => simp [rankByRow]
  | cons e rest ih => exact insertByRow_sorted e _ ih

/-- Ranking keeps the order of the entries that start at one row: it is stable. -/
theorem insertByRow_filter (e : Entry) (es : List Entry) (r : Nat) (h : es.Pairwise (fun a b => a.row ≤ b.row)) :
    (insertByRow e es).filter (fun x => x.row == r) = (e :: es).filter (fun x => x.row == r) := by
  induction es with
  | nil => rfl
  | cons x rest ih =>
    rw [List.pairwise_cons] at h
    unfold insertByRow
    split
    · rfl
    · rename_i hlt
      have hne : x.row ≠ e.row := by omega
      simp only [List.filter_cons, ih h.2]
      by_cases hx : x.row = r
      · have he : ¬ e.row = r := by omega
        simp [hx, he]
      · simp [hx]

theorem rankByRow_filter (es : List Entry) (r : Nat) :
    (rankByRow es).filter (fun x => x.row == r) = es.filter (fun x => x.row == r) := by
  induction es with
  | nil => rfl
  | cons e rest ih =>
    have := insertByRow_filter e (rankByRow rest) r (rankByRow_sorted rest)
    rw [show rankByRow (e :: rest) = insertByRow e (rankByRow rest) from rfl, this]
    simp only [List.filter_cons, ih]

/-! ### Claimed slots -/

@[simp] theorem claimed_nil (h : Headroom) (e : h.requests = []) : h.claimed = 0 := by simp [Headroom.claimed, e]

/-- A request appended claims as many slots as it lists entries. -/
theorem claimed_append (h : Headroom) (r : Request) :
    ({ h with requests := h.requests ++ [r] } : Headroom).claimed = h.claimed + r.items.length := by
  simp [Headroom.claimed]

/-- The list a request takes: the ranked entries it covers, as many as there are free slots. -/
def State.listed (s : State) (kind : RequestKind) : List Entry :=
  (rankByRow (s.sched.entries.filter (s.isListed kind))).take s.freeSlots

/-- A request taken lists nothing and changes nothing, or joins the requests in progress with its list. -/
theorem takeRequest_cases (s : State) (kind : RequestKind) :
    (s.listed kind = [] ∧ s.takeRequest kind = s) ∨
      (s.listed kind ≠ [] ∧ s.takeRequest kind = { s with supply := { s.supply with
        requests := s.supply.requests ++ [⟨kind, (s.listed kind).map (·.serial)⟩] } }) := by
  have hu : s.takeRequest kind = match (s.listed kind).map (·.serial) with
      | [] => s
      | _ :: _ => { s with supply := { s.supply with
          requests := s.supply.requests ++ [⟨kind, (s.listed kind).map (·.serial)⟩] } } := rfl
  rw [hu]
  cases h : s.listed kind with
  | nil => left; exact ⟨rfl, rfl⟩
  | cons e es => right; exact ⟨List.cons_ne_nil e es, rfl⟩

/-- The supply state after a request taken, from the list it takes. -/
theorem takeRequest_supply_of_listed (s : State) (kind : RequestKind) :
    (s.takeRequest kind).supply =
      if s.listed kind = [] then s.supply
      else { s.supply with requests := s.supply.requests ++ [⟨kind, (s.listed kind).map (·.serial)⟩] } := by
  rcases takeRequest_cases s kind with ⟨h, e⟩ | ⟨h, e⟩ <;> rw [e]
  · rw [if_pos h]
  · rw [if_neg h]

/-- Every listed entry is BOOKED, covered, at or beyond its amend lead, and above its target. -/
theorem mem_listed {s : State} {kind : RequestKind} {e : Entry} (h : e ∈ s.listed kind) :
    e ∈ s.sched.entries ∧ e.state = .booked ∧ kind.covers e = true ∧
      s.timer.grain + s.amendLeadOf e ≤ e.row ∧ s.targetCode kind e < e.granted := by
  have h := List.mem_of_mem_take h
  rw [mem_rankByRow, List.mem_filter] at h
  simpa [State.isListed, and_assoc] using h

/-- What a request lists and what is placed and claimed already fit in the Originated Queue, when the latter do. -/
theorem listed_length (s : State) (kind : RequestKind) (h : s.link.orig.length + s.supply.claimed ≤ 12) :
    (s.listed kind).length + (s.link.orig.length + s.supply.claimed) ≤ 12 := by
  have : (s.listed kind).length ≤ s.freeSlots := by simp [State.listed]
  simp only [State.freeSlots, origCapacity] at this
  omega

/-- A request taken keeps the Supply Map and the supply state. -/
theorem takeRequest_supply (s : State) (kind : RequestKind) :
    (s.takeRequest kind).supply = { s.supply with requests := (s.takeRequest kind).supply.requests } := by
  rcases takeRequest_cases s kind with ⟨_, h⟩ | ⟨_, h⟩ <;> rw [h]

theorem takeRequest_eq (s : State) (kind : RequestKind) :
    s.takeRequest kind = { s with supply := { s.supply with requests := (s.takeRequest kind).supply.requests } } := by
  rcases takeRequest_cases s kind with ⟨_, h⟩ | ⟨_, h⟩ <;> rw [h]

/-- A request taken claims no more than the free slots. -/
theorem takeRequest_claimed (s : State) (kind : RequestKind) (h : s.link.orig.length + s.supply.claimed ≤ 12) :
    s.link.orig.length + (s.takeRequest kind).supply.claimed ≤ 12 := by
  rcases takeRequest_cases s kind with ⟨_, e⟩ | ⟨_, e⟩
  · rw [e]; exact h
  · rw [e]
    simp only [claimed_append, List.length_map]
    have := listed_length s kind h
    omega

/-! ### An item used up -/

theorem sum_dropFirstItem (rs : List Request) (k : Nat) (r : Request) (n : Nat) (rest : List Nat)
    (hk : rs[k]? = some r) (hr : r.items = n :: rest) :
    ((dropFirstItem rs k).map fun r => r.items.length).sum + 1 = (rs.map fun r => r.items.length).sum := by
  have keep : ∀ l : List Request,
      ((l.filter fun r => !r.items.isEmpty).map fun r => r.items.length).sum = (l.map fun r => r.items.length).sum := by
    intro l
    induction l with
    | nil => rfl
    | cons x xs ih =>
      cases hx : x.items with
      | nil => simp [hx, ih]
      | cons a as => simp [hx, ih]
  unfold dropFirstItem
  rw [keep]
  induction rs generalizing k with
  | nil => simp at hk
  | cons x xs ih =>
    cases k with
    | zero =>
      simp at hk
      subst hk
      simp [List.modify, hr]
      omega
    | succ k =>
      simp at hk
      have := ih k hk
      simp only [List.modify_succ_cons, List.map_cons, List.sum_cons] at this ⊢
      omega

/-- The amendment taken next from a request in progress releases or uses one claimed slot. -/
theorem claimed_dropFirstItem (h : Headroom) (k : Nat) (r : Request) (n : Nat) (rest : List Nat)
    (hk : h.requests[k]? = some r) (hr : r.items = n :: rest) :
    ({ h with requests := dropFirstItem h.requests k } : Headroom).claimed + 1 = h.claimed :=
  sum_dropFirstItem h.requests k r n rest hk hr

/-- Where every request in progress lists something, the item used up leaves the others as they stand. -/
theorem dropFirstItem_eq (rs : List Request) (k : Nat) (r : Request) (n : Nat) (rest : List Nat)
    (hne : ∀ q ∈ rs, q.items ≠ []) (hk : rs[k]? = some r) (hr : r.items = n :: rest) :
    dropFirstItem rs k = rs.take k ++ (if rest = [] then [] else [⟨r.kind, rest⟩]) ++ rs.drop (k + 1) := by
  have keep : ∀ l : List Request, (∀ q ∈ l, q.items ≠ []) → l.filter (fun r => !r.items.isEmpty) = l := by
    intro l hl
    rw [List.filter_eq_self]
    intro q hq
    simpa using hl q hq
  unfold dropFirstItem
  induction rs generalizing k with
  | nil => simp at hk
  | cons x xs ih =>
    have hx := hne x List.mem_cons_self
    have hxs : ∀ q ∈ xs, q.items ≠ [] := fun q hq => hne q (List.mem_cons_of_mem _ hq)
    cases k with
    | zero =>
      simp at hk
      subst hk
      cases rest with
      | nil => simp [List.modify, hr, keep xs hxs]
      | cons a as => simp [List.modify, hr, keep xs hxs]
    | succ k =>
      simp at hk
      have := ih k hxs hk
      simp only [List.modify_succ_cons, List.filter_cons, List.take_succ_cons, List.drop_succ_cons, List.cons_append] at this ⊢
      rw [this]
      simp [hx]

end Sys2Proof.Machine
end

