-- ==== Sys2Proof/Laws/Words.lean ====
section
/-! SUPPORT. The laws of the container for four paths or four zones. -/

namespace Sys2Proof

@[simp] theorem Four.get_fill {α : Type} (x : α) (i : Fin 4) : (Four.fill x).get i = x := by
  fin_cases i <;> rfl

@[simp] theorem Four.get_of {α : Type} (f : Fin 4 → α) (i : Fin 4) : (Four.of f).get i = f i := by
  fin_cases i <;> rfl

@[simp] theorem Four.get_mapIdx {α β : Type} (f : Fin 4 → α → β) (v : Four α) (i : Fin 4) :
    (v.mapIdx f).get i = f i (v.get i) := by
  fin_cases i <;> rfl

@[simp] theorem Four.get_set_self {α : Type} (v : Four α) (i : Fin 4) (x : α) : (v.set i x).get i = x := by
  fin_cases i <;> rfl

theorem Four.get_set_other {α : Type} (v : Four α) {i j : Fin 4} (x : α) (h : j ≠ i) : (v.set i x).get j = v.get j := by
  fin_cases i <;> fin_cases j <;> first | rfl | exact absurd rfl h

theorem Four.get_set {α : Type} (v : Four α) (i j : Fin 4) (x : α) :
    (v.set i x).get j = if j = i then x else v.get j := by
  by_cases h : j = i
  · subst h; simp
  · simp [h, Four.get_set_other v x h]

theorem Four.mem_indices (i : Fin 4) : i ∈ Four.indices := by
  fin_cases i <;> decide

theorem Four.ext_get {α : Type} {v w : Four α} (h : ∀ i, v.get i = w.get i) : v = w := by
  have h0 := h 0
  have h1 := h 1
  have h2 := h 2
  have h3 := h 3
  cases v; cases w
  simp only [Four.get] at h0 h1 h2 h3
  simp only [h0, h1, h2, h3]

end Sys2Proof
end

