-- ==== Sys2Proof/Laws/Turns.lean ====
section
/-! SUPPORT. The frame turn field by field: what a turn leaves in each block, whatever indication made it. -/

namespace Sys2Proof.Machine

/-! ### The Frame Timer's tests -/

theorem testExit_eq (t : FrameTimer) (exit : Nat) :
    t.testExit exit = { t with mode := if t.mode = .safe ∧ exit ≤ t.run then .governing else t.mode } := by
  unfold FrameTimer.testExit; split <;> rfl

/-! ### The grain event -/

theorem windowEnd_timer (s : State) :
    s.windowEnd.timer = if s.windowEntersSafe then s.timer.missing.enterSafe else s.timer.missing := by
  unfold State.windowEnd
  rw [(safeRequest_frame _ _).2.2.1]

theorem windowEnd_events (s : State) :
    s.windowEnd.events = (s.events.raise .frameLost).raiseIf s.windowEntersSafe .safe := by
  unfold State.windowEnd
  rw [(safeRequest_frame _ _).2.2.2.2.2.2.2.2.2.2.2.1]

theorem windowEnd_keeps {f : Flag} {s : State} (h : s.events.has f = true) : s.windowEnd.events.has f = true := by
  rw [windowEnd_events]
  exact Events.has_raiseIf (Events.has_raise h _) _ _

/-- A grain event is the grain's work, and then the end of the window where it ends it. -/
theorem grainStep_cases {s : State} (hg : s.timer.grain < 79) :
    s.grainStep = if (s.grainWork (s.timer.grain + 1)).endsWindow then (s.grainWork (s.timer.grain + 1)).windowEnd
      else s.grainWork (s.timer.grain + 1) := by
  unfold State.grainStep
  exact if_pos hg

theorem grainWork_timer (s : State) (g : Nat) : (s.grainWork g).timer = { s.timer with grain := g } := by
  unfold State.grainWork
  simp only [pollTick_frame, boostTick_frame, closeEntries_frame, runHeld_frame]

/-- The grain event ends the window exactly when it is due to. -/
theorem grainWork_endsWindow (s : State) : (s.grainWork (s.timer.grain + 1)).endsWindow = s.windowDue := by
  unfold State.endsWindow State.windowDue
  rw [grainWork_timer]
  have : (s.grainWork (s.timer.grain + 1)).tolerance = s.tolerance := by
    simp only [State.tolerance, grainWork_timer, State.limits, State.bankFor, grainWork_frame]
  rw [this]

theorem grainStep_sense {s : State} (hg : s.timer.grain < 79) (z : Fin 4) :
    s.grainStep.sense.get z = (s.sense.get z).tick := by
  have h : (s.grainWork (s.timer.grain + 1)).sense.get z = (s.sense.get z).tick := by
    unfold State.grainWork
    simp only [State.pollTick, Four.get_mapIdx, boostTick_frame, closeEntries_frame, runHeld_frame]
  rw [grainStep_cases hg]
  split
  · rw [(windowEnd_frame _).2.2.2.2.2.1, h]
  · exact h

theorem grainStep_boost {s : State} (hg : s.timer.grain < 79) :
    s.grainStep.boost = s.boost.tick s.limits.boostCooldown := by
  have h : (s.grainWork (s.timer.grain + 1)).boost = s.boost.tick s.limits.boostCooldown := by
    unfold State.grainWork
    simp only [pollTick_frame, State.boostTick, State.limits, State.bankFor, closeEntries_frame, runHeld_frame]
  rw [grainStep_cases hg]
  split
  · rw [(windowEnd_frame _).2.2.2.1, h]
  · exact h

theorem grainStep_grain {s : State} (hg : s.timer.grain < 79) : s.grainStep.timer.grain = s.timer.grain + 1 := by
  rw [grainStep_cases hg]
  split
  · rw [windowEnd_timer, grainWork_timer]
    split <;> rfl
  · rw [grainWork_timer]

/-- The flags that timers running out at a grain event set. -/
theorem grainStep_sets {s : State} (hg : s.timer.grain < 79) :
    (s.boost.expires = true → s.grainStep.events.has .boostFail = true) ∧
    ((Four.indices.any fun z => (s.sense.get z).expires) = true → s.grainStep.events.has .blind = true) := by
  have hb : s.boost.expires = true → (s.grainWork (s.timer.grain + 1)).events.has .boostFail = true := by
    intro h
    unfold State.grainWork
    simp only [State.pollTick]
    refine Events.has_raiseIf ?_ _ _
    simp only [State.boostTick, closeEntries_frame, runHeld_frame, h]
    exact Events.has_raise_self _ _
  have hp : (Four.indices.any fun z => (s.sense.get z).expires) = true →
      (s.grainWork (s.timer.grain + 1)).events.has .blind = true := by
    intro h
    unfold State.grainWork
    simp only [State.pollTick, boostTick_frame, closeEntries_frame, runHeld_frame, h]
    exact Events.has_raise_self _ _
  rw [grainStep_cases hg]
  split
  · exact ⟨fun h => windowEnd_keeps (hb h), fun h => windowEnd_keeps (hp h)⟩
  · exact ⟨hb, hp⟩

/-- A row that names what comes about in a grain event makes the grain event, when it does come about. -/
theorem live_tickWhen_of_grain {s : State} {happens : State → State → Bool} (hr : s.pins.resetN = true)
    (hh : happens s s.grainStep = true) : (s.live fun s => s.tickWhen .grain happens) = .next s.grainStep := by
  rw [live_high hr]
  refine congrArg _ ?_
  unfold State.tickWhen
  exact if_pos hh

/-! ### From an indication to its turn -/

/-- The command of an indication makes the step of the clock. -/
theorem exec_commandOf {s : State} (h : s.pins.resetN = true) (k : Clock) : exec (commandOf k) s = .next (s.tick k) := by
  cases k with
  | grain => exact live_high h State.grainStep
  | timer o => exact live_high h fun s => s.timerStep o
  | mark p o => exact live_high h fun s => s.arrive .modem p o

theorem beforeTurn_pins (s : State) (k : Clock) : (s.beforeTurn k).pins = s.pins := by cases k <;> rfl

@[simp] theorem beforeTurn_frame (s : State) (k : Clock) :
    (s.beforeTurn k).timer = s.timer ∧ (s.beforeTurn k).sched = s.sched ∧ (s.beforeTurn k).supply = s.supply ∧
    (s.beforeTurn k).boost = s.boost ∧ (s.beforeTurn k).heat = s.heat ∧ (s.beforeTurn k).sense = s.sense ∧
    (s.beforeTurn k).control = s.control ∧ (s.beforeTurn k).path = s.path ∧ (s.beforeTurn k).tables = s.tables ∧
    (s.beforeTurn k).engine = s.engine ∧ (s.beforeTurn k).events = s.events ∧
    (s.beforeTurn k).link.orig = s.link.orig := by
  cases k <;> exact ⟨rfl, rfl, rfl, rfl, rfl, rfl, rfl, rfl, rfl, rfl, rfl, rfl⟩

/-- An indication that turns the frame makes the turn from the state in which its mark has been buffered. -/
theorem tick_of_turn {s : State} {k : Clock} {turn : Turn} {o : TurnOrder} (h : s.turnOf k = some (turn, o)) :
    s.tick k = (s.beforeTurn k).frameTurn turn o := by
  cases k with
  | grain => simp [State.turnOf] at h
  | timer o' =>
    simp only [State.turnOf] at h
    split at h
    · rename_i hg
      simp only [Option.some.injEq, Prod.mk.injEq] at h
      obtain ⟨rfl, rfl⟩ := h
      simp [State.tick, State.timerStep, hg, State.beforeTurn]
    · exact absurd h (by simp)
  | mark p o' =>
    simp only [State.turnOf] at h
    split at h
    · rename_i hc
      obtain ⟨hm, hf, ht⟩ := hc
      simp only [Option.some.injEq, Prod.mk.injEq] at h
      obtain ⟨rfl, rfl⟩ := h
      simp only [State.tick, State.arrive, hm, pass_room hf]
      exact if_neg (not_lt.2 ht)
    · exact absurd h (by simp)

/-- The command of an indication that turns the frame makes the turn. -/
theorem exec_of_turn {s : State} {k : Clock} {turn : Turn} {o : TurnOrder} (hr : s.pins.resetN = true)
    (h : s.turnOf k = some (turn, o)) : exec (commandOf k) s = .next ((s.beforeTurn k).frameTurn turn o) := by
  rw [exec_commandOf hr, tick_of_turn h]

/-- A row that names what comes about in a turn makes the turn, when it does come about. -/
theorem tickWhen_of_turn {s : State} {k : Clock} {turn : Turn} {o : TurnOrder} {happens : State → State → Bool}
    (h : s.turnOf k = some (turn, o)) (hh : happens s ((s.beforeTurn k).frameTurn turn o) = true) :
    s.tickWhen k happens = (s.beforeTurn k).frameTurn turn o := by
  simp [State.tickWhen, tick_of_turn h, hh]

/-- Such a row as a command. -/
theorem live_tickWhen_of_turn {s : State} {k : Clock} {turn : Turn} {o : TurnOrder} {happens : State → State → Bool}
    (hr : s.pins.resetN = true) (h : s.turnOf k = some (turn, o))
    (hh : happens s ((s.beforeTurn k).frameTurn turn o) = true) :
    (s.live fun s => s.tickWhen k happens) = .next ((s.beforeTurn k).frameTurn turn o) := by
  rw [live_high hr]
  exact congrArg _ (tickWhen_of_turn h hh)

@[simp] theorem bankBegun_beforeTurn (s : State) (k : Clock) : (s.beforeTurn k).bankBegun = s.bankBegun := by
  simp [State.bankBegun]

@[simp] theorem modeBegun_beforeTurn (s : State) (k : Clock) : (s.beforeTurn k).modeBegun = s.modeBegun := by
  simp [State.modeBegun]

/-- A part that is not in UNSET does not go back to it. -/
theorem modeBegun_ne_unset {s : State} (h : s.timer.mode ≠ .unset) : s.modeBegun ≠ .unset := by
  unfold State.modeBegun; split <;> simp [h]

/-- A frame mark that finds a place is buffered and then taken by the Frame Timer. -/
theorem exec_frameMark_taken {s : State} {p : Packet} (hr : s.pins.resetN = true) (hw : p.wellFormed = true) (hk : p.kind = 1)
    (hd : s.link.down.length < 16) (o : TurnOrder) :
    exec (.frameMark p o) s =
      .next ({ s with link := s.link.enterDown p true }.takeMark ((p.word 0).toNat % 256) o) := by
  have h : s.arrive .modem p o = { s with link := s.link.enterDown p true }.takeMark ((p.word 0).toNat % 256) o := by
    unfold State.arrive
    rw [classify_mark hw hk]
    exact pass_room (room_modem.2 hd) _ _ _
  exact (live_high hr fun s => s.arrive .modem p o).trans (congrArg _ h)

theorem takeMark_duplicate {s : State} (hg : s.timer.grain < s.tolerance) (hs : s.timer.state = .synced) (m : Nat)
    (o : TurnOrder) : s.takeMark m o = s.raise .slip := by
  simp [State.takeMark, hg, hs]

theorem takeMark_confirm {s : State} (hg : s.timer.grain < s.tolerance) (hs : s.timer.state ≠ .synced) (m : Nat)
    (o : TurnOrder) : s.takeMark m o = s.confirm m := by
  simp [State.takeMark, hg, hs]

/-- A mark at or after grain tol turns the frame. -/
theorem turnOf_mark {s : State} {p : Packet} (hw : p.wellFormed = true) (hk : p.kind = 1)
    (hd : s.link.down.length < 16) (hg : s.tolerance ≤ s.timer.grain) (o : TurnOrder) :
    s.turnOf (.mark p o) = some (.mark ((p.word 0).toNat % 256), o) := by
  simp [State.turnOf, classify_mark hw hk, room_modem.2 hd, hg]

theorem turnOf_timer {s : State} (hg : s.timer.grain = 79) (o : TurnOrder) :
    s.turnOf (.timer o) = some (.timer, o) := by
  simp [State.turnOf, hg]

/-! ### The turn's own change of timer and tables -/

theorem turned_mode (t : FrameTimer) (turn : Turn) : (t.turned turn).mode = t.mode := by
  cases turn with
  | mark m => rfl
  | timer => simp only [FrameTimer.turned]; split <;> rfl

theorem timerTurned_mode (s : State) (turn : Turn) : (s.timerTurned turn).mode = s.modeBegun := by
  unfold State.timerTurned State.modeBegun
  split
  · rfl
  · exact turned_mode _ _

theorem timerTurned_eq (s : State) (turn : Turn) :
    s.timerTurned turn = { s.timer.turned turn with mode := s.modeBegun } := by
  have h := timerTurned_mode s turn
  unfold State.timerTurned State.modeBegun at *
  split
  · rfl
  · rw [← turned_mode s.timer turn]

/-- A mark that turns the frame slips when it comes early or with another number than expected (R115). -/
theorem slips_mark (t : FrameTimer) (tol m : Nat) :
    t.slips tol (.mark m) = true ↔ t.grain < 80 - tol ∨ m ≠ (t.frame + 1) % 256 := by
  rw [FrameTimer.slips, Bool.or_eq_true, decide_eq_true_iff, decide_eq_true_iff]
  exact Iff.rfl

@[simp] theorem limitsBegun_eq (s : State) : s.limitsBegun = s.bankBegun.limits := rfl

/-- The Frame Timer at a turn: its own change, then SAFE entry, then, where a mark made the turn, the test of SAFE exit. -/
theorem timerBegun_eq (s : State) (turn : Turn) :
    s.timerBegun turn = { s.timerTurned turn with
      run := if s.entersSafe turn then 0 else (s.timerTurned turn).run
      mode := if s.entersSafe turn then .safe
        else if turn ≠ .timer ∧ s.modeBegun = .safe ∧ s.bankBegun.limits.safeExit ≤ (s.timerTurned turn).run then .governing
        else s.modeBegun } := by
  have hm := timerTurned_mode s turn
  unfold State.timerBegun
  split
  · simp [FrameTimer.enterSafe]
  · rename_i h
    cases turn with
    | timer => simp [← hm]
    | mark m => simp [testExit_eq, ← hm]

/-- SAFE is entered only from GOVERNING. -/
theorem entersSafe_mode {s : State} {turn : Turn} (h : s.entersSafe turn = true) : s.modeBegun = .governing := by
  simp only [State.entersSafe, Bool.and_eq_true, FrameTimer.overLimit, beq_iff_eq, timerTurned_mode] at h
  exact h.2.1

/-- The mode of the frame begun is UNSET exactly when the part was UNSET and the turn makes no first switch. -/
theorem beginFrame_unset (s : State) (turn : Turn) :
    (s.beginFrame turn).timer.mode = .unset ↔ s.modeBegun = .unset := by
  show (s.timerBegun turn).mode = .unset ↔ _
  rw [timerBegun_eq]
  dsimp only
  split
  · rename_i h; simp [entersSafe_mode h]
  · split
    · rename_i h; simp [h.2.1]
    · rfl

@[simp] theorem runHeld_begun (s : State) :
    s.runHeld.bankBegun = s.bankBegun ∧ s.runHeld.modeBegun = s.modeBegun ∧ s.runHeld.tolerance = s.tolerance ∧
    s.runHeld.limitsBegun = s.limitsBegun ∧ (∀ turn, s.runHeld.timerTurned turn = s.timerTurned turn) ∧
    (∀ turn, s.runHeld.entersSafe turn = s.entersSafe turn) ∧ ∀ turn, s.runHeld.timerBegun turn = s.timerBegun turn := by
  have hl : s.runHeld.limitsBegun = s.limitsBegun := by simp [State.limitsBegun, State.limits, State.bankFor]
  have hu : ∀ turn, s.runHeld.timerTurned turn = s.timerTurned turn := by simp [State.timerTurned]
  have he : ∀ turn, s.runHeld.entersSafe turn = s.entersSafe turn := by
    intro turn; simp only [State.entersSafe, hl, hu, runHeld_frame]
  refine ⟨by simp [State.bankBegun], by simp [State.modeBegun], by simp [State.tolerance, State.limits, State.bankFor],
    hl, hu, he, fun turn => ?_⟩
  simp only [State.timerBegun, he, hu, hl]

@[simp] theorem beforeTurn_begun (s : State) (k : Clock) :
    (s.beforeTurn k).tolerance = s.tolerance ∧ (s.beforeTurn k).limitsBegun = s.limitsBegun ∧
    (∀ turn, (s.beforeTurn k).timerTurned turn = s.timerTurned turn) ∧
    (∀ turn, (s.beforeTurn k).entersSafe turn = s.entersSafe turn) ∧
    ∀ turn, (s.beforeTurn k).timerBegun turn = s.timerBegun turn := by
  have hl : (s.beforeTurn k).limitsBegun = s.limitsBegun := by simp [State.limitsBegun, State.limits, State.bankFor]
  have hu : ∀ turn, (s.beforeTurn k).timerTurned turn = s.timerTurned turn := by simp [State.timerTurned]
  have he : ∀ turn, (s.beforeTurn k).entersSafe turn = s.entersSafe turn := by
    intro turn; simp only [State.entersSafe, hl, hu, beforeTurn_frame]
  refine ⟨by simp [State.tolerance, State.limits, State.bankFor], hl, hu, he, fun turn => ?_⟩
  simp only [State.timerBegun, he, hu, hl]

theorem turnWork_timer (s : State) (turn : Turn) (o : TurnOrder) : (s.turnWork turn o).timer = s.timerBegun turn := by
  unfold State.turnWork
  simp [State.beginFrame]

@[simp] theorem turnWork_tables (s : State) (turn : Turn) (o : TurnOrder) :
    (s.turnWork turn o).tables = s.tables.turned := by
  unfold State.turnWork
  simp [State.beginFrame]

theorem turnWork_bank (s : State) (turn : Turn) (o : TurnOrder) : (s.turnWork turn o).bankFor .current = s.bankBegun := by
  simp only [State.bankFor, turnWork_tables, State.bankBegun]

theorem turnWork_limits (s : State) (turn : Turn) (o : TurnOrder) : (s.turnWork turn o).limits = s.bankBegun.limits := by
  rw [State.limits, turnWork_bank]

/-- The Frame Timer after a turn. -/
theorem frameTurn_timer (s : State) (turn : Turn) (o : TurnOrder) : (s.frameTurn turn o).timer = s.timerBegun turn := by
  rw [← turnWork_timer s turn o]
  unfold State.frameTurn
  simp

theorem frameTurn_tables (s : State) (turn : Turn) (o : TurnOrder) : (s.frameTurn turn o).tables = s.tables.turned := by
  unfold State.frameTurn
  simp

/-- The bank in force for the frame begun is that of the tables the turn leaves. -/
theorem bankBegun_eq (s : State) (turn : Turn) (o : TurnOrder) : (s.frameTurn turn o).bankFor .current = s.bankBegun := by
  simp only [State.bankFor, frameTurn_tables, State.bankBegun]

/-- The mode after a turn is UNSET exactly when that of the frame begun is. -/
theorem frameTurn_unset (s : State) (turn : Turn) (o : TurnOrder) :
    (s.frameTurn turn o).timer.mode = .unset ↔ s.modeBegun = .unset := by
  rw [frameTurn_timer]
  exact beginFrame_unset s turn

theorem turnWork_unset (s : State) (turn : Turn) (o : TurnOrder) :
    (s.turnWork turn o).timer.mode = .unset ↔ s.modeBegun = .unset := by
  rw [turnWork_timer]
  exact beginFrame_unset s turn

/-! ### The schedule at a turn -/

theorem turnWork_sched (s : State) (turn : Turn) (o : TurnOrder) :
    (s.turnWork turn o).sched =
      ((s.sched.remove fun e => e.slot == .current).relabel).commitUpTo s.bankBegun.limits.commitLead 0 := by
  unfold State.turnWork State.dispatchTurn
  simp only [senseTurn_frame, pathTurn_frame, runControllers_frame, supplyTurn_frame]
  simp only [State.relabelSchedule, closeAndTick_frame, State.limits, State.bankFor, State.closeEntries]
  simp [State.beginFrame, State.bankBegun]

/-- The schedule after a turn. -/
theorem frameTurn_sched (s : State) (turn : Turn) (o : TurnOrder) :
    (s.frameTurn turn o).sched =
      ((s.sched.remove fun e => e.slot == .current).relabel).commitUpTo s.bankBegun.limits.commitLead 0 := by
  rw [← turnWork_sched s turn o]
  unfold State.frameTurn
  simp

/-! ### The supply state at a turn -/

@[simp] theorem safeRequest_supply (s : State) (b : Bool) :
    (s.safeRequest b).supply = { s.supply with requests := (s.safeRequest b).supply.requests } := by
  unfold State.safeRequest
  split
  · exact takeRequest_supply s _
  · rfl

/-- Answering the users of the Originated Queue changes no supply state but the requests in progress. -/
theorem askQueue_supply (s : State) (q : QueueOrder) (b : Bool) :
    (s.askQueue q b).supply = { s.supply with requests := (s.askQueue q b).supply.requests } := by
  unfold State.askQueue
  cases q <;> simp only [queuePolls_frame, boostTurn_frame] <;> rw [safeRequest_supply] <;>
    simp only [queuePolls_frame, boostTurn_frame]

theorem turnWork_supply (s : State) (turn : Turn) (o : TurnOrder) :
    (s.turnWork turn o).supply =
      { volts := s.supply.volts
        reported := s.supply.reported
        age := min 255 (s.supply.age + 1)
        ceiling :=
          if s.modeBegun = .unset then 0
          else if s.supply.reported = false ∨ s.bankBegun.supplyStale < min 255 (s.supply.age + 1) then
            s.bankBegun.supplyFloor
          else curveDown s.bankBegun.supplyPoints (s.supply.volts : Int)
        map := shiftRows s.supply.map
        requests := s.supply.requests } := by
  have hu := beginFrame_unset s.runHeld turn
  rw [(runHeld_begun s).2.1] at hu
  unfold State.turnWork State.dispatchTurn
  simp only [senseTurn_frame, pathTurn_frame, runControllers_frame]
  simp only [State.supplyTurn, State.recomputeSupply, relabelSchedule_frame, closeAndTick_frame, closeEntries_frame,
    beginFrame_frame, runHeld_frame, State.supplyCeiling, State.bankFor]
  have ht : (s.runHeld.beginFrame turn).tables = s.tables.turned := by simp [State.beginFrame]
  simp only [ht, hu]
  simp only [State.bankBegun]
  split
  · simp
  · split
    · rename_i h; simp [h]
    · rename_i h; simp [h]

/-- The supply state after a turn. -/
theorem frameTurn_supply (s : State) (turn : Turn) (o : TurnOrder) :
    (s.frameTurn turn o).supply =
      { volts := s.supply.volts
        reported := s.supply.reported
        age := min 255 (s.supply.age + 1)
        ceiling :=
          if s.modeBegun = .unset then 0
          else if s.supply.reported = false ∨ s.bankBegun.supplyStale < min 255 (s.supply.age + 1) then
            s.bankBegun.supplyFloor
          else curveDown s.bankBegun.supplyPoints (s.supply.volts : Int)
        map := shiftRows s.supply.map
        requests := (s.frameTurn turn o).supply.requests } := by
  unfold State.frameTurn
  rw [askQueue_supply, turnWork_supply]

@[simp] theorem frameTurn_supplyFields (s : State) (turn : Turn) (o : TurnOrder) :
    (s.frameTurn turn o).supply.volts = s.supply.volts ∧ (s.frameTurn turn o).supply.reported = s.supply.reported ∧
    (s.frameTurn turn o).supply.age = min 255 (s.supply.age + 1) ∧
    (s.frameTurn turn o).supply.map = shiftRows s.supply.map := by
  rw [frameTurn_supply]; exact ⟨rfl, rfl, rfl, rfl⟩

/-! ### The paths at a turn -/

/-- A run of the controllers changes nothing of a path but its thermal back-off. -/
theorem runControllers_path (s : State) (held : List (Fin 4)) (i : Fin 4) :
    ∃ th, (s.runControllers held).path.get i = { s.path.get i with thermal := th } := by
  unfold State.runControllers
  generalize Four.indices = zs
  induction zs generalizing s with
  | nil => exact ⟨_, rfl⟩
  | cons z zs ih =>
    rw [List.foldl_cons]
    split
    · obtain ⟨th, h⟩ := ih (s.runController z)
      exact ⟨th, by rw [h]; simp [State.runController]⟩
    · exact ih s

/-- A path after a turn: the turn's action on it, whatever its thermal back-off has become. -/
theorem frameTurn_path (s : State) (turn : Turn) (o : TurnOrder) (i : Fin 4) :
    ∃ th, (s.frameTurn turn o).path.get i =
      if s.modeBegun = .unset then { s.path.get i with thermal := th }
      else { s.path.get i with thermal := th }.turn s.bankBegun.limits := by
  have hu := beginFrame_unset s.runHeld turn
  rw [(runHeld_begun s).2.1] at hu
  have ht : (s.runHeld.beginFrame turn).tables = s.tables.turned := by simp [State.beginFrame]
  obtain ⟨t0, h0⟩ := runControllers_path s [] i
  have h2 : s.runHeld.path.get i = { s.path.get i with thermal := t0 } := h0
  unfold State.frameTurn State.turnWork State.dispatchTurn
  simp only [askQueue_frame, senseTurn_frame]
  generalize hw : (((s.runHeld.beginFrame turn).closeEntries fun e => e.slot == .current).closeAndTick
    (s.tables.inForce .current) o.expiryFirst).relabelSchedule.supplyTurn = w
  obtain ⟨t1, h1⟩ := runControllers_path w o.held i
  have hp : w.path = s.runHeld.path := by rw [← hw]; simp
  have hm : w.timer.mode = .unset ↔ s.modeBegun = .unset := by rw [← hw]; simpa using hu
  have hl : w.tables = s.tables.turned := by rw [← hw]; simp [ht]
  rw [hp, h2] at h1
  refine ⟨t1, ?_⟩
  simp only [State.pathTurn, State.limits, State.bankFor, runControllers_frame, hm, hl]
  split
  · exact h1
  · rw [Four.get_mapIdx, h1]
    rfl

/-- A path at a turn, rule by rule. -/
theorem pathTurn_cases (x : PathState) (l : Limits) :
    (x.turn l).cap = x.cap ∧ (x.turn l).thermal = x.thermal ∧
      (x.state = .clear → x.turn l = x) ∧
      (x.state = .tripped → (x.turn l).trip = max 0 (x.trip - l.tripDecay) ∧ (x.turn l).barLeft = x.barLeft ∧
        (x.turn l).state = if x.trip ≤ l.tripDecay then .clear else .tripped) ∧
      (x.state = .barred → 2 ≤ x.barLeft → x.turn l = { x with barLeft := x.barLeft - 1 }) ∧
      (x.state = .barred → x.barLeft ≤ 1 → x.turn l = { x with state := .tripped, trip := l.tripStep, barLeft := 0 }) := by
  unfold PathState.turn
  split
  · rename_i h; simp [h]
  · rename_i h
    simp only [h, reduceCtorEq, false_imp_iff, and_self, true_imp_iff, true_and, and_true]
    by_cases hc : x.trip ≤ l.tripDecay
    · rw [if_pos (by omega), if_pos hc]
    · rw [if_neg (by omega), if_neg hc]
  · rename_i h
    simp only [h, reduceCtorEq, false_imp_iff, true_imp_iff, true_and]
    split
    · rename_i hb
      exact ⟨rfl, rfl, fun h2 => by omega, fun _ => rfl⟩
    · rename_i hb
      exact ⟨rfl, rfl, fun _ => rfl, fun h2 => absurd h2 hb⟩

/-! ### Heat at a turn -/

/-- The charges of the entries that close. -/
def Schedule.charge (c : Schedule) (closes : Entry → Bool) (h : Heat) : Heat :=
  (c.entries.filter closes).foldl (fun h e => h.charge e.path e.heat) h

theorem closeAndTick_heat (s : State) (b : Option Bank) (e : Bool) :
    ∃ est, (s.closeAndTick b e).heat = { s.heat.close b with estimate := est } ∧
      (s.tables.active = none → est = (s.heat.close b).estimate) := by
  have key : ∀ s : State, ∃ est, (s.frameClose b).heat = { s.heat.close b with estimate := est } ∧
      (s.tables.active = none → est = (s.heat.close b).estimate) := by
    intro s
    unfold State.frameClose State.formEstimates
    split
    · rename_i h
      exact ⟨_, rfl, fun hn => by simp [hn] at h⟩
    · exact ⟨_, rfl, fun _ => rfl⟩
  unfold State.closeAndTick
  split
  · obtain ⟨est, h⟩ := key s.pollTick
    simp only [pollTick_frame] at h
    exact ⟨est, h⟩
  · obtain ⟨est, h⟩ := key s
    exact ⟨est, by simp only [pollTick_frame]; exact h⟩

/-- Accounts and accumulators after a turn that is not the first switch: the frame's charges taken, then the frame close. -/
theorem frameTurn_heat {s : State} (hf : s.tables.firstSwitch = false) (turn : Turn) (o : TurnOrder) :
    ∃ est, (s.frameTurn turn o).heat =
        { (s.sched.charge (fun e => e.slot == .current) s.heat).close (s.tables.inForce .current) with estimate := est } ∧
      (s.tables.turned.active = none →
        est = ((s.sched.charge (fun e => e.slot == .current) s.heat).close (s.tables.inForce .current)).estimate) := by
  have hs : ∀ (s : State), (s.senseTurn false).heat = s.heat := by
    intro s; unfold State.senseTurn; split <;> rfl
  unfold State.frameTurn State.turnWork State.dispatchTurn
  simp only [askQueue_frame, hf, hs, pathTurn_frame, runControllers_frame, supplyTurn_frame, relabelSchedule_frame]
  obtain ⟨est, h⟩ := closeAndTick_heat ((s.runHeld.beginFrame turn).closeEntries fun e => e.slot == .current)
    (s.tables.inForce .current) o.expiryFirst
  have ht : (s.runHeld.beginFrame turn).tables = s.tables.turned := by simp [State.beginFrame]
  simp only [closeEntries_frame, ht] at h
  have hh : ((s.runHeld.beginFrame turn).closeEntries fun e => e.slot == .current).heat =
      s.sched.charge (fun e => e.slot == .current) s.heat := by
    simp [State.closeEntries, Schedule.charge]
  rw [hh] at h
  exact ⟨est, h⟩

/-! ### The link at a turn: packets join the Originated Queue, nothing else -/

/-- Two links are the same but for the Originated Queue. -/
def Link.sameBut (l l' : Link) : Prop := l' = { l with orig := l'.orig }

theorem Link.sameBut_refl (l : Link) : l.sameBut l := rfl

theorem Link.sameBut_trans {a b c : Link} (h : a.sameBut b) (g : b.sameBut c) : a.sameBut c := by
  unfold Link.sameBut at *
  rw [g, h]

theorem queuePolls_link (s : State) : s.link.sameBut s.queuePolls.link := by
  have one : ∀ (s : State) z, s.link.sameBut (s.queuePoll z).link := by
    intro s z; unfold State.queuePoll; split <;> rfl
  unfold State.queuePolls
  split
  · rfl
  · clear * - one
    generalize Four.indices = zs
    induction zs generalizing s with
    | nil => rfl
    | cons z zs ih => exact Link.sameBut_trans (one s z) (ih _)

theorem attemptDue_link (s : State) (q : Bool) : s.link.sameBut (s.attemptDue q).link := by
  have rel : ∀ (s : State) b, s.link.sameBut (s.attemptRelease b).link := by
    intro s b; unfold State.attemptRelease; split <;> rfl
  have req : ∀ (s : State) b, s.link.sameBut (s.attemptRequest b).link := by
    intro s b; unfold State.attemptRequest; split <;> rfl
  exact Link.sameBut_trans (rel _ _) (req _ _)

theorem boostTurn_link (s : State) : s.link.sameBut s.boostTurn.link := by
  have h := attemptDue_link s.boostCount s.quietReleaseDue
  rw [(boostCount_frame s).2.1] at h
  exact h

theorem askQueue_link (s : State) (q : QueueOrder) (b : Bool) : s.link.sameBut (s.askQueue q b).link := by
  have safe : ∀ (s : State), s.link.sameBut (s.safeRequest b).link := by
    intro s; rw [(safeRequest_frame s b).2.1]; rfl
  have three : ∀ {a b c d : Link}, a.sameBut b → b.sameBut c → c.sameBut d → a.sameBut d :=
    fun h g k => Link.sameBut_trans (Link.sameBut_trans h g) k
  unfold State.askQueue
  cases q
  · exact three (queuePolls_link _) (boostTurn_link _) (safe _)
  · exact three (queuePolls_link _) (safe _) (boostTurn_link _)
  · exact three (boostTurn_link _) (queuePolls_link _) (safe _)
  · exact three (boostTurn_link _) (safe _) (queuePolls_link _)
  · exact three (safe _) (queuePolls_link _) (boostTurn_link _)
  · exact three (safe _) (boostTurn_link _) (queuePolls_link _)

theorem frameTurn_link (s : State) (turn : Turn) (o : TurnOrder) :
    (s.frameTurn turn o).link = { s.link with orig := (s.frameTurn turn o).link.orig } := by
  unfold State.frameTurn
  refine Link.sameBut_trans ?_ (askQueue_link _ _ _)
  simp [Link.sameBut]

/-! ### Flags of a turn -/

theorem runControllers_has {f : Flag} (h : Flag.tier ≠ f) (s : State) (held : List (Fin 4)) :
    (s.runControllers held).events.has f = s.events.has f := by
  unfold State.runControllers
  generalize Four.indices = zs
  induction zs generalizing s with
  | nil => rfl
  | cons z zs ih =>
    rw [List.foldl_cons, ih]
    split
    · exact Events.has_raiseIf_other h _
    · rfl

theorem boostTurn_has {f : Flag} (h : Flag.boostFail ≠ f) (s : State) : s.boostTurn.events.has f = s.events.has f := by
  unfold State.boostTurn
  simp only [attemptDue_frame]
  unfold State.boostCount
  split
  · exact Events.has_raiseIf_other h _
  · rfl

theorem pollTick_has {f : Flag} (h : Flag.blind ≠ f) (s : State) : s.pollTick.events.has f = s.events.has f := by
  unfold State.pollTick
  exact Events.has_raiseIf_other h _

theorem askQueue_has {f : Flag} (h : Flag.boostFail ≠ f) (s : State) (q : QueueOrder) (b : Bool) :
    (s.askQueue q b).events.has f = s.events.has f := by
  unfold State.askQueue
  cases q <;> simp [boostTurn_has h]

theorem closeAndTick_has {f : Flag} (h : Flag.blind ≠ f) (s : State) (b : Option Bank) (e : Bool) :
    (s.closeAndTick b e).events.has f = s.events.has f := by
  unfold State.closeAndTick
  split <;> simp [pollTick_has h]

/-- After the Frame Timer has set its own state a turn sets no flags but TIER, BLIND and BOOST_FAIL. -/
theorem turnWork_has {f : Flag} (h : Flag.tier ≠ f) (hb : Flag.blind ≠ f) (s : State) (turn : Turn) (o : TurnOrder) :
    (s.turnWork turn o).events.has f = (s.runHeld.eventsBegun turn).has f := by
  unfold State.turnWork State.dispatchTurn
  simp only [senseTurn_frame, pathTurn_frame]
  rw [runControllers_has h]
  simp only [supplyTurn_frame, relabelSchedule_frame]
  rw [closeAndTick_has hb]
  rfl

theorem frameTurn_has {f : Flag} (h : Flag.tier ≠ f) (hb : Flag.blind ≠ f) (hw : Flag.boostFail ≠ f) (s : State)
    (turn : Turn) (o : TurnOrder) : (s.frameTurn turn o).events.has f = (s.runHeld.eventsBegun turn).has f := by
  unfold State.frameTurn
  rw [askQueue_has hw, turnWork_has h hb]

/-- SLIP after a turn. -/
theorem frameTurn_slip (s : State) (turn : Turn) (o : TurnOrder) :
    (s.frameTurn turn o).events.has .slip = (s.events.has .slip || s.timer.slips s.tolerance turn) := by
  rw [frameTurn_has (by decide) (by decide) (by decide)]
  unfold State.eventsBegun
  rw [Events.has_raiseIf_other (by decide), Events.has_raiseIf_other (by decide), Events.has_raiseIf_other (by decide)]
  have hr : s.runHeld.events.has .slip = s.events.has .slip := runControllers_has (by decide) s _
  simp only [runHeld_begun, runHeld_frame]
  cases s.timer.slips s.tolerance turn
  · simp [hr]
  · simp

/-- The flags a turn of the Frame Timer and of the Table Store sets. -/
theorem frameTurn_sets (s : State) (turn : Turn) (o : TurnOrder) :
    (s.timer.loses turn = true → (s.frameTurn turn o).events.has .frameLost = true) ∧
    (s.tables.switches = true → (s.frameTurn turn o).events.has .launched = true) ∧
    (s.entersSafe turn = true → (s.frameTurn turn o).events.has .safe = true) := by
  refine ⟨fun h => ?_, fun h => ?_, fun h => ?_⟩ <;> rw [frameTurn_has (by decide) (by decide) (by decide)] <;>
    unfold State.eventsBegun <;> simp only [runHeld_begun, runHeld_frame, h, Events.raiseIf_true]
  · exact Events.has_raiseIf (Events.has_raiseIf (Events.has_raise_self _ _) _ _) _ _
  · exact Events.has_raiseIf (Events.has_raise_self _ _) _ _
  · exact Events.has_raise_self _ _

theorem raiseIf_has_self {e : Events} {c : Bool} (h : c = true) (f : Flag) : (e.raiseIf c f).has f = true := by
  rw [h]; exact Events.has_raise_self e f

theorem runControllers_keeps {f : Flag} {s : State} (h : s.events.has f = true) (held : List (Fin 4)) :
    (s.runControllers held).events.has f = true := by
  unfold State.runControllers
  generalize Four.indices = zs
  induction zs generalizing s with
  | nil => exact h
  | cons z zs ih =>
    rw [List.foldl_cons]
    refine ih ?_
    split
    · exact Events.has_raiseIf h _ _
    · exact h

theorem boostTurn_keeps {f : Flag} {s : State} (h : s.events.has f = true) : s.boostTurn.events.has f = true := by
  unfold State.boostTurn
  simp only [attemptDue_frame]
  unfold State.boostCount
  split
  · exact Events.has_raiseIf h _ _
  · exact h

theorem askQueue_keeps {f : Flag} {s : State} (h : s.events.has f = true) (q : QueueOrder) (b : Bool) :
    (s.askQueue q b).events.has f = true := by
  unfold State.askQueue
  cases q <;> simp only [queuePolls_frame, safeRequest_frame] <;> exact boostTurn_keeps (by simpa using h)

/-! ### The Boost Controller at a turn -/

/-- Whatever the order of the three users, the Boost Controller acts once, on its own state as it stands; asked first, it
meets the queue as it stands too. -/
theorem askQueue_boost (s : State) (q : QueueOrder) (b : Bool) :
    ∃ u : State, u.boost = s.boost ∧ u.tables = s.tables ∧ u.events = s.events ∧
      (s.askQueue q b).boost = u.boostTurn.boost ∧ (s.askQueue q b).events = u.boostTurn.events ∧
      (q = .boostPollSafe ∨ q = .boostSafePoll → u = s) := by
  unfold State.askQueue
  cases q
  · exact ⟨s.queuePolls, by simp, by simp, by simp, by simp, by simp, by simp⟩
  · exact ⟨s.queuePolls.safeRequest b, by simp, by simp, by simp, by simp, by simp, by simp⟩
  · exact ⟨s, rfl, rfl, rfl, by simp, by simp, by simp⟩
  · exact ⟨s, rfl, rfl, rfl, by simp, by simp, by simp⟩
  · exact ⟨(s.safeRequest b).queuePolls, by simp, by simp, by simp, by simp, by simp, by simp⟩
  · exact ⟨s.safeRequest b, by simp, by simp, by simp, by simp, by simp, by simp⟩

/-- The Boost Controller after a turn: its own action, with the bank of the frame begun. -/
theorem frameTurn_boost (s : State) (turn : Turn) (o : TurnOrder) :
    ∃ u : State, u.boost = s.boost ∧ u.limits = s.bankBegun.limits ∧
      (s.frameTurn turn o).boost = u.boostTurn.boost ∧ (s.frameTurn turn o).events = u.boostTurn.events ∧
      (o.queue = .boostPollSafe ∨ o.queue = .boostSafePoll → u = s.turnWork turn o) := by
  obtain ⟨u, h1, h2, _, h4, h5, h6⟩ := askQueue_boost (s.turnWork turn o) o.queue (s.entersSafe turn)
  refine ⟨u, by rw [h1]; simp, ?_, h4, h5, h6⟩
  rw [← turnWork_limits s turn o]
  simp only [State.limits, State.bankFor, h2]

/-- A packet in the Originated Queue stays there while due polls and requests are answered. -/
theorem mem_orig_queuePolls {s : State} {d : Draft} (h : d ∈ s.link.orig) : d ∈ s.queuePolls.link.orig := by
  have one : ∀ (w : State) z, d ∈ w.link.orig → d ∈ (w.queuePoll z).link.orig := by
    intro w z h
    unfold State.queuePoll
    split
    · exact List.mem_append_left _ h
    · exact h
  unfold State.queuePolls
  split
  · exact h
  · clear * - one h
    generalize Four.indices = zs
    induction zs generalizing s with
    | nil => exact h
    | cons z zs ih => exact ih (one s z h)

/-- What the Boost Controller queues when it is asked first is queued at the end of the turn. -/
theorem mem_orig_askQueue {s : State} {d : Draft} (h : d ∈ s.boostTurn.link.orig) {q : QueueOrder}
    (hq : q = .boostPollSafe ∨ q = .boostSafePoll) (b : Bool) : d ∈ (s.askQueue q b).link.orig := by
  rcases hq with rfl | rfl <;> unfold State.askQueue <;> dsimp only
  · rw [(safeRequest_frame _ _).2.1]
    exact mem_orig_queuePolls h
  · refine mem_orig_queuePolls ?_
    rw [(safeRequest_frame _ _).2.1]
    exact h

/-! ### The Sense Tracker at a turn -/

/-- The polls of a turn change nothing of a zone but its poll: a due one is queued and waits, or stays due. -/
theorem askQueue_sense (s : State) (q : QueueOrder) (b : Bool) (z : Fin 4) :
    let x := s.sense.get z
    let y := (s.askQueue q b).sense.get z
    y.fresh = x.fresh ∧ y.sensed = x.sensed ∧ y.age = x.age ∧
      (x.pollDue = true ∨ x.poll.isSome = true → y.pollDue = true ∨ y.poll.isSome = true) := by
  have one : ∀ (s : State) w, ((s.queuePoll w).sense.get z).fresh = (s.sense.get z).fresh ∧
      ((s.queuePoll w).sense.get z).sensed = (s.sense.get z).sensed ∧
      ((s.queuePoll w).sense.get z).age = (s.sense.get z).age ∧
      ((s.sense.get z).pollDue = true ∨ (s.sense.get z).poll.isSome = true →
        ((s.queuePoll w).sense.get z).pollDue = true ∨ ((s.queuePoll w).sense.get z).poll.isSome = true) := by
    intro s w
    unfold State.queuePoll
    split
    · simp only [Four.get_set]
      split
      · rename_i h; subst h; simp [Sense.polled]
      · simp
    · simp
  have polls : ∀ s : State, (s.queuePolls.sense.get z).fresh = (s.sense.get z).fresh ∧
      (s.queuePolls.sense.get z).sensed = (s.sense.get z).sensed ∧
      (s.queuePolls.sense.get z).age = (s.sense.get z).age ∧
      ((s.sense.get z).pollDue = true ∨ (s.sense.get z).poll.isSome = true →
        (s.queuePolls.sense.get z).pollDue = true ∨ (s.queuePolls.sense.get z).poll.isSome = true) := by
    intro s
    unfold State.queuePolls
    split
    · simp
    · clear * - one
      generalize Four.indices = zs
      induction zs generalizing s with
      | nil => simp
      | cons w zs ih =>
        obtain ⟨a1, a2, a3, a4⟩ := one s w
        obtain ⟨b1, b2, b3, b4⟩ := ih (s.queuePoll w)
        exact ⟨b1.trans a1, b2.trans a2, b3.trans a3, fun h => b4 (a4 h)⟩
  unfold State.askQueue
  cases q <;> simp only [safeRequest_frame, boostTurn_frame] <;>
    first
    | exact polls _
    | (have h := polls s.boostTurn; simp only [boostTurn_frame] at h; exact h)
    | (have h := polls (s.safeRequest b); simp only [safeRequest_frame] at h; exact h)
    | (have h := polls (s.boostTurn.safeRequest b); simp only [safeRequest_frame, boostTurn_frame] at h; exact h)
    | (have h := polls (s.safeRequest b).boostTurn; simp only [safeRequest_frame, boostTurn_frame] at h; exact h)

theorem senseTurn_sense (s : State) (first : Bool) (z : Fin 4) :
    (s.senseTurn first).sense.get z =
      if s.timer.mode = .unset then (s.sense.get z).aged else (s.sense.get z).turn (s.zoneRec z).staleFrames first := by
  unfold State.senseTurn
  split
  · simp
  · have : (if first then s.settleSeeding else s).sense = s.sense := by split <;> rfl
    simp [this]

/-- A zone after a turn, the queueing of its poll apart: its poll's timer falls, then it ages, and in GOVERNING or SAFE may
become STALE and have a poll fall due. -/
theorem turnWork_sense (s : State) (turn : Turn) (o : TurnOrder) (z : Fin 4) :
    (s.turnWork turn o).sense.get z =
      if s.modeBegun = .unset then (s.sense.get z).tick.aged
      else (s.sense.get z).tick.turn (s.bankBegun.zone z).staleFrames s.tables.firstSwitch := by
  have hu := beginFrame_unset s.runHeld turn
  rw [(runHeld_begun s).2.1] at hu
  unfold State.turnWork State.dispatchTurn
  dsimp only
  rw [senseTurn_sense]
  simp only [pathTurn_frame, runControllers_frame, supplyTurn_frame, relabelSchedule_frame, State.zoneRec, State.bankFor,
    closeAndTick_frame, closeEntries_frame, hu]
  have hs : (((s.runHeld.beginFrame turn).closeEntries fun e => e.slot == .current).closeAndTick
      (s.tables.inForce .current) o.expiryFirst).sense.get z = (s.sense.get z).tick := by
    unfold State.closeAndTick
    split <;> simp [State.pollTick]
  have ht : (s.runHeld.beginFrame turn).tables = s.tables.turned := by simp [State.beginFrame]
  rw [hs, ht]
  rfl

theorem frameTurn_sense (s : State) (turn : Turn) (o : TurnOrder) (z : Fin 4) :
    let x := (s.turnWork turn o).sense.get z
    let y := (s.frameTurn turn o).sense.get z
    y.fresh = x.fresh ∧ y.sensed = x.sensed ∧ y.age = x.age ∧
      (x.pollDue = true ∨ x.poll.isSome = true → y.pollDue = true ∨ y.poll.isSome = true) :=
  askQueue_sense (s.turnWork turn o) o.queue (s.entersSafe turn) z

@[simp] theorem Sense.tick_sensed (x : Sense) : x.tick.sensed = x.sensed := by unfold Sense.tick; split <;> rfl

@[simp] theorem Sense.turn_sensed (x : Sense) (stale : Nat) (first : Bool) : (x.turn stale first).sensed = x.sensed := by
  unfold Sense.turn Sense.staled; dsimp only; split <;> rfl

theorem frameTurn_sensed (s : State) (turn : Turn) (o : TurnOrder) (z : Fin 4) :
    ((s.frameTurn turn o).sense.get z).sensed = (s.sense.get z).sensed := by
  rw [(frameTurn_sense s turn o z).2.1, turnWork_sense]
  split <;> simp [Sense.aged]

theorem turned_none {t : Tables} (h : t.pending = none) : t.turned = t := by simp [Tables.turned, h]

/-! ### A grain's work, field by field -/

/-- With no estimate left to take there is nothing for the controllers to run on. -/
theorem runHeld_of_none {s : State} (h : ∀ z, (s.control.get z).presented = false) :
    s.runHeld = { s with updates := [] } := by
  unfold State.runHeld State.runControllers
  simp [Four.indices, h]

/-- The schedule after a grain's work: entries that end have gone, BOOKED ones at their commit grain are COMMITTED. -/
theorem grainWork_entries (s : State) (g : Nat) :
    (s.grainWork g).sched.entries =
      (s.sched.entries.filter fun e => !(e.slot == .current && e.start + e.length == g)).map fun e =>
        if e.slot = .current ∧ e.state = .booked ∧ e.start ≤ g + s.limits.commitLead then { e with state := .committed }
        else e := by
  have hl : s.runHeld.limits = s.limits := by simp [State.limits, State.bankFor]
  unfold State.grainWork
  simp only [pollTick_frame, boostTick_frame, State.closeEntries, runHeld_frame, Schedule.commitUpTo, Schedule.remove,
    List.filter_map, hl]
  congr 2
  funext e
  simp only [Function.comp]
  split <;> rfl

/-- The heat after a grain's work: the entries that end are charged in full. -/
theorem grainWork_heat (s : State) (g : Nat) :
    (s.grainWork g).heat = (s.sched.entries.filter fun e => e.slot == .current && e.start + e.length == g).foldl
      (fun h e => h.charge e.path (e.dissipation * e.length)) s.heat := by
  have hl : s.runHeld.limits = s.limits := by simp [State.limits, State.bankFor]
  unfold State.grainWork
  simp only [pollTick_frame, boostTick_frame, State.closeEntries, runHeld_frame, Schedule.commitUpTo, List.filter_map,
    List.foldl_map, hl]
  have e1 : s.sched.entries.filter ((fun e => e.slot == Slot.current && e.start + e.length == g) ∘ fun e : Entry =>
      if e.slot = Slot.current ∧ e.state = EntryState.booked ∧ e.start ≤ g + s.limits.commitLead then
        { e with state := .committed } else e) =
      s.sched.entries.filter fun e => e.slot == .current && e.start + e.length == g := by
    congr 1; funext e; simp only [Function.comp]; split <;> rfl
  rw [e1]
  congr 1
  funext h e
  split <;> rfl

theorem grainWork_path (s : State) (g : Nat) (i : Fin 4) :
    (s.grainWork g).path.get i = { s.path.get i with thermal := ((s.grainWork g).path.get i).thermal } := by
  have hp : (s.grainWork g).path = s.runHeld.path := by
    unfold State.grainWork; simp only [pollTick_frame, boostTick_frame, closeEntries_frame]
  rw [hp]
  obtain ⟨th, hh⟩ := runControllers_path s [] i
  have : s.runHeld.path.get i = { s.path.get i with thermal := th } := hh
  rw [this]

theorem grainWork_control {s : State} (h : ∀ z, (s.control.get z).presented = false) (g : Nat) :
    (s.grainWork g).control = s.control ∧ (s.grainWork g).path = s.path := by
  unfold State.grainWork
  simp only [pollTick_frame, boostTick_frame, closeEntries_frame]
  rw [runHeld_of_none h]
  exact ⟨rfl, rfl⟩

/-- A grain event's schedule, heat, controllers and paths are those of the grain's work. -/
theorem grainStep_work {s : State} (hg : s.timer.grain < 79) :
    s.grainStep.sched = (s.grainWork (s.timer.grain + 1)).sched ∧ s.grainStep.heat = (s.grainWork (s.timer.grain + 1)).heat ∧
      s.grainStep.control = (s.grainWork (s.timer.grain + 1)).control ∧
      s.grainStep.path = (s.grainWork (s.timer.grain + 1)).path := by
  rw [grainStep_cases hg]
  split
  · exact ⟨(windowEnd_frame _).2.2.1, (windowEnd_frame _).2.2.2.2.1, (windowEnd_frame _).2.2.2.2.2.2.1,
      (windowEnd_frame _).2.2.2.2.2.2.2.1⟩
  · exact ⟨rfl, rfl, rfl, rfl⟩

/-! ### The SAFE request of a turn -/

/-- A SAFE request reads the schedule, the grain, the tables, the length of the Originated Queue and the supply state alone. -/
theorem takeRequest_safe_congr {u v : State} (h1 : v.sched = u.sched) (h2 : v.timer.grain = u.timer.grain) (h3 : v.tables = u.tables)
    (h4 : v.link.orig.length = u.link.orig.length) (h5 : v.supply = u.supply) :
    (v.takeRequest .safe).supply = (u.takeRequest .safe).supply := by
  have hl : v.listed .safe = u.listed .safe := by
    unfold State.listed State.isListed State.freeSlots State.amendLeadOf State.targetCode State.bankFor
    simp only [h1, h2, h3, h4, h5]
  rw [takeRequest_supply_of_listed, takeRequest_supply_of_listed, hl, h5]

theorem queuePolls_orig (s : State) : s.link.orig <+: s.queuePolls.link.orig := by
  have one : ∀ (s : State) z, s.link.orig <+: (s.queuePoll z).link.orig := by
    intro s z; unfold State.queuePoll; split
    · exact ⟨_, rfl⟩
    · exact ⟨[], by simp⟩
  unfold State.queuePolls
  split
  · exact ⟨[], by simp⟩
  · clear * - one
    generalize Four.indices = zs
    induction zs generalizing s with
    | nil => exact ⟨[], by simp⟩
    | cons z zs ih => exact (one s z).trans (ih _)

theorem boostTurn_orig (s : State) : s.link.orig <+: s.boostTurn.link.orig := by
  have rel : ∀ (s : State) b, s.link.orig <+: (s.attemptRelease b).link.orig := by
    intro s b; unfold State.attemptRelease; split
    · exact ⟨_, rfl⟩
    · exact ⟨[], by simp⟩
  have req : ∀ (s : State) b, s.link.orig <+: (s.attemptRequest b).link.orig := by
    intro s b; unfold State.attemptRequest; split
    · exact ⟨_, rfl⟩
    · exact ⟨[], by simp⟩
  have h := (rel s.boostCount s.quietReleaseDue).trans (req _ ((s.boostCount.attemptRelease s.quietReleaseDue).boost.state == .ready && s.quietReleaseDue))
  rw [(boostCount_frame s).2.1] at h
  exact h

end Sys2Proof.Machine
end

