-- ==== Sys2Proof/Laws/Grants.lean ====
section
/-! SUPPORT. Grants and admissions: what bounds the code an order is granted, what the fitting inverse finds, and what an
admission leaves of the link. -/

namespace Sys2Proof.Machine

theorem clampTo_le {lo hi x : Int} (h : lo ≤ hi) : clampTo lo hi x ≤ hi := max_le h (min_le_left _ _)

theorem le_clampTo (lo hi x : Int) : lo ≤ clampTo lo hi x := le_max_left _ _

theorem muteCode_le_clampRequest (x : Int) : muteCode ≤ clampRequest x := by
  unfold clampRequest
  split
  · exact le_refl _
  · exact le_trans (by decide) (le_clampTo minCode maxCode x)

/-- R12: P1 does not exceed the request. -/
theorem firstGrant_le (t : CeilingTerms) (request : Int) : t.firstGrant request ≤ request :=
  max_le (min_le_left _ _) (min_le_left _ _)

theorem lowerBound_le (t : CeilingTerms) (request : Int) : t.lowerBound request ≤ t.firstGrant request := min_le_left _ _

/-- R5: what the walk down finds. -/
theorem fitDown_some {f : Int → Int} {h lo p : Int} {n : Nat} (e : fitDown f h lo n = some p) :
    lo ≤ p ∧ p ≤ lo + n ∧ f p ≤ h := by
  induction n with
  | zero =>
    unfold fitDown at e
    split at e
    · injection e with e; subst e; exact ⟨le_refl _, by simp, by assumption⟩
    · cases e
  | succ n ih =>
    unfold fitDown at e
    split at e
    · injection e with e; subst e; exact ⟨by omega, le_refl _, by assumption⟩
    · obtain ⟨a, b, c⟩ := ih e; exact ⟨a, by push_cast; omega, c⟩

/-- R5: a fit lies in its range, and the curve there does not exceed the headroom. -/
theorem fitInverse_some {f : Int → Int} {h lo hi p : Int} (e : fitInverse f h lo hi = some p) :
    lo ≤ p ∧ p ≤ hi ∧ f p ≤ h := by
  unfold fitInverse at e
  split at e
  · obtain ⟨a, b, c⟩ := fitDown_some e; exact ⟨a, by omega, c⟩
  · cases e

/-- What a fit grants: the mute code, P1, or a code from L to P1. -/
theorem fit_grant (s : State) (w : WorkingRecord) :
    (s.fit w).grant = muteCode ∨ (s.fit w).grant = w.firstGrant ∨
      (w.lower ≤ (s.fit w).grant ∧ (s.fit w).grant ≤ w.firstGrant) := by
  unfold State.fit
  dsimp only
  split
  · exact Or.inl rfl
  · split
    · exact Or.inr (Or.inl rfl)
    · split
      · exact Or.inr (Or.inl rfl)
      · split
        · rename_i h
          obtain ⟨a, b, _⟩ := fitInverse_some h
          exact Or.inr (Or.inr ⟨a, b⟩)
        · exact Or.inl rfl

/-- Law 1 for one fit. -/
theorem fit_grant_le (s : State) (w : WorkingRecord) (h : muteCode ≤ w.order.request) : (s.fit w).grant ≤ w.order.request := by
  have hf : w.firstGrant ≤ w.order.request := firstGrant_le _ _
  rcases fit_grant s w with e | e | ⟨_, e⟩ <;> omega

/-- Law 1 for one admission. -/
theorem admission_grant_le (s : State) (o : Order) (h : muteCode ≤ o.request) : (s.admission o).2 ≤ o.request :=
  fit_grant_le _ _ h

/-- Law 1 for a BURST. -/
theorem takeBurst_le (s : State) (p : Packet) (straps : BitVec 2) : (s.takeBurst p straps).2 ≤ clampRequest p.power := by
  have hr : ∀ (u : State) f, (u.refuseBurst p f).2 ≤ clampRequest p.power := fun u f => min_le_left _ _
  have hb : ∀ slot late, (s.bookBurst p (burstOrder p slot late)).2 ≤ clampRequest p.power := by
    intro slot late
    unfold State.bookBurst
    split
    · exact hr _ _
    · dsimp only
      split
      · exact hr _ _
      · exact admission_grant_le _ (burstOrder p slot late) (muteCode_le_clampRequest _)
  unfold State.takeBurst
  split
  · exact min_le_left _ _
  · dsimp only
    split
    · exact hb _ _
    · exact hb _ _
    · exact hr _ _

/-- Law 1 for a REVISE or received AMEND. -/
theorem takeRevise_le (s : State) (p : Packet) (straps : BitVec 2) : (s.takeRevise p straps).2 ≤ clampRequest p.power := by
  unfold State.takeRevise
  dsimp only
  split
  · exact min_le_left _ _
  · split
    · exact min_le_left _ _
    · rename_i e _
      split
      · exact admission_grant_le _ (e.revised _) (muteCode_le_clampRequest _)
      · unfold State.lowerCommitted
        split
        · exact le_refl _
        · simp only; omega

/-! ### An order taken -/

/-- The order next to be taken is taken whole when it is of the row's kind. -/
theorem takeOrder_of {s : State} {p : Packet} {kind : Nat} {straps : BitVec 2}
    {take : State → Packet → BitVec 2 → State × Int} (hn : s.link.nextOrder = some p) (hk : p.kind = kind) :
    s.takeOrder kind straps take =
      (take { s with pins := { s.pins with straps := straps } } p straps).1.writePower
        (take { s with pins := { s.pins with straps := straps } } p straps).2 := by
  simp only [State.takeOrder, hn, hk, if_true]

/-! ### The link through an admission -/

theorem boostDemand_link (s : State) : s.link.sameBut s.boostDemand.link := by
  unfold State.boostDemand
  (repeat' split) <;> rfl

theorem amendSerial_link (s : State) (n : Nat) (code : Int) : s.link.sameBut (s.amendSerial n code).link := by
  unfold State.amendSerial
  split <;> rfl

theorem commitPlan_link (plan : List (Nat × Int)) (s : State) : s.link.sameBut (s.commitPlan plan).link := by
  induction plan generalizing s with
  | nil => rfl
  | cons a rest ih => exact Link.sameBut_trans (amendSerial_link s a.1 a.2) (ih _)

theorem admission_link (s : State) (o : Order) : s.link.sameBut (s.admission o).1.link := by
  unfold State.admission
  refine Link.sameBut_trans ?_ (commitPlan_link _ _)
  split
  · exact boostDemand_link s
  · rfl

theorem bookBurst_link (s : State) (p : Packet) (o : Order) : s.link.sameBut (s.bookBurst p o).1.link := by
  unfold State.bookBurst
  split
  · rfl
  · have h := (supersede_frame s o).2.1
    dsimp only
    split
    · rw [(refuseBurst_frame _ _ _).2.1, h]; rfl
    · rw [← h]; exact admission_link _ o

theorem takeBurst_link (s : State) (p : Packet) (straps : BitVec 2) : s.link.sameBut (s.takeBurst p straps).1.link := by
  unfold State.takeBurst
  split
  · rfl
  · dsimp only
    split
    · exact bookBurst_link _ _ _
    · exact bookBurst_link _ _ _
    · rfl

theorem takeRevise_link (s : State) (p : Packet) (straps : BitVec 2) : s.link.sameBut (s.takeRevise p straps).1.link := by
  unfold State.takeRevise
  dsimp only
  split
  · rfl
  · split
    · rfl
    · rename_i e _
      split
      · exact admission_link (s.freeEntry e) _
      · rw [(lowerCommitted_frame _ _ _).2.1]; rfl

theorem Link.sameBut_down {a b : Link} (h : a.sameBut b) : b.down = a.down := by rw [show b = { a with orig := b.orig } from h]

theorem Link.sameBut_up {a b : Link} (h : a.sameBut b) : b.up = a.up := by rw [show b = { a with orig := b.orig } from h]

end Sys2Proof.Machine
end

