-- ==== Sys2Proof/Laws/Queue.lean ====
section
/-! SUPPORT. The Originated Queue: packets held and slots claimed together stay within the twelve places, user by user. -/

namespace Sys2Proof.Machine

/-- The packets held and the slots claimed of the Originated Queue. -/
def State.origUse (s : State) : Nat := s.link.orig.length + s.supply.claimed

theorem freeSlots_eq (s : State) : s.freeSlots = 12 - s.origUse := by
  simp only [State.freeSlots, origCapacity, State.origUse]; omega

theorem origUse_of {s t : State} (ho : t.link.orig = s.link.orig) (hr : t.supply.requests = s.supply.requests) :
    t.origUse = s.origUse := by
  simp only [State.origUse, Headroom.claimed, ho, hr]

theorem origUse_place (s : State) (d : Draft) : ({ s with link := s.link.place d } : State).origUse = s.origUse + 1 := by
  simp only [State.origUse, Link.place, List.length_append, List.length_cons, List.length_nil]; omega

/-! ### Each user of the queue -/

theorem boostDemand_use {s : State} (h : s.origUse ≤ 12) : s.boostDemand.origUse ≤ 12 := by
  unfold State.boostDemand
  split
  · split
    · rename_i hf
      have := origUse_place s (Draft.boostRequest s.limits.supplyTag)
      rw [freeSlots_eq] at hf
      show State.origUse { s with link := s.link.place _ } ≤ 12
      omega
    · exact h
  · exact h

theorem releaseNow_use {s : State} (h : s.origUse ≤ 12) (left : Bool) : (s.releaseNow left).origUse ≤ 12 := by
  unfold State.releaseNow
  split
  · rename_i hf
    have := origUse_place s (Draft.boostRelease s.limits.supplyTag)
    rw [freeSlots_eq] at hf
    show State.origUse { s with link := s.link.place _ } ≤ 12
    omega
  · exact h

theorem takeReady_use {s : State} (h : s.origUse ≤ 12) : s.takeReady.origUse ≤ 12 := by
  unfold State.takeReady
  (repeat' split) <;> first | exact h | exact releaseNow_use h _

theorem attemptRelease_use {s : State} (h : s.origUse ≤ 12) (q : Bool) : (s.attemptRelease q).origUse ≤ 12 := by
  unfold State.attemptRelease
  split
  · rename_i hf
    rw [Bool.and_eq_true, decide_eq_true_iff, freeSlots_eq] at hf
    have := origUse_place s (Draft.boostRelease s.limits.supplyTag)
    show State.origUse { s with link := s.link.place _ } ≤ 12
    omega
  · exact h

theorem attemptRequest_use {s : State} (h : s.origUse ≤ 12) (q : Bool) : (s.attemptRequest q).origUse ≤ 12 := by
  unfold State.attemptRequest
  split
  · rename_i hf
    rw [Bool.and_eq_true, decide_eq_true_iff, freeSlots_eq] at hf
    have := origUse_place s (Draft.boostRequest s.limits.supplyTag)
    show State.origUse { s with link := s.link.place _ } ≤ 12
    omega
  · exact h

theorem boostTurn_use {s : State} (h : s.origUse ≤ 12) : s.boostTurn.origUse ≤ 12 := by
  refine attemptRequest_use (attemptRelease_use ?_ _) _
  rwa [origUse_of (s := s) (by simp) (by simp)]

theorem queuePoll_use {s : State} (h : s.origUse ≤ 12) (z : Fin 4) : (s.queuePoll z).origUse ≤ 12 := by
  unfold State.queuePoll
  split
  · rename_i hf
    have := origUse_place s (Draft.poll s.limits.senseTag z)
    rw [freeSlots_eq] at hf
    show State.origUse { s with link := s.link.place _ } ≤ 12
    omega
  · exact h

theorem queuePollList_use (zs : List (Fin 4)) {s : State} (h : s.origUse ≤ 12) : (zs.foldl State.queuePoll s).origUse ≤ 12 := by
  induction zs generalizing s with
  | nil => exact h
  | cons z zs ih => exact ih (queuePoll_use h z)

theorem queuePolls_use {s : State} (h : s.origUse ≤ 12) : s.queuePolls.origUse ≤ 12 := by
  unfold State.queuePolls
  split
  · exact h
  · exact queuePollList_use _ h

theorem takeRequest_use {s : State} (h : s.origUse ≤ 12) (k : RequestKind) : (s.takeRequest k).origUse ≤ 12 := by
  have := takeRequest_claimed s k h
  simpa [State.origUse] using this

theorem safeRequest_use {s : State} (h : s.origUse ≤ 12) (b : Bool) : (s.safeRequest b).origUse ≤ 12 := by
  unfold State.safeRequest
  split
  · exact takeRequest_use h _
  · exact h

theorem askQueue_use {s : State} (h : s.origUse ≤ 12) (q : QueueOrder) (b : Bool) : (s.askQueue q b).origUse ≤ 12 := by
  unfold State.askQueue
  cases q
  · exact safeRequest_use (boostTurn_use (queuePolls_use h)) b
  · exact boostTurn_use (safeRequest_use (queuePolls_use h) b)
  · exact safeRequest_use (queuePolls_use (boostTurn_use h)) b
  · exact queuePolls_use (safeRequest_use (boostTurn_use h) b)
  · exact boostTurn_use (queuePolls_use (safeRequest_use h b))
  · exact queuePolls_use (boostTurn_use (safeRequest_use h b))

theorem frameTurn_use {s : State} (h : s.origUse ≤ 12) (turn : Turn) (o : TurnOrder) : (s.frameTurn turn o).origUse ≤ 12 := by
  refine askQueue_use ?_ _ _
  rwa [origUse_of (s := s) (by simp) (by rw [turnWork_supply])]

theorem amendSerial_use (s : State) (n : Nat) (code : Int) : (s.amendSerial n code).origUse ≤ s.origUse + 1 := by
  unfold State.amendSerial
  split
  · rename_i e _
    exact le_of_eq (origUse_place s (Draft.amend e.tag e.path code))
  · omega

theorem commitPlan_use (plan : List (Nat × Int)) (s : State) : (s.commitPlan plan).origUse ≤ s.origUse + plan.length := by
  induction plan generalizing s with
  | nil => simp [State.commitPlan]
  | cons a rest ih =>
    have h1 := ih (s.amendSerial a.1 a.2)
    have h2 := amendSerial_use s a.1 a.2
    show ((s.amendSerial a.1 a.2).commitPlan rest).origUse ≤ _
    simp only [List.length_cons]
    omega

theorem planWalk_length (c : Int) (lo len : Nat) (cur : Int) (cs : List Candidate) (m : List Int) :
    (planWalk c lo len cur cs m).2.length ≤ cs.length := by
  induction cs generalizing m with
  | nil => simp [planWalk]
  | cons a cs ih =>
    unfold planWalk
    split
    · simp
    · dsimp only
      have := ih (addRows m a.row a.length (a.current (plannedCode c lo len cur m a) - a.current a.granted))
      split <;> simp only [List.length_cons] <;> omega

theorem candidates_length (s : State) (w : WorkingRecord) : (s.candidates w).length ≤ s.freeSlots := by
  unfold State.candidates
  split
  · simp
  · simp

theorem fit_plan_length (s : State) (w : WorkingRecord) : (s.fit w).plan.length ≤ s.freeSlots := by
  unfold State.fit
  dsimp only
  have hc := candidates_length s w
  split
  · simp
  · split
    · simp
    · split
      · exact le_trans (planWalk_length _ _ _ _ _ _) hc
      · split
        · exact le_trans (planWalk_length _ _ _ _ _ _) hc
        · simp

theorem admission_use {s : State} (h : s.origUse ≤ 12) (o : Order) : (s.admission o).1.origUse ≤ 12 := by
  unfold State.admission
  dsimp only
  have hd : (if (s.workingRecord o).terms.demandsBoost o.request then s.boostDemand else s).origUse ≤ 12 := by
    split
    · exact boostDemand_use h
    · exact h
  generalize (if (s.workingRecord o).terms.demandsBoost o.request then s.boostDemand else s) = d at hd ⊢
  have h1 := commitPlan_use (d.fit (s.workingRecord o)).plan d
  have h2 := fit_plan_length d (s.workingRecord o)
  rw [freeSlots_eq] at h2
  show (d.commitPlan (d.fit (s.workingRecord o)).plan).origUse ≤ 12
  omega

theorem freeEntry_use (s : State) (e : Entry) : (s.freeEntry e).origUse = s.origUse := rfl

theorem supersede_use (s : State) (o : Order) : (s.supersede o).origUse = s.origUse := by
  unfold State.supersede
  generalize s.sched.overlapping o = es
  induction es generalizing s with
  | nil => rfl
  | cons e es ih => exact ih (s.freeEntry e)

theorem bookBurst_use {s : State} (h : s.origUse ≤ 12) (p : Packet) (o : Order) : (s.bookBurst p o).1.origUse ≤ 12 := by
  unfold State.bookBurst
  split
  · exact h
  · dsimp only
    rw [← supersede_use s o] at h
    split
    · exact h
    · exact admission_use h o

theorem takeBurst_use {s : State} (h : s.origUse ≤ 12) (p : Packet) (straps : BitVec 2) :
    (s.takeBurst p straps).1.origUse ≤ 12 := by
  unfold State.takeBurst
  split
  · exact h
  · dsimp only
    split
    · exact bookBurst_use h _ _
    · exact bookBurst_use h _ _
    · exact h

theorem takeRevise_use {s : State} (h : s.origUse ≤ 12) (p : Packet) (straps : BitVec 2) :
    (s.takeRevise p straps).1.origUse ≤ 12 := by
  unfold State.takeRevise
  dsimp only
  split
  · exact h
  · split
    · exact h
    · rename_i e _
      split
      · exact admission_use (s := s.freeEntry e) h _
      · unfold State.lowerCommitted
        split <;> exact h

theorem makeRequested_use {s : State} (h : s.origUse ≤ 12) (k : Nat) : (s.makeRequested k).origUse ≤ 12 := by
  unfold State.makeRequested
  split
  · exact h
  · rename_i r hr
    split
    · exact h
    · rename_i n rest hi
      have hc := claimed_dropFirstItem s.supply k r n rest hr hi
      have hu : ({ s with supply := { s.supply with requests := dropFirstItem s.supply.requests k } } : State).origUse + 1 =
          s.origUse := by simp only [State.origUse]; omega
      revert hu
      generalize ({ s with supply := { s.supply with requests := dropFirstItem s.supply.requests k } } : State) = u
      intro hu
      dsimp only
      split
      · omega
      · rename_i e _
        split
        · refine le_of_eq_of_le (origUse_place u (Draft.amend e.tag e.path (u.targetCode r.kind e)) : _) ?_
          omega
        · omega

theorem boostSoftReset_use {s : State} (h : s.origUse ≤ 12) : s.boostSoftReset.origUse ≤ 12 := by
  unfold State.boostSoftReset
  dsimp only
  split
  · exact releaseNow_use (by exact h) _
  · exact h

theorem finishFirst_length (f : Packet → Packet) (l : List PassEntry) : (finishFirst f l).length = l.length := by
  induction l with
  | nil => rfl
  | cons e rest ih => unfold finishFirst; split <;> simp [ih]

theorem boostSoftReset_link (s : State) : s.link.sameBut s.boostSoftReset.link := by
  unfold State.boostSoftReset State.releaseNow
  dsimp only
  (repeat' split) <;> rfl

theorem takeReady_link (s : State) : s.link.sameBut s.takeReady.link := by
  unfold State.takeReady State.releaseNow
  (repeat' split) <;> rfl

theorem makeRequested_link (s : State) (k : Nat) : s.link.sameBut (s.makeRequested k).link := by
  unfold State.makeRequested
  dsimp only
  (repeat' split) <;> rfl

theorem takeTrip_requests (s : State) (p : Nat) (h : s.origUse ≤ 12) : (s.takeTrip p).origUse ≤ 12 := by
  unfold State.takeTrip
  split
  · exact h
  · dsimp only
    split
    · exact h
    · rename_i i _ _
      unfold State.takeRequest?
      cases (s.path.get i).tripRequest i with
      | none => exact h
      | some k => exact takeRequest_use (by exact h) k

theorem windowEnd_use {s : State} (h : s.origUse ≤ 12) : s.windowEnd.origUse ≤ 12 := by
  unfold State.windowEnd
  refine safeRequest_use ?_ _
  exact h

theorem grainStep_use {s : State} (h : s.origUse ≤ 12) : s.grainStep.origUse ≤ 12 := by
  by_cases hg : s.timer.grain < 79
  · have hw : (s.grainWork (s.timer.grain + 1)).origUse ≤ 12 :=
      (origUse_of (by rw [(grainWork_frame _ _).2.1]) (by rw [(grainWork_frame _ _).2.2.1])).trans_le h
    rw [grainStep_cases hg]
    split
    · exact windowEnd_use hw
    · exact hw
  · unfold State.grainStep; rwa [if_neg hg]

/-! ### The users of the Originated Queue at a turn -/

/-- The due polls of a list of zones, answered in its order: as many are queued as there are free slots, and those zones
wait; the rest stay as they were. -/
theorem queuePollList_eq (zs : List (Fin 4)) (hn : zs.Nodup) (s : State) :
    (zs.foldl State.queuePoll s).link.orig = s.link.orig ++
        ((zs.filter fun z => (s.sense.get z).pollDue).take s.freeSlots).map (Draft.poll s.limits.senseTag) ∧
    ∀ z, (zs.foldl State.queuePoll s).sense.get z =
      if z ∈ (zs.filter fun z => (s.sense.get z).pollDue).take s.freeSlots then (s.sense.get z).polled s.limits.pollWait
      else s.sense.get z := by
  induction zs generalizing s with
  | nil => simp
  | cons y zs ih =>
    obtain ⟨hy, hn'⟩ := List.nodup_cons.1 hn
    obtain ⟨h1, h2⟩ := ih hn' (s.queuePoll y)
    rw [List.foldl_cons]
    have hlim : (s.queuePoll y).limits = s.limits := by simp [State.limits, State.bankFor]
    have hfil : (zs.filter fun z => ((s.queuePoll y).sense.get z).pollDue) = zs.filter fun z => (s.sense.get z).pollDue := by
      apply List.filter_congr
      intro z hz
      have hzy : z ≠ y := fun h => hy (h ▸ hz)
      unfold State.queuePoll
      split
      · simp only [Four.get_set]; rw [if_neg hzy]
      · rfl
    rw [hlim, hfil] at h1 h2
    by_cases hd : (s.sense.get y).pollDue = true
    · by_cases hf : 0 < s.freeSlots
      · have he : s.queuePoll y = { s with
            sense := s.sense.set y ((s.sense.get y).polled s.limits.pollWait)
            link := s.link.place (Draft.poll s.limits.senseTag y) } := by
          unfold State.queuePoll; exact if_pos ⟨hd, hf⟩
        have hfs : (s.queuePoll y).freeSlots = s.freeSlots - 1 := by
          rw [he]; simp only [State.freeSlots, Link.place, List.length_append, List.length_cons, List.length_nil]; omega
        obtain ⟨n, hN⟩ : ∃ n, s.freeSlots = n + 1 := ⟨s.freeSlots - 1, by omega⟩
        rw [hfs, hN] at h1 h2
        simp only [Nat.add_sub_cancel] at h1 h2
        rw [List.filter_cons_of_pos (p := fun z => (s.sense.get z).pollDue) hd, hN, List.take_succ_cons]
        refine ⟨?_, fun z => ?_⟩
        · rw [h1, he]; simp [Link.place]
        · rw [h2 z]
          by_cases hzy : z = y
          · subst hzy
            have hnm : z ∉ (zs.filter fun z => (s.sense.get z).pollDue).take n := fun h =>
              hy (List.mem_of_mem_filter (List.mem_of_mem_take h))
            rw [if_neg hnm, if_pos (by simp), he]
            simp
          · have : (s.queuePoll y).sense.get z = s.sense.get z := by rw [he]; simp only [Four.get_set]; rw [if_neg hzy]
            simp [this, hzy]
      · have he : s.queuePoll y = s := by unfold State.queuePoll; exact if_neg (by simp [hf])
        rw [he] at h1 h2 ⊢
        have h0 : s.freeSlots = 0 := by omega
        simpa [h0] using And.intro h1 h2
    · have he : s.queuePoll y = s := by unfold State.queuePoll; exact if_neg (by simp [hd])
      rw [he] at h1 h2 ⊢
      rw [List.filter_cons_of_neg (p := fun z => (s.sense.get z).pollDue) hd]
      exact ⟨h1, h2⟩

/-- The due polls of a turn (R82). -/
theorem queuePolls_eq {s : State} (hm : s.timer.mode ≠ .unset) :
    s.queuePolls.link.orig = s.link.orig ++
        ((Four.indices.filter fun z => (s.sense.get z).pollDue).take s.freeSlots).map (Draft.poll s.limits.senseTag) ∧
    ∀ z, s.queuePolls.sense.get z =
      if z ∈ (Four.indices.filter fun z => (s.sense.get z).pollDue).take s.freeSlots then
        (s.sense.get z).polled s.limits.pollWait
      else s.sense.get z := by
  have : s.queuePolls = Four.indices.foldl State.queuePoll s := by unfold State.queuePolls; exact if_neg hm
  rw [this]
  exact queuePollList_eq _ (by decide) s

/-- A due poll that is not queued finds the Originated Queue full. -/
theorem queuePolls_full {s : State} (hm : s.timer.mode ≠ .unset) {z : Fin 4} (hd : (s.sense.get z).pollDue = true)
    (hz : z ∉ (Four.indices.filter fun z => (s.sense.get z).pollDue).take s.freeSlots) : 12 ≤ s.queuePolls.origUse := by
  have hl : s.freeSlots ≤ (Four.indices.filter fun z => (s.sense.get z).pollDue).length := by
    by_contra h
    rw [List.take_of_length_le (by omega)] at hz
    exact hz (List.mem_filter.2 ⟨by fin_cases z <;> simp [Four.indices], hd⟩)
  have ho := (queuePolls_eq hm).1
  have hs : s.queuePolls.supply = s.supply := by simp
  simp only [State.origUse, ho, hs, List.length_append, List.length_map, List.length_take, State.freeSlots, origCapacity] at hl ⊢
  omega



theorem safeRequest_orig (s : State) (b : Bool) : s.link.orig <+: (s.safeRequest b).link.orig := by
  rw [(safeRequest_frame s b).2.1]

theorem safeRequest_use_mono (s : State) (b : Bool) : s.origUse ≤ (s.safeRequest b).origUse := by
  have hl := (safeRequest_frame s b).2.1
  unfold State.safeRequest at hl ⊢
  split
  · rcases takeRequest_cases s .safe with ⟨_, e⟩ | ⟨_, e⟩
    · rw [e]
    · rw [e]; simp only [State.origUse, claimed_append]; omega
  · exact le_refl _

theorem orig_use_mono {s t : State} (h : s.link.orig <+: t.link.orig) (hs : t.supply = s.supply) : s.origUse ≤ t.origUse := by
  simp only [State.origUse, hs]
  have := h.length_le
  omega

theorem queuePolls_use_mono (s : State) : s.origUse ≤ s.queuePolls.origUse :=
  orig_use_mono (queuePolls_orig s) (by simp)

theorem boostTurn_use_mono (s : State) : s.origUse ≤ s.boostTurn.origUse :=
  orig_use_mono (boostTurn_orig s) (by simp)

/-- The state in which the due polls of a turn are answered, among the three users of the Originated Queue. -/
theorem askQueue_polls (s : State) (q : QueueOrder) (b : Bool) :
    ∃ u : State, u.sense = s.sense ∧ u.timer = s.timer ∧ u.tables = s.tables ∧
      (q = .pollBoostSafe ∨ q = .pollSafeBoost → u = s) ∧ (s.askQueue q b).sense = u.queuePolls.sense ∧
      u.queuePolls.link.orig <+: (s.askQueue q b).link.orig ∧ u.queuePolls.origUse ≤ (s.askQueue q b).origUse := by
  unfold State.askQueue
  cases q
  · exact ⟨s, rfl, rfl, rfl, fun _ => rfl, by simp only [safeRequest_frame, boostTurn_frame],
      (boostTurn_orig _).trans (safeRequest_orig _ b), (boostTurn_use_mono _).trans (safeRequest_use_mono _ b)⟩
  · exact ⟨s, rfl, rfl, rfl, fun _ => rfl, by simp only [safeRequest_frame, boostTurn_frame],
      (safeRequest_orig _ b).trans (boostTurn_orig _), (safeRequest_use_mono _ b).trans (boostTurn_use_mono _)⟩
  · exact ⟨s.boostTurn, by simp, by simp, by simp, by simp, by simp only [safeRequest_frame],
      safeRequest_orig _ b, safeRequest_use_mono _ b⟩
  · exact ⟨s.boostTurn.safeRequest b, by simp, by simp, by simp, by simp, rfl, ⟨[], by simp⟩, le_refl _⟩
  · exact ⟨s.safeRequest b, by simp, by simp, by simp, by simp, by simp only [boostTurn_frame], boostTurn_orig _,
      boostTurn_use_mono _⟩
  · exact ⟨(s.safeRequest b).boostTurn, by simp, by simp, by simp, by simp, rfl, ⟨[], by simp⟩, le_refl _⟩

/-- Due polls put POLL packets at the queue's tail, and nothing else. -/
theorem queuePolls_polls (s : State) :
    ∃ polls, s.queuePolls.link.orig = s.link.orig ++ polls ∧ ∀ d ∈ polls, d.kind = Kind.poll := by
  by_cases hm : s.timer.mode = .unset
  · exact ⟨[], by simp [State.queuePolls, hm], by simp⟩
  · refine ⟨_, (queuePolls_eq hm).1, fun d hd => ?_⟩
    obtain ⟨z, _, rfl⟩ := List.mem_map.1 hd
    rfl

/-- The state in which the Boost Controller acts at a turn: what stands in the Originated Queue, before and after its own
packets, and how many slots are claimed. -/
theorem askQueue_boostQueue (s : State) (q : QueueOrder) (b : Bool) :
    ∃ (u : State) (ahead after : List Draft), u.boost = s.boost ∧ u.tables = s.tables ∧
      u.link.orig = s.link.orig ++ ahead ∧ (∀ d ∈ ahead ++ after, d.kind = Kind.poll) ∧
      (pollsAhead q → after = []) ∧ (¬ pollsAhead q → ahead = []) ∧
      (safeAhead q → u.supply.claimed = (s.askQueue q b).supply.claimed) ∧
      (¬ safeAhead q → u.supply.claimed = s.supply.claimed) ∧
      (s.askQueue q b).boost = u.boostTurn.boost ∧ (s.askQueue q b).link.orig = u.boostTurn.link.orig ++ after := by
  have safe : ∀ s : State, (s.safeRequest b).link = s.link := fun s => (safeRequest_frame s b).2.1
  unfold State.askQueue pollsAhead safeAhead
  cases q
  · obtain ⟨ps, h, hk⟩ := queuePolls_polls s
    exact ⟨s.queuePolls, ps, [], by simp, by simp, h, by simpa using hk, fun _ => rfl, fun h => absurd (by decide) h,
      fun h => absurd h (by decide), fun _ => by simp, by simp, by simp⟩
  · obtain ⟨ps, h, hk⟩ := queuePolls_polls s
    exact ⟨s.queuePolls.safeRequest b, ps, [], by simp, by simp, by rw [safe, h], by simpa using hk, fun _ => rfl,
      fun h => absurd (by decide) h, fun _ => by simp only [boostTurn_frame], fun h => absurd (by decide) h, by simp, by simp⟩
  · obtain ⟨ps, h, hk⟩ := queuePolls_polls s.boostTurn
    exact ⟨s, [], ps, rfl, rfl, by simp, by simpa using hk, fun h => absurd h (by decide), fun _ => rfl,
      fun h => absurd h (by decide), fun _ => rfl, by simp, by rw [safe, h]⟩
  · obtain ⟨ps, h, hk⟩ := queuePolls_polls (s.boostTurn.safeRequest b)
    exact ⟨s, [], ps, rfl, rfl, by simp, by simpa using hk, fun h => absurd h (by decide), fun _ => rfl,
      fun h => absurd h (by decide), fun _ => rfl, by simp, by rw [h, safe]⟩
  · obtain ⟨ps, h, hk⟩ := queuePolls_polls (s.safeRequest b)
    exact ⟨(s.safeRequest b).queuePolls, ps, [], by simp, by simp, by rw [h, safe], by simpa using hk, fun _ => rfl,
      fun h => absurd (by decide) h, fun _ => by simp only [boostTurn_frame], fun h => absurd (by decide) h, by simp, by simp⟩
  · obtain ⟨ps, h, hk⟩ := queuePolls_polls (s.safeRequest b).boostTurn
    exact ⟨s.safeRequest b, [], ps, by simp, by simp, by rw [safe]; simp, by simpa using hk, fun h => absurd h (by decide),
      fun _ => rfl, fun _ => by simp only [queuePolls_frame, boostTurn_frame], fun h => absurd (by decide) h, by simp, h⟩

end Sys2Proof.Machine
end

