-- ==== Sys2Proof/Laws/Schedule.lean ====
section
/-! SUPPORT. The Burst Schedule: what keeps its entries apart and in booking order, operation by operation; the shape of the
supply state. -/

namespace Sys2Proof.Machine

/-! ### The Burst Schedule -/

theorem find_mem {c : Schedule} {tag : Nat} {path : Fin 4} {e : Entry} (h : c.find tag path = some e) : e ∈ c.entries :=
  List.mem_reverse.1 (List.mem_of_find?_eq_some h)

theorem bySerial_mem {c : Schedule} {n : Nat} {e : Entry} (h : c.bySerial n = some e) : e ∈ c.entries ∧ e.serial = n :=
  ⟨List.mem_of_find?_eq_some h, by simpa using List.find?_some h⟩

theorem pairwise_apart {R : Entry → Entry → Prop} {l : List Entry} (h : l.Pairwise R) {x y : Entry} (hx : x ∈ l) (hy : y ∈ l)
    (hne : x ≠ y) : R x y ∨ R y x := by
  induction l with
  | nil => cases hx
  | cons a l ih =>
    rw [List.pairwise_cons] at h
    rcases List.mem_cons.1 hx with ex | hx <;> rcases List.mem_cons.1 hy with ey | hy
    · exact absurd (ex.trans ey.symm) hne
    · exact Or.inl (ex ▸ h.1 y hy)
    · exact Or.inr (ey ▸ h.1 x hx)
    · exact ih h.2 hx hy

/-- Serials tell the entries apart. -/
theorem Schedule.unique {c : Schedule} (h : c.sound) {x e : Entry} (hx : x ∈ c.entries) (he : e ∈ c.entries)
    (hxe : x.serial = e.serial) : x = e := by
  by_contra hne
  rcases pairwise_apart h.2.1 hx he hne with hh | hh <;> omega

/-- A schedule with some of its entries, in their order, is sound. -/
theorem Schedule.sound_sublist {c : Schedule} (h : c.sound) {es : List Entry} (hs : es.Sublist c.entries) {n : Nat}
    (hn : c.nextSerial ≤ n) : (⟨es, n⟩ : Schedule).sound :=
  ⟨hs.length_le.trans h.1, h.2.1.sublist hs, fun e he =>
    ⟨(h.2.2 e (hs.subset he)).1, lt_of_lt_of_le (h.2.2 e (hs.subset he)).2 hn⟩⟩

theorem Schedule.sound_remove {c : Schedule} (h : c.sound) (gone : Entry → Bool) : (c.remove gone).sound :=
  Schedule.sound_sublist h List.filter_sublist (le_refl _)

/-- Two entries that stand at the same place under the same serial. -/
def Entry.stands (e f : Entry) : Prop :=
  f.serial = e.serial ∧ f.path = e.path ∧ f.slot = e.slot ∧ f.start = e.start ∧ f.length = e.length

/-- A schedule whose entries are changed in their places is sound. -/
theorem Schedule.sound_map {c : Schedule} (h : c.sound) {f : Entry → Entry} (hf : ∀ e ∈ c.entries, e.stands (f e)) :
    (⟨c.entries.map f, c.nextSerial⟩ : Schedule).sound := by
  refine ⟨by simpa using h.1, ?_, ?_⟩
  · rw [List.pairwise_map]
    refine h.2.1.imp_of_mem fun {a b} ha hb hab => ?_
    obtain ⟨s1, p1, l1, t1, n1⟩ := hf a ha
    obtain ⟨s2, p2, l2, t2, n2⟩ := hf b hb
    simp only [Entry.collides] at hab ⊢
    rw [s1, s2, p1, p2, l1, l2, t1, t2, n1, n2]
    exact hab
  · intro e he
    obtain ⟨x, hx, rfl⟩ := List.mem_map.1 he
    obtain ⟨s1, p1, l1, t1, n1⟩ := hf x hx
    have := h.2.2 x hx
    simp only [Entry.spanOk] at this ⊢
    rw [s1, t1, n1]
    exact this

theorem Schedule.sound_commit {c : Schedule} (h : c.sound) (lead g : Nat) : (c.commitUpTo lead g).sound :=
  Schedule.sound_map h fun e _ => by
    simp only [Entry.stands]; split <;> exact ⟨rfl, rfl, rfl, rfl, rfl⟩

theorem Schedule.sound_update {c : Schedule} (h : c.sound) {e e' : Entry} (he : e ∈ c.entries) (hs : e.stands e') :
    (c.update e.serial fun _ => e').sound :=
  Schedule.sound_map h fun x hx => by
    have key : x.serial = e.serial → x = e := Schedule.unique h hx he
    simp only
    split
    · rename_i hxe
      rw [key hxe]; exact hs
    · exact ⟨rfl, rfl, rfl, rfl, rfl⟩

/-- At a turn every entry of the frame that ends is closed and the rest is relabelled. -/
theorem Schedule.sound_relabel {c : Schedule} (h : c.sound) : ((c.remove fun e => e.slot == .current).relabel).sound := by
  have hr := Schedule.sound_remove h fun e => e.slot == .current
  refine ⟨by simpa [Schedule.relabel] using hr.1, ?_, ?_⟩
  · simp only [Schedule.relabel]
    rw [List.pairwise_map]
    refine hr.2.1.imp_of_mem fun {a b} ha hb hab => ?_
    have hs : ∀ x ∈ (c.remove fun e => e.slot == .current).entries, x.slot = .next := by
      intro x hx
      have := (List.mem_filter.1 hx).2
      cases hsl : x.slot <;> simp_all
    simp only [Entry.collides, hs a ha, hs b hb] at hab ⊢
    simpa using hab
  · intro e he
    obtain ⟨x, hx, rfl⟩ := List.mem_map.1 he
    exact hr.2.2 x hx

/-- A new entry that meets none of those in the schedule joins a schedule that has a place. -/
theorem Schedule.sound_append {c : Schedule} (h : c.sound) {e : Entry} (hs : e.serial = c.nextSerial) (hl : c.entries.length < 32)
    (hk : e.spanOk) (hc : ∀ x ∈ c.entries, x.collides e = false) :
    (⟨c.entries ++ [e], c.nextSerial + 1⟩ : Schedule).sound := by
  refine ⟨by simp only [List.length_append, List.length_cons, List.length_nil]; omega, ?_, ?_⟩
  · rw [List.pairwise_append]
    refine ⟨h.2.1, by simp, fun a ha b hb => ?_⟩
    rw [List.mem_singleton.1 hb, hs]
    exact ⟨(h.2.2 a ha).2, hc a ha⟩
  · intro x hx
    rcases List.mem_append.1 hx with hx | hx
    · have := h.2.2 x hx; exact ⟨this.1, by simp only; omega⟩
    · rw [List.mem_singleton.1 hx, hs]; exact ⟨hk, by simp⟩

/-! ### The schedule through the operations -/

theorem lowered_stands (e : Entry) (b : Bank) (code : Int) (r : Reason) (n : Nat) : e.stands (e.lowered b code r n) :=
  ⟨rfl, rfl, rfl, rfl, rfl⟩

theorem amendSerial_sound {s : State} (h : s.sched.sound) (n : Nat) (code : Int) : (s.amendSerial n code).sched.sound := by
  unfold State.amendSerial
  split
  · rename_i e he
    exact Schedule.sound_update h (bySerial_mem he).1 (lowered_stands e _ _ _ _)
  · exact h

/-- What an amended schedule keeps of the entries: as many, at the same places under the same serials. -/
def Schedule.sameSpans (c d : Schedule) : Prop :=
  d.entries.map (fun e => (e.serial, e.path, e.slot, e.start, e.length)) =
      c.entries.map (fun e => (e.serial, e.path, e.slot, e.start, e.length)) ∧ d.nextSerial = c.nextSerial

theorem update_sameSpans {c : Schedule} {e e' : Entry} (hs : e.stands e') (he : ∀ x ∈ c.entries, x.serial = e.serial → x = e) :
    c.sameSpans (c.update e.serial fun _ => e') := by
  refine ⟨?_, rfl⟩
  simp only [Schedule.update, List.map_map]
  refine List.map_congr_left fun x hx => ?_
  simp only [Function.comp]
  split
  · rename_i hxe
    rw [he x hx hxe]
    obtain ⟨h1, h2, h3, h4, h5⟩ := hs
    simp [h1, h2, h3, h4, h5]
  · rfl

theorem commitPlan_sound {s : State} (h : s.sched.sound) (plan : List (Nat × Int)) :
    (s.commitPlan plan).sched.sound ∧ s.sched.sameSpans (s.commitPlan plan).sched := by
  induction plan generalizing s with
  | nil => exact ⟨h, rfl, rfl⟩
  | cons a rest ih =>
    have h1 := amendSerial_sound h a.1 a.2
    have h2 : s.sched.sameSpans (s.amendSerial a.1 a.2).sched := by
      unfold State.amendSerial
      split
      · rename_i e he
        exact update_sameSpans (lowered_stands e _ _ _ _) fun x hx hxe => Schedule.unique h hx (bySerial_mem he).1 hxe
      · exact ⟨rfl, rfl⟩
    obtain ⟨h3, h4⟩ := ih h1
    exact ⟨h3, h4.1.trans h2.1, h4.2.trans h2.2⟩

theorem sameSpans_length {c d : Schedule} (h : c.sameSpans d) : d.entries.length = c.entries.length := by
  have := congrArg List.length h.1; simpa using this

theorem sameSpans_mem {c d : Schedule} (h : c.sameSpans d) {x : Entry} (hx : x ∈ d.entries) :
    ∃ y ∈ c.entries, y.stands x := by
  have : (x.serial, x.path, x.slot, x.start, x.length) ∈ d.entries.map (fun e => (e.serial, e.path, e.slot, e.start, e.length)) :=
    List.mem_map.2 ⟨x, hx, rfl⟩
  rw [h.1] at this
  obtain ⟨y, hy, e⟩ := List.mem_map.1 this
  simp only [Prod.mk.injEq] at e
  exact ⟨y, hy, e.1.symm, e.2.1.symm, e.2.2.1.symm, e.2.2.2.1.symm, e.2.2.2.2.symm⟩

theorem stands_collides {x y e : Entry} (h : y.stands x) : x.collides e = y.collides e := by
  obtain ⟨h1, h2, h3, h4, h5⟩ := h
  simp only [Entry.collides, h2, h3, h4, h5]

/-- An order as the schedule sees it. -/
def Order.collides (o : Order) (e : Entry) : Bool := e.path == o.path && e.slot == o.slot && spansMeet e.start e.length o.start o.length

theorem admission_sound {s : State} (h : s.sched.sound) {o : Order} (hl : s.sched.entries.length < 32)
    (hk : 1 ≤ o.length ∧ o.start + o.length ≤ 80) (hc : ∀ x ∈ s.sched.entries, o.collides x = false) :
    (s.admission o).1.sched.sound := by
  unfold State.admission
  dsimp only
  have hd : (if (s.workingRecord o).terms.demandsBoost o.request then s.boostDemand else s).sched = s.sched := by
    split <;> simp
  generalize (if (s.workingRecord o).terms.demandsBoost o.request then s.boostDemand else s) = d at hd ⊢
  rw [← hd] at h hl hc
  obtain ⟨h1, h2⟩ := commitPlan_sound h (d.fit (s.workingRecord o)).plan
  have := Schedule.sound_append h1 (e := (s.workingRecord o).entry s.sched.nextSerial (d.fit (s.workingRecord o)).grant
    (d.fit (s.workingRecord o)).reason) (by rw [h2.2, hd]; rfl) (by rw [sameSpans_length h2]; exact hl) hk (fun x hx => by
      obtain ⟨y, hy, hyx⟩ := sameSpans_mem h2 hx
      rw [stands_collides hyx]
      exact hc y hy)
  exact this

theorem supersede_sched (s : State) (o : Order) :
    (s.supersede o).sched.entries.Sublist s.sched.entries ∧ (s.supersede o).sched.nextSerial = s.sched.nextSerial ∧
      ∀ x ∈ (s.supersede o).sched.entries, o.collides x = false := by
  have key : ∀ (es : List Entry) (s : State), (es.foldl State.freeEntry s).sched.entries.Sublist s.sched.entries ∧
      (es.foldl State.freeEntry s).sched.nextSerial = s.sched.nextSerial ∧
      ∀ x ∈ (es.foldl State.freeEntry s).sched.entries, ∀ e ∈ es, x.serial ≠ e.serial := by
    intro es
    induction es with
    | nil => intro s; exact ⟨List.Sublist.refl _, rfl, by simp⟩
    | cons a rest ih =>
      intro s
      obtain ⟨h1, h2, h3⟩ := ih (s.freeEntry a)
      refine ⟨h1.trans List.filter_sublist, h2, fun x hx e he => ?_⟩
      rcases List.mem_cons.1 he with rfl | he
      · have := (List.mem_filter.1 (h1.subset hx)).2
        simpa using this
      · exact h3 x hx e he
  obtain ⟨h1, h2, h3⟩ := key (s.sched.overlapping o) s
  refine ⟨h1, h2, fun x hx => ?_⟩
  by_contra hne
  have hx' := h1.subset hx
  exact h3 x hx x (List.mem_filter.2 ⟨hx', by simpa [Order.collides, and_assoc] using hne⟩) rfl

theorem bookBurst_sound {s : State} (h : s.sched.sound) (p : Packet) {o : Order} (hk : 1 ≤ o.length ∧ o.start + o.length ≤ 80) :
    (s.bookBurst p o).1.sched.sound := by
  unfold State.bookBurst
  split
  · exact h
  · obtain ⟨h1, h2, h3⟩ := supersede_sched s o
    have hs : (s.supersede o).sched.sound := Schedule.sound_sublist h h1 (le_of_eq h2.symm)
    dsimp only
    split
    · exact hs
    · rename_i hl
      simp only [scheduleCapacity, not_le] at hl
      exact admission_sound hs hl hk h3

theorem burstLength_ok {start length : Nat} (h : start ≤ 79) :
    1 ≤ burstLength start length ∧ start + burstLength start length ≤ 80 := by
  unfold burstLength
  dsimp only
  rw [if_pos h]
  omega

theorem timing_start {s : State} {slot : Option Slot} {start len : Nat}
    (h : s.timing slot start len = .normal ∨ s.timing slot start len = .late) : start ≤ 79 := by
  unfold State.timing at h
  split at h
  · simp at h
  · split at h
    · simp at h
    · omega

theorem takeBurst_sound {s : State} (h : s.sched.sound) (p : Packet) (straps : BitVec 2) :
    (s.takeBurst p straps).1.sched.sound := by
  unfold State.takeBurst
  split
  · exact h
  · dsimp only
    split
    · rename_i ht; exact bookBurst_sound h p (burstLength_ok (timing_start (Or.inl ht)))
    · rename_i ht; exact bookBurst_sound h p (burstLength_ok (timing_start (Or.inr ht)))
    · exact h

theorem freeEntry_sound {s : State} (h : s.sched.sound) (e : Entry) : (s.freeEntry e).sched.sound :=
  Schedule.sound_remove h _

theorem spansMeet_comm (a b c d : Nat) : spansMeet a b c d = spansMeet c d a b := by
  unfold spansMeet; rw [Bool.and_comm]

theorem collides_comm (e f : Entry) : e.collides f = f.collides e := by
  unfold Entry.collides
  rw [spansMeet_comm, Bool.eq_iff_iff]
  simp only [Bool.and_eq_true, beq_iff_eq]
  constructor <;> (rintro ⟨⟨a, b⟩, c⟩; exact ⟨⟨a.symm, b.symm⟩, c⟩)

theorem Schedule.sound_apart {c : Schedule} (h : c.sound) {x e : Entry} (hx : x ∈ c.entries) (he : e ∈ c.entries)
    (hne : x ≠ e) : x.collides e = false := by
  rcases pairwise_apart h.2.1 hx he hne with hh | hh
  · exact hh.2
  · rw [collides_comm]; exact hh.2

theorem takeRevise_sound {s : State} (h : s.sched.sound) (p : Packet) (straps : BitVec 2) :
    (s.takeRevise p straps).1.sched.sound := by
  unfold State.takeRevise
  dsimp only
  split
  · exact h
  · split
    · exact h
    · rename_i e he
      have hm := find_mem he
      split
      · have hlt : (s.freeEntry e).sched.entries.length < s.sched.entries.length := by
          refine lt_of_le_of_ne List.filter_sublist.length_le ?_
          intro heq
          have := List.filter_sublist.eq_of_length heq
          have hm' : e ∈ (s.freeEntry e).sched.entries := by rw [show (s.freeEntry e).sched.entries = _ from this]; exact hm
          have := (List.mem_filter.1 hm').2
          simp at this
        refine admission_sound (freeEntry_sound h e) (lt_of_lt_of_le hlt h.1) (h.2.2 e hm).1 (fun x hx => ?_)
        obtain ⟨hx1, hx2⟩ := List.mem_filter.1 hx
        have hne : x ≠ e := by rintro rfl; simp at hx2
        exact Schedule.sound_apart h hx1 hm hne
      · unfold State.lowerCommitted
        split
        · exact Schedule.sound_update h hm (lowered_stands e _ _ _ _)
        · exact h

theorem takeWithdraw_sound {s : State} (h : s.sched.sound) (p : Packet) : (s.takeWithdraw p).sched.sound := by
  unfold State.takeWithdraw
  split
  · split
    · exact freeEntry_sound h _
    · exact h
  · exact h

theorem makeRequested_sound {s : State} (h : s.sched.sound) (k : Nat) : (s.makeRequested k).sched.sound := by
  unfold State.makeRequested
  split
  · exact h
  · split
    · exact h
    · dsimp only
      split
      · exact h
      · rename_i e he
        split
        · exact Schedule.sound_update h (bySerial_mem he).1 (lowered_stands e _ _ _ _)
        · exact h

theorem grainWork_sched (s : State) (g : Nat) : (s.grainWork g).sched =
    (s.sched.commitUpTo s.limits.commitLead g).remove fun e => e.slot == .current && e.start + e.length == g := by
  unfold State.grainWork
  simp [State.closeEntries, State.limits, State.bankFor]

theorem grainStep_sound {s : State} (h : s.sched.sound) : s.grainStep.sched.sound := by
  by_cases hg : s.timer.grain < 79
  · have hw : (s.grainWork (s.timer.grain + 1)).sched.sound := by
      rw [grainWork_sched]; exact Schedule.sound_remove (Schedule.sound_commit h _ _) _
    rw [grainStep_cases hg]
    split
    · rw [(windowEnd_frame _).2.2.1]; exact hw
    · exact hw
  · unfold State.grainStep; rwa [if_neg hg]

/-! ### The supply state -/

@[simp] theorem addRows_length (m : List Int) (lo len : Nat) (d : Int) : (addRows m lo len d).length = m.length := by
  simp [addRows]

theorem shiftRows_length {m : List Int} (h : m.length = 160) : (shiftRows m).length = 160 := by
  simp [shiftRows, h]

/-- What an operation on the schedule may change of the supply state: rows, and requests in progress. -/
def Headroom.sameShape (h h' : Headroom) : Prop := h'.map.length = h.map.length ∧ h'.volts = h.volts ∧ h'.age = h.age

theorem Headroom.sound_of {h h' : Headroom} (hs : h.sound) (hh : h.sameShape h') : h'.sound :=
  ⟨hh.1.trans hs.1, hh.2.1 ▸ hs.2.1, hh.2.2 ▸ hs.2.2⟩

theorem Headroom.sameShape_trans {a b c : Headroom} (h : a.sameShape b) (g : b.sameShape c) : a.sameShape c :=
  ⟨g.1.trans h.1, g.2.1.trans h.2.1, g.2.2.trans h.2.2⟩

theorem Headroom.sameShape_refl (a : Headroom) : a.sameShape a := ⟨rfl, rfl, rfl⟩

theorem addSpan_shape (h : Headroom) (lo len : Nat) (d : Int) : h.sameShape (h.addSpan lo len d) :=
  ⟨by simp [Headroom.addSpan], rfl, rfl⟩

theorem amendSerial_shape (s : State) (n : Nat) (code : Int) : s.supply.sameShape (s.amendSerial n code).supply := by
  unfold State.amendSerial
  split
  · exact addSpan_shape _ _ _ _
  · exact ⟨rfl, rfl, rfl⟩

theorem commitPlan_shape (plan : List (Nat × Int)) (s : State) : s.supply.sameShape (s.commitPlan plan).supply := by
  induction plan generalizing s with
  | nil => exact ⟨rfl, rfl, rfl⟩
  | cons a rest ih => exact Headroom.sameShape_trans (amendSerial_shape s a.1 a.2) (ih _)

theorem admission_shape (s : State) (o : Order) : s.supply.sameShape (s.admission o).1.supply := by
  unfold State.admission
  dsimp only
  have hd : (if (s.workingRecord o).terms.demandsBoost o.request then s.boostDemand else s).supply = s.supply := by
    split <;> simp
  generalize (if (s.workingRecord o).terms.demandsBoost o.request then s.boostDemand else s) = d at hd ⊢
  rw [← hd]
  exact Headroom.sameShape_trans (commitPlan_shape _ d) (addSpan_shape _ _ _ _)

theorem supersede_shape (s : State) (o : Order) : s.supply.sameShape (s.supersede o).supply := by
  unfold State.supersede
  generalize s.sched.overlapping o = es
  induction es generalizing s with
  | nil => exact ⟨rfl, rfl, rfl⟩
  | cons e es ih => exact Headroom.sameShape_trans (addSpan_shape _ _ _ _) (ih (s.freeEntry e))

theorem takeBurst_shape (s : State) (p : Packet) (straps : BitVec 2) : s.supply.sameShape (s.takeBurst p straps).1.supply := by
  have hb : ∀ o, s.supply.sameShape (s.bookBurst p o).1.supply := by
    intro o
    unfold State.bookBurst
    split
    · exact ⟨rfl, rfl, rfl⟩
    · dsimp only
      split
      · exact supersede_shape s o
      · exact Headroom.sameShape_trans (supersede_shape s o) (admission_shape _ o)
  unfold State.takeBurst
  split
  · exact ⟨rfl, rfl, rfl⟩
  · dsimp only
    split
    · exact hb _
    · exact hb _
    · exact ⟨rfl, rfl, rfl⟩

theorem takeRevise_shape (s : State) (p : Packet) (straps : BitVec 2) : s.supply.sameShape (s.takeRevise p straps).1.supply := by
  unfold State.takeRevise
  dsimp only
  split
  · exact ⟨rfl, rfl, rfl⟩
  · split
    · exact ⟨rfl, rfl, rfl⟩
    · rename_i e _
      split
      · exact Headroom.sameShape_trans (addSpan_shape _ _ _ _) (admission_shape (s.freeEntry e) _)
      · unfold State.lowerCommitted
        split
        · exact addSpan_shape _ _ _ _
        · exact ⟨rfl, rfl, rfl⟩

theorem makeRequested_shape (s : State) (k : Nat) : s.supply.sameShape (s.makeRequested k).supply := by
  unfold State.makeRequested
  split
  · exact ⟨rfl, rfl, rfl⟩
  · split
    · exact ⟨rfl, rfl, rfl⟩
    · dsimp only
      split
      · exact ⟨rfl, rfl, rfl⟩
      · split
        · exact addSpan_shape _ _ _ _
        · exact ⟨rfl, rfl, rfl⟩

theorem takeRequest_shape (s : State) (k : RequestKind) : s.supply.sameShape (s.takeRequest k).supply := by
  rw [takeRequest_supply]; exact ⟨rfl, rfl, rfl⟩

theorem takeTrip_shape (s : State) (p : Nat) : s.supply.sameShape (s.takeTrip p).supply := by
  unfold State.takeTrip
  split
  · exact ⟨rfl, rfl, rfl⟩
  · dsimp only
    split
    · exact ⟨rfl, rfl, rfl⟩
    · unfold State.takeRequest?
      split
      · refine Headroom.sameShape_trans ?_ (takeRequest_shape _ _)
        exact ⟨rfl, rfl, rfl⟩
      · exact ⟨rfl, rfl, rfl⟩

theorem safeRequest_shape (s : State) (b : Bool) : s.supply.sameShape (s.safeRequest b).supply := by
  rw [safeRequest_supply]; exact ⟨rfl, rfl, rfl⟩

theorem windowEnd_shape (s : State) : s.supply.sameShape s.windowEnd.supply := by
  unfold State.windowEnd
  refine Headroom.sameShape_trans ?_ (safeRequest_shape _ _)
  exact ⟨rfl, rfl, rfl⟩

theorem grainStep_shape (s : State) : s.supply.sameShape s.grainStep.supply := by
  by_cases hg : s.timer.grain < 79
  · have hw : s.supply.sameShape (s.grainWork (s.timer.grain + 1)).supply := by
      rw [(grainWork_frame _ _).2.2.1]; exact ⟨rfl, rfl, rfl⟩
    rw [grainStep_cases hg]
    split
    · exact Headroom.sameShape_trans hw (windowEnd_shape _)
    · exact hw
  · unfold State.grainStep; rw [if_neg hg]; exact ⟨rfl, rfl, rfl⟩

end Sys2Proof.Machine
end

