-- ==== Sys2Proof/Laws/Admission.lean ====
section
/-! SUPPORT. Admissions: that the fit, the commitment of its plan and the booking are what the rules give (R50 to R56, R63). -/

namespace Sys2Proof.Machine

/-! ### The fitting inverse and least headrooms -/

theorem fitDown_spec (f : Int → Int) (h lo : Int) (n : Nat) :
    (∀ p, fitDown f h lo n = some p → lo ≤ p ∧ p ≤ lo + n ∧ f p ≤ h ∧ ∀ q, p < q → q ≤ lo + n → h < f q) ∧
    (fitDown f h lo n = none → ∀ p, lo ≤ p → p ≤ lo + n → h < f p) := by
  induction n with
  | zero =>
    unfold fitDown
    split
    · rename_i hf
      refine ⟨fun p hp => ?_, by simp⟩
      injection hp with hp; subst hp
      exact ⟨le_refl _, by simp, hf, fun q h1 h2 => by simp at h2; omega⟩
    · rename_i hf
      refine ⟨by simp, fun _ p h1 h2 => ?_⟩
      simp at h2
      have : p = lo := by omega
      subst this; exact not_le.1 hf
  | succ n ih =>
    unfold fitDown
    split
    · rename_i hf
      refine ⟨fun p hp => ?_, by simp⟩
      injection hp with hp; subst hp
      exact ⟨by omega, le_refl _, hf, fun q h1 h2 => by omega⟩
    · rename_i hf
      have hf' : h < f (lo + ((n + 1 : Nat) : Int)) := not_le.1 hf
      refine ⟨fun p hp => ?_, fun hn p h1 h2 => ?_⟩
      · obtain ⟨a, b, c, d⟩ := ih.1 p hp
        refine ⟨a, by push_cast; omega, c, fun q h1 h2 => ?_⟩
        by_cases e : q = lo + ((n + 1 : Nat) : Int)
        · rw [e]; exact hf'
        · exact d q h1 (by push_cast at h2 e; omega)
      · by_cases e : p = lo + ((n + 1 : Nat) : Int)
        · rw [e]; exact hf'
        · exact ih.2 hn p h1 (by push_cast at h2 e; omega)

/-- R5: the largest code of the range at which the curve is at most the headroom, or none when there is none. -/
theorem fitInverse_spec (f : Int → Int) (h lo hi : Int) :
    (∀ p, fitInverse f h lo hi = some p → lo ≤ p ∧ p ≤ hi ∧ f p ≤ h ∧ ∀ q, p < q → q ≤ hi → h < f q) ∧
    (fitInverse f h lo hi = none → ∀ p, lo ≤ p → p ≤ hi → h < f p) := by
  unfold fitInverse
  split
  · rename_i hle
    obtain ⟨a, b⟩ := fitDown_spec f h lo (hi - lo).toNat
    have e : lo + ((hi - lo).toNat : Int) = hi := by omega
    rw [e] at a b
    exact ⟨a, b⟩
  · exact ⟨by simp, fun _ p h1 h2 => by omega⟩

theorem le_leastOf {l : List Int} (h : l ≠ []) (x : Int) : x ≤ leastOf l ↔ ∀ y ∈ l, x ≤ y := by
  induction l with
  | nil => exact absurd rfl h
  | cons a rest ih =>
    cases rest with
    | nil => simp [leastOf]
    | cons b rest =>
      have := ih (by simp)
      simp only [leastOf, le_min_iff, this, List.forall_mem_cons]

theorem mem_spanRows {g lo len : Nat} : g ∈ spanRows lo len ↔ lo ≤ g ∧ g < lo + len := by
  simp only [spanRows, List.mem_map, List.mem_range]
  constructor
  · rintro ⟨i, hi, rfl⟩; omega
  · rintro ⟨h1, h2⟩; exact ⟨g - lo, by omega, by omega⟩

theorem fitsSpan_iff (ceiling : Int) (m : List Int) (lo len : Nat) (cur : Int) :
    fitsSpan ceiling m lo len cur = true ↔ rowsFit ceiling m lo len cur := by
  simp only [fitsSpan, List.all_eq_true, decide_eq_true_eq, mem_spanRows, rowsFit]
  exact ⟨fun h g a b => h g ⟨a, b⟩, fun h g ⟨a, b⟩ => h g a b⟩

theorem spanHeadroom_iff {ceiling : Int} {m : List Int} {lo len : Nat} {cur : Int} (h : 1 ≤ len) :
    cur ≤ spanHeadroom ceiling m lo len ↔ rowsFit ceiling m lo len cur := by
  unfold spanHeadroom
  have hne : ((spanRows lo len).map fun g => ceiling - rowOf m g) ≠ [] := by
    have : lo ∈ spanRows lo len := mem_spanRows.2 ⟨le_refl _, by omega⟩
    exact List.ne_nil_of_mem (List.mem_map_of_mem this)
  rw [le_leastOf hne]
  simp only [List.forall_mem_map, mem_spanRows, rowsFit]
  exact ⟨fun h g a b => h g ⟨a, b⟩, fun h g ⟨a, b⟩ => h g a b⟩

/-! ### Candidates -/

theorem amended_tables {s t : State} (h : t.tables = s.tables) (e : Entry) (code : Int) : t.currentOf e code = s.currentOf e code := by
  simp only [State.currentOf, State.bankFor, h]

@[simp] theorem asCandidate_current (s : State) (e : Entry) (code : Int) : (s.asCandidate e).current code = s.currentOf e code := rfl

/-- R51: the candidates the fit takes. -/
theorem candidates_are {s : State} (hs : s.sched.sound) {w : WorkingRecord} (hc : w.order.cls < 4) (hl : 1 ≤ w.order.length) :
    ∃ cs, s.candidatesAre w cs ∧ s.candidates w = cs.map s.asCandidate ∧ (∀ e ∈ cs, e ∈ s.sched.entries ∧
      (∃ g, e.row ≤ g ∧ g < e.row + e.length ∧ w.row ≤ g ∧ g < w.row + w.order.length)) ∧
      cs.Pairwise (fun a b => a.serial ≠ b.serial) := by
  unfold State.candidates
  by_cases hlate : w.order.late = true
  · rw [if_pos hlate]
    exact ⟨[], ⟨fun _ => rfl, fun h => by rw [hlate] at h; cases h⟩, rfl, by simp, by simp⟩
  · rw [if_neg hlate]
    dsimp only
    have hmem : ∀ e, e ∈ ([0, 1, 2].flatMap fun c => s.sched.entries.reverse.filter fun e => e.cls == c && s.isCandidate w e) ↔
        e ∈ s.sched.entries ∧ e.state = .booked ∧
        s.timer.grain + (s.bankFor e.slot).limits.amendLead ≤ e.row ∧ e.path ≠ w.order.path ∧ e.cls < w.order.cls ∧
        (∃ g, e.row ≤ g ∧ g < e.row + e.length ∧ w.row ≤ g ∧ g < w.row + w.order.length) ∧ e.lower < e.granted := by
      intro e
      simp only [List.mem_flatMap, List.mem_filter, List.mem_reverse, State.isCandidate, Bool.and_eq_true, beq_iff_eq,
        decide_eq_true_eq, bne_iff_ne, State.amendLeadOf, spansMeet]
      constructor
      · rintro ⟨c, hc', hm, he, ⟨⟨⟨⟨⟨h1, h2⟩, h3⟩, h4⟩, h5⟩, h6⟩⟩
        have hsp := (hs.2.2 e hm).1.1
        exact ⟨hm, h1, of_decide_eq_true h2, h3, h4, ⟨max e.row w.row, by omega, by omega, by omega, by omega⟩, h6⟩
      · rintro ⟨hm, h1, h2, h3, h4, ⟨g, g1, g2, g3, g4⟩, h6⟩
        refine ⟨e.cls, ?_, hm, rfl, ⟨⟨⟨⟨⟨h1, decide_eq_true h2⟩, h3⟩, h4⟩, ?_⟩, h6⟩⟩
        · have : e.cls < 3 := by omega
          simp; omega
        · exact ⟨by omega, by omega⟩
    have hpw : ([0, 1, 2].flatMap fun c => s.sched.entries.reverse.filter fun e => e.cls == c && s.isCandidate w e).Pairwise
        (fun a b => a.cls < b.cls ∨ (a.cls = b.cls ∧ b.serial < a.serial)) := by
      have hrev : s.sched.entries.reverse.Pairwise (fun a b => b.serial < a.serial) :=
        List.pairwise_reverse.2 (hs.2.1.imp fun h => h.1)
      rw [List.flatMap, List.pairwise_flatten]
      refine ⟨fun l hl => ?_, ?_⟩
      · obtain ⟨c, _, rfl⟩ := List.mem_map.1 hl
        refine (hrev.filter _).imp_of_mem fun {a b} ha hb hab => Or.inr ⟨?_, hab⟩
        have h1 := (List.mem_filter.1 ha).2
        have h2 := (List.mem_filter.1 hb).2
        simp only [Bool.and_eq_true, beq_iff_eq] at h1 h2
        omega
      · rw [List.pairwise_map]
        have : ([0, 1, 2] : List Nat).Pairwise (· < ·) := by decide
        refine this.imp fun {c d} hcd a ha b hb => Or.inl ?_
        have h1 := (List.mem_filter.1 ha).2
        have h2 := (List.mem_filter.1 hb).2
        simp only [Bool.and_eq_true, beq_iff_eq] at h1 h2
        omega
    refine ⟨_, ⟨fun h => absurd h hlate, fun _ => ⟨_, rfl, hpw, hmem⟩⟩, rfl, fun e he => ?_, ?_⟩
    · have := (hmem e).1 (List.mem_of_mem_take he)
      exact ⟨this.1, this.2.2.2.2.2.1⟩
    · refine (hpw.sublist (List.take_sublist _ _)).imp_of_mem fun {a b} ha hb h he => ?_
      have := Schedule.unique hs ((hmem a).1 (List.mem_of_mem_take ha)).1 ((hmem b).1 (List.mem_of_mem_take hb)).1 he
      subst this
      rcases h with h | ⟨_, h⟩ <;> exact absurd h (lt_irrefl _)

/-! ### The walk -/

theorem plannedCode_planned (s : State) {w : WorkingRecord} (target : Int) (m : List Int) {e : Entry}
    (hsh : ∃ g, e.row ≤ g ∧ g < e.row + e.length ∧ w.row ≤ g ∧ g < w.row + w.order.length) :
    s.planned w target m e (plannedCode s.supply.ceiling w.row w.order.length target m (s.asCandidate e)) := by
  unfold State.planned plannedCode
  dsimp only
  have hcar : ∀ q, s.currentOf e q ≤ leastOf (((spanRows w.row w.order.length).filter fun g =>
      (s.asCandidate e).row ≤ g && g < (s.asCandidate e).row + (s.asCandidate e).length).map fun g =>
        s.supply.ceiling - target - rowOf m g + (s.asCandidate e).current (s.asCandidate e).granted) ↔
      ∀ g, e.row ≤ g → g < e.row + e.length → w.row ≤ g → g < w.row + w.order.length →
        rowOf m g - s.currentOf e e.granted + s.currentOf e q + target ≤ s.supply.ceiling := by
    intro q
    obtain ⟨g0, a0, b0, c0, d0⟩ := hsh
    rw [le_leastOf]
    · simp only [List.forall_mem_map, List.mem_filter, mem_spanRows, Bool.and_eq_true, decide_eq_true_eq, asCandidate_current]
      constructor
      · intro h g a b c d
        have := h g ⟨⟨c, d⟩, a, b⟩
        simp only [State.asCandidate] at this
        omega
      · rintro h g ⟨⟨c, d⟩, a, b⟩
        have := h g a b c d
        simp only [State.asCandidate]
        omega
    · refine List.ne_nil_of_mem (List.mem_map_of_mem (List.mem_filter.2 ⟨mem_spanRows.2 ⟨c0, d0⟩, ?_⟩))
      simp [State.asCandidate, a0, b0]
  obtain ⟨h1, h2⟩ := fitInverse_spec (s.asCandidate e).current (leastOf (((spanRows w.row w.order.length).filter fun g =>
      (s.asCandidate e).row ≤ g && g < (s.asCandidate e).row + (s.asCandidate e).length).map fun g =>
        s.supply.ceiling - target - rowOf m g + (s.asCandidate e).current (s.asCandidate e).granted)) e.lower e.granted
  cases hf : fitInverse (s.asCandidate e).current (leastOf (((spanRows w.row w.order.length).filter fun g =>
      (s.asCandidate e).row ≤ g && g < (s.asCandidate e).row + (s.asCandidate e).length).map fun g =>
        s.supply.ceiling - target - rowOf m g + (s.asCandidate e).current (s.asCandidate e).granted)) (s.asCandidate e).lower
          (s.asCandidate e).granted with
  | some p =>
    obtain ⟨a, b, c, d⟩ := h1 p hf
    refine Or.inl ⟨a, b, (hcar p).1 c, fun q hq hq' hcon => ?_⟩
    exact absurd ((hcar q).2 hcon) (not_le.2 (d q hq hq'))
  | none =>
    refine Or.inr ⟨rfl, fun q hq hq' hcon => ?_⟩
    exact absurd ((hcar q).2 hcon) (not_le.2 (h2 hf q hq hq'))

/-- The walk the model makes is the walk of R52. -/
theorem planWalk_walk (s : State) {w : WorkingRecord} (target : Int) (cs : List Entry)
    (hsh : ∀ e ∈ cs, ∃ g, e.row ≤ g ∧ g < e.row + e.length ∧ w.row ≤ g ∧ g < w.row + w.order.length) (m : List Int) :
    ∃ plan ended, Walk s w target cs m plan ended ∧
      (planWalk s.supply.ceiling w.row w.order.length target (cs.map s.asCandidate) m).2 =
        plan.map (fun a => (a.1.serial, a.2)) ∧
      ((planWalk s.supply.ceiling w.row w.order.length target (cs.map s.asCandidate) m).1 = true ↔
        rowsFit s.supply.ceiling ended w.row w.order.length target) ∧ (plan.map Prod.fst).Sublist cs := by
  induction cs generalizing m with
  | nil =>
    by_cases h : rowsFit s.supply.ceiling m w.row w.order.length target
    · exact ⟨[], m, .fits h, rfl, by simp [planWalk, fitsSpan_iff], List.nil_sublist _⟩
    · exact ⟨[], m, .done h, rfl, by simp [planWalk, fitsSpan_iff], List.nil_sublist _⟩
  | cons e cs ih =>
    by_cases h : rowsFit s.supply.ceiling m w.row w.order.length target
    · refine ⟨[], m, .fits h, ?_, ?_, List.nil_sublist _⟩
      · simp [planWalk, (fitsSpan_iff _ _ _ _ _).2 h]
      · simp [planWalk, (fitsSpan_iff _ _ _ _ _).2 h, h]
    · have hb : fitsSpan s.supply.ceiling m w.row w.order.length target = false := by
        rw [Bool.eq_false_iff]; exact fun hh => h ((fitsSpan_iff _ _ _ _ _).1 hh)
      have hp := plannedCode_planned s target m (hsh e (by simp))
      have hw : ∀ xs, planWalk s.supply.ceiling w.row w.order.length target (s.asCandidate e :: xs) m =
          ((planWalk s.supply.ceiling w.row w.order.length target xs (addRows m e.row e.length
            (s.currentOf e (plannedCode s.supply.ceiling w.row w.order.length target m (s.asCandidate e)) -
              s.currentOf e e.granted))).1,
           if plannedCode s.supply.ceiling w.row w.order.length target m (s.asCandidate e) < e.granted then
             (e.serial, plannedCode s.supply.ceiling w.row w.order.length target m (s.asCandidate e)) ::
               (planWalk s.supply.ceiling w.row w.order.length target xs (addRows m e.row e.length
                 (s.currentOf e (plannedCode s.supply.ceiling w.row w.order.length target m (s.asCandidate e)) -
                   s.currentOf e e.granted))).2
           else (planWalk s.supply.ceiling w.row w.order.length target xs (addRows m e.row e.length
                 (s.currentOf e (plannedCode s.supply.ceiling w.row w.order.length target m (s.asCandidate e)) -
                   s.currentOf e e.granted))).2) := by
        intro xs; simp only [planWalk, hb, Bool.false_eq_true, if_false]; rfl
      generalize plannedCode s.supply.ceiling w.row w.order.length target m (s.asCandidate e) = code at hp hw
      obtain ⟨plan, ended, h1, h2, h3, h4⟩ := ih (fun e he => hsh e (List.mem_cons_of_mem _ he))
        (addRows m e.row e.length (s.currentOf e code - s.currentOf e e.granted))
      refine ⟨_, ended, .next h hp h1, ?_, ?_, ?_⟩
      · rw [List.map_cons, hw]
        dsimp only
        rw [h2]
        split <;> rfl
      · rw [List.map_cons, hw]; exact h3
      · split
        · simpa using h4
        · exact h4.trans (List.sublist_cons_self _ _)

/-! ### The fit -/

theorem floorHeadroom_iff (s : State) {w : WorkingRecord} (hl : 1 ≤ w.order.length) (cs : List Entry) (cur : Int) :
    cur ≤ floorHeadroom s.supply.ceiling s.supply.map w.row w.order.length (cs.map s.asCandidate) ↔
      ∀ g, w.row ≤ g → g < w.row + w.order.length → cur ≤ s.supply.ceiling - rowOf s.supply.map g +
        ((cs.filter fun e => e.row ≤ g && g < e.row + e.length).map
          fun e => s.currentOf e e.granted - s.currentOf e e.lower).sum := by
  unfold floorHeadroom
  rw [le_leastOf]
  · simp only [List.forall_mem_map, mem_spanRows, List.filter_map, List.map_map]
    exact ⟨fun h g a b => h g ⟨a, b⟩, fun h g ⟨a, b⟩ => h g a b⟩
  · exact List.ne_nil_of_mem (List.mem_map_of_mem (mem_spanRows.2 ⟨le_refl w.row, by omega⟩))

theorem headroomReason_ne (t : CeilingTerms) : t.headroomReason ≠ .mute := by
  unfold CeilingTerms.headroomReason; split
  · simp
  · split <;> simp

theorem lesser_ne {c : Int × Reason} {v : Int} {r : Reason} (h : c.2 ≠ .mute) (hr : r ≠ .mute) : (lesser c v r).2 ≠ .mute := by
  unfold lesser; split
  · exact hr
  · exact h

theorem reason_ne_mute (t : CeilingTerms) (request : Int) : t.reason request ≠ .mute := by
  have h0 := headroomReason_ne t
  have h1 : t.least.2 ≠ .mute := by
    unfold CeilingTerms.least
    cases t.cap <;> cases t.boostApplies <;> cases t.safeApplies <;> cases t.lateApplies <;>
      simp only [Bool.false_eq_true, if_false, if_true] <;> (repeat' first | exact h0 | (refine lesser_ne ?_ (by simp)))
  have h2 : t.ceiling.2 ≠ .mute := by
    unfold CeilingTerms.ceiling
    dsimp only
    split
    · simp
    · split
      · simp
      · exact h1
  unfold CeilingTerms.reason
  split
  · simp
  · split
    · exact h2
    · simp

/-- What a fit answers is what R50 to R54 give. -/
theorem fit_is {s : State} (hs : s.sched.sound) {w : WorkingRecord} (hc : w.order.cls < 4) (hl : 1 ≤ w.order.length) :
    ∃ plan, s.fitIs w (s.fit w).grant (s.fit w).reason plan ∧ (s.fit w).plan = plan.map (fun a => (a.1.serial, a.2)) ∧
      ((s.fit w).muted = true ↔ (s.fit w).reason = .mute) ∧ (∀ a ∈ plan, a.1 ∈ s.sched.entries) ∧
      plan.Pairwise (fun a b => a.1.serial ≠ b.1.serial) := by
  have hne := reason_ne_mute w.terms w.order.request
  obtain ⟨cs, c1, c2, c3, c4⟩ := candidates_are hs hc hl
  have hpl : ∀ plan : List (Entry × Int), (plan.map Prod.fst).Sublist cs → (∀ a ∈ plan, a.1 ∈ s.sched.entries) ∧
      plan.Pairwise (fun a b => a.1.serial ≠ b.1.serial) := by
    intro plan h
    have h' := c4.sublist h
    rw [List.pairwise_map] at h'
    exact ⟨fun a ha => (c3 _ (h.subset (List.mem_map_of_mem ha))).1, h'⟩
  by_cases hq : w.order.request = muteCode
  · have e : s.fit w = ⟨muteCode, w.terms.reason w.order.request, [], false⟩ := by unfold State.fit; exact if_pos hq
    rw [e]
    exact ⟨[], ⟨fun _ => ⟨rfl, rfl, rfl⟩, fun h => absurd hq h⟩, rfl, by simpa using hne, by simp, by simp⟩
  · obtain ⟨plan, ended, w1, w2, w3, w4⟩ := planWalk_walk s (w.current w.firstGrant) cs (fun e he => (c3 e he).2) s.supply.map
    by_cases hfit : rowsFit s.supply.ceiling s.supply.map w.row w.order.length (w.current w.firstGrant)
    · have e : s.fit w = ⟨w.firstGrant, w.terms.reason w.order.request, [], false⟩ := by
        unfold State.fit
        rw [if_neg hq]
        exact if_pos ((spanHeadroom_iff hl).2 hfit)
      rw [e]
      exact ⟨[], ⟨fun h => absurd h hq, fun _ => ⟨cs, [], s.supply.map, c1, .fits hfit, fun _ => ⟨rfl, rfl, rfl⟩,
        fun h => absurd hfit h⟩⟩, rfl, by simpa using hne, by simp, by simp⟩
    · by_cases hend : rowsFit s.supply.ceiling ended w.row w.order.length (w.current w.firstGrant)
      · have e : s.fit w = ⟨w.firstGrant, w.terms.reason w.order.request, plan.map (fun a => (a.1.serial, a.2)), false⟩ := by
          unfold State.fit
          rw [if_neg hq]
          dsimp only
          rw [if_neg (fun h => hfit ((spanHeadroom_iff hl).1 h)), c2, if_pos (w3.2 hend), w2]
        rw [e]
        exact ⟨plan, ⟨fun h => absurd h hq, fun _ => ⟨cs, plan, ended, c1, w1, fun _ => ⟨rfl, rfl, rfl⟩,
          fun h => absurd hend h⟩⟩, rfl, by simpa using hne, hpl plan w4⟩
      · have hb : (planWalk s.supply.ceiling w.row w.order.length (w.current w.firstGrant) (cs.map s.asCandidate) s.supply.map).1 =
            false := by rw [Bool.eq_false_iff]; exact fun h => hend (w3.1 h)
        obtain ⟨f1, f2⟩ := fitInverse_spec w.current
          (floorHeadroom s.supply.ceiling s.supply.map w.row w.order.length (cs.map s.asCandidate)) w.lower w.firstGrant
        cases hf : fitInverse w.current
            (floorHeadroom s.supply.ceiling s.supply.map w.row w.order.length (cs.map s.asCandidate)) w.lower w.firstGrant with
        | some p =>
          obtain ⟨a, b, c, d⟩ := f1 p hf
          obtain ⟨plan', ended', v1, v2, _, v4⟩ := planWalk_walk s (w.current p) cs (fun e he => (c3 e he).2) s.supply.map
          have e : s.fit w = ⟨p, .supply, plan'.map (fun a => (a.1.serial, a.2)), false⟩ := by
            unfold State.fit
            rw [if_neg hq]
            dsimp only
            rw [if_neg (fun h => hfit ((spanHeadroom_iff hl).1 h)), c2, hb, hf]
            simp only [Bool.false_eq_true, if_false, v2]
          rw [e]
          refine ⟨plan', ⟨fun h => absurd h hq, fun _ => ⟨cs, plan, ended, c1, w1, fun h => absurd h hend, fun _ => ⟨fun _ => ?_, fun h => ?_⟩⟩⟩,
            rfl, by simp, hpl plan' v4⟩
          · exact ⟨a, b, (floorHeadroom_iff s hl cs _).1 c, fun q h1 h2 hcon =>
              absurd ((floorHeadroom_iff s hl cs _).2 hcon) (not_le.2 (d q h1 h2)), rfl, ended', v1⟩
          · exact absurd ((floorHeadroom_iff s hl cs _).1 c) (h p a b)
        | none =>
          have e : s.fit w = ⟨muteCode, .mute, [], true⟩ := by
            unfold State.fit
            rw [if_neg hq]
            dsimp only
            rw [if_neg (fun h => hfit ((spanHeadroom_iff hl).1 h)), c2, hb, hf]
            simp
          rw [e]
          refine ⟨[], ⟨fun h => absurd h hq, fun _ => ⟨cs, plan, ended, c1, w1, fun h => absurd h hend, fun _ => ⟨fun ⟨p, h1, h2, h3⟩ => ?_,
            fun _ => ⟨rfl, rfl, rfl⟩⟩⟩⟩, rfl, by simp, by simp, by simp⟩
          exact absurd ((floorHeadroom_iff s hl cs _).2 h3) (not_le.2 (f2 hf p h1 h2))

/-! ### The plan committed -/

theorem bySerial_of_mem {c : Schedule} (hu : c.entries.Pairwise fun a b => a.serial ≠ b.serial) {e : Entry} (h : e ∈ c.entries) :
    c.bySerial e.serial = some e := by
  unfold Schedule.bySerial
  generalize c.entries = es at hu h
  induction es with
  | nil => cases h
  | cons x es ih =>
    rw [List.pairwise_cons] at hu
    rcases List.mem_cons.1 h with rfl | h
    · simp
    · rw [List.find?_cons_of_neg]
      · exact ih hu.2 h
      · simpa using hu.1 e h

/-- R55: the amendments of a plan made in its order. -/
theorem commitPlan_eq (plan : List (Entry × Int)) (s : State) (hu : s.sched.entries.Pairwise fun a b => a.serial ≠ b.serial)
    (hm : ∀ a ∈ plan, a.1 ∈ s.sched.entries) (hp : plan.Pairwise fun a b => a.1.serial ≠ b.1.serial) :
    s.commitPlan (plan.map fun a => (a.1.serial, a.2)) = { s with
      sched := { s.sched with entries := s.sched.entries.map (s.amendedBy plan) }
      supply := { s.supply with
        map := plan.foldl (fun m a => addRows m a.1.row a.1.length (s.currentOf a.1 a.2 - a.1.reserved)) s.supply.map }
      link := { s.link with orig := s.link.orig ++ plan.map fun a =>
        ⟨14, 5, 0, [BitVec.ofNat 16 (a.1.tag * 256 + a.1.path.val * 64), BitVec.ofInt 16 a.2]⟩ } } := by
  induction plan generalizing s with
  | nil =>
    have : s.amendedBy [] = id := by funext x; rfl
    simp [State.commitPlan, this]
  | cons a plan ih =>
    obtain ⟨e, code⟩ := a
    rw [List.pairwise_cons] at hp
    have he := hm (e, code) (by simp)
    have hstep : s.amendSerial e.serial code = s.amendEntry e code := by
      unfold State.amendSerial; rw [bySerial_of_mem hu he]
    have hent : (s.amendEntry e code).sched.entries = s.sched.entries.map fun x =>
        if x.serial = e.serial then e.lowered (s.bankFor e.slot) code .amended (min 255 (e.amends + 1)) else x := rfl
    have hu' : (s.amendEntry e code).sched.entries.Pairwise fun a b => a.serial ≠ b.serial := by
      rw [hent, List.pairwise_map]
      refine hu.imp fun {a b} h => ?_
      have : ∀ x : Entry, (if x.serial = e.serial then e.lowered (s.bankFor e.slot) code .amended (min 255 (e.amends + 1))
          else x).serial = x.serial := by
        intro x; split
        · rename_i hx; rw [hx]; rfl
        · rfl
      rw [this, this]; exact h
    have hm' : ∀ a ∈ plan, a.1 ∈ (s.amendEntry e code).sched.entries := by
      intro a ha
      rw [hent]
      refine List.mem_map.2 ⟨a.1, hm a (List.mem_cons_of_mem _ ha), ?_⟩
      rw [if_neg]; exact fun h => hp.1 a ha h.symm
    have hcur : ∀ x c, (s.amendEntry e code).currentOf x c = s.currentOf x c := fun x c => amended_tables (by simp) x c
    have hbank : ∀ sl, (s.amendEntry e code).bankFor sl = s.bankFor sl := fun sl => by simp [State.bankFor]
    have hun : ∀ x ∈ s.sched.entries, x.serial = e.serial → x = e := by
      intro x hx h
      by_contra hne
      rcases pairwise_apart hu hx he hne with h' | h'
      · exact h' h
      · exact h' h.symm
    have := ih (s.amendEntry e code) hu' hm' hp.2
    have hunf : s.commitPlan (((e, code) :: plan).map fun a => (a.1.serial, a.2)) =
        (s.amendEntry e code).commitPlan (plan.map fun a => (a.1.serial, a.2)) := by
      simp only [State.commitPlan, List.map_cons, List.foldl_cons, hstep]
    rw [hunf, this, hent]
    simp only [hcur, List.map_map]
    have hmap : s.sched.entries.map ((s.amendEntry e code).amendedBy plan ∘ fun x =>
          if x.serial = e.serial then e.lowered (s.bankFor e.slot) code .amended (min 255 (e.amends + 1)) else x) =
        s.sched.entries.map (s.amendedBy ((e, code) :: plan)) := by
      refine List.map_congr_left fun x hx => ?_
      simp only [Function.comp]
      by_cases hxe : x.serial = e.serial
      · have hx' := hun x hx hxe
        subst hx'
        have hn : plan.find? (fun a => a.1.serial == x.serial) = none := by
          rw [List.find?_eq_none]
          intro a ha
          simpa using fun h : a.1.serial = x.serial => hp.1 a ha h.symm
        simp only [if_true, State.amendedBy, List.find?_cons, beq_self_eq_true]
        have : (x.lowered (s.bankFor x.slot) code .amended (min 255 (x.amends + 1))).serial = x.serial := rfl
        rw [this, hn]
        rfl
      · have hd : ((e.serial == x.serial) = true) = False := by simp; exact fun h => hxe h.symm
        rw [if_neg hxe]
        simp only [State.amendedBy, List.find?_cons]
        have hd' : (e.serial == x.serial) = false := by simpa using fun h : e.serial = x.serial => hxe h.symm
        rw [hd']
        cases plan.find? fun a => a.1.serial == x.serial with
        | none => rfl
        | some a => simp only [hcur, hbank]
    rw [hmap]
    have hsupply : (s.amendEntry e code).supply = { s.supply with
        map := addRows s.supply.map e.row e.length (s.currentOf e code - e.reserved) } := rfl
    have hlink : (s.amendEntry e code).link = { s.link with orig := s.link.orig ++
        [⟨14, 5, 0, [BitVec.ofNat 16 (e.tag * 256 + e.path.val * 64), BitVec.ofInt 16 code]⟩] } := rfl
    simp only [hsupply, hlink, List.foldl_cons, List.map_cons, List.append_assoc, List.singleton_append]
    rfl

/-! ### The admission -/

theorem afterDemand_eq (s : State) (w : WorkingRecord) :
    (if w.terms.demandsBoost w.order.request then s.boostDemand else s) = s.afterDemand w := by
  have hf : (0 < s.freeSlots) ↔ s.link.orig.length + s.supply.claimed < 12 := by
    simp only [State.freeSlots, origCapacity]; omega
  unfold State.afterDemand State.boostDemand
  dsimp only
  cases w.terms.demandsBoost w.order.request
  · simp
  · simp only [if_true, Bool.true_and]
    by_cases h1 : s.boost.state = .off
    · cases h2 : s.boost.requestDue
      · simp only [h1, true_and, if_true, beq_self_eq_true, Bool.not_false, Bool.and_self, Bool.true_and]
        by_cases h3 : s.boost.releaseDue = false ∧ 0 < s.freeSlots
        · rw [if_pos h3]
          have : (!s.boost.releaseDue && decide (s.link.orig.length + s.supply.claimed < 12)) = true := by
            rw [h3.1, decide_eq_true (hf.1 h3.2)]; rfl
          simp [this, Boost.requested, Link.place, Draft.boostRequest, Kind.boostRequest, h2]
        · rw [if_neg h3]
          have : (!s.boost.releaseDue && decide (s.link.orig.length + s.supply.claimed < 12)) = false := by
            rw [Bool.eq_false_iff]; intro h
            simp only [Bool.and_eq_true, Bool.not_eq_true', decide_eq_true_eq] at h
            exact h3 ⟨h.1, hf.2 h.2⟩
          simp [this]
      · simp [h1]
    · have : (s.boost.state == .off) = false := by simpa using h1
      simp [h1, this]

/-- R18: an admission makes of a state what the rules give. -/
theorem admission_admits {s : State} (hs : s.sched.sound) {o : Order} (hc : o.cls < 4) (hl : 1 ≤ o.length) :
    s.admits o (s.admission o).1 (s.admission o).2 := by
  unfold State.admission
  dsimp only
  have hd := afterDemand_eq s (s.workingRecord o)
  have ho : (s.workingRecord o).order = o := rfl
  rw [ho] at hd
  rw [hd]
  have hsched : (s.afterDemand (s.workingRecord o)).sched = s.sched := rfl
  have htab : (s.afterDemand (s.workingRecord o)).tables = s.tables := rfl
  have hsup : (s.afterDemand (s.workingRecord o)).supply = s.supply := rfl
  obtain ⟨plan, p1, p2, p3, p4, p5⟩ := fit_is (s := s.afterDemand (s.workingRecord o)) (hsched ▸ hs)
    (w := s.workingRecord o) hc hl
  rw [hsched] at p4
  have hu : s.sched.entries.Pairwise fun a b => a.serial ≠ b.serial := hs.2.1.imp fun h => by omega
  refine ⟨plan, _, p1, ?_⟩
  rw [p2, commitPlan_eq plan _ (hsched ▸ hu) (hsched ▸ p4) p5]
  have hcur : ∀ x c, (s.afterDemand (s.workingRecord o)).currentOf x c = s.currentOf x c := fun x c => amended_tables htab x c
  have ham : (s.afterDemand (s.workingRecord o)).amendedBy plan = s.amendedBy plan := by
    funext x; unfold State.amendedBy; simp only [hcur, State.bankFor, htab]
  simp only [hcur, ham, hsched, hsup, State.book, Headroom.addSpan]
  have hbt : (s.workingRecord o).terms.boostThreshold = (s.workingRecord o).bank.limits.boostThreshold := rfl
  have hb : (s.afterDemand (s.workingRecord o)).boost.noteGrant (decide ((s.workingRecord o).terms.boostThreshold <
        ((s.afterDemand (s.workingRecord o)).fit (s.workingRecord o)).grant)) =
      if (s.afterDemand (s.workingRecord o)).boost.state = .ready ∧ (s.workingRecord o).bank.limits.boostThreshold <
        ((s.afterDemand (s.workingRecord o)).fit (s.workingRecord o)).grant then
        { (s.afterDemand (s.workingRecord o)).boost with quiet := 0, boosted := true } else (s.afterDemand (s.workingRecord o)).boost := by
    unfold Boost.noteGrant
    rw [hbt]
    refine if_congr ?_ rfl rfl
    simp [and_comm]
  have hev : s.events.raiseIf ((s.afterDemand (s.workingRecord o)).fit (s.workingRecord o)).muted .mute =
      if ((s.afterDemand (s.workingRecord o)).fit (s.workingRecord o)).reason = .mute then s.events.raise .mute else s.events := by
    unfold Events.raiseIf
    exact if_congr p3 rfl rfl
  have he0 : (s.afterDemand (s.workingRecord o)).events = s.events := rfl
  simp only [hb, he0, hev]
  rfl

/-! ### The straps apart, an order's handling does not look at the pins -/

/-- The pins replaced. -/
def State.withPins (s : State) (P : Pins) : State := { s with pins := P }

theorem boostDemand_pins (s : State) (P : Pins) : (s.withPins P).boostDemand = s.boostDemand.withPins P := by
  unfold State.boostDemand
  by_cases h : s.boost.state = .off ∧ s.boost.requestDue = false
  · rw [if_pos h, if_pos (show (s.withPins P).boost.state = .off ∧ (s.withPins P).boost.requestDue = false from h)]
    by_cases g : s.boost.releaseDue = false ∧ 0 < s.freeSlots
    · rw [if_pos g, if_pos (show (s.withPins P).boost.releaseDue = false ∧ 0 < (s.withPins P).freeSlots from g)]; rfl
    · rw [if_neg g, if_neg (show ¬ ((s.withPins P).boost.releaseDue = false ∧ 0 < (s.withPins P).freeSlots) from g)]; rfl
  · rw [if_neg h, if_neg (show ¬ ((s.withPins P).boost.state = .off ∧ (s.withPins P).boost.requestDue = false) from h)]

theorem amendSerial_pins (s : State) (P : Pins) (n : Nat) (code : Int) :
    (s.withPins P).amendSerial n code = (s.amendSerial n code).withPins P := by
  unfold State.amendSerial
  show (match s.sched.bySerial n with | some e => _ | none => _) = _
  cases s.sched.bySerial n <;> rfl

theorem commitPlan_pins (plan : List (Nat × Int)) (s : State) (P : Pins) :
    (s.withPins P).commitPlan plan = (s.commitPlan plan).withPins P := by
  induction plan generalizing s with
  | nil => rfl
  | cons a rest ih =>
    show ((s.withPins P).amendSerial a.1 a.2).commitPlan rest = ((s.amendSerial a.1 a.2).commitPlan rest).withPins P
    rw [amendSerial_pins, ih]

theorem admission_pins (s : State) (P : Pins) (o : Order) :
    (s.withPins P).admission o = ((s.admission o).1.withPins P, (s.admission o).2) := by
  unfold State.admission
  have hw : (s.withPins P).workingRecord o = s.workingRecord o := rfl
  dsimp only
  rw [hw]
  have hd : (if (s.workingRecord o).terms.demandsBoost o.request then (s.withPins P).boostDemand else s.withPins P) =
      (if (s.workingRecord o).terms.demandsBoost o.request then s.boostDemand else s).withPins P := by
    split
    · exact boostDemand_pins s P
    · rfl
  rw [hd]
  generalize (if (s.workingRecord o).terms.demandsBoost o.request then s.boostDemand else s) = d
  have hf : (d.withPins P).fit (s.workingRecord o) = d.fit (s.workingRecord o) := rfl
  rw [hf, commitPlan_pins]
  rfl

theorem supersede_pins (s : State) (P : Pins) (o : Order) : (s.withPins P).supersede o = (s.supersede o).withPins P := by
  have : ∀ (es : List Entry) (s : State), es.foldl State.freeEntry (s.withPins P) = (es.foldl State.freeEntry s).withPins P := by
    intro es
    induction es with
    | nil => intro s; rfl
    | cons a rest ih =>
      intro s
      show rest.foldl State.freeEntry ((s.withPins P).freeEntry a) = (rest.foldl State.freeEntry (s.freeEntry a)).withPins P
      exact ih (s.freeEntry a)
  exact this _ _

theorem bookBurst_pins (s : State) (P : Pins) (p : Packet) (o : Order) :
    (s.withPins P).bookBurst p o = ((s.bookBurst p o).1.withPins P, (s.bookBurst p o).2) := by
  unfold State.bookBurst
  by_cases h : ((s.sched.overlapping o).any fun e => e.state == .committed) = true
  · rw [if_pos h, if_pos (show (((s.withPins P).sched.overlapping o).any fun e => e.state == .committed) = true from h)]; rfl
  · rw [if_neg h, if_neg (show ¬ (((s.withPins P).sched.overlapping o).any fun e => e.state == .committed) = true from h)]
    dsimp only
    rw [supersede_pins]
    by_cases g : scheduleCapacity ≤ (s.supersede o).sched.entries.length
    · rw [if_pos g, if_pos (show scheduleCapacity ≤ ((s.supersede o).withPins P).sched.entries.length from g)]; rfl
    · rw [if_neg g, if_neg (show ¬ scheduleCapacity ≤ ((s.supersede o).withPins P).sched.entries.length from g), admission_pins]; rfl

theorem takeBurst_pins (s : State) (P : Pins) (p : Packet) (straps : BitVec 2) :
    (s.withPins P).takeBurst p straps = ((s.takeBurst p straps).1.withPins P, (s.takeBurst p straps).2) := by
  unfold State.takeBurst
  by_cases h : s.timer.mode = .unset
  · rw [if_pos h, if_pos (show (s.withPins P).timer.mode = .unset from h)]
  · rw [if_neg h, if_neg (show ¬ (s.withPins P).timer.mode = .unset from h)]
    dsimp only
    show (match s.timing (s.frameSlot p.orderFrame) p.orderStart (burstLength p.orderStart p.orderLength) with
      | .normal => _ | .late => _ | _ => _) = _
    cases s.timing (s.frameSlot p.orderFrame) p.orderStart (burstLength p.orderStart p.orderLength) with
    | normal => exact bookBurst_pins _ _ _ _
    | late => exact bookBurst_pins _ _ _ _
    | _ => rfl

theorem takeRevise_pins (s : State) (P : Pins) (p : Packet) (straps : BitVec 2) :
    (s.withPins P).takeRevise p straps = ((s.takeRevise p straps).1.withPins P, (s.takeRevise p straps).2) := by
  unfold State.takeRevise
  dsimp only
  by_cases h : s.timer.mode = .unset
  · rw [if_pos h, if_pos (show (s.withPins P).timer.mode = .unset from h)]
  · rw [if_neg h, if_neg (show ¬ (s.withPins P).timer.mode = .unset from h)]
    show (match s.sched.find p.orderTag p.orderPath with
      | none => _ | some e => _) = _
    cases s.sched.find p.orderTag p.orderPath with
    | none => rfl
    | some e =>
      dsimp only
      cases e.state with
      | booked => exact admission_pins (s.freeEntry e) P (e.revised _)
      | committed =>
        dsimp only
        unfold State.lowerCommitted
        split <;> rfl

/-! ### Supersession -/

/-- R23: the superseded entries are gone and their currents subtracted. -/
theorem supersede_eq {s : State} (hs : s.sched.sound) (o : Order) :
    s.supersede o = { s with
      sched := { s.sched with entries := s.sched.entries.filter fun e =>
        !(e.path == o.path && e.slot == o.slot && spansMeet e.start e.length o.start o.length) }
      supply := { s.supply with
        map := (s.sched.overlapping o).foldl (fun m (e : Entry) => addRows m e.row e.length (-e.reserved)) s.supply.map } } := by
  have key : ∀ (es : List Entry) (s : State), es.foldl State.freeEntry s = { s with
      sched := { s.sched with entries := s.sched.entries.filter fun x => !(es.any fun e => x.serial == e.serial) }
      supply := { s.supply with
        map := es.foldl (fun m (e : Entry) => addRows m e.row e.length (-e.reserved)) s.supply.map } } := by
    intro es
    induction es with
    | nil => intro s; simp
    | cons e es ih =>
      intro s
      rw [List.foldl_cons, ih]
      simp only [State.freeEntry, Schedule.remove, Headroom.addSpan, List.filter_filter, List.any_cons, List.foldl_cons,
        Bool.not_or]
      congr 2
      refine List.filter_congr fun x _ => Bool.and_comm _ _
  unfold State.supersede
  rw [key]
  have : (s.sched.entries.filter fun x => !((s.sched.overlapping o).any fun e => x.serial == e.serial)) =
      s.sched.entries.filter fun e =>
        !(e.path == o.path && e.slot == o.slot && spansMeet e.start e.length o.start o.length) := by
    refine List.filter_congr fun x hx => congrArg (!·) ?_
    rw [Bool.eq_iff_iff, List.any_eq_true]
    constructor
    · rintro ⟨e, he, hxe⟩
      obtain ⟨he, ho⟩ := List.mem_filter.1 he
      have := Schedule.unique hs hx he (by simpa using hxe)
      subst this; exact ho
    · intro h
      exact ⟨x, List.mem_filter.2 ⟨hx, h⟩, by simp⟩
  rw [this]

end Sys2Proof.Machine
end

