-- ==== Sys2Proof/Laws/Validation.lean ====
section
/-! SUPPORT. What validation of a bank gives, and the range of the back-offs computed with it. -/

namespace Sys2Proof.Machine

/-! ### What validation gives -/

theorem firstPass_none {es earlier : List DirEntry} (h : firstPass es earlier = none) :
    (∀ e ∈ es, e.kind ≠ 0 → countOk e.kind e.count = true) ∧ ∀ k < 7, ∃ e ∈ earlier ++ es, e.kind = k + 1 := by
  induction es generalizing earlier with
  | nil =>
    unfold firstPass at h
    split at h
    · rename_i ha
      refine ⟨by simp, fun k hk => ?_⟩
      rw [List.all_eq_true] at ha
      have := ha k (List.mem_range.2 hk)
      rw [List.any_eq_true] at this
      simpa using this
    · cases h
  | cons e rest ih =>
    unfold firstPass at h
    split at h
    · rename_i h0
      obtain ⟨h1, h2⟩ := ih h
      refine ⟨fun f hf hk => ?_, fun k hk => ?_⟩
      · rcases List.mem_cons.1 hf with rfl | hf
        · exact absurd h0 hk
        · exact h1 f hf hk
      · obtain ⟨f, hf, e'⟩ := h2 k hk
        refine ⟨f, ?_, e'⟩
        simp only [List.mem_append, List.mem_cons] at hf ⊢; tauto
    · split at h
      · cases h
      · split at h
        · cases h
        · split at h
          · cases h
          · rename_i hc
            split at h
            · cases h
            · split at h
              · cases h
              · obtain ⟨h1, h2⟩ := ih h
                refine ⟨fun f hf hk => ?_, fun k hk => ?_⟩
                · rcases List.mem_cons.1 hf with rfl | hf
                  · simpa using hc
                  · exact h1 f hf hk
                · obtain ⟨f, hf, e'⟩ := h2 k hk
                  refine ⟨f, ?_, e'⟩
                  simp only [List.mem_append, List.mem_cons] at hf ⊢; tauto

/-- In a validated bank every kind has its table, whose count is right and whose records pass their checks. -/
theorem valid_table {b : Bank} (h : b.valid) {kind : Nat} (hk : 1 ≤ kind ∧ kind ≤ 7) :
    countOk kind (b.count kind) = true ∧ ∀ k < b.count kind, b.recordFault kind (b.record kind k) k = none := by
  unfold Bank.valid Bank.validate at h
  cases hf : firstPass b.directory [] with
  | some x => rw [hf] at h; cases h
  | none =>
    rw [hf] at h
    obtain ⟨h1, h2⟩ := firstPass_none hf
    have h3 : b.secondPass = none := h
    unfold Bank.secondPass at h3
    rw [List.findSome?_eq_none_iff] at h3
    obtain ⟨e0, he0, hk0⟩ := h2 (kind - 1) (by omega)
    simp only [List.nil_append] at he0
    have hfind : ∃ e, (b.directory.find? fun e => e.kind == kind) = some e := by
      rw [← Option.isSome_iff_exists, List.find?_isSome]
      exact ⟨e0, he0, by simp; omega⟩
    obtain ⟨e, he⟩ := hfind
    have hmem := List.mem_of_find?_eq_some he
    have hkind : e.kind = kind := by simpa using List.find?_some he
    have ht : b.tableEntry kind = e := by unfold Bank.tableEntry; rw [he]; rfl
    have hz : e.kind ≠ 0 := by omega
    refine ⟨?_, fun k hkc => ?_⟩
    · rw [Bank.count, ht, ← hkind]; exact h1 e hmem hz
    · have := h3 e hmem
      rw [if_neg hz, List.findSome?_eq_none_iff] at this
      have := this k (List.mem_range.2 (by rw [← ht]; exact hkc))
      rw [Option.map_eq_none_iff] at this
      rw [Bank.record, ht, ← hkind]; exact this

theorem valid_zone {b : Bank} (h : b.valid) (z : Fin 4) : (b.zone z).inRange = true := by
  obtain ⟨h1, h2⟩ := valid_table h (kind := 2) (by decide)
  have hc : b.count 2 = 4 := by simpa [countOk] using h1
  have := h2 z.val (by rw [hc]; exact z.isLt)
  unfold Bank.recordFault at this
  simp only at this
  split at this
  · cases this
  · rename_i hr; simpa [Bank.zone, Table.zones] using hr

theorem valid_maxBackoff {b : Bank} (h : b.valid) (z : Fin 4) : (b.zone z).maxBackoff ≤ 255 := by
  have := valid_zone h z
  simp only [ZoneRec.inRange, within, Bool.and_eq_true, decide_eq_true_eq] at this
  omega

theorem valid_weight {b : Bank} (h : b.valid) (p z : Fin 4) : b.weight p z ≤ 15 := by
  obtain ⟨h1, h2⟩ := valid_table h (kind := 3) (by decide)
  have hc : b.count 3 = 16 := by simpa [countOk] using h1
  have := h2 (4 * p.val + z.val) (by rw [hc]; omega)
  unfold Bank.recordFault at this
  simp only at this
  split at this
  · cases this
  · rename_i hr
    unfold Bank.weight Bank.couplingWord Table.coupling
    omega

/-! ### Back-offs -/

/-- The bank bounds what the controllers compute. -/
def Bank.bounds (b : Bank) : Prop := (∀ z, (b.zone z).maxBackoff ≤ 255) ∧ ∀ p z, b.weight p z ≤ 15

theorem bounds_zero : Bank.zero.bounds := ⟨fun z => by fin_cases z <;> decide, fun p z => by fin_cases p <;> fin_cases z <;> decide⟩

theorem bankFor_bounds {s : State} (h : s.tables.sound) : (s.bankFor .current).bounds := by
  unfold State.bankFor Tables.inForce
  cases ha : s.tables.active with
  | none => exact bounds_zero
  | some b =>
    have hv := h.2.2.1 b (h.2.2.2.1 b ha)
    exact ⟨fun z => valid_maxBackoff hv z, fun p z => valid_weight hv p z⟩

def inBackoff (x : Int) : Prop := 0 ≤ x ∧ x ≤ 255

theorem law_backoff {c : Control} (h : inBackoff c.backoff) {r : ZoneRec} (hr : 0 ≤ r.maxBackoff ∧ r.maxBackoff ≤ 255)
    (hs : 0 ≤ r.surgeStep ∧ 0 ≤ r.climbStep ∧ 0 ≤ r.easeStep) (t : Int) : inBackoff (c.law r t).backoff := by
  have hraise : ∀ c : Control, inBackoff c.backoff → inBackoff (c.raised r t).backoff := by
    intro c h
    unfold Control.raised inBackoff at *
    dsimp only
    split <;> omega
  have hease : ∀ c : Control, inBackoff c.backoff → inBackoff (c.eased r).backoff := by
    intro c h
    unfold Control.eased inBackoff at *
    dsimp only
    omega
  unfold Control.law
  split
  · exact hr
  · cases c.state with
    | critical =>
      dsimp only
      split
      · exact h
      · exact hr
    | steady =>
      dsimp only
      split
      · exact hraise _ h
      · split
        · exact hease _ h
        · exact h
    | climb =>
      dsimp only
      split
      · exact h
      · exact hraise _ h
    | ease =>
      dsimp only
      split
      · exact hraise _ h
      · split
        · exact h
        · exact hease _ h

theorem update_backoff {c : Control} (h : inBackoff c.backoff) {b : Bank} (hb : b.bounds) (z : Fin 4) (t : Int) :
    inBackoff (c.update (b.zone z) t).backoff := by
  have h0 : 0 ≤ (b.zone z).maxBackoff := by simp [Bank.zone, Bank.zoneAt, Bank.uint]
  refine law_backoff ?_ ⟨h0, hb.1 z⟩ ?_ t
  · unfold Control.clamped inBackoff at *; dsimp only; omega
  · simp [Bank.zone, Bank.zoneAt, Bank.uint]

theorem thermal_bound {control : Four Control} (h : ∀ z, inBackoff (control.get z).backoff) {b : Bank} (hb : b.bounds) (p : Fin 4) :
    inBackoff (thermalBackoff b control p) := by
  have one : ∀ z, inBackoff (ceilDiv ((control.get z).backoff * b.weight p z) 15) := by
    intro z
    have h1 := h z
    have h2 := hb.2 p z
    have h3 : 0 ≤ b.weight p z := Int.natCast_nonneg _
    have lo : 0 ≤ (control.get z).backoff * b.weight p z := mul_nonneg h1.1 h3
    have hi : (control.get z).backoff * b.weight p z ≤ 255 * 15 := mul_le_mul h1.2 h2 h3 (by decide)
    unfold inBackoff ceilDiv
    omega
  unfold thermalBackoff Four.indices
  have a0 := one 0
  have a1 := one 1
  have a2 := one 2
  have a3 := one 3
  simp only [List.map_cons, List.map_nil, List.foldr_cons, List.foldr_nil]
  unfold inBackoff at *
  omega

theorem runController_backoffs {s : State} (h : s.backoffsSound) (hb : (s.bankFor .current).bounds) (z : Fin 4) :
    (s.runController z).backoffsSound := by
  have hc : ∀ w, inBackoff ((s.control.set z ((s.control.get z).update (s.zoneRec z) (s.heat.estimate.get z))).get w).backoff := by
    intro w
    rw [Four.get_set]
    split
    · exact update_backoff (h.1 z) hb z _
    · exact h.1 w
  refine ⟨hc, fun p => ?_⟩
  unfold State.runController
  simp only [Four.get_mapIdx]
  exact thermal_bound hc hb p

theorem runController_bank (s : State) (z : Fin 4) : (s.runController z).bankFor .current = s.bankFor .current := by
  simp [State.bankFor]

theorem runControllers_backoffs {s : State} (h : s.backoffsSound) (hb : (s.bankFor .current).bounds) (held : List (Fin 4)) :
    (s.runControllers held).backoffsSound := by
  unfold State.runControllers
  generalize Four.indices = zs
  induction zs generalizing s with
  | nil => exact h
  | cons z zs ih =>
    rw [List.foldl_cons]
    split
    · exact ih (runController_backoffs h hb z) (by rw [runController_bank]; exact hb)
    · exact ih h hb

theorem backoffs_of {s t : State} (h : s.backoffsSound) (hc : ∀ z, (t.control.get z).backoff = (s.control.get z).backoff)
    (hp : ∀ p, (t.path.get p).thermal = (s.path.get p).thermal) : t.backoffsSound :=
  ⟨fun z => by rw [hc]; exact h.1 z, fun p => by rw [hp]; exact h.2 p⟩

theorem frameClose_backoff (s : State) (b : Option Bank) (z : Fin 4) :
    ((s.frameClose b).control.get z).backoff = (s.control.get z).backoff := by
  unfold State.frameClose State.formEstimates
  split
  · simp
  · rfl

theorem closeAndTick_backoff (s : State) (b : Option Bank) (e : Bool) (z : Fin 4) :
    ((s.closeAndTick b e).control.get z).backoff = (s.control.get z).backoff := by
  unfold State.closeAndTick
  split
  · rw [frameClose_backoff]; simp
  · simp only [pollTick_frame]; rw [frameClose_backoff]

theorem turnPath_thermal (x : PathState) (l : Limits) : (x.turn l).thermal = x.thermal := (pathTurn_cases x l).2.1

theorem frameTurn_backoffs {s : State} (h : s.backoffsSound) (hb : (s.bankFor .current).bounds) (hn : s.bankBegun.bounds)
    (turn : Turn) (o : TurnOrder) : (s.frameTurn turn o).backoffsSound := by
  have h1 := runControllers_backoffs h hb []
  have key : ∀ u : State, u.backoffsSound → (u.bankFor .current).bounds → (((u.runControllers o.held).pathTurn).senseTurn s.tables.firstSwitch).backoffsSound := by
    intro u hu hub
    have hr := runControllers_backoffs hu hub o.held
    refine backoffs_of hr (fun z => by simp) (fun p => ?_)
    rw [(senseTurn_frame _ _).2.2.2.2.2.2.2.1]
    unfold State.pathTurn
    split
    · rfl
    · simp [turnPath_thermal]
  have hw : (s.turnWork turn o).backoffsSound := by
    unfold State.turnWork State.dispatchTurn
    dsimp only
    refine key _ ?_ ?_
    · refine backoffs_of h1 (fun z => ?_) (fun p => ?_)
      · simp only [supplyTurn_frame, relabelSchedule_frame]
        rw [closeAndTick_backoff]
        simp [State.runHeld]
      · simp only [supplyTurn_frame, relabelSchedule_frame, closeAndTick_frame, closeEntries_frame, beginFrame_frame]
        rfl
    · simp only [State.bankFor, supplyTurn_frame, relabelSchedule_frame, closeAndTick_frame, closeEntries_frame]
      have : (s.runHeld.beginFrame turn).tables = s.tables.turned := by simp [State.beginFrame]
      rw [this]; exact hn
  refine backoffs_of hw (fun z => ?_) (fun p => ?_)
  · unfold State.frameTurn; simp
  · unfold State.frameTurn; simp

theorem grainStep_backoffs {s : State} (h : s.backoffsSound) (hb : (s.bankFor .current).bounds) : s.grainStep.backoffsSound := by
  have h1 := runControllers_backoffs h hb []
  have hw : ∀ g, (s.grainWork g).backoffsSound := by
    intro g
    unfold State.grainWork
    refine backoffs_of h1 (fun z => ?_) (fun p => ?_)
    · simp [State.runHeld]
    · simp [State.runHeld]
  by_cases hg : s.timer.grain < 79
  · rw [grainStep_cases hg]
    split
    · exact backoffs_of (hw (s.timer.grain + 1)) (fun z => by simp) (fun p => by simp)
    · exact hw _
  · unfold State.grainStep; rwa [if_neg hg]

end Sys2Proof.Machine
end

