-- ==== Sys2Proof/Laws/Checks.lean ====
section
/-! SUPPORT. Validation as its rules give it: each record's checks, and the two passes. -/

namespace Sys2Proof.Machine

/-! ### The checks of a record -/

theorem firstFails_cons (p : Prop) (q r : FailReason) (rest : List (Prop × FailReason)) :
    firstFails ((p, q) :: rest) r ↔ (p ∧ r = q) ∨ (¬ p ∧ firstFails rest r) := Iff.rfl

theorem firstFails_nil (r : FailReason) : firstFails [] r ↔ False := Iff.rfl

/-- A check made first, then the rest. -/
theorem check_iff {c : Prop} [Decidable c] {p : Prop} (h : c ↔ p) {q r : FailReason} {o : Option FailReason}
    {rest : List (Prop × FailReason)} (ho : o = some r ↔ firstFails rest r) :
    (if c then some q else o) = some r ↔ firstFails ((p, q) :: rest) r := by
  rw [firstFails_cons]
  by_cases hc : c
  · rw [if_pos hc]; simp [← h, hc, eq_comm]
  · rw [if_neg hc]; simp [← h, hc, ho]

theorem none_iff (r : FailReason) : (none : Option FailReason) = some r ↔ firstFails [] r := by simp [firstFails]

theorem last_iff {c : Prop} [Decidable c] {p : Prop} (h : c ↔ p) {q r : FailReason} :
    (if c then some q else none) = some r ↔ firstFails [(p, q)] r := check_iff h (none_iff r)

theorem codeOk_iff (x : Int) : codeOk x = true ↔ (-400 ≤ x ∧ x ≤ 272) := by
  unfold codeOk minCode maxCode; rw [Bool.and_eq_true, decide_eq_true_eq, decide_eq_true_eq]

theorem tempOk_iff (x : Int) : tempOk x = true ↔ (-160 ≤ x ∧ x ≤ 600) := by simp [tempOk]

theorem within_iff (lo hi x : Nat) : within lo hi x = true ↔ (lo ≤ x ∧ x ≤ hi) := by simp [within]

theorem not_iff_of (b : Bool) {p : Prop} (h : b = true ↔ p) : (!b) = true ↔ ¬ p := by
  rw [← h]; cases b <;> simp

theorem not_iff_of' (b : Bool) {p : Prop} (h : b = true ↔ ¬ p) : (!b) = true ↔ p := by
  rw [not_iff_of b h, not_not]

theorem uint_lt (b : Bank) (n a : Nat) : ((n : Nat) : Int) < b.uint a ↔ n < (b.read a).toNat := by
  rw [Bank.uint, Int.ofNat_lt]

/-- A band search finds a record exactly when one has the path and band. -/
theorem findBand_isSome_iff (b : Bank) (path : Fin 4) (band : Nat) :
    (b.findBand path band).isSome = true ↔
      ∃ j, j < b.count Table.bands ∧ (b.read (b.record Table.bands j)).toNat = path.val * 32 + band := by
  unfold Bank.findBand
  rw [Option.isSome_map, List.find?_isSome]
  simp [Bank.nat]

/-- The eight breakpoints, the last seven pairs of neighbours. -/
theorem ascending_points (f : Nat → Int) :
    ascending ((List.range 8).map f) = true ↔ ∀ i, i < 7 → f i < f (i + 1) := by
  simp only [List.range, List.range.loop, List.map, ascending, Bool.and_eq_true, decide_eq_true_eq]
  constructor
  · rintro ⟨h0, h1, h2, h3, h4, h5, h6, _⟩ i hi
    interval_cases i <;> assumption
  · intro h
    exact ⟨h 0 (by omega), h 1 (by omega), h 2 (by omega), h 3 (by omega), h 4 (by omega), h 5 (by omega), h 6 (by omega), trivial⟩

theorem nondecreasing_points (f : Nat → Int) :
    nondecreasing ((List.range 8).map f) = true ↔ ∀ i, i < 7 → f i ≤ f (i + 1) := by
  simp only [List.range, List.range.loop, List.map, nondecreasing, Bool.and_eq_true, decide_eq_true_eq]
  constructor
  · rintro ⟨h0, h1, h2, h3, h4, h5, h6, _⟩ i hi
    interval_cases i <;> assumption
  · intro h
    exact ⟨h 0 (by omega), h 1 (by omega), h 2 (by omega), h 3 (by omega), h 4 (by omega), h 5 (by omega), h 6 (by omega), trivial⟩

theorem points_fst (b : Bank) (x : Nat → Int) (a : Nat) :
    (b.points x a).map (·.1) = (List.range 8).map fun i => x (a + 2 * i) := by simp [Bank.points]

theorem points_snd (b : Bank) (x : Nat → Int) (a : Nat) :
    (b.points x a).map (·.2) = (List.range 8).map fun i => b.uint (a + 2 * i + 1) := by simp [Bank.points]

theorem any_points (b : Bank) (x : Nat → Int) (a : Nat) (p : Int × Int → Bool) :
    (b.points x a).any p = true ↔ ∃ i, i < 8 ∧ p (x (a + 2 * i), b.uint (a + 2 * i + 1)) = true := by
  simp [Bank.points]

theorem forall_indices (p : Fin 4 → Prop) : (∀ z ∈ Four.indices, p z) ↔ ∀ z, p z := by
  constructor
  · intro h z; exact h z (by fin_cases z <;> simp [Four.indices])
  · intro h z _; exact h z

/-- The LIMITS record lies in its ranges (R126), by its words. -/
theorem limits_inRange_iff (b : Bank) :
    b.limits.inRange = true ↔
      (let a := b.record Table.limits 0
       let u := fun i => (b.read (a + i)).toNat
       let c := fun i => (b.read (a + i)).toInt
       let code := fun x : Int => -400 ≤ x ∧ x ≤ 272
       let between := fun (lo x hi : Nat) => lo ≤ x ∧ x ≤ hi
       code (c 0) ∧ code (c 1) ∧ code (c 2) ∧ between 1 (u 3) 255 ∧ between 1 (u 4) 1000 ∧ between 1 (u 5) 1000 ∧
          between 1 (u 6) 16 ∧ between (u 6) (u 7) 40 ∧ u 8 ≤ 255 ∧ between 1 (u 9) 255 ∧ between 1 (u 10) 1000 ∧
          between 1 (u 11) 8 ∧ between 1 (u 12) 16 ∧ between 1 (u 13) 16 ∧ between 1 (u 14) 80 ∧ between 1 (u 15) 13 ∧
          between 1 (u 16) 13 ∧ ∀ p, p < 4 → u (17 + p) ≤ 31) := by
  have hfour : (∀ p : Fin 4, b.nat (b.record Table.limits 0 + 17 + p.val) ≤ 31) ↔
      ∀ p, p < 4 → (b.read (b.record Table.limits 0 + (17 + p))).toNat ≤ 31 := by
    constructor
    · intro h p hp
      have := h ⟨p, hp⟩
      rwa [Nat.add_assoc] at this
    · intro h p
      have := h p.val p.isLt
      rwa [← Nat.add_assoc] at this
  dsimp only
  rw [← hfour]
  simp only [Limits.inRange, Bool.and_eq_true, codeOk_iff, within_iff, Bank.limits, Bank.nat, Bank.uint, Bank.sint,
    Int.toNat_natCast, List.all_eq_true, Four.get_of, zero_le, true_and, Nat.add_zero, and_assoc, forall_indices]

/-- A ZONES record lies in its ranges (R127), by its words. -/
theorem zone_inRange_iff (b : Bank) (a : Nat) :
    (b.zoneAt a).inRange = true ↔
      (let u := fun i => (b.read (a + i)).toNat
       let c := fun i => (b.read (a + i)).toInt
       let temp := fun x : Int => -160 ≤ x ∧ x ≤ 600
       let between := fun (lo x hi : Nat) => lo ≤ x ∧ x ≤ hi
       temp (c 0) ∧ 1 ≤ u 1 ∧ between 1 (u 2) 4095 ∧ u 3 ≤ 255 ∧ (∀ i, 4 ≤ i → i ≤ 10 → temp (c i)) ∧
          between 1 (u 11) 32 ∧ between 1 (u 12) 64 ∧ between 1 (u 13) 16 ∧ u 14 ≤ 255 ∧ u 15 ≤ 1000 ∧
          between 1 (u 16) 254 ∧ u 17 ≤ 255) := by
  have h1 : (b.read (a + 1)).toNat ≤ 65535 := by have := (b.read (a + 1)).isLt; omega
  have hseven : (∀ i, 4 ≤ i → i ≤ 10 → (-160 ≤ (b.read (a + i)).toInt ∧ (b.read (a + i)).toInt ≤ 600)) ↔
      (-160 ≤ (b.read (a + 4)).toInt ∧ (b.read (a + 4)).toInt ≤ 600) ∧ (-160 ≤ (b.read (a + 5)).toInt ∧ (b.read (a + 5)).toInt ≤ 600) ∧
      (-160 ≤ (b.read (a + 6)).toInt ∧ (b.read (a + 6)).toInt ≤ 600) ∧ (-160 ≤ (b.read (a + 7)).toInt ∧ (b.read (a + 7)).toInt ≤ 600) ∧
      (-160 ≤ (b.read (a + 8)).toInt ∧ (b.read (a + 8)).toInt ≤ 600) ∧ (-160 ≤ (b.read (a + 9)).toInt ∧ (b.read (a + 9)).toInt ≤ 600) ∧
      (-160 ≤ (b.read (a + 10)).toInt ∧ (b.read (a + 10)).toInt ≤ 600) := by
    constructor
    · intro h
      exact ⟨h 4 (by omega) (by omega), h 5 (by omega) (by omega), h 6 (by omega) (by omega), h 7 (by omega) (by omega),
        h 8 (by omega) (by omega), h 9 (by omega) (by omega), h 10 (by omega) (by omega)⟩
    · rintro ⟨h4, h5, h6, h7, h8, h9, h10⟩ i hi hj
      interval_cases i <;> assumption
  dsimp only
  rw [hseven]
  simp only [ZoneRec.inRange, Bool.and_eq_true, tempOk_iff, within_iff, Bank.zoneAt, Bank.nat, Bank.uint, Bank.sint,
    Int.toNat_natCast, zero_le, true_and, Nat.add_zero, and_assoc, h1]

/-- R132: what a record fails first is the first of its checks that fails. -/
theorem recordFault_iff (b : Bank) (kind a k : Nat) (r : FailReason) (h : kind = 1 → a = b.record Table.limits 0) :
    b.recordFault kind a k = some r ↔ firstFails (b.checks kind a k) r := by
  unfold Bank.recordFault Bank.checks
  split
  · have ha := h rfl
    refine check_iff ?_ (last_iff ?_)
    · rw [ha]; exact not_iff_of _ (limits_inRange_iff b)
    · rw [not_iff_of _ (show b.fallbacksPresent = true ↔ ∀ p : Fin 4, ∃ j, j < b.count Table.bands ∧
          (b.read (b.record Table.bands j)).toNat = p.val * 32 + b.limits.fallback.get p by
        unfold Bank.fallbacksPresent
        rw [List.all_eq_true, forall_indices]
        exact forall_congr' fun p => findBand_isSome_iff b p _)]
      rw [not_forall]
      constructor
      · rintro ⟨p, hp⟩
        refine ⟨p.val, p.isLt, fun j hj => hp ⟨j, hj.1, ?_⟩⟩
        rw [hj.2, ha]
        simp only [Bank.limits, Four.get_of, Bank.nat, Nat.add_assoc]
      · rintro ⟨p, hp, hn⟩
        refine ⟨⟨p, hp⟩, fun ⟨j, h1, h2⟩ => hn j ⟨h1, ?_⟩⟩
        rw [h2, ha]
        simp only [Bank.limits, Four.get_of, Bank.nat, Nat.add_assoc]
  · refine check_iff (not_iff_of _ (zone_inRange_iff b a)) (last_iff (not_iff_of _ ?_))
    unfold ZoneRec.ordered
    rw [Bool.and_eq_true, Bool.and_eq_true, Bool.and_eq_true, Bool.and_eq_true, decide_eq_true_iff, decide_eq_true_iff,
      decide_eq_true_iff, decide_eq_true_iff, decide_eq_true_iff, and_assoc, and_assoc, and_assoc]
    exact Iff.rfl
  · exact last_iff Iff.rfl
  · dsimp only
    refine check_iff ?_ (check_iff ?_ (check_iff ?_ (last_iff ?_)))
    · simp only [Bank.bandAt, Bank.nat, Bank.sint, not_iff_of _ (codeOk_iff _), Nat.add_zero]
    · refine not_iff_of _ ?_
      rw [Bool.and_eq_true, decide_eq_true_iff, decide_eq_true_iff]
      exact Iff.rfl
    · refine or_congr Iff.rfl (or_congr Iff.rfl ?_)
      unfold Bank.curve
      rw [any_points]
      refine exists_congr fun i => and_congr Iff.rfl ?_
      rw [decide_eq_true_iff]
      exact uint_lt b 8191 _
    · simp [Bank.nat]
  · dsimp only
    refine check_iff ?_ (last_iff (not_iff_of' _ ?_))
    · rw [any_points]
      refine exists_congr fun i => and_congr Iff.rfl ?_
      rw [Bool.or_eq_true, decide_eq_true_iff, not_iff_of _ (codeOk_iff _)]
      exact or_congr Iff.rfl (uint_lt b 16383 _)
    · rw [Bool.and_eq_true, points_fst, points_snd, ascending_points, nondecreasing_points]
      constructor
      · rintro ⟨h1, h2⟩ ⟨i, hi, h3⟩
        rcases h3 with h3 | h3
        · exact absurd (h1 i hi) (not_lt.2 h3)
        · have := h2 i hi
          rw [Bank.uint, Bank.uint, Int.ofNat_le] at this
          exact absurd this (not_le.2 h3)
      · intro h
        refine ⟨fun i hi => not_le.1 fun h3 => h ⟨i, hi, Or.inl h3⟩, fun i hi => ?_⟩
        rw [Bank.uint, Bank.uint, Int.ofNat_le]
        exact not_lt.1 fun h3 => h ⟨i, hi, Or.inr h3⟩
  · exact last_iff Iff.rfl
  · dsimp only
    refine check_iff ?_ (last_iff (not_iff_of' _ ?_))
    · rw [Bool.or_eq_true, Bool.or_eq_true, any_points, decide_eq_true_iff, not_iff_of _ (within_iff _ _ _), or_assoc]
      refine or_congr (exists_congr fun i => and_congr Iff.rfl ?_) Iff.rfl
      rw [Bool.or_eq_true, decide_eq_true_iff, decide_eq_true_iff]
      exact or_congr (uint_lt b 6000 _) (uint_lt b 8191 _)
    · rw [points_fst, ascending_points]
      constructor
      · rintro h1 ⟨i, hi, h3⟩
        have := h1 i hi
        rw [Bank.uint, Bank.uint, Int.ofNat_lt] at this
        exact absurd this (not_lt.2 h3)
      · intro h i hi
        rw [Bank.uint, Bank.uint, Int.ofNat_lt]
        exact not_le.1 fun h3 => h ⟨i, hi, h3⟩
  · dsimp only
    first
      | exact none_iff r
      | (split <;> first | exact none_iff r | (exfalso; simp_all))

/-! ### The first pass -/

theorem firstFails_none {l : List (Prop × FailReason)} : (∀ q, ¬ firstFails l q) ↔ ∀ c ∈ l, ¬ c.1 := by
  induction l with
  | nil => simp [firstFails]
  | cons c rest ih =>
    obtain ⟨p, q⟩ := c
    simp only [firstFails_cons, List.forall_mem_cons, ← ih]
    constructor
    · intro h
      have hp : ¬ p := fun hp => h q (Or.inl ⟨hp, rfl⟩)
      exact ⟨hp, fun r hr => h r (Or.inr ⟨hp, hr⟩)⟩
    · rintro ⟨h1, h2⟩ r (⟨h3, _⟩ | ⟨_, h3⟩)
      · exact h1 h3
      · exact h2 r h3

theorem recordWords_shape (kind : Nat) : recordWords kind = (tableShape kind).1 := by
  unfold recordWords tableShape
  split <;> first | rfl | (split <;> first | rfl | (exfalso; simp_all))

theorem countOk_shape (kind count : Nat) :
    countOk kind count = true ↔ (tableShape kind).2.1 ≤ count ∧ count ≤ (tableShape kind).2.2 := by
  unfold countOk tableShape; split <;> simp <;> omega

theorem shape_pos {kind : Nat} (h : kind ≠ 0) (h7 : kind ≤ 7) : 0 < (tableShape kind).1 ∧ 0 < (tableShape kind).2.1 := by
  interval_cases kind <;> simp_all [tableShape]

/-- The first `n` entries have ended nothing. -/
def Bank.passedTo (b : Bank) (n : Nat) : Prop := ∀ j, j < n → ∀ q, ¬ b.entryFails j q

theorem passed_size {b : Bank} {n j : Nat} (h : b.passedTo n) (hj : j < n) (hk : b.kindAt j ≠ 0) :
    b.kindAt j ≤ 7 ∧ 0 < (tableShape (b.kindAt j)).1 * b.countAt j := by
  have h1 : ∀ c ∈ [ (7 < b.kindAt j, FailReason.badValue),
      (∃ i, i < j ∧ b.kindAt i = b.kindAt j, .duplicateKind),
      (¬ ((tableShape (b.kindAt j)).2.1 ≤ b.countAt j ∧ b.countAt j ≤ (tableShape (b.kindAt j)).2.2), .badCount),
      (b.baseAt j < 48 ∨ ∃ w, b.inRegion j w ∧ 4095 < w, .outOfBank),
      (∃ i w, i < j ∧ b.kindAt i ≠ 0 ∧ b.inRegion j w ∧ b.inRegion i w, .overlap) ], ¬ c.1 :=
    firstFails_none.1 fun q hq => h j hj q ⟨hk, hq⟩
  have h7 : b.kindAt j ≤ 7 := by simpa using h1 _ List.mem_cons_self
  have h3 : (tableShape (b.kindAt j)).2.1 ≤ b.countAt j ∧ b.countAt j ≤ (tableShape (b.kindAt j)).2.2 := by
    have := h1 _ (List.mem_cons_of_mem _ (List.mem_cons_of_mem _ List.mem_cons_self))
    simpa using this
  have := shape_pos hk h7
  exact ⟨h7, Nat.mul_pos this.1 (by omega)⟩

/-- Two regions of a word at least share one exactly where they overlap as intervals. -/
theorem overlaps_iff (b : Bank) (i j : Nat) (hi : 0 < (tableShape (b.kindAt i)).1 * b.countAt i)
    (hj : 0 < (tableShape (b.kindAt j)).1 * b.countAt j) :
    (b.dirEntry i).overlaps (b.dirEntry j) = true ↔ ∃ w, b.inRegion i w ∧ b.inRegion j w := by
  unfold DirEntry.overlaps DirEntry.size Bank.inRegion
  rw [Bool.and_eq_true, decide_eq_true_iff, decide_eq_true_iff, recordWords_shape, recordWords_shape]
  change b.baseAt i < b.baseAt j + (tableShape (b.kindAt j)).1 * b.countAt j ∧
    b.baseAt j < b.baseAt i + (tableShape (b.kindAt i)).1 * b.countAt i ↔ _
  constructor
  · intro h
    exact ⟨max (b.baseAt i) (b.baseAt j), ⟨le_max_left _ _, by omega⟩, ⟨le_max_right _ _, by omega⟩⟩
  · rintro ⟨w, h1, h2⟩
    omega

/-- The first pass from entry `n` on, with the non-empty ones of the first `n` walked. -/
theorem firstPass_iff (b : Bank) (m : Nat) : ∀ (n : Nat) (earlier : List DirEntry), n + m = 16 → b.passedTo n →
    (∀ f, f ∈ earlier ↔ ∃ j, j < n ∧ f = b.dirEntry j ∧ b.kindAt j ≠ 0) → ∀ (i : Nat) (r : FailReason),
    (firstPass ((List.range' n m).map b.dirEntry) earlier = some (i, r) ↔
      (n ≤ i ∧ i < 16 ∧ b.passedTo i ∧ b.entryFails i r) ∨
      (b.passedTo 16 ∧ (∃ kind, 1 ≤ kind ∧ kind ≤ 7 ∧ ∀ j, j < 16 → b.kindAt j ≠ kind) ∧ i = 16 ∧ r = .missingKind)) := by
  induction m with
  | zero =>
    intro n earlier hn hp he i r
    obtain rfl : n = 16 := by omega
    have hall : ((List.range 7).all fun k => earlier.any fun e => e.kind == k + 1) = true ↔
        ¬ ∃ kind, 1 ≤ kind ∧ kind ≤ 7 ∧ ∀ j, j < 16 → b.kindAt j ≠ kind := by
      rw [List.all_eq_true]
      constructor
      · rintro h ⟨kind, h1, h2, h3⟩
        obtain ⟨f, hf, hk⟩ := List.any_eq_true.1 (h (kind - 1) (by rw [List.mem_range]; omega))
        obtain ⟨j, hj, rfl, _⟩ := (he f).1 hf
        refine h3 j hj ?_
        have : (b.dirEntry j).kind = kind - 1 + 1 := by simpa using hk
        have h4 : (b.dirEntry j).kind = b.kindAt j := rfl
        omega
      · intro h k hk
        rw [List.mem_range] at hk
        by_contra hn
        refine h ⟨k + 1, by omega, by omega, fun j hj h0 => hn ?_⟩
        rw [List.any_eq_true]
        exact ⟨b.dirEntry j, (he _).2 ⟨j, hj, rfl, by omega⟩, beq_iff_eq.2 h0⟩
    simp only [List.range'_zero, List.map_nil, firstPass]
    split
    · rename_i h
      have := hall.1 h
      constructor
      · intro h; cases h
      · rintro (⟨h1, h2, _⟩ | ⟨_, h2, _⟩)
        · omega
        · exact absurd h2 this
    · rename_i h
      have habs : ∃ kind, 1 ≤ kind ∧ kind ≤ 7 ∧ ∀ j, j < 16 → b.kindAt j ≠ kind := by
        by_contra h0
        exact h (hall.2 h0)
      constructor
      · intro h; cases h; exact Or.inr ⟨hp, habs, rfl, rfl⟩
      · rintro (⟨h1, h2, _⟩ | ⟨_, _, rfl, rfl⟩)
        · omega
        · rfl
  | succ m ih =>
    intro n earlier hn hp he i r
    have next : ∀ earlier', b.passedTo (n + 1) → (∀ f, f ∈ earlier' ↔ ∃ j, j < n + 1 ∧ f = b.dirEntry j ∧ b.kindAt j ≠ 0) →
        (firstPass ((List.range' (n + 1) m).map b.dirEntry) earlier' = some (i, r) ↔
          (n ≤ i ∧ i < 16 ∧ b.passedTo i ∧ b.entryFails i r) ∨
          (b.passedTo 16 ∧ (∃ kind, 1 ≤ kind ∧ kind ≤ 7 ∧ ∀ j, j < 16 → b.kindAt j ≠ kind) ∧ i = 16 ∧ r = .missingKind)) := by
      intro earlier' hp' he'
      rw [ih (n + 1) earlier' (by omega) hp' he' i r]
      refine or_congr ⟨fun ⟨h1, h2⟩ => ⟨by omega, h2⟩, fun ⟨h1, h2, h3, h4⟩ => ⟨?_, h2, h3, h4⟩⟩ Iff.rfl
      rcases Nat.lt_or_ge n i with h | h
      · exact h
      · obtain rfl : n = i := by omega
        exact absurd h4 (hp' n (by omega) r)
    have ends : ∀ q, b.entryFails n q → (∀ p, b.entryFails n p → p = q) → (some (n, q) = some (i, r) ↔
          (n ≤ i ∧ i < 16 ∧ b.passedTo i ∧ b.entryFails i r) ∨
          (b.passedTo 16 ∧ (∃ kind, 1 ≤ kind ∧ kind ≤ 7 ∧ ∀ j, j < 16 → b.kindAt j ≠ kind) ∧ i = 16 ∧ r = .missingKind)) := by
      intro q hq huniq
      constructor
      · intro h; cases h; exact Or.inl ⟨le_refl _, by omega, hp, hq⟩
      · rintro (⟨h1, h2, h3, h4⟩ | ⟨h1, _⟩)
        · rcases Nat.lt_or_ge n i with h | h
          · exact absurd hq (h3 n h q)
          · obtain rfl : n = i := by omega
            rw [huniq r h4]
        · exact absurd hq (h1 n (by omega) q)
    have step : b.passedTo (n + 1) ↔ ∀ q, ¬ b.entryFails n q := by
      constructor
      · intro h; exact h n (by omega)
      · intro h j hj
        rcases Nat.lt_or_ge j n with h1 | h1
        · exact hp j h1
        · obtain rfl : j = n := by omega
          exact h
    rw [List.range'_succ, List.map_cons]
    unfold firstPass
    have hkind : (b.dirEntry n).kind = b.kindAt n := rfl
    have hcount : (b.dirEntry n).count = b.countAt n := rfl
    have hbase : (b.dirEntry n).base = b.baseAt n := rfl
    have hsize : (b.dirEntry n).size = (tableShape (b.kindAt n)).1 * b.countAt n := by
      unfold DirEntry.size; rw [recordWords_shape]; rfl
    have hidx : (b.dirEntry n).index = n := rfl
    by_cases h0 : b.kindAt n = 0
    · rw [if_pos (hkind.trans h0)]
      have hp' : b.passedTo (n + 1) := step.2 fun q h => h.1 h0
      refine next earlier hp' fun f => ?_
      rw [he f]
      refine exists_congr fun j => ⟨fun ⟨h1, h2⟩ => ⟨by omega, h2⟩, fun ⟨h1, h2, h3⟩ => ⟨?_, h2, h3⟩⟩
      rcases Nat.lt_or_ge j n with h | h
      · exact h
      · obtain rfl : j = n := by omega
        exact absurd h0 h3
    rw [if_neg (by rw [hkind]; exact h0)]
    have hdup : (earlier.any fun f => f.kind == (b.dirEntry n).kind) = true ↔ ∃ j, j < n ∧ b.kindAt j = b.kindAt n := by
      rw [List.any_eq_true]
      constructor
      · rintro ⟨f, hf, hk⟩
        obtain ⟨j, hj, rfl, _⟩ := (he f).1 hf
        exact ⟨j, hj, beq_iff_eq.1 hk⟩
      · rintro ⟨j, hj, hk⟩
        exact ⟨b.dirEntry j, (he _).2 ⟨j, hj, rfl, by omega⟩, beq_iff_eq.2 hk⟩
    have hcnt : (!countOk (b.dirEntry n).kind (b.dirEntry n).count) = true ↔
        ¬ ((tableShape (b.kindAt n)).2.1 ≤ b.countAt n ∧ b.countAt n ≤ (tableShape (b.kindAt n)).2.2) :=
      not_iff_of _ (countOk_shape _ _)
    by_cases h7 : 7 < b.kindAt n
    · rw [if_pos (by rw [hkind]; exact h7)]
      exact ends _ ⟨h0, Or.inl ⟨h7, rfl⟩⟩ fun p hpp => by
        rcases hpp.2 with ⟨_, h⟩ | ⟨h, _⟩
        · exact h
        · exact absurd h7 h
    rw [if_neg (by rw [hkind]; exact h7)]
    by_cases hd : ∃ j, j < n ∧ b.kindAt j = b.kindAt n
    · rw [if_pos (hdup.2 hd)]
      exact ends _ ⟨h0, Or.inr ⟨h7, Or.inl ⟨hd, rfl⟩⟩⟩ fun p hpp => by
        rcases hpp.2 with ⟨h, _⟩ | ⟨_, ⟨_, h⟩ | ⟨h, _⟩⟩
        · exact absurd h h7
        · exact h
        · exact absurd hd h
    rw [if_neg (fun h => hd (hdup.1 h))]
    by_cases hc : ¬ ((tableShape (b.kindAt n)).2.1 ≤ b.countAt n ∧ b.countAt n ≤ (tableShape (b.kindAt n)).2.2)
    · rw [if_pos (hcnt.2 hc)]
      exact ends _ ⟨h0, Or.inr ⟨h7, Or.inr ⟨hd, Or.inl ⟨hc, rfl⟩⟩⟩⟩ fun p hpp => by
        rcases hpp.2 with ⟨h, _⟩ | ⟨_, ⟨h, _⟩ | ⟨_, ⟨_, h⟩ | ⟨h, _⟩⟩⟩
        · exact absurd h h7
        · exact absurd h hd
        · exact h
        · exact absurd hc h
    rw [if_neg (fun h => hc (hcnt.1 h))]
    have hpos : 0 < (tableShape (b.kindAt n)).1 * b.countAt n := by
      have := shape_pos h0 (by omega)
      exact Nat.mul_pos this.1 (by omega)
    have hout : (!(decide (48 ≤ (b.dirEntry n).base) && decide ((b.dirEntry n).base + (b.dirEntry n).size ≤ 4096))) = true ↔
        (b.baseAt n < 48 ∨ ∃ w, b.inRegion n w ∧ 4095 < w) := by
      rw [not_iff_of _ (show _ ↔ (48 ≤ b.baseAt n ∧ b.baseAt n + (tableShape (b.kindAt n)).1 * b.countAt n ≤ 4096) by
        rw [Bool.and_eq_true, decide_eq_true_iff, decide_eq_true_iff, hbase, hsize])]
      constructor
      · intro h
        by_cases h1 : b.baseAt n < 48
        · exact Or.inl h1
        · exact Or.inr ⟨b.baseAt n + (tableShape (b.kindAt n)).1 * b.countAt n - 1, ⟨by omega, by omega⟩, by omega⟩
      · rintro (h | ⟨w, ⟨h1, h2⟩, h3⟩) <;> omega
    by_cases ho : b.baseAt n < 48 ∨ ∃ w, b.inRegion n w ∧ 4095 < w
    · rw [if_pos (hout.2 ho)]
      exact ends _ ⟨h0, Or.inr ⟨h7, Or.inr ⟨hd, Or.inr ⟨hc, Or.inl ⟨ho, rfl⟩⟩⟩⟩⟩ fun p hpp => by
        rcases hpp.2 with ⟨h, _⟩ | ⟨_, ⟨h, _⟩ | ⟨_, ⟨h, _⟩ | ⟨_, ⟨_, h⟩ | ⟨h, _⟩⟩⟩⟩
        · exact absurd h h7
        · exact absurd h hd
        · exact absurd h hc
        · exact h
        · exact absurd ho h
    rw [if_neg (fun h => ho (hout.1 h))]
    have hov : (earlier.any (b.dirEntry n).overlaps) = true ↔
        ∃ j w, j < n ∧ b.kindAt j ≠ 0 ∧ b.inRegion n w ∧ b.inRegion j w := by
      rw [List.any_eq_true]
      constructor
      · rintro ⟨f, hf, hk⟩
        obtain ⟨j, hj, rfl, hj0⟩ := (he f).1 hf
        obtain ⟨w, hw⟩ := (overlaps_iff b n j hpos (passed_size hp hj hj0).2).1 hk
        exact ⟨j, w, hj, hj0, hw⟩
      · rintro ⟨j, w, hj, hj0, hw⟩
        exact ⟨b.dirEntry j, (he _).2 ⟨j, hj, rfl, hj0⟩, (overlaps_iff b n j hpos (passed_size hp hj hj0).2).2 ⟨w, hw⟩⟩
    by_cases hv : ∃ j w, j < n ∧ b.kindAt j ≠ 0 ∧ b.inRegion n w ∧ b.inRegion j w
    · rw [if_pos (hov.2 hv)]
      exact ends _ ⟨h0, Or.inr ⟨h7, Or.inr ⟨hd, Or.inr ⟨hc, Or.inr ⟨ho, Or.inl ⟨hv, rfl⟩⟩⟩⟩⟩⟩ fun p hpp => by
        rcases hpp.2 with ⟨h, _⟩ | ⟨_, ⟨h, _⟩ | ⟨_, ⟨h, _⟩ | ⟨_, ⟨h, _⟩ | ⟨_, ⟨_, h⟩ | ⟨_, h⟩⟩⟩⟩⟩
        · exact absurd h h7
        · exact absurd h hd
        · exact absurd h hc
        · exact absurd h ho
        · exact h
        · exact h.elim
    rw [if_neg (fun h => hv (hov.1 h))]
    have hp' : b.passedTo (n + 1) := step.2 fun q hq => by
      rcases hq.2 with ⟨h, _⟩ | ⟨_, ⟨h, _⟩ | ⟨_, ⟨h, _⟩ | ⟨_, ⟨h, _⟩ | ⟨_, ⟨h, _⟩ | ⟨_, h⟩⟩⟩⟩⟩
      · exact h7 h
      · exact hd h
      · exact hc h
      · exact ho h
      · exact hv h
      · exact h
    refine next _ hp' fun f => ?_
    rw [List.mem_append, List.mem_singleton, he f]
    constructor
    · rintro (⟨j, h1, h2⟩ | rfl)
      · exact ⟨j, by omega, h2⟩
      · exact ⟨n, by omega, rfl, h0⟩
    · rintro ⟨j, h1, h2, h3⟩
      rcases Nat.lt_or_ge j n with h | h
      · exact Or.inl ⟨j, h, h2, h3⟩
      · obtain rfl : j = n := by omega
        exact Or.inr h2

/-- The first pass of a bank. -/
theorem firstPass_directory (b : Bank) (i : Nat) (r : FailReason) :
    firstPass b.directory [] = some (i, r) ↔
      (i < 16 ∧ b.passedTo i ∧ b.entryFails i r) ∨
      (b.passedTo 16 ∧ (∃ kind, 1 ≤ kind ∧ kind ≤ 7 ∧ ∀ j, j < 16 → b.kindAt j ≠ kind) ∧ i = 16 ∧ r = .missingKind) := by
  have := firstPass_iff b 16 0 [] rfl (fun j hj => absurd hj (by omega)) (by simp) i r
  unfold Bank.directory
  rw [List.range_eq_range', this]
  refine or_congr ⟨fun h => h.2, fun h => ⟨Nat.zero_le _, h⟩⟩ Iff.rfl

/-! ### The second pass -/

/-- The first answer over a range. -/
theorem findSome_range {α : Type} (f : Nat → Option α) (n : Nat) (x : α) :
    (List.range n).findSome? f = some x ↔ ∃ k, k < n ∧ f k = some x ∧ ∀ m, m < k → f m = none := by
  induction n with
  | zero => simp
  | succ n ih =>
    rw [List.range_succ, List.findSome?_append]
    cases h : (List.range n).findSome? f with
    | some y =>
      rw [h] at ih
      simp only [Option.some_or]
      rw [ih]
      constructor
      · rintro ⟨k, h1, h2⟩; exact ⟨k, by omega, h2⟩
      · rintro ⟨k, h1, h2, h3⟩
        rcases Nat.lt_or_ge k n with hk | hk
        · exact ⟨k, hk, h2, h3⟩
        · exfalso
          rw [List.findSome?_eq_some_iff] at h
          obtain ⟨l1, a, l2, hl, hfa, _⟩ := h
          have ha : a ∈ List.range n := by rw [hl]; simp
          rw [List.mem_range] at ha
          rw [h3 a (by omega)] at hfa
          cases hfa
    | none =>
      rw [List.findSome?_eq_none_iff] at h
      simp only [Option.none_or, List.findSome?_cons, List.findSome?_nil]
      constructor
      · intro hx
        refine ⟨n, by omega, ?_, fun m hm => h m (List.mem_range.2 hm)⟩
        cases hf : f n with
        | none => rw [hf] at hx; cases hx
        | some y => rw [hf] at hx; exact hx
      · rintro ⟨k, h1, h2, _⟩
        rcases Nat.lt_or_ge k n with hk | hk
        · rw [h k (List.mem_range.2 hk)] at h2; cases h2
        · obtain rfl : k = n := by omega
          rw [h2]

end Sys2Proof.Machine
end

