-- ==== Sys2Proof/Laws/CommandRows.lean ====
section
/-! SUPPORT. The command codes, row by row. -/

namespace Sys2Proof.Machine

theorem commandRow_cases {copied code : Nat} {c : Instr} (h : commandRow copied code = some c) :
    (code = 0x01 ∧ c = .readStatus) ∨ (code = 0x02 ∧ c = .readEvents) ∨ (code = 0x03 ∧ c = .setMask) ∨
    (code = 0x04 ∧ c = .readZone) ∨ (code = 0x05 ∧ c = .readPath) ∨ (code = 0x06 ∧ c = .readSchedule) ∨
    (code = 0x07 ∧ c = .setCap) ∨ (code = 0x08 ∧ c = .clearBar) ∨ (code = 0x10 ∧ c = .readTable copied) ∨
    (code = 0x11 ∧ c = .writeTable) ∨ (code = 0x12 ∧ c = .launch) ∨ (code = 0x13 ∧ c = .recallLaunch) ∨
    (code = 0x14 ∧ c = .copy) ∨ (code = 0x1F ∧ c = .softReset copied) := by
  unfold commandRow at h
  by_cases h1 : code = 0x01; · rw [if_pos h1] at h; cases h; simp [h1]
  rw [if_neg h1] at h
  by_cases h2 : code = 0x02; · rw [if_pos h2] at h; cases h; simp [h2]
  rw [if_neg h2] at h
  by_cases h3 : code = 0x03; · rw [if_pos h3] at h; cases h; simp [h3]
  rw [if_neg h3] at h
  by_cases h4 : code = 0x04; · rw [if_pos h4] at h; cases h; simp [h4]
  rw [if_neg h4] at h
  by_cases h5 : code = 0x05; · rw [if_pos h5] at h; cases h; simp [h5]
  rw [if_neg h5] at h
  by_cases h6 : code = 0x06; · rw [if_pos h6] at h; cases h; simp [h6]
  rw [if_neg h6] at h
  by_cases h7 : code = 0x07; · rw [if_pos h7] at h; cases h; simp [h7]
  rw [if_neg h7] at h
  by_cases h8 : code = 0x08; · rw [if_pos h8] at h; cases h; simp [h8]
  rw [if_neg h8] at h
  by_cases h9 : code = 0x10; · rw [if_pos h9] at h; cases h; simp [h9]
  rw [if_neg h9] at h
  by_cases h10 : code = 0x11; · rw [if_pos h10] at h; cases h; simp [h10]
  rw [if_neg h10] at h
  by_cases h11 : code = 0x12; · rw [if_pos h11] at h; cases h; simp [h11]
  rw [if_neg h11] at h
  by_cases h12 : code = 0x13; · rw [if_pos h12] at h; cases h; simp [h12]
  rw [if_neg h12] at h
  by_cases h13 : code = 0x14; · rw [if_pos h13] at h; cases h; simp [h13]
  rw [if_neg h13] at h
  by_cases h14 : code = 0x1F; · rw [if_pos h14] at h; cases h; simp [h14]
  rw [if_neg h14] at h; cases h

/-- A code names no row exactly when the code table gives it no length. -/
theorem commandRow_none_iff (copied code : Nat) : commandRow copied code = none ↔ commandLengths code = none := by
  unfold commandRow commandLengths Code.readStatus Code.readEvents Code.setMask Code.readZone Code.readPath Code.readSchedule
    Code.setCap Code.clearBar Code.readTable Code.writeTable Code.launch Code.recallLaunch Code.copy Code.softReset
  by_cases h1 : code = 0x01; · rw [if_pos h1, if_pos h1]; simp
  rw [if_neg h1, if_neg h1]
  by_cases h2 : code = 0x02; · rw [if_pos h2, if_pos h2]; simp
  rw [if_neg h2, if_neg h2]
  by_cases h3 : code = 0x03; · rw [if_pos h3, if_pos h3]; simp
  rw [if_neg h3, if_neg h3]
  by_cases h4 : code = 0x04; · rw [if_pos h4, if_pos h4]; simp
  rw [if_neg h4, if_neg h4]
  by_cases h5 : code = 0x05; · rw [if_pos h5, if_pos h5]; simp
  rw [if_neg h5, if_neg h5]
  by_cases h6 : code = 0x06; · rw [if_pos h6, if_pos h6]; simp
  rw [if_neg h6, if_neg h6]
  by_cases h7 : code = 0x07; · rw [if_pos h7, if_pos h7]; simp
  rw [if_neg h7, if_neg h7]
  by_cases h8 : code = 0x08; · rw [if_pos h8, if_pos h8]; simp
  rw [if_neg h8, if_neg h8]
  by_cases h9 : code = 0x10; · rw [if_pos h9, if_pos h9]; simp
  rw [if_neg h9, if_neg h9]
  by_cases h10 : code = 0x11; · rw [if_pos h10, if_pos h10]; simp
  rw [if_neg h10, if_neg h10]
  by_cases h11 : code = 0x12; · rw [if_pos h11, if_pos h11]; simp
  rw [if_neg h11, if_neg h11]
  by_cases h12 : code = 0x13; · rw [if_pos h12, if_pos h12]; simp
  rw [if_neg h12, if_neg h12]
  by_cases h13 : code = 0x14; · rw [if_pos h13, if_pos h13]; simp
  rw [if_neg h13, if_neg h13]
  by_cases h14 : code = 0x1F; · rw [if_pos h14, if_pos h14]; simp
  rw [if_neg h14, if_neg h14]
  simp

end Sys2Proof.Machine
end

