-- ==== Sys2Proof/Laws/Controllers.lean ====
section
/-! SUPPORT. The controllers of the four zones at a turn: which of them run, on what, and what the paths' thermal back-offs become. -/

namespace Sys2Proof.Machine

/-- An update does not read whether an estimate waits. -/
theorem update_presented (c : Control) (r : ZoneRec) (t : Int) (b : Bool) :
    ({ c with presented := b } : Control).update r t = c.update r t := by
  unfold Control.update Control.law Control.clamped
  dsimp only
  by_cases h : r.critical ≤ t
  · simp [h]
  · simp only [h, if_false]
    cases c.state <;> dsimp only <;> (repeat' split) <;> rfl

theorem update_taken (c : Control) (r : ZoneRec) (t : Int) : (c.update r t).presented = false := rfl

/-- The zones of a list that run. -/
def State.runs (s : State) (held : List (Fin 4)) (z : Fin 4) : Bool := (s.control.get z).presented && !held.contains z

/-- The controllers of a list of zones run, those held back apart: what becomes of every zone, of every path's thermal back-off
and of TIER. -/
theorem runList_eq (held : List (Fin 4)) (zs : List (Fin 4)) (hn : zs.Nodup) (s : State) :
    let t := zs.foldl (fun s z => if (s.control.get z).presented && !held.contains z then s.runController z else s) s
    t.tables = s.tables ∧ t.heat = s.heat ∧
    (∀ z, t.control.get z = if z ∈ zs ∧ s.runs held z = true then
      (s.control.get z).update (s.zoneRec z) (s.heat.estimate.get z) else s.control.get z) ∧
    ((∃ z ∈ zs, s.runs held z = true) →
      ∀ p, (t.path.get p).thermal = thermalBackoff (s.bankFor .current) t.control p) ∧
    ((∀ z ∈ zs, s.runs held z = false) → t.control = s.control ∧ t.path = s.path ∧ t.events = s.events) ∧
    (∀ f, s.events.has f = true → t.events.has f = true) ∧
    (∀ z, (t.control.get z).state ≠ (s.control.get z).state → t.events.has .tier = true) := by
  induction zs generalizing s with
  | nil => simp
  | cons y zs ih =>
    obtain ⟨hy, hn'⟩ := List.nodup_cons.1 hn
    by_cases hr : s.runs held y = true
    · have hstep : (if (s.control.get y).presented && !held.contains y then s.runController y else s) = s.runController y :=
        if_pos hr
      obtain ⟨h1, h2, h3, h4, h5, h6, h7⟩ := ih hn' (s.runController y)
      rw [List.foldl_cons, hstep]
      dsimp only at h1 h2 h3 h4 h5 h6 h7 ⊢
      have hb : (s.runController y).bankFor .current = s.bankFor .current := by simp [State.bankFor]
      have hc : ∀ z, (s.runController y).control.get z = if z = y then
          (s.control.get y).update (s.zoneRec y) (s.heat.estimate.get y) else s.control.get z := by
        intro z; unfold State.runController; simp only [Four.get_set]
      have hruns : ∀ z ∈ zs, (s.runController y).runs held z = s.runs held z := by
        intro z hz
        have : z ≠ y := fun h => hy (h ▸ hz)
        simp only [State.runs, hc, if_neg this]
      have htier : ((s.runController y).control.get y).state ≠ (s.control.get y).state →
          (s.runController y).events.has .tier = true := by
        intro h
        rw [hc, if_pos rfl] at h
        unfold State.runController
        simp only
        have : (((s.control.get y).update (s.zoneRec y) (s.heat.estimate.get y)).state != (s.control.get y).state) = true := by
          simpa using h
        rw [this]; exact Events.has_raise_self _ _
      refine ⟨h1.trans (by simp), h2.trans (by simp), fun z => ?_, fun _ p => ?_, fun h => ?_, fun f hf => ?_, fun z hz => ?_⟩
      · rw [h3 z, hc z]
        by_cases hzy : z = y
        · subst hzy
          simp [hy, hr]
        · simp only [List.mem_cons, hzy, false_or]
          by_cases hz : z ∈ zs
          · rw [hruns z hz]
            simp [State.zoneRec, hb]
          · simp [hz]
      · by_cases he : ∃ z ∈ zs, s.runs held z = true
        · obtain ⟨z, hz, hrz⟩ := he
          rw [h4 ⟨z, hz, by rw [hruns z hz]; exact hrz⟩ p, hb]
        · obtain ⟨e1, e2, _⟩ := h5 fun z hz => by
            rw [hruns z hz]; by_contra hcon; exact he ⟨z, hz, by simpa using hcon⟩
          rw [e1, e2]
          unfold State.runController
          simp only [Four.get_mapIdx]
      · exact absurd hr (by simp [h y (by simp)])
      · refine h6 f ?_
        unfold State.runController
        exact Events.has_raiseIf hf _ _
      · by_cases hzz : ((s.runController y).control.get z).state = (s.control.get z).state
        · exact h7 z (by rw [hzz]; exact hz)
        · have hzy : z = y := by
            by_contra hne
            rw [hc, if_neg hne] at hzz; exact hzz rfl
          subst hzy
          exact h6 _ (htier hzz)
    · have hstep : (if (s.control.get y).presented && !held.contains y then s.runController y else s) = s :=
        if_neg hr
      obtain ⟨h1, h2, h3, h4, h5, h6, h7⟩ := ih hn' s
      rw [List.foldl_cons, hstep]
      have hr' : s.runs held y = false := by simpa using hr
      refine ⟨h1, h2, fun z => ?_, fun h => ?_, fun h => ?_, h6, h7⟩
      · rw [h3 z]
        by_cases hzy : z = y
        · subst hzy; simp [hy, hr']
        · simp [hzy]
      · obtain ⟨z, hz, hrz⟩ := h
        rcases List.mem_cons.1 hz with rfl | hz
        · rw [hr'] at hrz; cases hrz
        · exact h4 ⟨z, hz, hrz⟩
      · exact h5 fun z hz => h z (List.mem_cons_of_mem _ hz)



/-- The controllers of the four zones run, those held back apart. -/
theorem runControllers_eq (s : State) (held : List (Fin 4)) :
    (∀ z, (s.runControllers held).control.get z = if s.runs held z then
      (s.control.get z).update (s.zoneRec z) (s.heat.estimate.get z) else s.control.get z) ∧
    ((∃ z, s.runs held z = true) →
      ∀ p, ((s.runControllers held).path.get p).thermal = thermalBackoff (s.bankFor .current) (s.runControllers held).control p) ∧
    ((∀ z, s.runs held z = false) → (s.runControllers held).control = s.control ∧ (s.runControllers held).path = s.path) ∧
    (∀ z, ((s.runControllers held).control.get z).state ≠ (s.control.get z).state →
      (s.runControllers held).events.has .tier = true) ∧
    (s.runControllers held).updates = held := by
  obtain ⟨_, _, h3, h4, h5, _, h7⟩ := runList_eq held Four.indices (by decide) s
  refine ⟨fun z => ?_, fun ⟨z, hz⟩ p => h4 ⟨z, Four.mem_indices z, hz⟩ p, fun h => ?_, h7, rfl⟩
  · have := h3 z
    simp only [Four.mem_indices, true_and] at this
    exact this
  · obtain ⟨a, b, _⟩ := h5 fun z _ => h z
    exact ⟨a, b⟩

/-- The thermal back-off of a path is the greatest of its zones' demands and of 0. -/
theorem thermalBackoff_spec (b : Bank) (control : Four Control) (p : Fin 4) :
    (∀ y, -((-((control.get y).backoff * b.weight p y)) / 15) ≤ thermalBackoff b control p) ∧
      0 ≤ thermalBackoff b control p ∧
      (thermalBackoff b control p = 0 ∨
        ∃ y, thermalBackoff b control p = -((-((control.get y).backoff * b.weight p y)) / 15)) := by
  have e : thermalBackoff b control p = max (-((-((control.get 0).backoff * b.weight p 0)) / 15))
      (max (-((-((control.get 1).backoff * b.weight p 1)) / 15)) (max (-((-((control.get 2).backoff * b.weight p 2)) / 15))
        (max (-((-((control.get 3).backoff * b.weight p 3)) / 15)) 0))) := by
    simp [thermalBackoff, Four.indices, ceilDiv]
  rw [e]
  refine ⟨fun y => ?_, by omega, ?_⟩
  · fin_cases y <;> simp only [Fin.zero_eta, Fin.mk_one, Fin.reduceFinMk] <;> omega
  · rcases le_total (max (-((-((control.get 1).backoff * b.weight p 1)) / 15)) (max (-((-((control.get 2).backoff * b.weight p 2)) / 15))
        (max (-((-((control.get 3).backoff * b.weight p 3)) / 15)) 0))) (-((-((control.get 0).backoff * b.weight p 0)) / 15)) with h | h
    · exact Or.inr ⟨0, max_eq_left h⟩
    · rw [max_eq_right h]
      rcases le_total (max (-((-((control.get 2).backoff * b.weight p 2)) / 15))
        (max (-((-((control.get 3).backoff * b.weight p 3)) / 15)) 0)) (-((-((control.get 1).backoff * b.weight p 1)) / 15)) with h | h
      · exact Or.inr ⟨1, max_eq_left h⟩
      · rw [max_eq_right h]
        rcases le_total (max (-((-((control.get 3).backoff * b.weight p 3)) / 15)) 0) (-((-((control.get 2).backoff * b.weight p 2)) / 15)) with h | h
        · exact Or.inr ⟨2, max_eq_left h⟩
        · rw [max_eq_right h]
          rcases le_total 0 (-((-((control.get 3).backoff * b.weight p 3)) / 15)) with h | h
          · exact Or.inr ⟨3, max_eq_left h⟩
          · exact Or.inl (max_eq_right h)

/-! ### A turn's estimates and controllers -/

/-- The state from which a turn's controllers run. -/
def State.turnBase (s : State) (turn : Turn) (o : TurnOrder) : State :=
  (((s.runHeld.beginFrame turn).closeEntries fun e => e.slot == .current).closeAndTick
    (s.tables.inForce .current) o.expiryFirst).relabelSchedule.supplyTurn

theorem turnWork_eq (s : State) (turn : Turn) (o : TurnOrder) :
    s.turnWork turn o = (((s.turnBase turn o).runControllers o.held).pathTurn).senseTurn s.tables.firstSwitch := rfl

theorem frameClose_parts (s : State) (b : Option Bank) :
    (s.frameClose b).tables = s.tables ∧
    (∀ z, (s.frameClose b).control.get z =
      if s.tables.active.isSome then { s.control.get z with presented := true } else s.control.get z) ∧
    (s.tables.active.isSome = true → ∀ z, (s.frameClose b).heat.estimate.get z =
      State.estimateOf { s with heat := s.heat.close b } z) := by
  unfold State.frameClose State.formEstimates
  by_cases h : s.tables.active.isSome = true
  · simp [h]
  · simp [h]

theorem closeAndTick_estimate {s : State} (h : s.tables.active.isSome = true) (b : Option Bank) (e : Bool) (z : Fin 4) :
    (s.closeAndTick b e).heat.estimate.get z = State.estimateOf { s with
      heat := s.heat.close b
      sense := if e then s.sense.mapIdx fun _ y => y.tick else s.sense } z := by
  unfold State.closeAndTick
  cases e
  · simp only [Bool.false_eq_true, if_false, pollTick_frame]
    exact (frameClose_parts s b).2.2 h z
  · simp only [if_true]
    exact (frameClose_parts s.pollTick b).2.2 (by simpa using h) z

theorem closeAndTick_control (s : State) (b : Option Bank) (e : Bool) (z : Fin 4) :
    (s.closeAndTick b e).control.get z =
      if s.tables.active.isSome then { s.control.get z with presented := true } else s.control.get z := by
  unfold State.closeAndTick
  cases e
  · simp only [Bool.false_eq_true, if_false, pollTick_frame]
    exact (frameClose_parts s b).2.1 z
  · simp only [if_true]
    have := (frameClose_parts s.pollTick b).2.1 z
    simpa using this

@[simp] theorem turnBase_frame (s : State) (turn : Turn) (o : TurnOrder) :
    (s.turnBase turn o).tables = s.tables.turned ∧ (s.turnBase turn o).path = s.runHeld.path ∧
    (s.turnBase turn o).link = s.link := by
  have ht : (s.runHeld.beginFrame turn).tables = s.tables.turned := by simp [State.beginFrame]
  unfold State.turnBase
  simp [ht]

theorem turnBase_control (s : State) (turn : Turn) (o : TurnOrder) (z : Fin 4) :
    (s.turnBase turn o).control.get z = if s.tables.turned.active.isSome then { s.runHeld.control.get z with presented := true }
      else s.runHeld.control.get z := by
  have ht : (s.runHeld.beginFrame turn).tables = s.tables.turned := by simp [State.beginFrame]
  unfold State.turnBase
  simp only [supplyTurn_frame, relabelSchedule_frame]
  rw [closeAndTick_control]
  simp [ht]

theorem turnBase_heat (s : State) (turn : Turn) (o : TurnOrder) :
    ∃ est, (s.turnBase turn o).heat =
      { (s.sched.charge (fun e => e.slot == .current) s.heat).close (s.tables.inForce .current) with estimate := est } ∧
      (s.tables.turned.active = none →
        est = ((s.sched.charge (fun e => e.slot == .current) s.heat).close (s.tables.inForce .current)).estimate) := by
  have ht : (s.runHeld.beginFrame turn).tables = s.tables.turned := by simp [State.beginFrame]
  unfold State.turnBase
  simp only [supplyTurn_frame, relabelSchedule_frame]
  obtain ⟨est, h⟩ := closeAndTick_heat ((s.runHeld.beginFrame turn).closeEntries fun e => e.slot == .current)
    (s.tables.inForce .current) o.expiryFirst
  simp only [closeEntries_frame, ht] at h
  have hh : ((s.runHeld.beginFrame turn).closeEntries fun e => e.slot == .current).heat =
      s.sched.charge (fun e => e.slot == .current) s.heat := by
    simp [State.closeEntries, Schedule.charge]
  rw [hh] at h
  exact ⟨est, h⟩

/-- The estimate of R76 from an account and what the Sense Tracker holds. -/
def ZoneRec.estimate (r : ZoneRec) (account : Int) (y : Sense) : Int :=
  match y.fresh with
  | .fresh => max (r.model account) y.sensed
  | .stale => max (r.model account) y.sensed
  | .blind => min 600 (max (r.model account) y.sensed + r.blindMargin)
  | .seeding => r.seedAssumption

theorem estimateOf_eq (s : State) (z : Fin 4) :
    s.estimateOf z = ((s.bankFor .current).zone z).estimate (s.heat.account.get z) (s.sense.get z) := rfl

theorem turnBase_estimate {s : State} (ha : s.tables.turned.active.isSome = true) (turn : Turn) (o : TurnOrder) (z : Fin 4) :
    (s.turnBase turn o).heat.estimate.get z = (s.bankBegun.zone z).estimate ((s.turnBase turn o).heat.account.get z)
      (if o.expiryFirst then (s.sense.get z).tick else s.sense.get z) := by
  have ht : (s.runHeld.beginFrame turn).tables = s.tables.turned := by simp [State.beginFrame]
  have hacc : (s.turnBase turn o).heat.account = (((s.runHeld.beginFrame turn).closeEntries fun e => e.slot == .current).heat.close
      (s.tables.inForce .current)).account := by
    obtain ⟨est, h, _⟩ := turnBase_heat s turn o
    rw [h]
    simp [State.closeEntries, Schedule.charge]
  rw [hacc]
  unfold State.turnBase
  simp only [supplyTurn_frame, relabelSchedule_frame]
  rw [closeAndTick_estimate (by simpa [ht] using ha), estimateOf_eq]
  congr 1
  · simp only [State.bankFor, closeEntries_frame, ht, State.bankBegun]
  · cases o.expiryFirst <;> simp

theorem senseTurn_estimate (s : State) (first : Bool) : (s.senseTurn first).heat.estimate = s.heat.estimate := by
  unfold State.senseTurn State.settleSeeding
  split
  · rfl
  · dsimp only
    split
    · dsimp only
      generalize Four.indices = zs
      suffices h : ∀ (hh : Heat), (zs.foldl (fun (h : Heat) (z : Fin 4) =>
          if (s.sense.get z).fresh = .fresh then h.seed (s.zoneRec z) z (s.sense.get z).sensed else h) hh).estimate =
          hh.estimate from h s.heat
      induction zs with
      | nil => intro hh; rfl
      | cons y zs ih =>
        intro hh
        rw [List.foldl_cons, ih]
        split <;> rfl
    · rfl

theorem frameTurn_estimate (s : State) (turn : Turn) (o : TurnOrder) :
    (s.frameTurn turn o).heat.estimate = (s.turnBase turn o).heat.estimate := by
  unfold State.frameTurn
  simp only [askQueue_frame]
  rw [turnWork_eq, senseTurn_estimate]
  simp

/-- The seeding of the first switch, zone by zone. -/
theorem settleSeeding_heat (s : State) (z : Fin 4) :
    s.settleSeeding.heat.account.get z = (if (s.sense.get z).fresh = .fresh then
        min heatMax (max 0 ((s.sense.get z).sensed - (s.zoneRec z).ambient) * (s.zoneRec z).scale) else s.heat.account.get z) ∧
    s.settleSeeding.heat.seeded.get z = (if (s.sense.get z).fresh = .fresh then true else s.heat.seeded.get z) := by
  have key : ∀ (zs : List (Fin 4)), zs.Nodup → ∀ hh : Heat,
      let r := zs.foldl (fun (h : Heat) (z : Fin 4) =>
          if (s.sense.get z).fresh = .fresh then h.seed (s.zoneRec z) z (s.sense.get z).sensed else h) hh
      r.account.get z = (if z ∈ zs ∧ (s.sense.get z).fresh = .fresh then
        min heatMax (max 0 ((s.sense.get z).sensed - (s.zoneRec z).ambient) * (s.zoneRec z).scale) else hh.account.get z) ∧
      r.seeded.get z = (if z ∈ zs ∧ (s.sense.get z).fresh = .fresh then true else hh.seeded.get z) := by
    intro zs
    induction zs with
    | nil => intro _ hh; simp
    | cons y zs ih =>
      intro hn hh
      obtain ⟨hy, hn'⟩ := List.nodup_cons.1 hn
      obtain ⟨h1, h2⟩ := ih hn' (if (s.sense.get y).fresh = .fresh then hh.seed (s.zoneRec y) y (s.sense.get y).sensed else hh)
      dsimp only at h1 h2 ⊢
      rw [List.foldl_cons, h1, h2]
      by_cases hzy : z = y
      · subst hzy
        by_cases hf : (s.sense.get z).fresh = .fresh <;> simp [hy, hf, Heat.seed]
      · by_cases hf : (s.sense.get y).fresh = .fresh <;> simp [hzy, hf, Heat.seed, Four.get_set]
  obtain ⟨h1, h2⟩ := key Four.indices (by decide) s.heat
  simp only [Four.mem_indices, true_and] at h1 h2
  exact ⟨h1, h2⟩

/-- Accounts and seed states after a turn. -/
theorem frameTurn_seeds (s : State) (turn : Turn) (o : TurnOrder) (z : Fin 4) :
    let r := s.bankBegun.zone z
    let y := s.sense.get z
    (s.tables.firstSwitch = false → (s.frameTurn turn o).heat.account.get z = (s.turnBase turn o).heat.account.get z ∧
      (s.frameTurn turn o).heat.seeded.get z = s.heat.seeded.get z) ∧
    (s.tables.firstSwitch = true →
      (s.frameTurn turn o).heat.account.get z = (if y.fresh = .fresh then
        min heatMax (max 0 (y.sensed - r.ambient) * r.scale) else (s.turnBase turn o).heat.account.get z) ∧
      (s.frameTurn turn o).heat.seeded.get z = (if y.fresh = .fresh then true else s.heat.seeded.get z)) := by
  have hu := beginFrame_unset s.runHeld turn
  rw [(runHeld_begun s).2.1] at hu
  have ht : (s.runHeld.beginFrame turn).tables = s.tables.turned := by simp [State.beginFrame]
  have hsd : (s.turnBase turn o).heat.seeded = s.heat.seeded := by
    obtain ⟨est, h, _⟩ := turnBase_heat s turn o
    rw [h]
    have hc : ∀ es : List Entry, ∀ h : Heat, (es.foldl (fun h e => h.charge e.path e.heat) h).seeded = h.seeded := by
      intro es
      induction es with
      | nil => intro h; rfl
      | cons e es ih => intro h; rw [List.foldl_cons, ih]; rfl
    have : (s.sched.charge (fun e => e.slot == .current) s.heat).seeded = s.heat.seeded := hc _ _
    unfold Heat.close
    split <;> exact this
  have hm : (s.turnBase turn o).timer.mode = .unset ↔ s.modeBegun = .unset := by
    unfold State.turnBase; simpa using hu
  have hse : ∀ y, ((s.turnBase turn o).sense.get y) = (s.sense.get y).tick := by
    intro y
    unfold State.turnBase State.closeAndTick
    split <;> simp [State.pollTick]
  have hfr : ((s.sense.get z).tick).fresh = .fresh ↔ (s.sense.get z).fresh = .fresh := by
    unfold Sense.tick
    split
    · dsimp only; split
      · rename_i h; simp [h]
      · rfl
    · rfl
  unfold State.frameTurn
  simp only [askQueue_frame, turnWork_eq]
  refine ⟨fun hf => ?_, fun hf => ?_⟩
  · have : ∀ u : State, (u.senseTurn false).heat = u.heat := by intro u; unfold State.senseTurn; split <;> rfl
    rw [hf, this]
    simp [hsd]
  · have hmb : s.modeBegun ≠ .unset := by simp [State.modeBegun, hf]
    rw [hf]
    have hx : ((((s.turnBase turn o).runControllers o.held).pathTurn).senseTurn true).heat =
        (((s.turnBase turn o).runControllers o.held).pathTurn).settleSeeding.heat := by
      unfold State.senseTurn
      rw [if_neg (by simpa [hm] using hmb)]
      rfl
    rw [hx]
    obtain ⟨a, b⟩ := settleSeeding_heat (((s.turnBase turn o).runControllers o.held).pathTurn) z
    rw [a, b]
    simp only [pathTurn_frame, runControllers_frame, hse, hfr, Sense.tick_sensed, hsd, State.zoneRec, State.bankFor,
      turnBase_frame, State.bankBegun]
    exact ⟨trivial, trivial⟩

/-- The controllers after a turn. -/
theorem frameTurn_control (s : State) (turn : Turn) (o : TurnOrder) :
    (s.frameTurn turn o).control = ((s.turnBase turn o).runControllers o.held).control ∧
    (s.frameTurn turn o).updates = o.held ∧
    (∀ p, ((s.frameTurn turn o).path.get p).thermal = (((s.turnBase turn o).runControllers o.held).path.get p).thermal) ∧
    (((s.turnBase turn o).runControllers o.held).events.has .tier = true → (s.frameTurn turn o).events.has .tier = true) := by
  unfold State.frameTurn
  simp only [askQueue_frame]
  refine ⟨by rw [turnWork_eq]; simp, ?_, fun p => ?_, fun h => ?_⟩
  · have asked : ∀ (u : State) q b, (u.askQueue q b).updates = u.updates := by
      have safe : ∀ (u : State) b, (u.safeRequest b).updates = u.updates := by
        intro u b; unfold State.safeRequest; split <;> simp
      intro u q b
      unfold State.askQueue
      cases q <;> simp [safe]
    rw [asked, turnWork_eq]
    simp
  · rw [turnWork_eq]
    simp only [senseTurn_frame]
    unfold State.pathTurn
    split
    · rfl
    · simp only [Four.get_mapIdx]
      exact (pathTurn_cases _ _).2.1
  · refine askQueue_keeps ?_ _ _
    rw [turnWork_eq]
    simpa using h

end Sys2Proof.Machine
end

