-- ==== Sys2Proof/Laws/Flags.lean ====
section
/-! SUPPORT. Which flags a grain event and a frame turn set, and which controllers a grain event runs. -/

namespace Sys2Proof.Machine

/-! ### Settings in a row -/

theorem Events.sets_refl (e : Events) : e.sets (fun _ => False) e := ⟨[], rfl, by simp⟩

theorem Events.sets_trans {e e' e'' : Events} {P Q : Flag → Prop} (h : e.sets P e') (g : e'.sets Q e'') :
    e.sets (fun f => P f ∨ Q f) e'' := by
  obtain ⟨l, rfl, hl⟩ := h
  obtain ⟨m, rfl, hm⟩ := g
  exact ⟨l ++ m, by rw [List.foldl_append], fun f => by rw [List.mem_append, hl, hm]⟩

theorem Events.sets_congr {e e' : Events} {P Q : Flag → Prop} (h : e.sets P e') (g : ∀ f, P f ↔ Q f) : e.sets Q e' := by
  obtain ⟨l, hl, hm⟩ := h
  exact ⟨l, hl, fun f => (hm f).trans (g f)⟩

theorem Events.sets_raise (e : Events) (g : Flag) : e.sets (fun f => f = g) (e.raise g) := ⟨[g], rfl, by simp⟩

theorem Events.sets_raiseIf (e : Events) (c : Bool) (g : Flag) : e.sets (fun f => f = g ∧ c = true) (e.raiseIf c g) := by
  cases c
  · exact Events.sets_congr e.sets_refl (by simp)
  · exact Events.sets_congr (e.sets_raise g) (by simp)

/-! ### Controllers -/

theorem runController_state (s : State) (z y : Fin 4) (h : y ≠ z) :
    (s.runController z).control.get y = s.control.get y := by
  unfold State.runController; simp only [Four.get_set, if_neg h]

theorem runController_sets (s : State) (z : Fin 4) : s.events.sets
    (fun f => f = .tier ∧ ((s.runController z).control.get z).state ≠ (s.control.get z).state) (s.runController z).events := by
  have h : ((s.runController z).control.get z).state = ((s.control.get z).update (s.zoneRec z) (s.heat.estimate.get z)).state := by
    unfold State.runController; simp only [Four.get_set_self]
  rw [h]
  exact Events.sets_congr (Events.sets_raiseIf _ _ _) (by simp)

/-- Controllers that run set TIER exactly when one of them changes its state. -/
theorem runControllers_sets (s : State) (held : List (Fin 4)) : s.events.sets
    (fun f => f = .tier ∧ ∃ z, ((s.runControllers held).control.get z).state ≠ (s.control.get z).state)
    (s.runControllers held).events := by
  have key : ∀ (zs : List (Fin 4)) (_ : zs.Nodup) (s : State),
      let t := zs.foldl (fun s z => if (s.control.get z).presented && !held.contains z then s.runController z else s) s
      (∀ y, y ∉ zs → t.control.get y = s.control.get y) ∧
        s.events.sets (fun f => f = .tier ∧ ∃ z, (t.control.get z).state ≠ (s.control.get z).state) t.events := by
    intro zs
    induction zs with
    | nil => intro _ s; exact ⟨fun _ _ => rfl, Events.sets_congr s.events.sets_refl (by simp)⟩
    | cons z zs ih =>
      intro hn s
      obtain ⟨hz, hn⟩ := List.nodup_cons.1 hn
      have step : ∀ u : State, (∀ y, y ≠ z → u.control.get y = s.control.get y) →
          s.events.sets (fun f => f = .tier ∧ (u.control.get z).state ≠ (s.control.get z).state) u.events →
          let t := zs.foldl (fun s z => if (s.control.get z).presented && !held.contains z then s.runController z else s) u
          (∀ y, y ∉ z :: zs → t.control.get y = s.control.get y) ∧
            s.events.sets (fun f => f = .tier ∧ ∃ z, (t.control.get z).state ≠ (s.control.get z).state) t.events := by
        intro u hu hs
        obtain ⟨h1, h2⟩ := ih hn u
        refine ⟨fun y hy => ?_, Events.sets_congr (Events.sets_trans hs h2) fun f => ?_⟩
        · rw [List.mem_cons, not_or] at hy
          exact (h1 y hy.2).trans (hu y hy.1)
        · constructor
          · rintro (⟨rfl, h⟩ | ⟨rfl, y, h⟩)
            · exact ⟨rfl, z, by rw [h1 z hz]; exact h⟩
            · refine ⟨rfl, y, ?_⟩
              by_cases hy : y = z
              · subst hy; exact absurd (by rw [h1 y hz]) h
              · rw [← hu y hy]; exact h
          · rintro ⟨rfl, y, h⟩
            by_cases hy : y = z
            · subst hy; rw [h1 y hz] at h; exact Or.inl ⟨rfl, h⟩
            · rw [← hu y hy] at h; exact Or.inr ⟨rfl, y, h⟩
      rw [List.foldl_cons]
      split
      · exact step _ (fun y hy => runController_state s z y hy) (runController_sets s z)
      · exact step s (fun _ _ => rfl) (Events.sets_congr s.events.sets_refl (by simp))
  exact (key Four.indices (by decide) s).2

/-- What the updates left from the frame before make of the controllers. -/
theorem runHeld_control (s : State) (z : Fin 4) : s.runHeld.control.get z = s.caughtUp z := by
  have := (runControllers_eq s []).1 z
  simpa [State.runs, State.caughtUp, State.runHeld, State.zoneRec] using this

theorem runHeld_sets (s : State) : s.events.sets
    (fun f => f = .tier ∧ ∃ z, (s.caughtUp z).state ≠ (s.control.get z).state) s.runHeld.events := by
  refine Events.sets_congr (runControllers_sets s []) fun f => ?_
  have : ∀ z, (s.runControllers []).control.get z = s.caughtUp z := runHeld_control s
  simp only [this]

/-! ### Timers that run out -/

theorem expires_iff (s : State) : s.boost.expires = true ↔ s.boostRunsOut := by
  unfold Boost.expires State.boostRunsOut
  cases s.boost.wait <;> simp

theorem anyExpires_iff (s : State) : (Four.indices.any fun z => (s.sense.get z).expires) = true ↔ s.pollRunsOut := by
  simp only [List.any_eq_true, State.pollRunsOut]
  constructor
  · rintro ⟨z, _, h⟩
    unfold Sense.expires at h
    split at h
    · exact ⟨z, _, by assumption, by simpa using h⟩
    · cases h
  · rintro ⟨z, n, h, hn⟩
    exact ⟨z, Four.mem_indices z, by simp [Sense.expires, h, hn]⟩

theorem boostTick_sets (s : State) : s.events.sets (fun f => f = .boostFail ∧ s.boostRunsOut) s.boostTick.events :=
  Events.sets_congr (Events.sets_raiseIf _ _ _) fun f => by rw [expires_iff]

theorem pollTick_sets (s : State) : s.events.sets (fun f => f = .blind ∧ s.pollRunsOut) s.pollTick.events :=
  Events.sets_congr (Events.sets_raiseIf _ _ _) fun f => by rw [anyExpires_iff]

theorem boostTurn_sets (s : State) : s.events.sets (fun f => f = .boostFail ∧ s.boostRunsOut) s.boostTurn.events := by
  unfold State.boostTurn
  simp only [attemptDue_frame]
  unfold State.boostCount
  split
  · exact boostTick_sets s
  · rename_i h
    exact Events.sets_congr s.events.sets_refl fun f => by simp [State.boostRunsOut, h]

theorem askQueue_sets (s : State) (q : QueueOrder) (b : Bool) :
    s.events.sets (fun f => f = .boostFail ∧ s.boostRunsOut) (s.askQueue q b).events := by
  obtain ⟨u, h1, _, h2, _, h3, _⟩ := askQueue_boost s q b
  have := boostTurn_sets u
  rw [h3]
  simpa only [h1, h2, State.boostRunsOut] using this

theorem closeAndTick_sets (s : State) (b : Option Bank) (e : Bool) :
    s.events.sets (fun f => f = .blind ∧ s.pollRunsOut) (s.closeAndTick b e).events := by
  unfold State.closeAndTick
  cases e
  · have := pollTick_sets (s.frameClose b)
    simpa only [Bool.false_eq_true, if_false, frameClose_frame, State.pollRunsOut] using this
  · simpa only [if_true, frameClose_frame] using pollTick_sets s

/-! ### The grain event -/

/-- What the grain's work makes of the controllers and of the thermal back-offs. -/
theorem grainWork_takesHeld (s : State) (g : Nat) : s.takesHeld (s.grainWork g) := by
  obtain ⟨_, h2, h3, _, h5⟩ := runControllers_eq s []
  have hc : (s.grainWork g).control = s.runHeld.control := by unfold State.grainWork; simp
  have hp : (s.grainWork g).path = s.runHeld.path := by unfold State.grainWork; simp
  have hu : (s.grainWork g).updates = [] := by unfold State.grainWork; simp [State.runHeld]
  have hruns : ∀ z, s.runs [] z = (s.control.get z).presented := by simp [State.runs]
  unfold State.takesHeld
  rw [hc, hp, hu]
  refine ⟨runHeld_control s, rfl, fun ⟨z, hz⟩ p => ?_, fun h => h3 fun z => by rw [hruns, h z]⟩
  have := h2 ⟨z, by rw [hruns, hz]⟩ p
  rw [show (s.runHeld.path.get p).thermal = thermalBackoff (s.bankFor .current) s.runHeld.control p from this]
  exact thermalBackoff_spec _ _ p

theorem grainWork_sets (s : State) (g : Nat) : s.events.sets (s.grainSets (s.grainWork g)) (s.grainWork g).events := by
  obtain ⟨v, hv, he, hb, hs⟩ : ∃ v : State, s.grainWork g = v.boostTick.pollTick ∧ v.events = s.runHeld.events ∧
      v.boost = s.boost ∧ v.sense = s.sense := ⟨_, rfl, by simp, by simp, by simp⟩
  have h := Events.sets_trans (he ▸ runHeld_sets s) (Events.sets_trans (boostTick_sets v) (pollTick_sets v.boostTick))
  rw [← hv] at h
  have hc : ∀ z, (s.grainWork g).control.get z = s.caughtUp z := (grainWork_takesHeld s g).1
  refine Events.sets_congr h fun f => ?_
  simp only [State.grainSets, hc, State.boostRunsOut, State.pollRunsOut, hb, hs, boostTick_frame]

/-- The flags of a grain event, with those of the window it may end. -/
theorem windowEnd_sets (s : State) : s.events.sets (fun f => f = .frameLost ∨ (f = .safe ∧ s.windowEntersSafe = true))
    s.windowEnd.events := by
  rw [windowEnd_events]
  exact Events.sets_trans (Events.sets_raise _ _) (Events.sets_raiseIf _ _ _)

/-! ### The frame turn -/

theorem eventsBegun_sets (s : State) (turn : Turn) : s.events.sets
    (fun f => (f = .slip ∧ s.timer.slips s.tolerance turn = true) ∨ (f = .frameLost ∧ s.timer.loses turn = true) ∨
      (f = .launched ∧ s.tables.switches = true) ∨ (f = .safe ∧ s.entersSafe turn = true)) (s.eventsBegun turn) :=
  Events.sets_congr (Events.sets_trans (Events.sets_trans (Events.sets_trans (Events.sets_raiseIf _ _ _)
    (Events.sets_raiseIf _ _ _)) (Events.sets_raiseIf _ _ _)) (Events.sets_raiseIf _ _ _)) fun f => by simp only [or_assoc]

theorem switches_iff (t : Tables) : t.switches = true ↔ ∃ b n, t.pending = some (b, n) ∧ n ≤ 1 := by
  unfold Tables.switches
  rcases t.pending with _ | ⟨b, n⟩ <;> simp

theorem slips_iff (t : FrameTimer) (tol : Nat) (turn : Turn) : t.slips tol turn = true ↔
    ∃ m, turn = .mark m ∧ (t.grain < 80 - tol ∨ m ≠ (t.frame + 1) % 256) := by
  cases turn with
  | timer => simp [FrameTimer.slips]
  | mark m => rw [slips_mark]; simp

theorem loses_iff (t : FrameTimer) (turn : Turn) : t.loses turn = true ↔ turn = .timer ∧ t.state = .holdover := by
  cases turn <;> simp [FrameTimer.loses]

theorem entersSafe_iff (s : State) (turn : Turn) : s.entersSafe turn = true ↔
    (s.timerBegun turn).mode = .safe ∧ s.modeBegun ≠ .safe := by
  rw [timerBegun_eq]
  dsimp only
  constructor
  · intro h
    exact ⟨by rw [if_pos h], by rw [entersSafe_mode h]; decide⟩
  · rintro ⟨h1, h2⟩
    by_contra hn
    rw [if_neg hn] at h1
    split at h1
    · cases h1
    · exact h2 h1

/-- The flags of a frame turn. -/
theorem frameTurn_turnSets (s : State) (turn : Turn) (o : TurnOrder) :
    s.events.sets (s.turnSets turn (s.frameTurn turn o)) (s.frameTurn turn o).events := by
  have hcontrol : (s.frameTurn turn o).control = ((s.turnBase turn o).runControllers o.held).control :=
    (frameTurn_control s turn o).1
  have hbase : ∀ z, ((s.turnBase turn o).control.get z).state = (s.caughtUp z).state := by
    intro z; rw [turnBase_control, ← runHeld_control]; split <;> rfl
  obtain ⟨v, hv, he, hs⟩ : ∃ v : State, s.turnBase turn o =
      (v.closeAndTick (s.tables.inForce .current) o.expiryFirst).relabelSchedule.supplyTurn ∧
      v.events = s.runHeld.eventsBegun turn ∧ v.sense = s.sense := ⟨_, rfl, rfl, by simp⟩
  have h1 := eventsBegun_sets s.runHeld turn
  rw [← he] at h1
  have h2 := closeAndTick_sets v (s.tables.inForce .current) o.expiryFirst
  have h3 := runControllers_sets (s.turnBase turn o) o.held
  have e3 : (s.turnBase turn o).events = (v.closeAndTick (s.tables.inForce .current) o.expiryFirst).events := by
    rw [hv]; simp
  rw [e3] at h3
  have h4 := askQueue_sets (s.turnWork turn o) o.queue (s.entersSafe turn)
  have e4 : (s.turnWork turn o).events = ((s.turnBase turn o).runControllers o.held).events := by
    rw [turnWork_eq]; simp
  rw [e4] at h4
  have h := Events.sets_trans (runHeld_sets s) (Events.sets_trans h1 (Events.sets_trans h2 (Events.sets_trans h3 h4)))
  refine Events.sets_congr h fun f => ?_
  have hb : (s.turnWork turn o).boostRunsOut ↔ s.boostRunsOut := by simp [State.boostRunsOut]
  simp only [State.turnSets, hcontrol, hbase, hb, frameTurn_timer, ← entersSafe_iff, ← switches_iff, ← slips_iff, ← loses_iff,
    State.pollRunsOut, hs, runHeld_begun, runHeld_frame]
  constructor
  · rintro (⟨h, z, hz⟩ | (h | h | h | h) | h | ⟨h, z, hz⟩ | h)
    · exact Or.inr (Or.inr (Or.inr (Or.inr (Or.inl ⟨h, z, Or.inl hz⟩))))
    · exact Or.inl h
    · exact Or.inr (Or.inl h)
    · exact Or.inr (Or.inr (Or.inl h))
    · exact Or.inr (Or.inr (Or.inr (Or.inl h)))
    · exact Or.inr (Or.inr (Or.inr (Or.inr (Or.inr (Or.inr h)))))
    · exact Or.inr (Or.inr (Or.inr (Or.inr (Or.inl ⟨h, z, Or.inr hz⟩))))
    · exact Or.inr (Or.inr (Or.inr (Or.inr (Or.inr (Or.inl h)))))
  · rintro (h | h | h | h | ⟨h, z, hz | hz⟩ | h | h)
    · exact Or.inr (Or.inl (Or.inl h))
    · exact Or.inr (Or.inl (Or.inr (Or.inl h)))
    · exact Or.inr (Or.inl (Or.inr (Or.inr (Or.inl h))))
    · exact Or.inr (Or.inl (Or.inr (Or.inr (Or.inr h))))
    · exact Or.inl ⟨h, z, hz⟩
    · exact Or.inr (Or.inr (Or.inr (Or.inl ⟨h, z, hz⟩)))
    · exact Or.inr (Or.inr (Or.inr (Or.inr h)))
    · exact Or.inr (Or.inr (Or.inl h))

end Sys2Proof.Machine
end

