-- ==== Sys2Proof/Laws/Tables.lean ====
section
/-! SUPPORT. The Table Store: each operation on the banks keeps what holds of them. -/

namespace Sys2Proof.Machine

theorem Tables.other_cases (_ : Tables) (b c : BankId) : c = b ∨ c = b.other := by cases b <;> cases c <;> simp [BankId.other]

theorem Tables.sound_turned {t : Tables} (h : t.sound) : t.turned.sound := by
  obtain ⟨w0, w1, hm, ha, hp, hc⟩ := h
  unfold Tables.turned
  cases e : t.pending with
  | none => exact ⟨w0, w1, hm, ha, hp, hc⟩
  | some x =>
    obtain ⟨b, n⟩ := x
    have hb := hp b n e
    dsimp only
    split
    · refine ⟨w0, w1, hm, ?_, ?_, ?_⟩
      · intro c hc'; cases hc'; exact hb.1
      · intro c m hc'; cases hc'
      · intro c hc'; rw [show t.copy = some c from hc'] at hb; simp at hb
    · refine ⟨w0, w1, hm, ha, ?_, hc⟩
      intro c m hc'
      cases hc'
      exact ⟨hb.1, hb.2.1, by omega, hb.2.2.2⟩

theorem Tables.wf_bank {t : Tables} (h : t.sound) (b : BankId) : (t.bank b).wf = true := by
  cases b
  · exact h.1
  · exact h.2.1

theorem Tables.sound_mk {t : Tables} (w : ∀ b, (t.bank b).wf = true) (hm : ∀ b, t.mark b = true → (t.bank b).valid)
    (ha : ∀ b, t.active = some b → t.mark b = true) (hp : t.pendingSound) (hc : t.copySound) : t.sound :=
  ⟨w .bank0, w .bank1, hm, ha, hp, hc⟩

theorem Tables.sound_advance {t : Tables} (h : t.sound) (n : Nat) : (t.advance n).sound := by
  unfold Tables.advance
  cases e : t.copy with
  | none => exact h
  | some c =>
    obtain ⟨ca, cm, cp, cr⟩ := h.2.2.2.2.2 c e
    dsimp only
    generalize hn : max c.progress (min n (bankSize - 1)) = m
    have hb : ∀ b, ({ t.setBank c.dest ((t.bank c.source).splice (t.bank c.dest) m) with copy := some { c with progress := m } } : Tables).bank b
        = (t.setBank c.dest ((t.bank c.source).splice (t.bank c.dest) m)).bank b := fun b => by cases b <;> rfl
    have hk : ∀ b, ({ t.setBank c.dest ((t.bank c.source).splice (t.bank c.dest) m) with copy := some { c with progress := m } } : Tables).mark b
        = t.mark b := fun b => by rw [← Tables.mark_setBank t c.dest b]; cases b <;> rfl
    refine Tables.sound_mk (fun b => ?_) (fun b hb' => ?_) (fun b hb' => ?_) (fun b x hb' => ?_) (fun d hd => ?_)
    · rw [hb]
      rcases Tables.other_cases t c.dest b with rfl | rfl
      · rw [Tables.bank_setBank_self]; exact Bank.wf_splice (Tables.wf_bank h _) (Tables.wf_bank h _) _
      · rw [Tables.bank_setBank_other _ _ (BankId.other_ne _)]; exact Tables.wf_bank h _
    · rw [hk] at hb'
      rw [hb]
      rcases Tables.other_cases t c.dest b with rfl | rfl
      · rw [cm] at hb'; cases hb'
      · rw [Tables.bank_setBank_other _ _ (BankId.other_ne _)]; exact h.2.2.1 _ hb'
    · rw [hk]; exact h.2.2.2.1 b (by rw [← (Tables.setBank_frame t c.dest _).1]; exact hb')
    · have := h.2.2.2.2.1 b x (by rw [← (Tables.setBank_frame t c.dest _).2.1]; exact hb')
      rw [e] at this; simp at this
    · cases hd
      refine ⟨?_, by rw [hk]; exact cm, ?_, fun a ha => ?_⟩
      · show (t.setBank _ _).active = _
        rw [(Tables.setBank_frame t c.dest _).1]; exact ca
      · simp only [bankSize] at cp hn ⊢; omega
      · show (Tables.bank _ c.dest).read a = (Tables.bank _ c.source).read a
        rw [hb, hb, Tables.bank_setBank_self, Tables.bank_setBank_other _ _ (show c.source ≠ c.dest from BankId.other_ne _), Bank.read_splice]
        rw [if_pos ha]

theorem Tables.setMark_same (t : Tables) (b c : BankId) (m : Bool) : (t.setMark b m).mark c = if c = b then m else t.mark c := by
  cases b <;> cases c <;> rfl

theorem Tables.sound_write {t : Tables} (h : t.sound) {b : BankId} (ha : t.active ≠ some b) (hp : t.isPending b = false)
    (hc : t.copy = none) {a : Nat} {ws : List Word} (hl : a + ws.length ≤ bankSize) :
    ((t.setBank b ((t.bank b).writeAll a ws)).setMark b false).sound := by
  have hp' : ∀ n, t.pending ≠ some (b, n) := by
    intro n e; simp [Tables.isPending, e] at hp
  refine Tables.sound_mk (fun c => ?_) (fun c hm => ?_) (fun c hc' => ?_) (fun c n hc' => ?_) (fun d hd => ?_)
  · rw [Tables.bank_setMark]
    rcases Tables.other_cases t b c with rfl | rfl
    · rw [Tables.bank_setBank_self]; exact Bank.wf_writeAll (Tables.wf_bank h _) hl
    · rw [Tables.bank_setBank_other _ _ (BankId.other_ne _)]; exact Tables.wf_bank h _
  · rw [Tables.setMark_same] at hm
    split at hm
    · cases hm
    · rename_i hne
      rw [Tables.mark_setBank] at hm
      rw [Tables.bank_setMark, Tables.bank_setBank_other _ _ hne]; exact h.2.2.1 _ hm
  · rw [(Tables.setMark_frame _ _ _).1, (Tables.setBank_frame _ _ _).1] at hc'
    have hne : c ≠ b := by rintro rfl; exact ha hc'
    rw [Tables.setMark_same, if_neg hne, Tables.mark_setBank]; exact h.2.2.2.1 c hc'
  · rw [(Tables.setMark_frame _ _ _).2.1, (Tables.setBank_frame _ _ _).2.1] at hc'
    have hne : c ≠ b := by rintro rfl; exact hp' _ hc'
    have := h.2.2.2.2.1 c n hc'
    rw [Tables.setMark_same, if_neg hne, Tables.mark_setBank, (Tables.setMark_frame _ _ _).1, (Tables.setBank_frame _ _ _).1,
      (Tables.setMark_frame _ _ _).2.2.2, (Tables.setBank_frame _ _ _).2.2.2]
    exact this
  · rw [(Tables.setMark_frame _ _ _).2.2.2, (Tables.setBank_frame _ _ _).2.2.2, hc] at hd; cases hd

theorem Tables.sound_accept {t : Tables} (h : t.sound) {b : BankId} (hb : t.launchBusy b = false)
    (hf : t.launchFault b = none) : (t.accept b).sound := by
  simp only [Tables.launchBusy, Bool.or_eq_false_iff, beq_eq_false_iff_ne, ne_eq] at hb
  obtain ⟨⟨ha, hp⟩, hc⟩ := hb
  have hp : t.pending = none := by simpa using hp
  have hc : t.copy = none := by simpa using hc
  have hv : (t.bank b).valid := by
    unfold Tables.launchFault at hf
    split at hf
    · rename_i hm; exact h.2.2.1 b hm
    · exact hf
  have hbank : ∀ c, (t.accept b).bank c = t.bank c := fun c => by
    rw [← Tables.bank_setMark t b c true]; cases c <;> rfl
  have hmark : ∀ c, (t.accept b).mark c = if c = b then true else t.mark c := fun c => by
    rw [← Tables.setMark_same]; cases c <;> rfl
  have hac : (t.accept b).active = t.active := (Tables.setMark_frame t b true).1
  have hco : (t.accept b).copy = t.copy := (Tables.setMark_frame t b true).2.2.2
  refine Tables.sound_mk (fun c => ?_) (fun c hm => ?_) (fun c hc' => ?_) (fun c n hc' => ?_) (fun d hd => ?_)
  · rw [hbank]; exact Tables.wf_bank h _
  · rw [hmark] at hm
    rw [hbank]
    split at hm
    · rename_i e; rw [e]; exact hv
    · exact h.2.2.1 _ hm
  · rw [hac] at hc'; rw [hmark]; split
    · rfl
    · exact h.2.2.2.1 c hc'
  · cases hc'
    refine ⟨by rw [hmark, if_pos rfl], by rw [hac]; exact ha, Or.inr rfl, by rw [hco]; exact hc⟩
  · rw [hco, hc] at hd; cases hd

theorem Tables.sound_cancel {t : Tables} (h : t.sound) : t.cancel.sound :=
  ⟨h.1, h.2.1, h.2.2.1, h.2.2.2.1, fun _ _ e => (by simp [Tables.cancel] at e), h.2.2.2.2.2⟩

theorem Tables.sound_startCopy {t : Tables} (h : t.sound) {a : BankId} (ha : t.active = some a) (hp : t.pending = none)
    (tag : Nat) : (t.startCopy a tag).sound := by
  have hbank : ∀ c, (t.startCopy a tag).bank c = t.bank c := fun c => by
    rw [← Tables.bank_setMark t a.other c false]; cases c <;> rfl
  have hmark : ∀ c, (t.startCopy a tag).mark c = if c = a.other then false else t.mark c := fun c => by
    rw [← Tables.setMark_same]; cases c <;> rfl
  have hac : (t.startCopy a tag).active = t.active := (Tables.setMark_frame t _ _).1
  have hpe : (t.startCopy a tag).pending = t.pending := (Tables.setMark_frame t _ _).2.1
  refine Tables.sound_mk (fun c => ?_) (fun c hm => ?_) (fun c hc' => ?_) (fun c n hc' => ?_) (fun d hd => ?_)
  · rw [hbank]; exact Tables.wf_bank h _
  · rw [hmark] at hm
    rw [hbank]
    split at hm
    · cases hm
    · exact h.2.2.1 _ hm
  · rw [hac, ha] at hc'; cases hc'; rw [hmark, if_neg (BankId.other_ne a).symm]; exact h.2.2.2.1 _ ha
  · rw [hpe, hp] at hc'; cases hc'
  · cases hd
    refine ⟨by rw [hac, ha]; simp [CopyRun.source], by rw [hmark, if_pos rfl], by simp, fun _ hx => absurd hx (by simp)⟩

theorem Tables.sound_copyDone {t : Tables} (h : t.sound) {c : CopyRun} (e : t.copy = some c) : (t.copyDone c).sound := by
  obtain ⟨ca, cm, cp, cr⟩ := h.2.2.2.2.2 c e
  have hbank : ∀ b, (t.copyDone c).bank b = t.bank c.source := fun b => by
    rcases Tables.other_cases t c.dest b with rfl | rfl
    · rw [show (t.copyDone c).bank c.dest = (t.setBank c.dest (t.bank c.source)).bank c.dest by unfold Tables.copyDone; cases c.dest <;> rfl,
        Tables.bank_setBank_self]
    · rw [show (t.copyDone c).bank c.dest.other = (t.setBank c.dest (t.bank c.source)).bank c.dest.other by unfold Tables.copyDone; cases c.dest <;> rfl,
        Tables.bank_setBank_other _ _ (BankId.other_ne _)]; rfl
  have hmark : ∀ b, (t.copyDone c).mark b = t.mark b := fun b => by
    rw [← Tables.mark_setBank t c.dest b (t.bank c.source)]; cases b <;> rfl
  have hac : (t.copyDone c).active = t.active := (Tables.setBank_frame t _ _).1
  have hpe : (t.copyDone c).pending = t.pending := (Tables.setBank_frame t _ _).2.1
  refine Tables.sound_mk (fun c => ?_) (fun b hm => ?_) (fun b hc' => ?_) (fun b n hc' => ?_) (fun d hd => ?_)
  · rw [hbank]; exact Tables.wf_bank h _
  · rw [hmark] at hm
    rw [hbank]; exact h.2.2.1 _ (h.2.2.2.1 _ ca)
  · rw [hac] at hc'; rw [hmark]; exact h.2.2.2.1 b hc'
  · rw [hpe] at hc'; have := h.2.2.2.2.1 b n hc'; rw [e] at this; simp at this
  · cases hd
    exact ⟨by rw [hac]; exact ca, by rw [hmark]; exact cm, le_refl _, fun a _ => by rw [hbank, hbank]⟩

theorem Tables.sound_copyEnd {t : Tables} (h : t.sound) {c : CopyRun} (e : t.copy = some c) : (t.copyEnd c).sound := by
  obtain ⟨ca, cm, cp, cr⟩ := h.2.2.2.2.2 c e
  have hd := Tables.sound_copyDone h e
  have hbank : ∀ b, (t.copyEnd c).bank b = (t.copyDone c).bank b := fun b => by
    unfold Tables.copyEnd Tables.copyDone; cases b <;> cases c.dest <;> rfl
  have hmark : ∀ b, (t.copyEnd c).mark b = if b = c.dest then true else t.mark b := fun b => by
    rw [← Tables.mark_setBank t c.dest b (t.bank c.source), ← Tables.setMark_same]; cases b <;> rfl
  have hac : (t.copyEnd c).active = t.active := by
    rw [← (Tables.setBank_frame t c.dest (t.bank c.source)).1]; exact (Tables.setMark_frame _ _ _).1
  have hpe : (t.copyEnd c).pending = t.pending := by
    rw [← (Tables.setBank_frame t c.dest (t.bank c.source)).2.1]; exact (Tables.setMark_frame _ _ _).2.1
  have hv : ∀ b, (t.copyDone c).bank b = t.bank c.source := fun b => by
    unfold Tables.copyDone CopyRun.source; cases b <;> cases c.dest <;> rfl
  refine Tables.sound_mk (fun c => ?_) (fun b hm => ?_) (fun b hc' => ?_) (fun b n hc' => ?_) (fun d hd => ?_)
  · rw [hbank]; exact Tables.wf_bank hd _
  · rw [hbank, hv]; exact h.2.2.1 _ (h.2.2.2.1 _ ca)
  · rw [hac] at hc'; rw [hmark]; split
    · rfl
    · exact h.2.2.2.1 b hc'
  · rw [hpe] at hc'; have := h.2.2.2.2.1 b n hc'; rw [e] at this; simp at this
  · cases hd

theorem Tables.sound_softReset {t : Tables} (h : t.sound) (n : Nat) : (t.softReset n).sound := by
  have h' := Tables.sound_advance h n
  have hu : ({ t.advance n with copy := none } : Tables).sound :=
    ⟨h'.1, h'.2.1, h'.2.2.1, h'.2.2.2.1, fun b m e => ⟨(h'.2.2.2.2.1 b m e).1, (h'.2.2.2.2.1 b m e).2.1, (h'.2.2.2.2.1 b m e).2.2.1, rfl⟩,
      fun _ e => by cases e⟩
  unfold Tables.softReset
  dsimp only
  split
  · exact Tables.sound_cancel hu
  · exact hu

theorem Tables.advance_active (t : Tables) (n : Nat) : (t.advance n).active = t.active := by
  unfold Tables.advance
  split
  · rfl
  · exact (Tables.setBank_frame _ _ _).1

theorem Tables.softReset_active (t : Tables) (n : Nat) : (t.softReset n).active = t.active := by
  unfold Tables.softReset; dsimp only; split <;> exact Tables.advance_active t n

theorem modeBegun_unset {s : State} (hm : s.modeFollowsBank) : s.modeBegun = .unset ↔ s.tables.turned.active = none := by
  unfold State.modeFollowsBank at hm
  unfold State.modeBegun Tables.firstSwitch Tables.switches Tables.turned
  cases hp : s.tables.pending with
  | none => simpa using hm
  | some x =>
    obtain ⟨b, n⟩ := x
    dsimp only
    by_cases hn : n ≤ 1
    · simp only [hn, decide_true, Bool.true_and, if_true, reduceCtorEq, iff_false]
      cases ha : s.tables.active with
      | none => simp
      | some a => simp; intro h; rw [hm, ha] at h; cases h
    · simpa [hn] using hm

/-! ### The banks in force -/

/-- The banks in force stay when the active bank, a pending one at its last turn and their contents stay. -/
theorem Tables.inForce_of {u t : Tables} (h : ∀ b, t.active = some b ∨ t.pending.map Prod.fst = some b → u.bank b = t.bank b)
    (ha : u.active = t.active) (hp : ∀ b, u.pending = some (b, 1) ↔ t.pending = some (b, 1)) (slot : Slot) : u.inForce slot = t.inForce slot := by
  have hc : u.inForce .current = t.inForce .current := by
    unfold Tables.inForce
    dsimp only
    rw [ha]
    cases h1 : t.active with
    | none => rfl
    | some b => rw [Option.map_some, Option.map_some, h b (Or.inl h1)]
  have hn : ∀ u : Tables, (∀ b, u.pending ≠ some (b, 1)) → u.inForce .next = u.inForce .current := by
    intro u hu
    unfold Tables.inForce
    dsimp only
    split
    · rename_i b e; exact absurd e (hu b)
    · rfl
  cases slot with
  | current => exact hc
  | next =>
    by_cases hx : ∃ b, t.pending = some (b, 1)
    · obtain ⟨b, e⟩ := hx
      have e' := (hp b).2 e
      unfold Tables.inForce
      dsimp only
      rw [e, e']
      show some _ = some _
      rw [h b (Or.inr (by rw [e]; rfl))]
    · rw [hn _ (fun b e => hx ⟨b, e⟩), hn _ (fun b e => hx ⟨b, (hp b).1 e⟩), hc]

theorem Tables.setMark_pending (t : Tables) (b : BankId) (m : Bool) : (t.setMark b m).pending = t.pending := by cases b <;> rfl

theorem Tables.setBank_pending (t : Tables) (b : BankId) (m : Bank) : (t.setBank b m).pending = t.pending := by cases b <;> rfl

theorem Tables.advance_pending (t : Tables) (n : Nat) : (t.advance n).pending = t.pending := by
  unfold Tables.advance; split
  · rfl
  · dsimp only; rw [Tables.setBank_pending]

/-- A copy does not write to a governing bank. -/
theorem Tables.dest_ne {t : Tables} (hs : t.sound) {c : CopyRun} (hc : t.copy = some c) :
    ∀ b, t.active = some b ∨ t.pending.map Prod.fst = some b → b ≠ c.dest := by
  obtain ⟨ca, cm, _, _⟩ := hs.2.2.2.2.2 c hc
  rintro b h rfl
  rcases h with h | h
  · rw [ca] at h; exact BankId.other_ne c.dest (by simpa [CopyRun.source] using h)
  · rw [Option.map_eq_some_iff] at h
    obtain ⟨⟨b', n'⟩, hp, rfl⟩ := h
    have := (hs.2.2.2.2.1 _ _ hp).2.2.2
    rw [hc] at this; cases this

theorem Tables.advance_bank {t : Tables} (hs : t.sound) (n : Nat) (b : BankId)
    (h : t.active = some b ∨ t.pending.map Prod.fst = some b) : (t.advance n).bank b = t.bank b := by
  unfold Tables.advance
  cases hc : t.copy with
  | none => rfl
  | some c =>
    dsimp only
    have hne := Tables.dest_ne hs hc b h
    rw [← Tables.bank_setBank_other t ((t.bank c.source).splice (t.bank c.dest) (max c.progress (min n (bankSize - 1)))) hne]
    cases b <;> rfl

theorem Tables.inForce_advance {t : Tables} (hs : t.sound) (n : Nat) (slot : Slot) : (t.advance n).inForce slot = t.inForce slot :=
  Tables.inForce_of (fun b hb => Tables.advance_bank hs n b hb) (Tables.advance_active _ _) (fun b => by rw [Tables.advance_pending]) slot

theorem Tables.inForce_cancel {t : Tables} (hc : t.cancellable = true) (slot : Slot) : t.cancel.inForce slot = t.inForce slot := by
  refine Tables.inForce_of (u := t.cancel) (t := t) (fun c _ => by cases c <;> rfl) rfl (fun b => ?_) slot
  unfold Tables.cancellable at hc
  cases hp : t.pending with
  | none => rw [hp] at hc; simp at hc
  | some x =>
    obtain ⟨b', n⟩ := x
    rw [hp] at hc
    simp at hc
    subst hc
    simp [Tables.cancel]

end Sys2Proof.Machine
end

