-- ==== Sys2Proof/Laws/Governing.lean ====
section
/-! SUPPORT. What curves and validated banks give: curves that do not decrease, values in their ranges. -/

namespace Sys2Proof.Machine

/-! ### Curves -/

/-- Rounding up keeps an order. -/
theorem ceilDiv_mono {a b c : Int} (hc : 0 < c) (h : a ≤ b) : ceilDiv a c ≤ ceilDiv b c := by
  unfold ceilDiv
  have := Int.ediv_le_ediv hc (show -b ≤ -a by omega)
  omega

theorem ceilDiv_le {a b c : Int} (hc : 0 < c) (h : a ≤ b * c) : ceilDiv a c ≤ b := by
  unfold ceilDiv
  have : -b ≤ (-a) / c := by rw [Int.le_ediv_iff_mul_le hc]; nlinarith
  omega

/-- A curve does not fall below its first value. -/
theorem curve_ge_head : ∀ (pts : List (Int × Int)) (f : Int × Int) (x : Int),
    pts.Pairwise (fun a b => a.1 < b.1) → pts.Pairwise (fun a b => a.2 ≤ b.2) → pts.head? = some f → f.2 ≤ curveUp pts x
  | [], _, _, _, _, h => by simp at h
  | [_], _, _, _, _, h => by simp at h; subst h; simp [curveUp]
  | (p0, v0) :: (p1, v1) :: rest, f, x, hp, hv, h => by
    simp at h; subst h
    have h01 := (List.pairwise_cons.1 hp).1 (p1, v1) (by simp)
    have hv1 := (List.pairwise_cons.1 hv).1 (p1, v1) (by simp)
    simp only at h01 hv1
    have ih := curve_ge_head ((p1, v1) :: rest) (p1, v1) x (List.pairwise_cons.1 hp).2 (List.pairwise_cons.1 hv).2 rfl
    simp only at ih ⊢
    rw [curveUp]
    split
    · exact le_refl _
    · rename_i hx0
      split
      · have := ceilDiv_mono (c := p1 - p0) (by omega) (show 0 ≤ (v1 - v0) * (x - p0) by apply mul_nonneg <;> omega)
        simp [ceilDiv] at this ⊢; omega
      · omega

/-- A curve whose values do not decrease does not decrease. -/
theorem curve_mono : ∀ (pts : List (Int × Int)) (x y : Int), pts.Pairwise (fun a b => a.1 < b.1) → pts.Pairwise (fun a b => a.2 ≤ b.2) → x ≤ y → curveUp pts x ≤ curveUp pts y
  | [], _, _, _, _, _ => by simp [curveUp]
  | [_], _, _, _, _, _ => by simp [curveUp]
  | (p0, v0) :: (p1, v1) :: rest, x, y, hp, hv, h => by
    have hp2 := (List.pairwise_cons.1 hp).2
    have hv2 := (List.pairwise_cons.1 hv).2
    have h01 := (List.pairwise_cons.1 hp).1 (p1, v1) (by simp)
    have hv1 := (List.pairwise_cons.1 hv).1 (p1, v1) (by simp)
    simp only at h01 hv1
    have hh := curve_ge_head ((p0, v0) :: (p1, v1) :: rest) (p0, v0) y hp hv rfl
    have hh1 := curve_ge_head ((p1, v1) :: rest) (p1, v1) y hp2 hv2 rfl
    have ih := curve_mono ((p1, v1) :: rest) x y hp2 hv2 h
    by_cases hx : x ≤ p0
    · rw [curveUp, if_pos hx]; exact hh
    · have ex : curveUp ((p0, v0) :: (p1, v1) :: rest) x = if x < p1 then v0 + ceilDiv ((v1 - v0) * (x - p0)) (p1 - p0) else curveUp ((p1, v1) :: rest) x := by
        rw [curveUp, if_neg hx]
      have ey : curveUp ((p0, v0) :: (p1, v1) :: rest) y = if y < p1 then v0 + ceilDiv ((v1 - v0) * (y - p0)) (p1 - p0) else curveUp ((p1, v1) :: rest) y := by
        rw [curveUp, if_neg (by omega)]
      rw [ex, ey]
      by_cases hx1 : x < p1
      · rw [if_pos hx1]
        by_cases hy1 : y < p1
        · rw [if_pos hy1]
          have := ceilDiv_mono (c := p1 - p0) (by omega) (show (v1 - v0) * (x - p0) ≤ (v1 - v0) * (y - p0) by apply mul_le_mul_of_nonneg_left <;> omega)
          omega
        · rw [if_neg hy1]
          have := ceilDiv_le (a := (v1 - v0) * (x - p0)) (b := v1 - v0) (c := p1 - p0) (by omega) (by apply mul_le_mul_of_nonneg_left <;> omega)
          simp only at hh1; omega
      · rw [if_neg hx1, if_neg (by omega)]; exact ih


theorem evalCurve_mono {pts : List (Int × Int)} (hp : pts.Pairwise fun a b => a.1 < b.1) (hv : pts.Pairwise fun a b => a.2 ≤ b.2)
    {x y : Int} (hx : x ≠ muteCode) (hy : y ≠ muteCode) (h : x ≤ y) : evalCurve pts x ≤ evalCurve pts y := by
  unfold evalCurve
  rw [if_neg hx, if_neg hy]
  exact curve_mono pts x y hp hv h

/-- A curve's value lies where its points' values lie. -/
theorem curveUp_range {lo hi : Int} (h0 : lo ≤ 0 ∧ 0 ≤ hi) : ∀ (pts : List (Int × Int)) (x : Int),
    pts.Pairwise (fun a b => a.2 ≤ b.2) → (∀ p ∈ pts, lo ≤ p.2 ∧ p.2 ≤ hi) → lo ≤ curveUp pts x ∧ curveUp pts x ≤ hi
  | [], _, _, _ => h0
  | [p], _, _, h => h p List.mem_cons_self
  | (p0, v0) :: (p1, v1) :: rest, x, hv, h => by
    have a0 := h (p0, v0) List.mem_cons_self
    have a1 := h (p1, v1) (List.mem_cons_of_mem _ List.mem_cons_self)
    have hv1 := (List.pairwise_cons.1 hv).1 (p1, v1) (by simp)
    simp only at a0 a1 hv1
    rw [curveUp]
    split
    · exact a0
    · rename_i hx0
      split
      · rename_i hx1
        have k1 := ceilDiv_mono (c := p1 - p0) (by omega) (show 0 ≤ (v1 - v0) * (x - p0) by apply mul_nonneg <;> omega)
        have k2 := ceilDiv_le (a := (v1 - v0) * (x - p0)) (b := v1 - v0) (c := p1 - p0) (by omega)
          (by apply mul_le_mul_of_nonneg_left <;> omega)
        have k3 : ceilDiv 0 (p1 - p0) = 0 := by simp [ceilDiv]
        omega
      · exact curveUp_range h0 _ x (List.pairwise_cons.1 hv).2 fun p hp => h p (List.mem_cons_of_mem _ hp)

theorem evalCurve_range {lo hi : Int} (h0 : lo ≤ 0 ∧ 0 ≤ hi) {pts : List (Int × Int)} (hv : pts.Pairwise fun a b => a.2 ≤ b.2)
    (h : ∀ p ∈ pts, lo ≤ p.2 ∧ p.2 ≤ hi) (x : Int) : lo ≤ evalCurve pts x ∧ evalCurve pts x ≤ hi := by
  unfold evalCurve
  split
  · exact h0
  · exact curveUp_range h0 pts x hv h

/-- The supply curve's value lies where its points' values lie. -/
theorem curveDown_range {lo hi : Int} (h0 : lo ≤ 0 ∧ 0 ≤ hi) : ∀ (pts : List (Int × Int)) (x : Int),
    (∀ p ∈ pts, lo ≤ p.2 ∧ p.2 ≤ hi) → lo ≤ curveDown pts x ∧ curveDown pts x ≤ hi
  | [], _, _ => h0
  | [p], _, h => h p List.mem_cons_self
  | (p0, v0) :: (p1, v1) :: rest, x, h => by
    have a0 := h (p0, v0) List.mem_cons_self
    have a1 := h (p1, v1) (List.mem_cons_of_mem _ List.mem_cons_self)
    simp only at a0 a1
    rw [curveDown]
    split
    · exact a0
    · rename_i hx0
      split
      · rename_i hx1
        have hd : 0 < p1 - p0 := by omega
        rcases le_total v0 v1 with hle | hle
        · have k1 : 0 ≤ (v1 - v0) * (x - p0) / (p1 - p0) := Int.ediv_nonneg (by apply mul_nonneg <;> omega) (by omega)
          have k2 : (v1 - v0) * (x - p0) / (p1 - p0) ≤ v1 - v0 := by
            apply Int.ediv_le_of_le_mul hd
            apply mul_le_mul_of_nonneg_left <;> omega
          omega
        · have k1 : v1 - v0 ≤ (v1 - v0) * (x - p0) / (p1 - p0) := by
            rw [Int.le_ediv_iff_mul_le hd]
            nlinarith
          have k2 : (v1 - v0) * (x - p0) / (p1 - p0) ≤ 0 := by
            apply Int.ediv_le_of_le_mul hd
            nlinarith
          omega
      · exact curveDown_range h0 _ x fun p hp => h p (List.mem_cons_of_mem _ hp)

theorem ascending_pairwise {α : Type} (f : α → Int) : ∀ l : List α, ascending (l.map f) = true → l.Pairwise fun a b => f a < f b
  | [], _ => List.Pairwise.nil
  | [_], _ => List.pairwise_singleton _ _
  | a :: b :: rest, h => by
    simp only [List.map_cons, ascending, Bool.and_eq_true, decide_eq_true_iff] at h
    have ih := ascending_pairwise f (b :: rest) (by simpa using h.2)
    refine List.pairwise_cons.2 ⟨fun c hc => ?_, ih⟩
    rcases List.mem_cons.1 hc with rfl | hc
    · exact h.1
    · exact lt_trans h.1 ((List.pairwise_cons.1 ih).1 c hc)

theorem nondecreasing_pairwise {α : Type} (f : α → Int) : ∀ l : List α, nondecreasing (l.map f) = true → l.Pairwise fun a b => f a ≤ f b
  | [], _ => List.Pairwise.nil
  | [_], _ => List.pairwise_singleton _ _
  | a :: b :: rest, h => by
    simp only [List.map_cons, nondecreasing, Bool.and_eq_true, decide_eq_true_iff] at h
    have ih := nondecreasing_pairwise f (b :: rest) (by simpa using h.2)
    refine List.pairwise_cons.2 ⟨fun c hc => ?_, ih⟩
    rcases List.mem_cons.1 hc with rfl | hc
    · exact h.1
    · exact le_trans h.1 ((List.pairwise_cons.1 ih).1 c hc)

/-! ### Banks in force -/

/-- What the blocks rely on in a bank in force. -/
structure Bank.governs (b : Bank) : Prop where
  tripStep : 0 ≤ b.limits.tripStep ∧ b.limits.tripStep ≤ 255
  tripDecay : 0 ≤ b.limits.tripDecay
  barFrames : b.limits.barFrames ≤ 1000
  boostWait : b.limits.boostWait ≤ 255
  boostRelease : b.limits.boostRelease ≤ 1000
  boostCooldown : b.limits.boostCooldown ≤ 1000
  safeCeiling : minCode ≤ b.limits.safeCeiling ∧ b.limits.safeCeiling ≤ maxCode
  supplyFloor : 0 ≤ b.supplyFloor ∧ b.supplyFloor ≤ 8191
  supplyCurve : ∀ v, 0 ≤ curveDown b.supplyPoints v ∧ curveDown b.supplyPoints v ≤ 8191
  seed : ∀ z, -160 ≤ (b.zone z).seedAssumption ∧ (b.zone z).seedAssumption ≤ 600
  floor : ∀ p n, minCode ≤ (b.resolveBand p n).floor ∧ (b.resolveBand p n).floor ≤ maxCode
  assured : ∀ p n, minCode ≤ (b.resolveBand p n).assured ∧ (b.resolveBand p n).assured ≤ maxCode
  band : ∀ p n, n < 32 → (b.resolveBand p n).band < 32 ∧ b.resolveBand p (b.resolveBand p n).band = b.resolveBand p n
  current : ∀ p n x, 0 ≤ b.current (b.resolveBand p n) x ∧ b.current (b.resolveBand p n) x ≤ 8191
  rises : ∀ p n x y, x ≠ muteCode → y ≠ muteCode → x ≤ y → b.current (b.resolveBand p n) x ≤ b.current (b.resolveBand p n) y

/-- In a validated bank every path's fallback band has a record. -/
theorem valid_fallback {b : Bank} (h : b.valid) (p : Fin 4) : ∃ r, b.findBand p (b.limits.fallback.get p) = some r := by
  obtain ⟨hc, hl⟩ := valid_table h (kind := 1) (by decide)
  have hcount : b.count 1 = 1 := by simpa [countOk] using hc
  have h0 := hl 0 (by omega)
  unfold Bank.recordFault at h0
  simp only at h0
  split at h0
  · cases h0
  · split at h0
    · cases h0
    · rename_i hf
      have hf' : b.fallbacksPresent = true := by simpa using hf
      unfold Bank.fallbacksPresent at hf'
      rw [List.all_eq_true, forall_indices] at hf'
      exact Option.isSome_iff_exists.1 (hf' p)

/-- A record found is a record of the BANDS table, and carries the band searched for. -/
theorem findBand_some {b : Bank} {p : Fin 4} {m : Nat} {r : BandRec} (h : b.findBand p m = some r) :
    (∃ k, k < b.count Table.bands ∧ r = b.bandAt (b.record Table.bands k)) ∧ (m < 32 → r.band = m) := by
  unfold Bank.findBand at h
  rw [Option.map_eq_some_iff] at h
  obtain ⟨k, hk, rfl⟩ := h
  refine ⟨⟨k, List.mem_range.1 (List.mem_of_find?_eq_some hk), rfl⟩, fun hm => ?_⟩
  have := List.find?_some hk
  simp only [beq_iff_eq] at this
  show b.nat (b.record Table.bands k) % 32 = m
  rw [this]; omega

/-- The resolved record of a validated bank is a record of its BANDS table. -/
theorem resolveBand_record {b : Bank} (h : b.valid) (p : Fin 4) (n : Nat) :
    ∃ k, k < b.count Table.bands ∧ b.resolveBand p n = b.bandAt (b.record Table.bands k) := by
  unfold Bank.resolveBand
  cases hn : b.findBand p n with
  | some r => exact (findBand_some hn).1
  | none =>
    obtain ⟨r, hr⟩ := valid_fallback h p
    rw [hr]
    exact (findBand_some hr).1

theorem valid_limits {b : Bank} (h : b.valid) : b.limits.inRange = true := by
  obtain ⟨hc, hl⟩ := valid_table h (kind := 1) (by decide)
  have hcount : b.count 1 = 1 := by simpa [countOk] using hc
  have h0 := hl 0 (by omega)
  unfold Bank.recordFault at h0
  simp only at h0
  split at h0
  · cases h0
  · rename_i hf; simpa using hf

theorem valid_resolves {b : Bank} (h : b.valid) (p : Fin 4) {n : Nat} (hn : n < 32) :
    (b.resolveBand p n).band < 32 ∧ b.resolveBand p (b.resolveBand p n).band = b.resolveBand p n := by
  have hres : ∀ m r, b.findBand p m = some r → b.resolveBand p m = r := by
    intro m r hr; unfold Bank.resolveBand; rw [hr]; rfl
  cases hf : b.findBand p n with
  | some r =>
    have e := (findBand_some hf).2 hn
    rw [hres n r hf, e]
    exact ⟨hn, hres n r hf⟩
  | none =>
    obtain ⟨r, hr⟩ := valid_fallback h p
    have hl := valid_limits h
    simp only [Limits.inRange, Bool.and_eq_true] at hl
    have hl2 := hl.2
    rw [List.all_eq_true, forall_indices] at hl2
    have hm := (within_iff ..).1 (hl2 p)
    have e := (findBand_some hr).2 (by omega)
    have e' : b.resolveBand p n = r := by unfold Bank.resolveBand; rw [hf, hr]; rfl
    rw [e', e]
    exact ⟨by omega, hres _ r hr⟩

/-- The curves of a validated bank rise, and their values are at most 16383. -/
theorem valid_curve {b : Bank} (h : b.valid) {k : Nat} (hk : k < b.count Table.curves) :
    (b.curve k).Pairwise (fun x y => x.1 < y.1) ∧ (b.curve k).Pairwise (fun x y => x.2 ≤ y.2) ∧
      ∀ p ∈ b.curve k, 0 ≤ p.2 ∧ p.2 ≤ 16383 := by
  obtain ⟨_, hl⟩ := valid_table h (kind := 5) (by decide)
  have h0 := hl k hk
  unfold Bank.recordFault at h0
  simp only at h0
  split at h0
  · cases h0
  · rename_i hv
    split at h0
    · cases h0
    · rename_i hm
      have hm' : ascending ((b.curve k).map (·.1)) = true ∧ nondecreasing ((b.curve k).map (·.2)) = true := by
        have : (ascending ((b.curve k).map (·.1)) && nondecreasing ((b.curve k).map (·.2))) = true := by
          have hm'' : ¬ (!(ascending ((b.curve k).map (·.1)) && nondecreasing ((b.curve k).map (·.2)))) = true := hm
          simpa using hm''
        rwa [Bool.and_eq_true] at this
      refine ⟨ascending_pairwise Prod.fst _ hm'.1, nondecreasing_pairwise Prod.snd _ hm'.2, fun p hp => ?_⟩
      have hv' : ¬ ((b.curve k).any fun p => !codeOk p.1 || 16383 < p.2) = true := hv
      rw [List.any_eq_true] at hv'
      have h1 : ¬ 16383 < p.2 := fun hlt => hv' ⟨p, hp, by simp [hlt]⟩
      obtain ⟨i, _, rfl⟩ := List.mem_map.1 hp
      exact ⟨by simp [Bank.uint], by omega⟩

/-- The record a band resolves to in a validated bank. -/
theorem valid_band {b : Bank} (h : b.valid) (p : Fin 4) (n : Nat) :
    codeOk (b.resolveBand p n).rated = true ∧ codeOk (b.resolveBand p n).floor = true ∧ codeOk (b.resolveBand p n).assured = true ∧
      (b.resolveBand p n).curCurve < b.count Table.curves ∧
      ∀ x ∈ b.curve (b.resolveBand p n).curCurve, x.2 ≤ 8191 := by
  obtain ⟨k, hk, e⟩ := resolveBand_record h p n
  rw [e]
  obtain ⟨_, hl⟩ := valid_table h (kind := 4) (by decide)
  have h0 := hl k hk
  unfold Bank.recordFault at h0
  simp only at h0
  split at h0
  · cases h0
  · rename_i hv
    split at h0
    · cases h0
    · split at h0
      · cases h0
      · rename_i hr
        change ¬ (_ ∨ _ ∨ _ ∨ _ ∨ _) at hv
        change ¬ (_ ∨ _ ∨ _) at hr
        simp only [not_or, Bool.not_eq_true, Bool.not_eq_false'] at hv hr
        refine ⟨hv.2.1, hv.2.2.1, hv.2.2.2.1, not_le.1 hr.2.1, fun x hx => ?_⟩
        have := hr.2.2
        rw [List.any_eq_false] at this
        have := this x hx
        simpa using this

theorem supply_record {b : Bank} (h : b.valid) :
    (∀ x ∈ b.supplyPoints, 0 ≤ x.2 ∧ x.2 ≤ 8191) ∧ 0 ≤ b.supplyFloor ∧ b.supplyFloor ≤ 8191 := by
  obtain ⟨hc, hl⟩ := valid_table h (kind := 7) (by decide)
  have hcount : b.count 7 = 1 := by simpa [countOk] using hc
  have h0 := hl 0 (by omega)
  unfold Bank.recordFault at h0
  simp only at h0
  split at h0
  · cases h0
  · rename_i hv
    simp only [Bool.or_eq_true, not_or, Bool.not_eq_true, decide_eq_true_iff] at hv
    refine ⟨fun x hx => ?_, by simp [Bank.supplyFloor, Bank.uint], ?_⟩
    · have h1 := hv.1.1
      rw [List.any_eq_false] at h1
      have h2 : ¬ 8191 < x.2 := fun hlt => h1 x hx (by simp [hlt])
      obtain ⟨i, _, rfl⟩ := List.mem_map.1 hx
      exact ⟨by simp [Bank.uint], by omega⟩
    · have := hv.2
      simp only [Bank.supplyFloor, Bank.uint, Bank.nat] at this ⊢
      change ¬ 8191 < (b.read (b.record 7 0 + 17)).toNat at this
      change (((b.read (b.record 7 0 + 17)).toNat : Nat) : Int) ≤ 8191
      omega

theorem governs_valid {b : Bank} (h : b.valid) : b.governs := by
  have hl := valid_limits h
  simp only [Limits.inRange, Bool.and_eq_true, codeOk_iff, within_iff] at hl
  obtain ⟨hs1, hs2, hs3⟩ := supply_record h
  refine ⟨⟨?_, ?_⟩, ?_, ?_, ?_, ?_, ?_, ?_, ⟨hs2, hs3⟩, fun v => curveDown_range (by decide) _ v hs1, fun z => ?_, fun p n => ?_, fun p n => ?_, fun p n hn => valid_resolves h p hn,
    fun p n x => ?_, fun p n x y hx hy hxy => ?_⟩
  · simp [Bank.limits, Bank.uint]
  · have : 0 ≤ b.limits.tripStep := by simp [Bank.limits, Bank.uint]
    omega
  · simp [Bank.limits, Bank.uint]
  · omega
  · omega
  · omega
  · omega
  · simp only [minCode, maxCode]; omega
  · have := valid_zone h z
    simp only [ZoneRec.inRange, Bool.and_eq_true, tempOk_iff] at this
    omega
  · have := (valid_band h p n).2.1
    rw [codeOk_iff] at this
    exact this
  · have := (valid_band h p n).2.2.1
    rw [codeOk_iff] at this
    exact this
  · obtain ⟨_, _, _, hc, hv⟩ := valid_band h p n
    obtain ⟨c1, c2, c3⟩ := valid_curve h hc
    exact evalCurve_range (by decide) c2 (fun q hq => ⟨(c3 q hq).1, hv q hq⟩) x
  · obtain ⟨_, _, _, hc, hv⟩ := valid_band h p n
    obtain ⟨c1, c2, c3⟩ := valid_curve h hc
    exact evalCurve_mono c1 c2 hx hy hxy

theorem zero_points (x : Nat → Int) (a : Nat) : ∀ p ∈ Bank.zero.points x a, 0 ≤ p.2 ∧ p.2 ≤ 0 := by
  intro p hp
  obtain ⟨i, _, rfl⟩ := List.mem_map.1 hp
  exact ⟨le_of_eq rfl, le_of_eq rfl⟩

theorem zero_current (r : BandRec) (x : Int) : Bank.zero.current r x = 0 := by
  have hz := zero_points Bank.zero.sint (Bank.zero.record Table.curves r.curCurve)
  have hp : (Bank.zero.curve r.curCurve).Pairwise (fun a b => a.2 ≤ b.2) := by
    rw [List.pairwise_iff_forall_sublist]
    intro a b hab
    have h1 := hz a (hab.subset (by simp))
    have h2 := hz b (hab.subset (by simp))
    omega
  have := evalCurve_range (lo := 0) (hi := 0) (by decide) hp hz x
  unfold Bank.current
  omega

theorem governs_zero : Bank.zero.governs := by
  have hres : ∀ p n, Bank.zero.resolveBand p n = Bank.zero.bandAt (Bank.zero.record Table.bands 0) := by
    intro p n
    have hf : ∀ m, Bank.zero.findBand p m = none := fun m => by fin_cases p <;> rfl
    unfold Bank.resolveBand
    rw [hf, hf]
    rfl
  have hband : ∀ p n, (Bank.zero.resolveBand p n).floor = 0 ∧ (Bank.zero.resolveBand p n).assured = 0 := by
    intro p n; rw [hres]; exact ⟨rfl, rfl⟩
  refine ⟨by decide, by decide, by decide, by decide, by decide, by decide, by decide, by decide, fun v => ?_, fun z => ?_, fun p n => ?_, fun p n => ?_, fun p n _ => ?_,
    fun p n x => ?_, fun p n x y _ _ _ => ?_⟩
  · have := curveDown_range (lo := 0) (hi := 0) (by decide) Bank.zero.supplyPoints v (zero_points _ _)
    omega
  · exact ⟨by show -160 ≤ (0 : Int); decide, by show (0 : Int) ≤ 600; decide⟩
  · rw [(hband p n).1]; decide
  · rw [(hband p n).2]; decide
  · rw [hres, hres]; decide
  · rw [zero_current]; decide
  · rw [zero_current, zero_current]

/-- The bank in force for a frame of the window has passed validation, or reads 0 everywhere where none is in force. -/
theorem inForce_governs {t : Tables} (h : t.sound) (slot : Slot) : ((t.inForce slot).getD Bank.zero).governs := by
  have hact : ∀ b, t.active = some b → (t.bank b).governs := fun b hb => governs_valid (h.2.2.1 b (h.2.2.2.1 b hb))
  have hcur : ((t.active.map t.bank).getD Bank.zero).governs := by
    cases ha : t.active with
    | none => exact governs_zero
    | some b => exact hact b ha
  cases slot with
  | current => exact hcur
  | next =>
    unfold Tables.inForce
    dsimp only
    split
    · rename_i b hb
      exact governs_valid (h.2.2.1 b (h.2.2.2.2.1 b 1 hb).1)
    · exact hcur

theorem bankFor_governs {s : State} (h : s.tables.sound) (slot : Slot) : (s.bankFor slot).governs := inForce_governs h slot

theorem bankBegun_governs {s : State} (h : s.tables.sound) : s.bankBegun.governs :=
  inForce_governs (Tables.sound_turned h) .current

end Sys2Proof.Machine
end

