-- ==== Sys2Proof/Laws/Kept.lean ====
section
/-! SUPPORT. An induction over the commands: a predicate that each part of the machine's work keeps is kept by every command. -/

namespace Sys2Proof.Machine

/-- What each part of the machine's work keeps. A predicate for which every field is shown is kept by every command. -/
structure Kept (P : State → Prop) : Prop where
  grain : ∀ s, P s → P s.grainStep
  turn : ∀ s turn o, (∀ m, turn = .mark m → m < 256) → P s → P (s.frameTurn turn o)
  confirm : ∀ s m, m < 256 → P s → P (s.confirm m)
  events : ∀ s e, P s → P { s with events := e }
  enter : ∀ s port p ready, s.link.full port = false → P s → P { s with link := s.link.enter port p ready }
  queueCommand : ∀ s p, P s → P (s.queueCommand p)
  takeTemp : ∀ s z t, P s → P (s.takeTemp z t)
  takeReady : ∀ s, P s → P s.takeReady
  takeSupply : ∀ s mv, P s → P (s.takeSupply mv)
  takeTrip : ∀ s p, P s → P (s.takeTrip p)
  pins : ∀ s pins, P s → P { s with pins := pins }
  takeBurst : ∀ s p straps, P s → P (s.takeBurst p straps).1
  takeRevise : ∀ s p straps, P s → P (s.takeRevise p straps).1
  takeWithdraw : ∀ s p, P s → P (s.takeWithdraw p)
  finishOrder : ∀ s f, (∀ p, (f p).header = p.header ∧ (f p).payload.length = p.payload.length) → P s →
    P { s with link := s.link.finishOrder f }
  makeRequested : ∀ s k, P s → P (s.makeRequested k)
  takeCommand : ∀ s, P s → P s.takeCommand
  answer : ∀ s p w, s.replyRoom = true → P s → P (s.answer p w)
  advance : ∀ s n, P s → P { s with tables := s.tables.advance n }
  setCap : ∀ s i c, (∀ v, c = some v → minCode ≤ v ∧ v ≤ maxCode) → P s → P { s with path := s.path.set i { s.path.get i with cap := c } }
  barEnd : ∀ s i, (s.path.get i).state = .barred → P s → P { s with path := s.path.set i ((s.path.get i).barEnded s.limits) }
  writeTable : ∀ s b a ws, P s → s.tables.active ≠ some b → s.tables.isPending b = false → s.tables.copy = none →
    a + ws.length ≤ bankSize →
    P { s with tables := (s.tables.setBank b ((s.tables.bank b).writeAll a ws)).setMark b false }
  launch : ∀ s b, P s → s.tables.launchBusy b = false → s.tables.launchFault b = none →
    P { s with tables := s.tables.accept b }
  cancel : ∀ s, P s → s.tables.cancellable = true → P { s with tables := s.tables.cancel }
  startCopy : ∀ s a tag, P s → s.tables.active = some a → s.tables.pending = none → s.tables.copy = none →
    P { s with tables := s.tables.startCopy a tag, engine := { s.engine with current := none } }
  finishCopy : ∀ s, P s → P s.finishCopy
  softReset : ∀ s n p, P s → P (s.softReset n p)
  grantDown : ∀ s, P s → P { s with link := s.link.grantDown }
  grantUp : ∀ s c, P s → P (s.grantUp c)
  update : ∀ s z, (s.control.get z).presented = true → P s → P (s.runController z)

namespace Kept

variable {P : State → Prop} (k : Kept P)
include k

theorem raise (s : State) (f : Flag) (h : P s) : P (s.raise f) := k.events s _ h

theorem arrive {s : State} (h : P s) (port : Port) (p : Packet) (o : TurnOrder) : P (s.arrive port p o) := by
  have pass : ∀ ready (f : State → State), (∀ u, P u → P (f u)) → P (s.pass port p ready f) := by
    intro ready f hf
    cases hfull : s.link.full port with
    | true => rw [pass_full hfull]; exact k.raise _ _ h
    | false => rw [pass_room hfull]; exact hf _ (k.enter _ _ _ _ hfull h)
  unfold State.arrive
  cases classify port p with
  | malformedDrop => exact k.raise _ _ h
  | malformedPass => exact pass _ _ fun u hu => k.raise _ _ hu
  | misdirected => exact k.raise _ _ h
  | command => exact k.queueCommand _ _ h
  | mark =>
    refine pass _ _ fun u hu => ?_
    unfold State.takeMark
    split
    · split
      · exact k.raise _ _ hu
      · exact k.confirm _ _ (Nat.mod_lt _ (by decide)) hu
    · refine k.turn _ _ _ (fun m hm => ?_) hu
      cases hm
      exact Nat.mod_lt _ (by decide)
  | order => exact pass _ _ fun u hu => hu
  | pass => exact pass _ _ fun u hu => hu
  | tempConsumed => exact k.takeTemp _ _ _ h
  | readyConsumed => exact k.takeReady _ h
  | tempPassed => exact pass _ _ fun u hu => k.takeTemp _ _ _ hu
  | supplyPassed => exact pass _ _ fun u hu => k.takeSupply _ _ hu
  | tripPassed => exact pass _ _ fun u hu => k.takeTrip _ _ hu

theorem timerStep {s : State} (h : P s) (o : TurnOrder) : P (s.timerStep o) := by
  unfold State.timerStep
  split
  · exact k.turn _ _ _ (fun m hm => by cases hm) h
  · exact h

theorem tick {s : State} (h : P s) (c : Clock) : P (s.tick c) := by
  cases c with
  | grain => exact k.grain s h
  | timer o => exact k.timerStep h o
  | mark p o => exact k.arrive h _ _ _

theorem tickWhen {s : State} (h : P s) (c : Clock) (f : State → State → Bool) : P (s.tickWhen c f) := by
  unfold State.tickWhen
  split
  · exact k.tick h c
  · exact h

theorem takeOrder {s : State} (h : P s) (kind : Nat) (straps : BitVec 2) (take : State → Packet → BitVec 2 → State × Int)
    (ht : ∀ s p straps, P s → P (take s p straps).1) : P (s.takeOrder kind straps take) := by
  unfold State.takeOrder
  split
  · split
    · exact k.finishOrder _ _ (fun p => ⟨rfl, by simp [Packet.setPower]⟩) (ht _ _ _ (k.pins _ _ h))
    · exact h
  · exact h

theorem execute {s : State} (h : P s) (code : Nat) (eff : State → Packet → State)
    (he : ∀ p, s.engine.current = some p → p.commandCode = code → s.replyRoom = true → P (eff s p)) :
    P (s.execute code eff) := by
  rcases execute_cases s code eff with e | ⟨p, hc, hk, hr, e | e⟩
  · rw [e]; exact h
  · rw [e]; exact k.answer _ _ _ hr h
  · rw [e]; exact he p hc hk hr

theorem effect (c : Instr) {s : State} (h : P s) : P (effect c s) := by
  cases c with
  | resetNAssert => exact h
  | resetNRelease => exact h
  | grainEvent => exact k.grain s h
  | awaitingWindowEnd =>
    show P (if s.windowDue then s.grainStep else s)
    split
    · exact k.grain s h
    · exact h
  | timerFrameTurn o => exact k.timerStep h o
  | bankSwitch c => exact k.tickWhen h c _
  | supplyStale c => exact k.tickWhen h c _
  | tripClear _ c => exact k.tickWhen h c _
  | barExpiry _ c => exact k.tickWhen h c _
  | zoneStale _ c => exact k.tickWhen h c _
  | pollExpiry _ c => exact k.tickWhen h c _
  | boostQuietRelease c => exact k.tickWhen h c _
  | boostCooldownEnd c => exact k.tickWhen h c _
  | boostWaitExpiry c => exact k.tickWhen h c _
  | frameMark p o => exact k.arrive h _ _ _
  | burst straps => exact k.takeOrder h _ _ _ k.takeBurst
  | revise straps => exact k.takeOrder h _ _ _ k.takeRevise
  | amendReceived straps => exact k.takeOrder h _ _ _ k.takeRevise
  | withdraw =>
    show P s.withdrawNext
    unfold State.withdrawNext
    split
    · split
      · exact k.finishOrder _ _ (fun p => ⟨rfl, rfl⟩) (k.takeWithdraw _ _ h)
      · exact h
    · exact h
  | tempReport p => exact k.arrive h _ _ _
  | supplyReport p => exact k.arrive h _ _ _
  | tripReport p => exact k.arrive h _ _ _
  | requestedAmendment n => exact k.makeRequested _ _ h
  | boostReady p => exact k.arrive h _ _ _
  | passPacketArrival port p => exact k.arrive h _ _ _
  | malformedPacket port p => exact k.arrive h _ _ _
  | misdirectedPacket port p => exact k.arrive h _ _ _
  | govCommandArrival p => exact k.arrive h _ _ _
  | commandTake => exact k.takeCommand _ h
  | unknownCommand =>
    show P s.answerUnknown
    unfold State.answerUnknown
    split
    · split
      · rename_i hr; exact k.answer _ _ _ hr.2 h
      · exact h
    · exact h
  | readStatus =>
    exact k.execute h Code.readStatus
      (fun s p => s.answer p (statusWord Code.readStatus Status.done :: s.statusItems)) fun p _ _ hr => k.answer _ _ _ hr h
  | readEvents =>
    exact k.execute h Code.readEvents
      (fun s p => { s.answer p [statusWord Code.readEvents Status.done, s.events.flags, s.events.mask] with
        events := s.events.cleared }) fun p _ _ hr => k.events _ _ (k.answer s p _ hr h)
  | setMask =>
    exact k.execute h Code.setMask
      (fun s p => { s.answerStatus p Status.done with events := { s.events with mask := p.word 1 } })
      fun p _ _ hr => k.events _ _ (k.answer s p _ hr h)
  | readZone =>
    refine k.execute h _ _ fun p _ _ hr => ?_
    unfold State.readZone
    (repeat' split) <;> exact k.answer _ _ _ hr h
  | readPath =>
    refine k.execute h _ _ fun p _ _ hr => ?_
    unfold State.readPath
    (repeat' split) <;> exact k.answer _ _ _ hr h
  | readSchedule =>
    refine k.execute h _ _ fun p _ _ hr => ?_
    unfold State.readSchedule
    (repeat' split) <;> exact k.answer _ _ _ hr h
  | setCap =>
    refine k.execute h _ _ fun p _ _ hr => ?_
    unfold State.setCap
    dsimp only
    split
    · exact k.answer _ _ _ hr h
    · split
      · exact k.setCap _ _ none (fun _ hv => by cases hv) (k.answer _ _ _ hr h)
      · split
        · rename_i hv
          exact k.setCap _ _ _ (fun _ e => by cases e; exact hv) (k.answer _ _ _ hr h)
        · exact k.answer _ _ _ hr h
  | clearBar =>
    refine k.execute h _ _ fun p _ _ hr => ?_
    unfold State.clearBar
    dsimp only
    split
    · exact k.answer _ _ _ hr h
    · rename_i i _
      split
      · rename_i hb; exact k.barEnd _ _ hb (k.answer _ _ _ hr h)
      · have : s.path.set i (s.path.get i) = s.path := by
          apply Four.ext_get; intro j; rw [Four.get_set]; split <;> simp_all
        rw [this]
        exact k.answer _ _ _ hr h
  | readTable copied =>
    refine k.execute h Code.readTable
      (fun s p => State.readTable { s with tables := s.tables.advance copied } p) fun p hc _ hr => ?_
    have hr' : ({ s with tables := s.tables.advance copied } : State).replyRoom = true := by
      have hw : (s.tables.advance copied).copyWaiting = true → s.tables.copyWaiting = true := by
        unfold Tables.advance Tables.copyWaiting
        cases hcp : s.tables.copy with
        | none => simp [hcp]
        | some c =>
          simp only [beq_iff_eq, bankSize]
          intro hh; omega
      simp only [State.replyRoom, Bool.and_eq_true, Bool.not_eq_true'] at hr ⊢
      refine ⟨hr.1, ?_⟩
      cases hx : (s.tables.advance copied).copyWaiting with
      | false => rfl
      | true => rw [hw hx] at hr; simp at hr
    show P (State.readTable { s with tables := s.tables.advance copied } p)
    unfold State.readTable
    dsimp only
    (repeat' split) <;> exact k.answer { s with tables := s.tables.advance copied } _ _ hr' (k.advance s copied h)
  | writeTable =>
    refine k.execute h _ _ fun p hc _ hr => ?_
    unfold State.writeTable
    dsimp only
    split
    · exact k.answer _ _ _ hr h
    · rename_i b _
      split
      · exact k.answer _ _ _ hr h
      · rename_i hlen
        split
        · exact k.raise _ _ (k.answer _ _ _ hr h)
        · rename_i ha
          split
          · exact k.answer _ _ _ hr h
          · rename_i hp
            split
            · exact k.answer _ _ _ hr h
            · rename_i hcopy
              exact k.writeTable _ b _ _ (k.answer s p _ hr h) ha (by simpa using hp) (by simpa using hcopy) (not_lt.1 hlen)
  | launch =>
    refine k.execute h _ _ fun p hc _ hr => ?_
    unfold State.launch
    split
    · exact k.answer _ _ _ hr h
    · split
      · exact k.answer _ _ _ hr h
      · rename_i hb
        split
        · exact k.answer _ _ _ hr h
        · rename_i hf
          exact k.launch _ _ (k.answer s p _ hr h) (by simpa using hb) hf
  | recallLaunch =>
    refine k.execute h _ _ fun p hc _ hr => ?_
    unfold State.recall
    split
    · rename_i hc; exact k.cancel _ (k.answer s p _ hr h) hc
    · (repeat' split) <;> exact k.answer _ _ _ hr h
  | copy =>
    refine k.execute h _ _ fun p hc _ hr => ?_
    unfold State.startCopy
    split
    · exact k.answer _ _ _ hr h
    · rename_i ha
      split
      · exact k.answer _ _ _ hr h
      · rename_i hp
        split
        · exact k.answer _ _ _ hr h
        · rename_i hq
          exact k.startCopy _ _ _ h ha (by simpa using hp) (by simpa using hq)
  | copyComplete => exact k.finishCopy _ h
  | softReset copied =>
    show P (s.runSoftReset copied)
    unfold State.runSoftReset
    split
    · split
      · split
        · exact k.softReset _ _ _ h
        · split
          · rename_i hr; exact k.answer _ _ _ hr h
          · exact h
      · exact h
    · exact h
  | downstreamGrant hold =>
    cases hold
    · exact k.pins _ _ (k.grantDown _ h)
    · exact k.pins _ _ h
  | upstreamGrant hold =>
    cases hold
    · show P (State.grantNextUp _)
      unfold State.grantNextUp
      split
      · exact k.grantUp _ _ (k.pins _ _ h)
      · exact k.pins _ _ h
    · exact k.pins _ _ h

/-- Kept by every part of the work, and by reset and the queue of waiting commands, a predicate is kept by every step. -/
theorem step (hreset : ∀ (s : State) level, P (s.atReset level))
    (hqueue : ∀ (s : State) q, P s → P { s with pending := q }) {s t : State} (hs : P s)
    (h : Sys2Proof.Machine.step s = .next t) : P t :=
  step_keeps hreset hqueue (fun c _ h => k.effect c h) k.update hs h

end Kept

end Sys2Proof.Machine
end

