-- ==== Sys2Proof/Laws/Supply.lean ====
section
/-! SUPPORT. The Supply Map and the pricing of the entries: the rows, the sums over them, and what an admission, an amendment,
a free and a turn leave of them (R30, R47 to R56, Law 3). -/

namespace Sys2Proof.Machine

/-! ### Rows -/

theorem rowOf_addRows (m : List Int) (lo len : Nat) (d : Int) (g : Nat) :
    rowOf (addRows m lo len d) g = rowOf m g + if lo ≤ g ∧ g < lo + len ∧ g < m.length then d else 0 := by
  unfold rowOf addRows
  simp only [List.getD_eq_getElem?_getD, List.getElem?_mapIdx]
  by_cases h : g < m.length
  · rw [List.getElem?_eq_getElem h]
    simp only [Option.map_some, Option.getD_some, h, and_true]
    split <;> simp
  · rw [List.getElem?_eq_none (by omega)]
    simp [h]

theorem rowOf_shiftRows {m : List Int} (h : m.length = 160) (g : Nat) :
    rowOf (shiftRows m) g = if g < 80 then rowOf m (80 + g) else 0 := by
  unfold rowOf shiftRows
  simp only [List.getD_eq_getElem?_getD]
  split
  · rw [List.getElem?_append_left (by simp; omega), List.getElem?_drop]
  · rw [List.getElem?_append_right (by simp; omega), List.getElem?_replicate]
    split <;> rfl

/-- The sum of the reserved currents of the entries whose spans cover a row (R47). -/
def loadAt (es : List Entry) (g : Nat) : Int :=
  ((es.filter fun e => e.row ≤ g && g < e.row + e.length).map fun e => e.reserved).sum

/-- What one entry adds to a row. -/
def Entry.share (e : Entry) (g : Nat) (d : Int) : Int := if e.row ≤ g ∧ g < e.row + e.length then d else 0

theorem loadAt_cons (e : Entry) (es : List Entry) (g : Nat) : loadAt (e :: es) g = e.share g e.reserved + loadAt es g := by
  unfold loadAt Entry.share
  rw [List.filter_cons]
  by_cases h : e.row ≤ g ∧ g < e.row + e.length
  · simp [h]
  · rw [if_neg h, if_neg (by simpa using h)]; simp

theorem loadAt_append (a b : List Entry) (g : Nat) : loadAt (a ++ b) g = loadAt a g + loadAt b g := by
  simp [loadAt]

theorem loadAt_filter_le {es : List Entry} (h : ∀ e ∈ es, 0 ≤ e.reserved) (f : Entry → Bool) (g : Nat) :
    loadAt (es.filter f) g ≤ loadAt es g := by
  induction es with
  | nil => exact le_refl _
  | cons a es ih =>
    have := ih fun e he => h e (List.mem_cons_of_mem _ he)
    have h0 : 0 ≤ a.share g a.reserved := by
      unfold Entry.share; split
      · exact h a List.mem_cons_self
      · exact le_refl _
    rw [List.filter_cons]
    split
    · rw [loadAt_cons, loadAt_cons]; omega
    · rw [loadAt_cons]; omega

theorem loadAt_map_same (f : Entry → Entry) {es : List Entry} {g g' : Nat}
    (h : ∀ e ∈ es, (f e).share g (f e).reserved = e.share g' e.reserved) : loadAt (es.map f) g = loadAt es g' := by
  induction es with
  | nil => rfl
  | cons a es ih =>
    rw [List.map_cons, loadAt_cons, loadAt_cons, ih fun e he => h e (List.mem_cons_of_mem _ he), h a List.mem_cons_self]

theorem loadAt_update {es : List Entry} (hu : es.Pairwise fun a b => a.serial ≠ b.serial) {e e' : Entry} (he : e ∈ es)
    (hr : e'.row = e.row) (hl : e'.length = e.length) (g : Nat) :
    loadAt (es.map fun x => if x.serial = e.serial then e' else x) g = loadAt es g + e.share g (e'.reserved - e.reserved) := by
  induction es with
  | nil => cases he
  | cons a es ih =>
    rw [List.pairwise_cons] at hu
    rw [List.map_cons, loadAt_cons, loadAt_cons]
    by_cases ha : a.serial = e.serial
    · have hea : e = a := by
        rcases List.mem_cons.1 he with h | h
        · exact h
        · exact absurd ha (hu.1 e h)
      subst hea
      have : es.map (fun x => if x.serial = e.serial then e' else x) = es := by
        conv_rhs => rw [← List.map_id es]
        refine List.map_congr_left fun x hx => ?_
        rw [if_neg fun h => hu.1 x hx h.symm]; rfl
      rw [this, if_pos rfl]
      simp only [Entry.share, hr, hl]
      split <;> omega
    · have hm : e ∈ es := by
        rcases List.mem_cons.1 he with h | h
        · exact absurd (by rw [h]) ha
        · exact h
      rw [if_neg ha, ih hu.2 hm]
      omega

theorem loadAt_remove {es : List Entry} (hu : es.Pairwise fun a b => a.serial ≠ b.serial) {e : Entry} (he : e ∈ es) (g : Nat) :
    loadAt (es.filter fun x => !(x.serial == e.serial)) g = loadAt es g - e.share g e.reserved := by
  induction es with
  | nil => cases he
  | cons a es ih =>
    rw [List.pairwise_cons] at hu
    rw [loadAt_cons, List.filter_cons]
    by_cases ha : a.serial = e.serial
    · have hea : e = a := by
        rcases List.mem_cons.1 he with h | h
        · exact h
        · exact absurd ha (hu.1 e h)
      subst hea
      have : es.filter (fun x => !(x.serial == e.serial)) = es := by
        rw [List.filter_eq_self]
        intro x hx
        simpa using fun h : x.serial = e.serial => hu.1 x hx h.symm
      rw [this]
      simp
    · have hm : e ∈ es := by
        rcases List.mem_cons.1 he with h | h
        · exact absurd (by rw [h]) ha
        · exact h
      rw [if_pos (by simpa using ha), loadAt_cons, ih hu.2 hm]
      omega

/-! ### Currents -/

theorem codeRange_le {x y : Int} (hx : codeRange x) (h : y ≤ x) (hy : minCode ≤ y) : codeRange y := by
  unfold codeRange muteCode minCode maxCode at *; omega

theorem codeRange_max {x y : Int} (hx : codeRange x) (hy : codeRange y) : codeRange (max x y) := by
  unfold codeRange muteCode minCode maxCode at *; omega

theorem mute_le {x : Int} (h : codeRange x) : muteCode ≤ x := by
  unfold codeRange muteCode minCode maxCode at *; omega

theorem current_mute (b : Bank) (r : BandRec) : b.current r muteCode = 0 := by
  unfold Bank.current evalCurve; rw [if_pos rfl]

theorem current_mono {b : Bank} (h : b.governs) (p : Fin 4) (n : Nat) {x y : Int} (hx : codeRange x)
    (_ : codeRange y) (hxy : x ≤ y) : b.current (b.resolveBand p n) x ≤ b.current (b.resolveBand p n) y := by
  by_cases e : x = muteCode
  · rw [e, current_mute]; exact (h.current p n y).1
  · refine h.rises p n x y e (fun hy' => e ?_) hxy
    have := mute_le hx
    omega

theorem currentOf_mono {s : State} (h : s.tables.sound) (e : Entry) {x y : Int} (hx : codeRange x) (hy : codeRange y) (hxy : x ≤ y) :
    s.currentOf e x ≤ s.currentOf e y := current_mono (bankFor_governs h e.slot) _ _ hx hy hxy

theorem currentOf_nonneg {s : State} (h : s.tables.sound) (e : Entry) (x : Int) : 0 ≤ s.currentOf e x :=
  ((bankFor_governs h e.slot).current _ _ x).1

/-! ### Pricing -/

/-- What `State.entriesPriced` says of one entry. -/
def State.prices (s : State) (e : Entry) : Prop :=
  e.reserved = s.currentOf e e.granted ∧
    e.dissipation = (s.bankFor e.slot).dissipation ((s.bankFor e.slot).resolveBand e.path e.band) e.granted ∧
    e.band < 32 ∧ e.cls < 4 ∧ e.amends ≤ 255 ∧ codeRange e.requested ∧ codeRange e.granted ∧ codeRange e.lower ∧
    e.granted ≤ e.requested ∧ (e.lower = muteCode → e.requested = muteCode)

/-- Entries priced and rows that carry them. -/
def State.stocked (s : State) : Prop := s.entriesPriced ∧ s.mapSound

theorem stocked_iff (s : State) : s.stocked ↔ (∀ e ∈ s.sched.entries, s.prices e) ∧
    ∀ g, g < 160 → loadAt s.sched.entries g ≤ rowOf s.supply.map g ∧ rowOf s.supply.map g ≤ 8191 := Iff.rfl

theorem prices_congr {s t : State} (h : t.tables = s.tables) (e : Entry) : t.prices e ↔ s.prices e := by
  unfold State.prices; simp only [amended_tables h, State.bankFor, h]

theorem stocked_congr {s t : State} (h : s.stocked) (h1 : t.tables = s.tables) (h2 : t.sched = s.sched)
    (h3 : t.supply.map = s.supply.map) : t.stocked := by
  rw [stocked_iff] at h ⊢
  rw [h2, h3]
  exact ⟨fun e he => (prices_congr h1 e).2 (h.1 e he), h.2⟩

theorem prices_reserved {s : State} (ht : s.tables.sound) {e : Entry} (h : s.prices e) : 0 ≤ e.reserved := by
  rw [h.1]; exact currentOf_nonneg ht _ _

theorem serials_differ {c : Schedule} (h : c.sound) : c.entries.Pairwise fun a b => a.serial ≠ b.serial :=
  h.2.1.imp fun h => by omega

/-- A sound entry's rows are rows of the map. -/
theorem row_lt {e : Entry} (h : e.spanOk) {g : Nat} (hg : g < e.row + e.length) : g < 160 := by
  have : rowBase e.slot ≤ 80 := by cases e.slot <;> decide
  obtain ⟨h1, h2⟩ := h
  unfold Entry.row at hg
  omega

/-! ### One entry changed or gone -/

/-- An entry lowered in its place. -/
theorem stocked_lowered {s : State} (ht : s.tables.sound) (hs : s.sched.sound) (hm : s.supply.map.length = 160) (h : s.stocked)
    {e : Entry} (he : e ∈ s.sched.entries) {code : Int} (hc : codeRange code) (hl : code ≤ e.granted) (r : Reason) {n : Nat}
    (hn : n ≤ 255) : (s.replaceEntry e (e.lowered (s.bankFor e.slot) code r n)).stocked := by
  rw [stocked_iff] at h ⊢
  obtain ⟨p1, p2, pb, p3, p4, p5, p6, p7, p8, p9⟩ := h.1 e he
  have hle : s.currentOf e code ≤ e.reserved := by rw [p1]; exact currentOf_mono ht e hc p6 hl
  refine ⟨fun x hx => ?_, fun g hg => ?_⟩
  · obtain ⟨y, hy, rfl⟩ := List.mem_map.1 hx
    by_cases hye : y.serial = e.serial
    · rw [if_pos hye]
      exact ⟨rfl, rfl, pb, p3, hn, p5, hc, p7, le_trans hl p8, p9⟩
    · rw [if_neg hye]
      exact h.1 y hy
  · show loadAt (s.sched.entries.map fun x => if x.serial = e.serial then e.lowered (s.bankFor e.slot) code r n else x) g ≤
        rowOf (addRows s.supply.map e.row e.length (s.currentOf e code - e.reserved)) g ∧
      rowOf (addRows s.supply.map e.row e.length (s.currentOf e code - e.reserved)) g ≤ 8191
    rw [loadAt_update (serials_differ hs) (e' := e.lowered (s.bankFor e.slot) code r n) he rfl rfl, rowOf_addRows]
    have := h.2 g hg
    have hr : (e.lowered (s.bankFor e.slot) code r n).reserved = s.currentOf e code := rfl
    rw [hr]
    unfold Entry.share
    by_cases hcov : e.row ≤ g ∧ g < e.row + e.length
    · rw [if_pos hcov, if_pos ⟨hcov.1, hcov.2, by omega⟩]; omega
    · rw [if_neg hcov, if_neg fun hx => hcov ⟨hx.1, hx.2.1⟩]; omega

theorem stocked_amended {s : State} (ht : s.tables.sound) (hs : s.sched.sound) (hm : s.supply.map.length = 160) (h : s.stocked)
    {e : Entry} (he : e ∈ s.sched.entries) {code : Int} (hc : codeRange code) (hl : code ≤ e.granted) : (s.amendEntry e code).stocked :=
  stocked_congr (stocked_lowered ht hs hm h he hc hl .amended (Nat.min_le_left 255 (e.amends + 1))) rfl rfl rfl

/-- An entry freed. -/
theorem stocked_freed {s : State} (ht : s.tables.sound) (hs : s.sched.sound) (hm : s.supply.map.length = 160) (h : s.stocked)
    {e : Entry} (he : e ∈ s.sched.entries) : (s.freeEntry e).stocked := by
  rw [stocked_iff] at h ⊢
  have h0 := prices_reserved ht (h.1 e he)
  refine ⟨fun x hx => h.1 x (List.mem_filter.1 hx).1, fun g hg => ?_⟩
  show loadAt (s.sched.entries.filter fun x => !(x.serial == e.serial)) g ≤ rowOf (addRows s.supply.map e.row e.length (-e.reserved)) g ∧
    rowOf (addRows s.supply.map e.row e.length (-e.reserved)) g ≤ 8191
  rw [loadAt_remove (serials_differ hs) he, rowOf_addRows]
  have := h.2 g hg
  unfold Entry.share
  by_cases hcov : e.row ≤ g ∧ g < e.row + e.length
  · rw [if_pos hcov, if_pos ⟨hcov.1, hcov.2, by omega⟩]; omega
  · rw [if_neg hcov, if_neg fun hx => hcov ⟨hx.1, hx.2.1⟩]; omega

/-- Superseded entries freed one after another. -/
theorem stocked_superseded {s : State} (ht : s.tables.sound) (hs : s.sched.sound) (hm : s.supply.map.length = 160) (h : s.stocked)
    (o : Order) : (s.supersede o).stocked := by
  have key : ∀ (es : List Entry) (s : State), s.tables.sound → s.sched.sound → s.supply.map.length = 160 → s.stocked →
      es.Pairwise (fun a b => a.serial ≠ b.serial) → (∀ e ∈ es, e ∈ s.sched.entries) → (es.foldl State.freeEntry s).stocked := by
    intro es
    induction es with
    | nil => intro s _ _ _ h _ _; exact h
    | cons e es ih =>
      intro s ht hs hm h hp he
      rw [List.pairwise_cons] at hp
      refine ih _ ht (freeEntry_sound hs e) ((addRows_length _ _ _ _).trans hm) (stocked_freed ht hs hm h (he e List.mem_cons_self))
        hp.2 fun x hx => ?_
      refine List.mem_filter.2 ⟨he x (List.mem_cons_of_mem _ hx), ?_⟩
      simpa using fun h : x.serial = e.serial => hp.1 x hx h.symm
  exact key _ s ht hs hm h ((serials_differ hs).sublist List.filter_sublist) fun e he => (List.mem_filter.1 he).1

/-- The amendments of a plan made. -/
theorem stocked_committed (plan : List (Entry × Int)) {s : State} (ht : s.tables.sound) (hs : s.sched.sound)
    (hm : s.supply.map.length = 160) (h : s.stocked)
    (ha : ∀ a ∈ plan, a.1 ∈ s.sched.entries ∧ codeRange a.2 ∧ a.2 ≤ a.1.granted)
    (hp : plan.Pairwise fun a b => a.1.serial ≠ b.1.serial) :
    (s.commitPlan (plan.map fun a => (a.1.serial, a.2))).stocked := by
  induction plan generalizing s with
  | nil => exact h
  | cons a plan ih =>
    obtain ⟨e, code⟩ := a
    rw [List.pairwise_cons] at hp
    obtain ⟨he, hc, hl⟩ := ha (e, code) List.mem_cons_self
    have hstep : s.amendSerial e.serial code = s.amendEntry e code := by
      unfold State.amendSerial; rw [bySerial_of_mem (serials_differ hs) he]
    have hunf : s.commitPlan (((e, code) :: plan).map fun a => (a.1.serial, a.2)) =
        (s.amendEntry e code).commitPlan (plan.map fun a => (a.1.serial, a.2)) := by
      simp only [State.commitPlan, List.map_cons, List.foldl_cons, hstep]
    rw [hunf]
    refine ih (s := s.amendEntry e code) ht (hstep ▸ amendSerial_sound hs e.serial code) ((addRows_length _ _ _ _).trans hm)
      (stocked_amended ht hs hm h he hc hl) (fun a ha' => ?_) hp.2
    obtain ⟨h1, h2, h3⟩ := ha a (List.mem_cons_of_mem _ ha')
    refine ⟨List.mem_map.2 ⟨a.1, h1, ?_⟩, h2, h3⟩
    rw [if_neg fun h => hp.1 a ha' h.symm]

/-- A priced entry booked on rows that can carry it. -/
theorem stocked_booked {s : State} (hm : s.supply.map.length = 160) (h : s.stocked) {e : Entry} (he : s.prices e)
    (hr : ∀ g, e.row ≤ g → g < e.row + e.length → rowOf s.supply.map g + e.reserved ≤ 8191) : (s.book e).stocked := by
  rw [stocked_iff] at h ⊢
  refine ⟨fun x hx => ?_, fun g hg => ?_⟩
  · rcases List.mem_append.1 hx with hx | hx
    · exact h.1 x hx
    · rw [List.mem_singleton.1 hx]; exact he
  · show loadAt (s.sched.entries ++ [e]) g ≤ rowOf (addRows s.supply.map e.row e.length e.reserved) g ∧
      rowOf (addRows s.supply.map e.row e.length e.reserved) g ≤ 8191
    rw [loadAt_append, loadAt_cons, rowOf_addRows]
    have hn : loadAt [] g = 0 := rfl
    have := h.2 g hg
    unfold Entry.share
    by_cases hcov : e.row ≤ g ∧ g < e.row + e.length
    · have := hr g hcov.1 hcov.2
      rw [if_pos hcov, if_pos ⟨hcov.1, hcov.2, by omega⟩]; omega
    · rw [if_neg hcov, if_neg fun hx => hcov ⟨hx.1, hx.2.1⟩]; omega

/-! ### The walk and the fit -/

theorem walk_plan {s : State} {w : WorkingRecord} {target : Int} {cs : List Entry} {m : List Int} {plan : List (Entry × Int)}
    {m' : List Int} (h : Walk s w target cs m plan m') (hc : ∀ e ∈ cs, e.lower ≤ e.granted) :
    ∀ a ∈ plan, a.1 ∈ cs ∧ a.1.lower ≤ a.2 ∧ a.2 ≤ a.1.granted := by
  induction h with
  | fits _ => intro a ha; cases ha
  | done _ => intro a ha; cases ha
  | @next e cs m code plan m' _ hp _ ih =>
    have ih := ih fun x hx => hc x (List.mem_cons_of_mem _ hx)
    have he := hc e List.mem_cons_self
    have hcode : e.lower ≤ code ∧ code ≤ e.granted := by
      rcases hp with hp | hp
      · exact ⟨hp.1, hp.2.1⟩
      · rw [hp.1]; exact ⟨le_refl _, he⟩
    intro a ha
    have tail : a ∈ plan → a.1 ∈ e :: cs ∧ a.1.lower ≤ a.2 ∧ a.2 ≤ a.1.granted := fun h =>
      ⟨List.mem_cons_of_mem _ (ih a h).1, (ih a h).2⟩
    split at ha
    · rcases List.mem_cons.1 ha with rfl | ha
      · exact ⟨List.mem_cons_self, hcode⟩
      · exact tail ha
    · exact tail ha

/-- The planned map at the end of a walk has the rows that the amendments of its plan leave. -/
theorem walk_rows {s : State} {w : WorkingRecord} {target : Int} {cs : List Entry} {m : List Int} {plan : List (Entry × Int)}
    {m' : List Int} (h : Walk s w target cs m plan m') (hc : ∀ e ∈ cs, e.lower ≤ e.granted) (m₀ : List Int)
    (hl : m₀.length = m.length) (hr : ∀ g, rowOf m₀ g = rowOf m g) (g : Nat) :
    rowOf m' g = rowOf (plan.foldl (fun m a => addRows m a.1.row a.1.length (s.currentOf a.1 a.2 - s.currentOf a.1 a.1.granted)) m₀) g := by
  induction h generalizing m₀ with
  | fits _ => exact (hr g).symm
  | done _ => exact (hr g).symm
  | @next e cs m code plan m' _ hp _ ih =>
    have he := hc e List.mem_cons_self
    have ih := ih fun x hx => hc x (List.mem_cons_of_mem _ hx)
    split
    · rw [List.foldl_cons]
      exact ih _ (by simp [hl]) fun g => by rw [rowOf_addRows, rowOf_addRows, hr, hl]
    · rename_i hn
      have hcode : code = e.granted := by
        rcases hp with hp | hp
        · omega
        · omega
      refine ih _ (by simp [hl]) fun g => ?_
      rw [rowOf_addRows, hr, hcode]; simp

/-- R52, R54: a current that fits with every candidate at its lower bound fits at the end of the walk. -/
theorem walk_fits {s : State} {w : WorkingRecord} {target : Int} {cs : List Entry} {m : List Int} {plan : List (Entry × Int)}
    {m' : List Int} (h : Walk s w target cs m plan m') (hspan : w.row + w.order.length ≤ m.length)
    (hc : ∀ e ∈ cs, s.currentOf e e.lower ≤ s.currentOf e e.granted)
    (hb : ∀ g, w.row ≤ g → g < w.row + w.order.length →
      target ≤ s.supply.ceiling - rowOf m g + ((cs.filter fun e => e.row ≤ g && g < e.row + e.length).map
        fun e => s.currentOf e e.granted - s.currentOf e e.lower).sum) :
    rowsFit s.supply.ceiling m' w.row w.order.length target := by
  induction h with
  | fits h => exact h
  | done h =>
    refine absurd (fun g h1 h2 => ?_) h
    have := hb g h1 h2
    simpa using this
  | @next e cs m code plan m' _ hp _ ih =>
    refine ih (by simpa using hspan) (fun x hx => hc x (List.mem_cons_of_mem _ hx)) fun g h1 h2 => ?_
    have hbg := hb g h1 h2
    have hpos : 0 ≤ ((cs.filter fun e => e.row ≤ g && g < e.row + e.length).map
        fun e => s.currentOf e e.granted - s.currentOf e e.lower).sum := by
      refine List.sum_nonneg fun x hx => ?_
      obtain ⟨y, hy, rfl⟩ := List.mem_map.1 hx
      have := hc y (List.mem_cons_of_mem _ (List.mem_filter.1 hy).1)
      omega
    rw [rowOf_addRows]
    rw [List.filter_cons] at hbg
    by_cases hcov : e.row ≤ g ∧ g < e.row + e.length
    · rw [if_pos (by simpa using hcov), List.map_cons, List.sum_cons] at hbg
      rw [if_pos ⟨hcov.1, hcov.2, by omega⟩]
      rcases hp with hp | hp
      · have := hp.2.2.1 g hcov.1 hcov.2 h1 h2
        omega
      · rw [hp.1]; omega
    · rw [if_neg (by simpa using hcov)] at hbg
      rw [if_neg fun hx => hcov ⟨hx.1, hx.2.1⟩]
      omega

/-- P1 and L of an order lie between what its floor leaves of the request and the request. -/
theorem firstGrant_range {t : CeilingTerms} (hf : minCode ≤ t.floor) {request : Int} (hr : codeRange request)
    (hm : request ≠ muteCode) : minCode ≤ t.lowerBound request ∧ t.lowerBound request ≤ t.firstGrant request ∧
      t.firstGrant request ≤ request := by
  have h1 := firstGrant_le t request
  have h2 : min request t.floor ≤ t.firstGrant request := le_max_right _ _
  have h3 : minCode ≤ request := by unfold codeRange at hr; omega
  refine ⟨?_, lowerBound_le t request, h1⟩
  unfold CeilingTerms.lowerBound
  omega

/-- What a fit grants fits its rows under the amendments it commits. -/
theorem fit_rows {s s₀ : State} (ht : s.tables.sound) (h0 : s.tables = s₀.tables) (hm : s.supply.map.length = 160) (h : s.stocked)
    {o : Order} (hq : codeRange o.request) (hspan : o.start + o.length ≤ 80) {grant : Int} {reason : Reason}
    {plan : List (Entry × Int)} (hf : s.fitIs (s₀.workingRecord o) grant reason plan) :
    (∀ a ∈ plan, a.1 ∈ s.sched.entries ∧ codeRange a.2 ∧ a.2 ≤ a.1.granted) ∧ codeRange grant ∧ grant ≤ o.request ∧
      (grant = muteCode ∨ ∀ g, (s₀.workingRecord o).row ≤ g → g < (s₀.workingRecord o).row + o.length →
        rowOf (plan.foldl (fun m a => addRows m a.1.row a.1.length (s.currentOf a.1 a.2 - a.1.reserved)) s.supply.map) g +
          (s₀.workingRecord o).current grant ≤ s.supply.ceiling) := by
  have hg := bankFor_governs (h0 ▸ ht : s₀.tables.sound) o.slot
  have hfl : minCode ≤ (s₀.workingRecord o).terms.floor := (hg.floor o.path o.band).1
  have hrow : (s₀.workingRecord o).row + o.length ≤ s.supply.map.length := by
    have : rowBase o.slot ≤ 80 := by cases o.slot <;> decide
    rw [hm]
    show rowBase o.slot + o.start + o.length ≤ 160
    omega
  have ho : (s₀.workingRecord o).order = o := rfl
  generalize s₀.workingRecord o = w at hf hfl hrow ho
  subst ho
  rw [stocked_iff] at h
  obtain ⟨hmute, hrest⟩ := hf
  by_cases hr : w.order.request = muteCode
  · obtain ⟨rfl, _, rfl⟩ := hmute hr
    exact ⟨fun a ha => (by cases ha), Or.inl rfl, mute_le hq, Or.inl rfl⟩
  · obtain ⟨l1, l2, l3⟩ := firstGrant_range hfl hq hr
    change minCode ≤ w.lower at l1
    change w.lower ≤ w.firstGrant at l2
    change w.firstGrant ≤ w.order.request at l3
    obtain ⟨cs, plan₁, ended, hcs, hwalk, hfit, hnot⟩ := hrest hr
    have hmem : ∀ e ∈ cs, e ∈ s.sched.entries ∧ e.lower < e.granted := by
      intro e he
      cases hlate : w.order.late with
      | true => rw [hcs.1 hlate] at he; cases he
      | false =>
        obtain ⟨ranked, rfl, _, hr⟩ := hcs.2 hlate
        have := (hr e).1 (List.mem_of_mem_take he)
        exact ⟨this.1, this.2.2.2.2.2.2⟩
    have hlow : ∀ e ∈ cs, minCode ≤ e.lower := by
      intro e he
      obtain ⟨m1, m2⟩ := hmem e he
      obtain ⟨_, _, _, _, _, p5, p6, p7, p8, p9⟩ := h.1 e m1
      rcases p7 with p7 | p7
      · have := p9 p7; omega
      · exact p7.1
    have hplan : ∀ {target : Int} {q : List (Entry × Int)} {m' : List Int}, Walk s w target cs s.supply.map q m' →
        (∀ a ∈ q, a.1 ∈ s.sched.entries ∧ codeRange a.2 ∧ a.2 ≤ a.1.granted) ∧
        ∀ g, rowOf m' g = rowOf (q.foldl (fun m a => addRows m a.1.row a.1.length (s.currentOf a.1 a.2 - a.1.reserved)) s.supply.map) g := by
      intro target q m' hw
      have hpl := walk_plan hw fun e he => le_of_lt (hmem e he).2
      have hin : ∀ a ∈ q, a.1 ∈ s.sched.entries ∧ codeRange a.2 ∧ a.2 ≤ a.1.granted := by
        intro a ha
        obtain ⟨h1, h2, h3⟩ := hpl a ha
        have h4 := (hmem a.1 h1).1
        exact ⟨h4, codeRange_le (h.1 a.1 h4).2.2.2.2.2.2.1 h3 (le_trans (hlow a.1 h1) h2), h3⟩
      refine ⟨hin, fun g => ?_⟩
      rw [walk_rows hw (fun e he => le_of_lt (hmem e he).2) s.supply.map rfl (fun _ => rfl) g]
      refine congrArg (rowOf · g) (List.foldl_ext _ _ _ fun m a ha => ?_)
      rw [(h.1 a.1 (hin a ha).1).1]
    by_cases hends : rowsFit s.supply.ceiling ended w.row w.order.length (w.current w.firstGrant)
    · obtain ⟨rfl, _, rfl⟩ := hfit hends
      obtain ⟨h1, h2⟩ := hplan hwalk
      refine ⟨h1, codeRange_le hq l3 (le_trans l1 l2), l3, Or.inr fun g g1 g2 => ?_⟩
      rw [← h2]
      have := hends g g1 g2
      omega
    · obtain ⟨hsome, hnone⟩ := hnot hends
      by_cases hex : ∃ p, w.lower ≤ p ∧ p ≤ w.firstGrant ∧ ∀ g, w.row ≤ g → g < w.row + w.order.length →
          w.current p ≤ s.supply.ceiling - rowOf s.supply.map g +
            ((cs.filter fun e => e.row ≤ g && g < e.row + e.length).map
              fun e => s.currentOf e e.granted - s.currentOf e e.lower).sum
      · obtain ⟨g1, g2, g3, _, _, m, hw⟩ := hsome hex
        obtain ⟨h1, h2⟩ := hplan hw
        refine ⟨h1, codeRange_le hq (le_trans g2 l3) (le_trans l1 g1), le_trans g2 l3, Or.inr fun g q1 q2 => ?_⟩
        rw [← h2]
        have := walk_fits hw hrow (fun e he => ?_) g3 g q1 q2
        · omega
        · obtain ⟨m1, m2⟩ := hmem e he
          exact currentOf_mono ht e (h.1 e m1).2.2.2.2.2.2.2.1 (h.1 e m1).2.2.2.2.2.2.1 (le_of_lt m2)
      · obtain ⟨rfl, _, rfl⟩ := hnone fun p p1 p2 p3 => hex ⟨p, p1, p2, p3⟩
        exact ⟨fun a ha => (by cases ha), Or.inl rfl, mute_le hq, Or.inl rfl⟩

/-- Law 3 and R47 for one admission: the rows carry the entries, and those of the entry booked lie at or below the ceiling unless
it is booked at the mute code, where it reserves nothing. -/
theorem admission_stocked {s : State} (ht : s.tables.sound) (hs : s.sched.sound) (hm : s.supply.map.length = 160) (h : s.stocked)
    (hS : s.supply.ceiling ≤ 8191) {o : Order} (hq : codeRange o.request) (hb : o.band < 32) (hc : o.cls < 4)
    (hspan : 1 ≤ o.length ∧ o.start + o.length ≤ 80) :
    (s.admission o).1.stocked ∧ ∀ e ∈ (s.admission o).1.sched.entries, s.sched.nextSerial ≤ e.serial →
      (e.granted = muteCode → e.reserved = 0) ∧
      (e.granted ≠ muteCode → ∀ g, e.row ≤ g → g < e.row + e.length →
        rowOf (s.admission o).1.supply.map g ≤ s.supply.ceiling) := by
  have hd := afterDemand_eq s (s.workingRecord o)
  have ho : (s.workingRecord o).order = o := rfl
  rw [ho] at hd
  unfold State.admission
  dsimp only
  rw [hd]
  have hu : (s.afterDemand (s.workingRecord o)).stocked := stocked_congr h rfl rfl rfl
  have e1 : (s.afterDemand (s.workingRecord o)).tables = s.tables := rfl
  have e2 : (s.afterDemand (s.workingRecord o)).sched = s.sched := rfl
  have e3 : (s.afterDemand (s.workingRecord o)).supply = s.supply := rfl
  generalize s.afterDemand (s.workingRecord o) = u at hu e1 e2 e3
  have htu : u.tables.sound := e1 ▸ ht
  have hsu : u.sched.sound := e2 ▸ hs
  have hmu : u.supply.map.length = 160 := e3 ▸ hm
  obtain ⟨plan, f1, f2, _, f4, f5⟩ := fit_is (s := u) hsu (w := s.workingRecord o) hc hspan.1
  obtain ⟨r1, r2, r3, r4⟩ := fit_rows htu e1 hmu hu hq hspan.2 f1
  have hk := stocked_committed plan htu hsu hmu hu r1 f5
  have hcommit := commitPlan_eq plan u (serials_differ hsu) f4 f5
  rw [f2]
  generalize (u.fit (s.workingRecord o)).grant = grant at *
  generalize (u.fit (s.workingRecord o)).reason = reason at *
  have hg := bankFor_governs ht o.slot
  have hmap : (u.commitPlan (plan.map fun a => (a.1.serial, a.2))).supply.map =
      plan.foldl (fun m a => addRows m a.1.row a.1.length (u.currentOf a.1 a.2 - a.1.reserved)) u.supply.map := by rw [hcommit]
  have htab : (u.commitPlan (plan.map fun a => (a.1.serial, a.2))).tables = s.tables := by rw [hcommit]; exact e1
  have hlen : (u.commitPlan (plan.map fun a => (a.1.serial, a.2))).supply.map.length = 160 :=
    (commitPlan_shape _ u).1.trans hmu
  rw [← hmap] at r4
  have hband : (s.workingRecord o).band = (s.bankFor o.slot).resolveBand o.path o.band := rfl
  have hres := hg.band o.path o.band hb
  have hentry : s.prices ((s.workingRecord o).entry s.sched.nextSerial grant reason) := by
    have hlow := firstGrant_range (t := (s.workingRecord o).terms) (hg.floor o.path o.band).1 hq
    refine ⟨?_, ?_, hres.1, hc, Nat.zero_le _, hq, r2, ?_, r3, fun hl => ?_⟩
    · show (s.bankFor o.slot).current ((s.bankFor o.slot).resolveBand o.path o.band) grant =
        (s.bankFor o.slot).current ((s.bankFor o.slot).resolveBand o.path ((s.bankFor o.slot).resolveBand o.path o.band).band) grant
      rw [hres.2]
    · show (s.bankFor o.slot).dissipation ((s.bankFor o.slot).resolveBand o.path o.band) grant =
        (s.bankFor o.slot).dissipation ((s.bankFor o.slot).resolveBand o.path ((s.bankFor o.slot).resolveBand o.path o.band).band) grant
      rw [hres.2]
    · show codeRange ((s.workingRecord o).terms.lowerBound o.request)
      by_cases hr : o.request = muteCode
      · have hge : muteCode ≤ (s.workingRecord o).terms.lowerBound o.request := by
          have := (hg.floor o.path o.band).1
          change minCode ≤ (s.workingRecord o).terms.floor at this
          rw [hr]
          unfold CeilingTerms.lowerBound CeilingTerms.firstGrant muteCode minCode at *
          omega
        have hle := lowerBound_le (s.workingRecord o).terms o.request
        have hle2 := firstGrant_le (s.workingRecord o).terms o.request
        exact Or.inl (by omega)
      · exact codeRange_le hq (le_trans (hlow hr).2.1 (hlow hr).2.2) (hlow hr).1
    · by_contra hr
      have := (hlow hr).1
      change (s.workingRecord o).terms.lowerBound o.request = muteCode at hl
      unfold muteCode minCode at *
      omega
  have hzero : grant = muteCode → (s.workingRecord o).current grant = 0 := by
    rintro rfl; exact current_mute _ _
  refine ⟨?_, ?_⟩
  · refine stocked_congr (stocked_booked hlen hk ((prices_congr htab _).2 hentry) ?_) rfl rfl rfl
    intro g g1 g2
    rcases r4 with r4 | r4
    · have hr : ((s.workingRecord o).entry s.sched.nextSerial grant reason).reserved = 0 := hzero r4
      rw [hr]
      have hg160 : g < 160 := by
        have := row_lt (e := (s.workingRecord o).entry s.sched.nextSerial grant reason) hspan g2
        exact this
      have := (((stocked_iff _).1 hk).2 g hg160).2
      omega
    · have := r4 g g1 g2
      rw [e3] at this
      change _ + (s.workingRecord o).current grant ≤ 8191
      omega
  · intro e he hser
    have hent : e = (s.workingRecord o).entry s.sched.nextSerial grant reason := by
      rcases List.mem_append.1 he with he | he
      · have hold : ∀ x ∈ (u.commitPlan (plan.map fun a => (a.1.serial, a.2))).sched.entries, x.serial < s.sched.nextSerial := by
          have hsound := commitPlan_sound hsu (plan.map fun a => (a.1.serial, a.2))
          intro x hx
          have h1 := (hsound.1.2.2 x hx).2
          have h2 : (u.commitPlan (plan.map fun a => (a.1.serial, a.2))).sched.nextSerial = s.sched.nextSerial := 
            hsound.2.2.trans (congrArg Schedule.nextSerial e2)
          omega
        have := hold e he
        omega
      · exact List.mem_singleton.1 he
    subst hent
    refine ⟨hzero, fun hne g g1 g2 => ?_⟩
    rcases r4 with r4 | r4
    · exact absurd r4 hne
    · have := r4 g g1 g2
      rw [e3] at this
      show rowOf (addRows (u.commitPlan (plan.map fun a => (a.1.serial, a.2))).supply.map (s.workingRecord o).row o.length
        ((s.workingRecord o).current grant)) g ≤ s.supply.ceiling
      rw [rowOf_addRows, if_pos ⟨g1, g2, by rw [hlen]; exact row_lt (e := (s.workingRecord o).entry s.sched.nextSerial grant reason) hspan g2⟩]
      exact this

/-! ### The commands -/

theorem refuseBurst_stocked {s : State} (h : s.stocked) (p : Packet) (f : Flag) : (s.refuseBurst p f).1.stocked :=
  stocked_congr h rfl rfl rfl

theorem clampRequest_range (x : Int) : codeRange (clampRequest x) := by
  unfold clampRequest
  split
  · exact Or.inl rfl
  · exact Or.inr ⟨le_clampTo _ _ _, clampTo_le (by decide)⟩

/-- What `admission_stocked` says, of any step from a state to a state. -/
def State.carries (s t : State) : Prop :=
  t.stocked ∧ ∀ e ∈ t.sched.entries, s.sched.nextSerial ≤ e.serial →
    (e.granted = muteCode → e.reserved = 0) ∧
    (e.granted ≠ muteCode → ∀ g, e.row ≤ g → g < e.row + e.length → rowOf t.supply.map g ≤ s.supply.ceiling)

/-- No entry is new. -/
theorem carries_old {s t : State} (h : t.stocked) (hs : t.sched.sound) (hn : t.sched.nextSerial ≤ s.sched.nextSerial) : s.carries t := by
  refine ⟨h, fun e he hser => ?_⟩
  have := (hs.2.2 e he).2
  omega

theorem supersede_ceiling (s : State) (o : Order) : (s.supersede o).supply.ceiling = s.supply.ceiling := by
  unfold State.supersede
  generalize s.sched.overlapping o = es
  induction es generalizing s with
  | nil => rfl
  | cons a rest ih => rw [List.foldl_cons, ih]; rfl

theorem takeBurst_carries {s : State} (ht : s.tables.sound) (hs : s.sched.sound) (hm : s.supply.map.length = 160) (h : s.stocked)
    (hS : s.supply.ceiling ≤ 8191) (p : Packet) (straps : BitVec 2) : s.carries (s.takeBurst p straps).1 := by
  have refuse : ∀ f, s.carries (s.refuseBurst p f).1 := fun f => carries_old (refuseBurst_stocked h p f) hs (le_refl _)
  have book : ∀ slot late, p.orderStart ≤ 79 → s.carries (s.bookBurst p (burstOrder p slot late)).1 := by
    intro slot late hstart
    unfold State.bookBurst
    split
    · exact refuse _
    · dsimp only
      have hsup := supersede_sched s (burstOrder p slot late)
      have hs' : (s.supersede (burstOrder p slot late)).sched.sound := Schedule.sound_sublist hs hsup.1 (le_of_eq hsup.2.1.symm)
      have hst := stocked_superseded ht hs hm h (burstOrder p slot late)
      split
      · exact carries_old (refuseBurst_stocked hst p _) hs' (le_of_eq hsup.2.1)
      · obtain ⟨a, b⟩ := admission_stocked (s := s.supersede (burstOrder p slot late)) (by simpa using ht) hs'
          ((supersede_shape s _).1.trans hm) hst (by rw [supersede_ceiling]; exact hS) (o := burstOrder p slot late)
          (clampRequest_range _) (by show (p.word 1).toNat / 2048 < 32; have := (p.word 1).isLt; omega)
          (Nat.mod_lt _ (by decide)) (burstLength_ok hstart)
        refine ⟨stocked_congr a rfl rfl rfl, fun e he hser => ?_⟩
        rw [hsup.2.1, supersede_ceiling] at b
        exact b e he hser
  unfold State.takeBurst
  split
  · exact carries_old h hs (le_refl _)
  · dsimp only
    split
    · rename_i e; exact book _ _ (timing_start (Or.inl e))
    · rename_i e; exact book _ _ (timing_start (Or.inr e))
    · exact refuse _

theorem takeRevise_carries {s : State} (ht : s.tables.sound) (hs : s.sched.sound) (hm : s.supply.map.length = 160) (h : s.stocked)
    (hS : s.supply.ceiling ≤ 8191) (p : Packet) (straps : BitVec 2) : s.carries (s.takeRevise p straps).1 := by
  have same : s.carries s := carries_old h hs (le_refl _)
  unfold State.takeRevise
  dsimp only
  split
  · exact same
  · split
    · exact same
    · rename_i e he
      have hmem := find_mem he
      have hp := ((stocked_iff s).1 h).1 e hmem
      split
      · exact admission_stocked (s := s.freeEntry e) ht (freeEntry_sound hs e) ((addRows_length _ _ _ _).trans hm)
          (stocked_freed ht hs hm h hmem) hS (o := e.revised _) (clampRequest_range _) hp.2.2.1 hp.2.2.2.1 (hs.2.2 e hmem).1
      · unfold State.lowerCommitted
        split
        · rename_i hlt
          exact carries_old (stocked_lowered ht hs hm h hmem (clampRequest_range _) (le_of_lt hlt) .request hp.2.2.2.2.1)
            (Schedule.sound_update hs hmem (lowered_stands e _ _ _ _)) (le_refl _)
        · exact same

theorem takeWithdraw_stocked {s : State} (ht : s.tables.sound) (hs : s.sched.sound) (hm : s.supply.map.length = 160) (h : s.stocked)
    (p : Packet) : (s.takeWithdraw p).stocked := by
  unfold State.takeWithdraw
  split
  · rename_i e he
    split
    · exact stocked_freed ht hs hm h (find_mem he)
    · exact h
  · exact h

/-- R58 to R60: a target is a power code. -/
theorem targetCode_range {s : State} (ht : s.tables.sound) (k : RequestKind) {e : Entry} (hp : s.prices e) :
    codeRange (s.targetCode k e) := by
  have hg := bankFor_governs ht e.slot
  obtain ⟨_, _, _, _, _, p5, _, p7, _, _⟩ := hp
  have hfl := hg.floor e.path e.band
  have hsc : codeRange (s.bankFor e.slot).limits.safeCeiling := Or.inr hg.safeCeiling
  unfold State.targetCode
  dsimp only
  cases k with
  | trip _ =>
    dsimp only
    by_cases hr : e.requested = muteCode
    · left
      have h1 := firstGrant_le (s.ceilingTerms (s.bankFor e.slot) ((s.bankFor e.slot).resolveBand e.path e.band) e.path e.modClass e.cls false)
        e.requested
      have h2 : min e.requested ((s.bankFor e.slot).resolveBand e.path e.band).floor ≤
        (s.ceilingTerms (s.bankFor e.slot) ((s.bankFor e.slot).resolveBand e.path e.band) e.path e.modClass e.cls false).firstGrant e.requested :=
        le_max_right _ _
      unfold muteCode minCode maxCode at *
      omega
    · have := firstGrant_range (t := s.ceilingTerms (s.bankFor e.slot) ((s.bankFor e.slot).resolveBand e.path e.band) e.path e.modClass e.cls false)
        hfl.1 p5 hr
      exact codeRange_le p5 this.2.2 (le_trans this.1 this.2.1)
  | bar _ => exact Or.inr hfl
  | safe =>
    dsimp only
    split
    · exact codeRange_max hsc (codeRange_max (Or.inr (hg.assured e.path e.band)) p7)
    · exact codeRange_max hsc p7

theorem makeRequested_stocked {s : State} (ht : s.tables.sound) (hs : s.sched.sound) (hm : s.supply.map.length = 160) (h : s.stocked)
    (k : Nat) : (s.makeRequested k).stocked := by
  have hdrop : ∀ rs, ({ s with supply := { s.supply with requests := rs } } : State).stocked := fun rs => stocked_congr h rfl rfl rfl
  unfold State.makeRequested
  split
  · exact h
  · rename_i r _
    split
    · exact h
    · dsimp only
      split
      · exact hdrop _
      · rename_i e he
        have hmem := (bySerial_mem he).1
        split
        · rename_i hc
          refine stocked_amended (s := { s with supply := { s.supply with requests := dropFirstItem s.supply.requests k } })
            ht hs hm (hdrop _) hmem ?_ (le_of_lt hc.2)
          exact targetCode_range (s := { s with supply := { s.supply with requests := dropFirstItem s.supply.requests k } })
            ht r.kind (((stocked_iff _).1 (hdrop _)).1 e hmem)
        · exact hdrop _

/-! ### The clock -/

/-- Entries changed in their states alone: those that commit (R31). -/
theorem stocked_commit {s : State} (h : s.stocked) (lead g : Nat) : ({ s with sched := s.sched.commitUpTo lead g } : State).stocked := by
  rw [stocked_iff] at h ⊢
  refine ⟨fun e he => ?_, fun r hr => ?_⟩
  · obtain ⟨y, hy, rfl⟩ := List.mem_map.1 he
    have := h.1 y hy
    split <;> exact this
  · have : loadAt (s.sched.commitUpTo lead g).entries r = loadAt s.sched.entries r :=
      loadAt_map_same _ fun e _ => by split <;> rfl
    show loadAt (s.sched.commitUpTo lead g).entries r ≤ _ ∧ _
    rw [this]
    exact h.2 r hr

/-- Entries that leave the list: the rows carry those that stay (R32, R48). -/
theorem stocked_closed {s : State} (ht : s.tables.sound) (h : s.stocked) (gone : Entry → Bool) :
    ({ s with sched := s.sched.remove gone } : State).stocked := by
  rw [stocked_iff] at h ⊢
  refine ⟨fun e he => h.1 e (List.mem_filter.1 he).1, fun g hg => ?_⟩
  have h2 : loadAt (s.sched.remove gone).entries g ≤ loadAt s.sched.entries g :=
    loadAt_filter_le (fun e he => prices_reserved ht (h.1 e he)) _ g
  have := h.2 g hg
  exact ⟨le_trans h2 this.1, this.2⟩

theorem grainWork_supply (s : State) (g : Nat) : (s.grainWork g).supply = s.supply := by
  unfold State.grainWork
  simp only [pollTick_frame, boostTick_frame, closeEntries_frame]
  simp

theorem grainStep_stocked {s : State} (ht : s.tables.sound) (h : s.stocked) : s.grainStep.stocked := by
  by_cases hg : s.timer.grain < 79
  · have hw : (s.grainWork (s.timer.grain + 1)).stocked :=
      stocked_congr (stocked_closed (s := { s with sched := s.sched.commitUpTo s.limits.commitLead (s.timer.grain + 1) }) ht
        (stocked_commit h _ _) _) (by simp) (grainWork_sched s _) (congrArg Headroom.map (grainWork_supply s _))
    rw [grainStep_cases hg]
    split
    · refine stocked_congr hw (by simp) (by simp) ?_
      unfold State.windowEnd
      rw [safeRequest_supply]
    · exact hw
  · unfold State.grainStep; rw [if_neg hg]; exact h

/-- R130, Law 8: the bank in force for the next frame is in force for it when it begins. -/
theorem turned_inForce {t : Tables} (h : t.sound) : t.turned.inForce .current = t.inForce .next := by
  have hb : t.turned.bank = t.bank := by
    funext b
    unfold Tables.turned
    split
    · split <;> cases b <;> rfl
    · rfl
  unfold Tables.inForce
  dsimp only
  rw [hb]
  cases hp : t.pending with
  | none => unfold Tables.turned; rw [hp]
  | some x =>
    obtain ⟨b, n⟩ := x
    rcases (h.2.2.2.2.1 b n hp).2.2.1 with rfl | rfl
    · unfold Tables.turned; rw [hp]; rfl
    · unfold Tables.turned; rw [hp]; rfl

theorem frameTurn_stocked {s : State} (ht : s.tables.sound) (hs : s.sched.sound) (hm : s.supply.map.length = 160) (h : s.stocked)
    (turn : Turn) (o : TurnOrder) : (s.frameTurn turn o).stocked := by
  have hb : (s.frameTurn turn o).bankFor .current = s.bankFor .next := by
    show ((s.frameTurn turn o).tables.inForce .current).getD Bank.zero = _
    rw [frameTurn_tables, turned_inForce ht]; rfl
  rw [stocked_iff] at h
  have hnext : ∀ x ∈ (s.sched.remove fun e => e.slot == .current).entries, x ∈ s.sched.entries ∧ x.slot = .next := by
    intro x hx
    obtain ⟨h1, h2⟩ := List.mem_filter.1 hx
    refine ⟨h1, ?_⟩
    cases hsl : x.slot <;> simp_all
  have key : ({ s with
      sched := (s.sched.remove fun e => e.slot == .current).relabel
      tables := s.tables.turned
      supply := { s.supply with map := shiftRows s.supply.map } } : State).stocked := by
    rw [stocked_iff]
    refine ⟨fun e he => ?_, fun g hg => ?_⟩
    · obtain ⟨x, hx, rfl⟩ := List.mem_map.1 he
      obtain ⟨h1, h2⟩ := hnext x hx
      have hp := h.1 x h1
      unfold State.prices State.currentOf at hp ⊢
      have hbank : (({ s with
          sched := (s.sched.remove fun e => e.slot == .current).relabel
          tables := s.tables.turned
          supply := { s.supply with map := shiftRows s.supply.map } } : State).bankFor .current) = s.bankFor x.slot := by
        rw [h2]
        show (s.tables.turned.inForce .current).getD Bank.zero = _
        rw [turned_inForce ht]; rfl
      dsimp only
      rw [hbank]
      exact hp
    · show loadAt ((s.sched.remove fun e => e.slot == .current).entries.map fun e => { e with slot := .current }) g ≤
        rowOf (shiftRows s.supply.map) g ∧ rowOf (shiftRows s.supply.map) g ≤ 8191
      rw [loadAt_map_same (g' := 80 + g) _ fun e he => ?_, rowOf_shiftRows hm]
      · have hle := loadAt_filter_le (fun e he => prices_reserved ht (h.1 e he)) (fun e => !(e.slot == .current)) (80 + g)
        change loadAt (s.sched.remove fun e => e.slot == .current).entries (80 + g) ≤ _ at hle
        split
        · have := h.2 (80 + g) (by omega)
          omega
        · rename_i hlt
          have hzero : loadAt (s.sched.remove fun e => e.slot == .current).entries (80 + g) = 0 := by
            have hf : (s.sched.remove fun e => e.slot == .current).entries.filter
                (fun e => e.row ≤ 80 + g && 80 + g < e.row + e.length) = [] := by
              rw [List.filter_eq_nil_iff]
              intro e he hcov
              have := row_lt (hs.2.2 e (hnext e he).1).1 (g := 80 + g) (by simp at hcov; omega)
              omega
            unfold loadAt; rw [hf]; rfl
          omega
      · have hn := (hnext e he).2
        unfold Entry.share Entry.row
        rw [hn]
        show (if 0 + e.start ≤ g ∧ g < 0 + e.start + e.length then _ else _) = if 80 + e.start ≤ 80 + g ∧ 80 + g < 80 + e.start + e.length then _ else _
        exact if_congr (by omega) rfl rfl
  exact stocked_congr (stocked_commit key s.bankBegun.limits.commitLead 0) (frameTurn_tables s turn o) (frameTurn_sched s turn o)
    (frameTurn_supplyFields s turn o).2.2.2

/-- A change of the tables that changes no bank in force leaves the prices. -/
theorem stocked_force {s t : State} (h : s.stocked) (hf : ∀ slot, t.tables.inForce slot = s.tables.inForce slot)
    (h2 : t.sched = s.sched) (h3 : t.supply.map = s.supply.map) : t.stocked := by
  rw [stocked_iff] at h ⊢
  rw [h2, h3]
  refine ⟨fun e he => ?_, h.2⟩
  have hb : t.bankFor e.slot = s.bankFor e.slot := by unfold State.bankFor; rw [hf]
  have := h.1 e he
  unfold State.prices State.currentOf at this ⊢
  rw [hb]; exact this

end Sys2Proof.Machine
end

