-- ==== Sys2Proof/Laws/Users.lean ====
section
/-! SUPPORT. What each user of the Originated Queue does at a turn: the Boost Controller, the Sense Tracker's zones. -/

namespace Sys2Proof.Machine

/-- A bank is in force for the frame begun. -/
theorem turned_isSome (s : State) : s.tables.turned.active.isSome = true ↔
    (s.tables.active ≠ none ∨ s.tables.firstSwitch = true) := by
  unfold Tables.turned Tables.firstSwitch Tables.switches
  split
  · rename_i h; split
    · simp_all; tauto
    · rename_i hn
      cases ha : s.tables.active <;> simp_all
  · rename_i h
    cases ha : s.tables.active <;> simp_all

/-- Charges touch no account. -/
theorem charge_account (c : Schedule) (f : Entry → Bool) (h : Heat) : (c.charge f h).account = h.account := by
  unfold Schedule.charge
  generalize c.entries.filter f = es
  induction es generalizing h with
  | nil => rfl
  | cons e es ih => rw [List.foldl_cons, ih]; rfl

/-- What the Originated Queue is when its users are asked. -/
theorem turnWork_queue (s : State) (turn : Turn) (o : TurnOrder) : (s.turnWork turn o).link = s.link ∧
    (s.turnWork turn o).supply.claimed = s.supply.claimed := by
  refine ⟨by simp [State.turnWork, State.dispatchTurn], ?_⟩
  rw [turnWork_supply]; simp [Headroom.claimed]

/-- A zone that is not UNSET's at a turn: its poll's timer falls, it ages, it may become STALE, and its poll may fall due (R80 to R83). -/
theorem Sense.tick_turn (x : Sense) (st : Nat) (first : Bool) :
    let goes := x.fresh == .fresh && decide (st < min 255 (x.age + 1))
    let waiting := match x.poll with
      | some n => decide (2 ≤ n)
      | none => false
    let standing := if goes then Freshness.stale
      else if x.fresh = .stale ∧ x.poll.isSome ∧ waiting = false then .blind else x.fresh
    let spacing := min 255 (x.spacing + 1)
    let due := x.pollDue || goes || (!waiting && (match standing with
      | .fresh => false
      | .stale => true
      | .blind => decide (st ≤ spacing)
      | .seeding => first || decide (st ≤ spacing)))
    x.tick.turn st first = { fresh := standing, sensed := x.sensed, age := min 255 (x.age + 1), poll := if waiting then x.poll.map (· - 1) else none, pollDue := due, spacing := spacing } := by
  rcases x with ⟨fr, sn, ag, po, pd, sp⟩
  dsimp only
  cases po with
  | none =>
    by_cases h : st < min 255 (ag + 1) <;> cases fr <;> simp [Sense.tick, Sense.expires, Sense.turn, Sense.aged, Sense.staled, Sense.pollFalls, h, (by decide : (Freshness.seeding == Freshness.fresh) = false), (by decide : (Freshness.blind == Freshness.fresh) = false), (by decide : (Freshness.stale == Freshness.fresh) = false)]
  | some n =>
    by_cases hn : 2 ≤ n
    · have hn' : ¬ n ≤ 1 := by omega
      by_cases h : st < min 255 (ag + 1) <;> cases fr <;> simp [Sense.tick, Sense.expires, Sense.turn, Sense.aged, Sense.staled, Sense.pollFalls, h, hn, hn', (by decide : (Freshness.seeding == Freshness.fresh) = false), (by decide : (Freshness.blind == Freshness.fresh) = false), (by decide : (Freshness.stale == Freshness.fresh) = false)]
    · have hn' : n ≤ 1 := by omega
      by_cases h : st < min 255 (ag + 1) <;> cases fr <;> simp [Sense.tick, Sense.expires, Sense.turn, Sense.aged, Sense.staled, Sense.pollFalls, h, hn, hn', (by decide : (Freshness.seeding == Freshness.fresh) = false), (by decide : (Freshness.blind == Freshness.fresh) = false), (by decide : (Freshness.stale == Freshness.fresh) = false)]

/-- Everything the Boost Controller does at a turn, by the free slots it finds (R67, R68). -/
theorem boostTurn_spec (u : State) :
       let b := u.boost
       let free := u.freeSlots
       let l := u.limits
       let quiet := if b.boosted then 0 else min l.boostRelease (b.quiet + 1)
       let quietDue := b.state == .ready && !b.boosted && decide (l.boostRelease ≤ quiet)
       let releases := (quietDue || b.releaseDue) && decide (1 ≤ free)
       let expires := match b.wait with
         | some n => decide (n ≤ 1)
         | none => false
       let state := match b.state with
         | .ready => if quietDue && releases then .off else .ready
         | .failed => if b.cooldown ≤ 1 then .off else .failed
         | .off => .off
         | .requested => if expires then .failed else .requested
       let requests := b.requestDue && state == .off && (!b.releaseDue || releases) &&
         decide ((if releases then 2 else 1) ≤ free)
       let t := u.boostTurn
       t.boost.state = (if requests then .requested else state) ∧
       t.boost.wait = (if requests then some l.boostWait
         else if b.state = .requested then (if expires then none else b.wait.map (· - 1)) else b.wait) ∧
       t.boost.quiet = (if b.state = .ready then (if quietDue && releases then 0 else quiet) else b.quiet) ∧
       t.boost.cooldown = (match b.state with
         | .failed => b.cooldown - 1
         | .requested => if expires then l.boostCooldown else b.cooldown
         | _ => b.cooldown) ∧
       t.boost.boosted = false ∧ t.boost.requestDue = (b.requestDue && !requests) ∧
       t.boost.releaseDue = (b.releaseDue && !releases) ∧
       t.link.orig = u.link.orig ++ (if releases then [⟨l.supplyTag, 8, 0, []⟩] else []) ++
         (if requests then [⟨l.supplyTag, 7, 0, []⟩] else []) := by
  have hlim : u.boostCount.limits = u.limits := by simp [State.limits, State.bankFor]
  have hlk : u.boostCount.link = u.link := by simp
  have hsu : u.boostCount.supply = u.supply := by simp
  have hf : u.boostCount.freeSlots = u.freeSlots := by simp [State.freeSlots]
  have hb : u.boostCount.boost = { u.boost with
      state := (match u.boost.state with
         | .ready => .ready
         | .failed => if u.boost.cooldown ≤ 1 then .off else .failed
         | .off => .off
         | .requested => if (match u.boost.wait with | some n => decide (n ≤ 1) | none => false) then .failed else .requested)
      wait := (if u.boost.state = .requested then (if (match u.boost.wait with | some n => decide (n ≤ 1) | none => false) then none else u.boost.wait.map (· - 1)) else u.boost.wait)
      quiet := (if u.boost.state = .ready then (if u.boost.boosted then 0 else min u.limits.boostRelease (u.boost.quiet + 1)) else u.boost.quiet)
      cooldown := (match u.boost.state with
         | .failed => u.boost.cooldown - 1
         | .requested => if (match u.boost.wait with | some n => decide (n ≤ 1) | none => false) then u.limits.boostCooldown else u.boost.cooldown
         | _ => u.boost.cooldown)
      boosted := false } := by
    unfold State.boostCount
    rcases hB : u.boost with ⟨st, wt, qu, co, bo, rq, rl⟩
    cases st <;> simp [State.boostTick, Boost.tick, Boost.expires, hB, Boost.turn, Boost.countQuiet]
    · cases wt with
      | none => simp
      | some n => by_cases hn : n ≤ 1 <;> simp [hn]
    · cases bo <;> simp
    · by_cases hn : co ≤ 1
      · simp [hn]
      · simp [hn]
  have hq : u.quietReleaseDue = (u.boost.state == .ready && !u.boost.boosted && decide (u.limits.boostRelease ≤ (if u.boost.boosted then 0 else min u.limits.boostRelease (u.boost.quiet + 1)))) := by
    unfold State.quietReleaseDue Boost.quietDue
    rw [hb]
    cases hs : u.boost.state <;> simp [(by decide : (BoostState.off == BoostState.ready) = false), (by decide : (BoostState.requested == BoostState.ready) = false), (by decide : (BoostState.failed == BoostState.ready) = false)]
  dsimp only
  generalize hQ : (u.boost.state == .ready && !u.boost.boosted && decide (u.limits.boostRelease ≤ (if u.boost.boosted then 0 else min u.limits.boostRelease (u.boost.quiet + 1)))) = q at *
  unfold State.boostTurn State.attemptDue
  rw [hq]
  have hqr : q = true → u.boost.state = .ready := by
    intro h; rw [h] at hQ; simp at hQ; exact hQ.1.1
  generalize (if u.boost.boosted then 0 else min u.limits.boostRelease (u.boost.quiet + 1)) = qt at *
  generalize (match u.boost.wait with | some n => decide (n ≤ 1) | none => false) = ex at *
  clear hQ hq
  unfold State.attemptRequest State.attemptRelease
  have hrel : u.boostCount.boost.releaseDue = u.boost.releaseDue := by rw [hb]
  have hreq : u.boostCount.boost.requestDue = u.boost.requestDue := by rw [hb]
  rw [hrel, hf]
  obtain ⟨F, hF⟩ : ∃ F, u.freeSlots = F := ⟨_, rfl⟩
  rw [hF]
  by_cases hr : ((q || u.boost.releaseDue) && decide (0 < F)) = true
  · have hr1 : ((q || u.boost.releaseDue) && decide (1 ≤ F)) = true := hr
    rw [if_pos hr, hr1]
    have hfs : ({ u.boostCount with boost := u.boostCount.boost.released q, link := u.boostCount.link.place (Draft.boostRelease u.boostCount.limits.supplyTag) } : State).freeSlots = F - 1 := by
      simp only [State.freeSlots, Link.place, hlk, hsu, List.length_append, List.length_cons, List.length_nil]
      rw [← hF]; simp only [State.freeSlots]; omega
    rw [hfs]
    have hgt : (decide (0 < F - 1)) = decide (2 ≤ F) := by
      by_cases h : 2 ≤ F
      · rw [decide_eq_true h, decide_eq_true (by omega)]
      · rw [decide_eq_false h, decide_eq_false (by omega)]
    have hl2 : ({ u.boostCount with boost := u.boostCount.boost.released q, link := u.boostCount.link.place (Draft.boostRelease u.boostCount.limits.supplyTag) } : State).limits = u.limits := by
      simp [State.limits, State.bankFor]
    simp only [Boost.released, hreq, hgt, hlim, hlk]
    rw [hb]
    rcases hB : u.boost with ⟨st, wt, qu, co, bo, rq, rl⟩
    rw [hB] at hqr
    have hl3 : ∀ (bb : Boost) (ll : Link), ({ u.boostCount with boost := bb, link := ll } : State).limits = u.limits := by
      intro bb ll; simp [State.limits, State.bankFor]
    cases st <;> cases q <;> simp at hqr ⊢ <;> (repeat' split) <;> simp_all [State.limits, State.bankFor,
        (by decide : (BoostState.failed == BoostState.off) = false), (by decide : (BoostState.requested == BoostState.off) = false),
        Boost.requested, Draft.boostRelease, Draft.boostRequest, Link.place, Kind.boostRelease, Kind.boostRequest]
  · have hr1 : ((q || u.boost.releaseDue) && decide (1 ≤ F)) = false := by simpa using hr
    rw [if_neg hr, hr1, hf, hF]
    rw [hb]
    have hl3 : ∀ (bb : Boost) (ll : Link), ({ u.boostCount with boost := bb, link := ll } : State).limits = u.limits := by
      intro bb ll; simp [State.limits, State.bankFor]
    rcases hB : u.boost with ⟨st, wt, qu, co, bo, rq, rl⟩
    rw [hB] at hqr
    have hF1 : (decide (0 < F)) = decide (1 ≤ F) := rfl
    cases st <;> cases q <;> simp at hqr hr1 ⊢ <;> (repeat' split) <;> simp_all [State.limits, State.bankFor,
        (by decide : (BoostState.failed == BoostState.off) = false), (by decide : (BoostState.requested == BoostState.off) = false),
        Boost.requested, Draft.boostRequest, Link.place, Kind.boostRequest] <;> (cases rl <;> simp_all)

/-- The Boost Controller puts no POLL packet at the queue's tail. -/
theorem boostTurn_adds (s : State) : ∃ bs, s.boostTurn.link.orig = s.link.orig ++ bs ∧ ∀ d ∈ bs, d.kind ≠ Kind.poll := by
  obtain ⟨_, _, _, _, _, _, _, h⟩ := boostTurn_spec s
  rw [List.append_assoc] at h
  refine ⟨_, h, fun d hd => ?_⟩
  have one : ∀ (c : Bool) (x : Draft), x.kind ≠ Kind.poll → d ∈ (if c then [x] else []) → d.kind ≠ Kind.poll := by
    intro c x hx h
    cases c
    · cases h
    · rwa [List.mem_singleton.1 h]
  rcases List.mem_append.1 hd with hd | hd
  · exact one _ _ (by decide : (8 : Nat) ≠ 6) hd
  · exact one _ _ (by decide : (7 : Nat) ≠ 6) hd

/-- The state in which a turn's SAFE request is answered, and which packets joined the Originated Queue before and after it. -/
theorem askQueue_request (s : State) (q : QueueOrder) (b : Bool) :
    ∃ (u : State) (ahead after : List Draft), u.sched = s.sched ∧ u.timer = s.timer ∧ u.tables = s.tables ∧
      u.supply = s.supply ∧ u.link.orig = s.link.orig ++ ahead ∧ (s.askQueue q b).link.orig = s.link.orig ++ ahead ++ after ∧
      (s.askQueue q b).supply = (u.safeRequest b).supply ∧
      (∀ d ∈ ahead, (d.kind = Kind.poll → pollsBeforeSafe q) ∧ (d.kind ≠ Kind.poll → ¬ safeAhead q)) ∧
      ∀ d ∈ after, (d.kind = Kind.poll → ¬ pollsBeforeSafe q) ∧ (d.kind ≠ Kind.poll → safeAhead q) := by
  have safe : ∀ s : State, (s.safeRequest b).link = s.link := fun s => (safeRequest_frame s b).2.1
  unfold State.askQueue pollsBeforeSafe safeAhead
  cases q
  · obtain ⟨ps, h, hk⟩ := queuePolls_polls s
    obtain ⟨bs, g, gk⟩ := boostTurn_adds s.queuePolls
    refine ⟨s.queuePolls.boostTurn, ps ++ bs, [], by simp, by simp, by simp, by simp, by rw [g, h, List.append_assoc], ?_, rfl, ?_, by simp⟩
    · rw [safe, g, h]; simp
    · intro d hd; rcases List.mem_append.1 hd with hd | hd
      · simp [hk d hd]
      · simp [gk d hd]
  · obtain ⟨ps, h, hk⟩ := queuePolls_polls s
    obtain ⟨bs, g, gk⟩ := boostTurn_adds (s.queuePolls.safeRequest b)
    refine ⟨s.queuePolls, ps, bs, by simp, by simp, by simp, by simp, h, by rw [g, safe, h], by simp only [boostTurn_frame], fun d hd => by simp [hk d hd],
      fun d hd => by simp [gk d hd]⟩
  · obtain ⟨bs, g, gk⟩ := boostTurn_adds s
    obtain ⟨ps, h, hk⟩ := queuePolls_polls s.boostTurn
    refine ⟨s.boostTurn.queuePolls, bs ++ ps, [], by simp, by simp, by simp, by simp, by rw [h, g, List.append_assoc], ?_, rfl, ?_, by simp⟩
    · rw [safe, h, g]; simp
    · intro d hd; rcases List.mem_append.1 hd with hd | hd
      · simp [gk d hd]
      · simp [hk d hd]
  · obtain ⟨bs, g, gk⟩ := boostTurn_adds s
    obtain ⟨ps, h, hk⟩ := queuePolls_polls (s.boostTurn.safeRequest b)
    refine ⟨s.boostTurn, bs, ps, by simp, by simp, by simp, by simp, g, by rw [h, safe, g], by simp only [queuePolls_frame], fun d hd => by simp [gk d hd],
      fun d hd => by simp [hk d hd]⟩
  · obtain ⟨ps, h, hk⟩ := queuePolls_polls (s.safeRequest b)
    obtain ⟨bs, g, gk⟩ := boostTurn_adds (s.safeRequest b).queuePolls
    refine ⟨s, [], ps ++ bs, rfl, rfl, rfl, rfl, by simp, by rw [g, h, safe]; simp, by simp only [queuePolls_frame, boostTurn_frame], by simp, fun d hd => ?_⟩
    rcases List.mem_append.1 hd with hd | hd
    · simp [hk d hd]
    · simp [gk d hd]
  · obtain ⟨bs, g, gk⟩ := boostTurn_adds (s.safeRequest b)
    obtain ⟨ps, h, hk⟩ := queuePolls_polls (s.safeRequest b).boostTurn
    refine ⟨s, [], bs ++ ps, rfl, rfl, rfl, rfl, by simp, by rw [h, g, safe]; simp, by simp only [queuePolls_frame, boostTurn_frame], by simp, fun d hd => ?_⟩
    rcases List.mem_append.1 hd with hd | hd
    · simp [gk d hd]
    · simp [hk d hd]

end Sys2Proof.Machine
end

