-- ==== Sys2Proof/WellFormed.lean ====
section
/-! DEFINITION. Which terms stand for an event the row's name describes: the packet of an arrival is of the row's kind, a
step of the clock is one in which the named thing can come about, a copy's progress lies in its range. A term that fails
a check is still executed, as log 3 and log 23 say. -/

namespace Sys2Proof

open Machine

/-- The clock indication is a mark only with a packet that is one (R113). -/
def Clock.wellFormed : Clock → Bool
  | .grain => true
  | .timer _ => true
  | .mark p _ => classify .modem p == .mark

/-- The clock indication can turn the frame. -/
def Clock.canTurn : Clock → Bool
  | .grain => false
  | .timer _ => true
  | .mark _ _ => true

/-- A packet the arrival row's name describes, by its handling. -/
def handledAs (port : Port) (p : Packet) (hs : List Handling) : Bool := hs.contains (classify port p)

/-- The checks of a command. -/
def Instr.wellFormed : Instr → Bool
  | .bankSwitch k => k.wellFormed && k.canTurn
  | .supplyStale k => k.wellFormed && k.canTurn
  | .tripClear _ k => k.wellFormed && k.canTurn
  | .barExpiry _ k => k.wellFormed && k.canTurn
  | .zoneStale _ k => k.wellFormed && k.canTurn
  | .pollExpiry _ k => k.wellFormed
  | .boostQuietRelease k => k.wellFormed && k.canTurn
  | .boostCooldownEnd k => k.wellFormed && k.canTurn
  | .boostWaitExpiry k => k.wellFormed
  | .frameMark p _ => handledAs .modem p [.mark]
  | .tempReport p => handledAs .frontEnd p [.tempConsumed, .tempPassed]
  | .supplyReport p => handledAs .frontEnd p [.supplyPassed]
  | .tripReport p => handledAs .frontEnd p [.tripPassed]
  | .boostReady p => handledAs .frontEnd p [.readyConsumed]
  | .passPacketArrival port p => handledAs port p [.pass, .order]
  | .malformedPacket port p => handledAs port p [.malformedDrop, .malformedPass]
  | .misdirectedPacket port p => handledAs port p [.misdirected]
  | .govCommandArrival p => handledAs .modem p [.command]
  | .readTable copied => copied ≤ 4096
  | .softReset copied => copied ≤ 4096
  | _ => true

end Sys2Proof
end

