-- ==== Sys2Proof/Tests/Slice0.lean ====
section
/-! SUPPORT. The model's own tests: the well-formedness checks, the spec's worked values, and for every statement with premises
a state and operands that meet them, clause by clause, at the ends of their ranges. -/

namespace Sys2Proof.Tests

open Machine

set_option Elab.async false

/-! ### The states and packets of the tests -/

/-- The state a command leaves. -/
def ran (i : Instr) (s : State) : State :=
  match exec i s with
  | .next t => t
  | _ => State.reset

/-- The state a step leaves. -/
def stepped (s : State) : State :=
  match step s with
  | .next t => t
  | _ => State.reset

/-- A packet with its check word. -/
def pk (unit kind aux : Nat) (payload : List Word) : Packet := Draft.seal ⟨unit, kind, aux, payload⟩

/-- The same packet with a check word that is off by one. -/
def spoilt (p : Packet) : Packet := { p with check := p.check + 1 }

/-- A DATA packet. -/
def data : Packet := pk 1 0 0 [7]

/-- A FRAME-MARK packet. -/
def markOf (m : Nat) : Packet := pk 1 1 0 [natWord m]

/-- A BURST with modulation class 2 and band 3. -/
def burstOf (tag path cls frame start length : Nat) (power : Int) : Packet :=
  pk 1 2 0 [natWord (tag * 256 + path * 64 + cls * 16), natWord (3 * 2048 + 2 * 256 + frame), natWord (start * 256 + length),
    codeWord power]

/-- A REVISE, AMEND or WITHDRAW, by kind. -/
def changeOf (kind tag path : Nat) (words : List Word) : Packet := pk 1 kind 0 (natWord (tag * 256 + path * 64) :: words)

/-- A GOV-COMMAND with tag 3. -/
def cmd (code parameter : Nat) (words : List Word) : Packet := pk 15 9 3 (natWord (code * 256 + parameter) :: words)

def cellsDirectory : List (Nat × Word) :=
  [(0, 1), (1, 48), (2, 1), (3, 2), (4, 69), (5, 4), (6, 3), (7, 141), (8, 16), (9, 4), (10, 215), (11, 4), (12, 5),
    (13, 183), (14, 2), (15, 6), (16, 157), (17, 8), (18, 7), (19, 165), (20, 1)]

def cellsLimits : List (Nat × Word) :=
  [(48, 144), (49, 120), (50, 184), (51, 40), (52, 3), (53, 5), (54, 4), (55, 6), (56, 96), (57, 8), (58, 50), (59, 2),
    (60, 3), (61, 4), (62, 16), (63, 9), (64, 10), (65, 3), (66, 3), (67, 3), (68, 3)]

/-- A ZONES record: the thresholds and steps of 05's worked controller sequence. -/
def cellsZone (a : Nat) (scale leak : Word) : List (Nat × Word) :=
  [(a, 100), (a + 1, scale), (a + 2, leak), (a + 3, 8), (a + 4, 200), (a + 5, 180), (a + 6, 196), (a + 7, 212), (a + 8, 220),
    (a + 9, 240), (a + 10, 280), (a + 11, 4), (a + 12, 8), (a + 13, 2), (a + 14, 64), (a + 15, 10), (a + 16, 20), (a + 17, 20)]

def cellsSmall : List (Nat × Word) :=
  [(145, 6272), (147, 7744), (159, 8), (165, 3300), (167, 3450), (168, 600), (169, 3550), (170, 1200), (171, 3650),
    (172, 1900), (173, 3700), (174, 2400), (175, 3800), (176, 2800), (177, 3900), (178, 2950), (179, 4200), (180, 3400),
    (181, 20), (182, 1500)]

def cellsCurves : List (Nat × Word) :=
  [(183, 96), (184, 180), (185, 128), (186, 260), (187, 144), (188, 330), (189, 160), (190, 420), (191, 176), (192, 520),
    (193, 192), (194, 660), (195, 208), (196, 860), (197, 240), (198, 1400), (199, 96), (200, 400), (201, 128), (202, 700),
    (203, 144), (204, 900), (205, 160), (206, 1000), (207, 176), (208, 1400), (209, 192), (210, 1900), (211, 208),
    (212, 2400), (213, 240), (214, 3000)]

def cellsBands : List (Nat × Word) :=
  [(215, 3), (216, 216), (217, 80), (218, 120), (219, 64), (220, 35), (221, 216), (222, 80), (223, 120), (224, 64),
    (225, 67), (226, 216), (227, 80), (228, 120), (229, 64), (230, 99), (231, 216), (232, 80), (233, 120), (234, 64)]

/-- The reference tables of chapters 1, 3, 4, 5 and 10. -/
def ref : Bank :=
  ⟨cellsDirectory ++ cellsLimits ++ (cellsZone 69 8000 64 ++ cellsZone 87 6000 32 ++ cellsZone 105 6000 32 ++
    cellsZone 123 6000 32) ++ cellsSmall ++ cellsCurves ++ cellsBands⟩

/-- The part in GOVERNING, bank 0 active, grain 5 of frame 40, with a supply report of 3750 mV. -/
def gov : State :=
  { State.reset with
    timer := ⟨40, 5, .synced, 0, 5, .governing⟩
    tables := ⟨ref, ⟨[]⟩, true, false, some .bank0, none, .switched, none⟩
    supply := ⟨3750, true, 0, 2600, List.replicate 160 0, []⟩
    boost := ⟨.ready, none, 2, 0, false, false, false⟩
    sense := Four.fill ⟨.fresh, 150, 0, none, false, 0⟩
    heat := ⟨Four.fill 0, ⟨1000000, 400000, 600000, 400000⟩, Four.fill true, Four.fill 150⟩ }

/-- The same at another grain. -/
def govAt (grain : Nat) : State := { gov with timer := { gov.timer with grain := grain } }

/-- A state whose next order to be taken is a packet. -/
def meets (s : State) (p : Packet) : State := { s with link := { s.link with down := [⟨p, false⟩] } }

/-- A state with a command in execution. -/
def executes (s : State) (p : Packet) : State := { s with engine := ⟨[], some p, []⟩ }

/-- RESET_N low. -/
def low : State := { State.reset with pins := { State.reset.pins with resetN := false } }

/-! ### Well-formedness -/

theorem test_wf_no_turn_at_a_grain_event :
    ([.bankSwitch .grain, .supplyStale .grain, .tripClear 0 .grain, .barExpiry 0 .grain, .zoneStale 0 .grain,
      .boostQuietRelease .grain, .boostCooldownEnd .grain] : List Instr).all (fun i => !i.wellFormed) = true := by decide

theorem test_wf_a_mark_needs_a_mark_packet :
    let k := Clock.mark data .plain
    ([.bankSwitch k, .supplyStale k, .tripClear 0 k, .barExpiry 0 k, .zoneStale 0 k, .pollExpiry 0 k, .boostQuietRelease k,
      .boostCooldownEnd k, .boostWaitExpiry k, .frameMark data .plain] : List Instr).all (fun i => !i.wellFormed) = true := by
  decide +kernel

theorem test_wf_an_arrival_needs_its_packet :
    ([.tempReport data, .supplyReport data, .tripReport data, .boostReady data, .passPacketArrival .modem (markOf 1),
      .malformedPacket .modem data, .misdirectedPacket .frontEnd data, .govCommandArrival data] : List Instr).all
        (fun i => !i.wellFormed) = true := by decide +kernel

theorem test_wf_a_copy_has_4096_words :
    ([.readTable 4097, .softReset 4097] : List Instr).all (fun i => !i.wellFormed) = true ∧
      ([.readTable 4096, .softReset 4096] : List Instr).all Instr.wellFormed = true := by decide

theorem test_wf_terms_that_pass :
    ([.bankSwitch (.mark (markOf 41) .plain), .pollExpiry 0 .grain, .boostWaitExpiry .grain, .frameMark (markOf 41) .plain,
      .tempReport (pk 15 10 0 [0, 150]), .supplyReport (pk 0 11 0 [3750]), .tripReport (pk 0 12 0 [1]),
      .boostReady (pk 15 13 0 []), .passPacketArrival .modem data, .malformedPacket .modem (spoilt data),
      .misdirectedPacket .frontEnd (pk 15 0 0 []), .govCommandArrival (cmd 1 0 []), .grainEvent] : List Instr).all
        Instr.wellFormed = true := by decide +kernel

/-! ### Curves, ceilings, bands, banks -/

/-- Curve K (01, section 1.2). -/
def curveK : List (Int × Int) :=
  [(96, 180), (128, 260), (144, 330), (160, 420), (176, 520), (192, 660), (208, 860), (240, 1400)]

theorem test_the_reference_bank_passes_validation : ref.validate = none := by decide +kernel

theorem test_curveK_is_record_0 : ref.curve 0 = curveK := by decide +kernel

theorem test_curve_values : [80, 96, 100, 130, 180, 185, 186, 192, 193, 200, 207, 208, 272, -512].map (evalCurve curveK) =
    [180, 180, 190, 269, 555, 599, 608, 660, 673, 760, 848, 860, 1400, 0] := by decide +kernel

theorem test_fits : fitInverse (evalCurve curveK) 600 96 240 = some 185 ∧ fitInverse (evalCurve curveK) 660 96 240 = some 192 ∧
    fitInverse (evalCurve curveK) 600 96 180 = some 180 ∧ fitInverse (evalCurve curveK) 599 186 240 = none ∧
    fitInverse (evalCurve curveK) 150 96 240 = none ∧ fitInverse (evalCurve curveK) 2000 96 272 = some 272 ∧
    fitInverse (evalCurve curveK) (-5) (-400) 272 = none := by decide +kernel

/-- Curve K meets the premises on curves, and its evaluation those on the curve of a fit. -/
theorem test_curve_premises :
    curveK ≠ [] ∧ curveK.Pairwise (fun a b => a.1 < b.1) ∧ curveK.Pairwise (fun a b => a.2 ≤ b.2) ∧
      curveK.head? = some (96, 180) ∧ curveK.getLast? = some (240, 1400) ∧ curveK[0]? = some (96, 180) ∧
      curveK[0 + 1]? = some (128, 260) ∧ muteCode ≠ 96 ∧ ref.supplyPoints ≠ [] ∧
      ref.supplyPoints.Pairwise (fun a b => a.1 < b.1) ∧
      (∀ x y, 96 ≤ x → x ≤ y → y ≤ 240 → evalCurve curveK x ≤ evalCurve curveK y) ∧
      ∀ x, (96 : Int) ≤ x → x ≤ 240 → 0 ≤ evalCurve curveK x := by
  refine ⟨by decide, by decide +kernel, by decide +kernel, rfl, rfl, rfl, rfl, by decide, by decide +kernel, by decide +kernel,
    fun x y hx h _ => ?_, fun x _ _ => ?_⟩
  · exact evalCurve_mono (by decide +kernel) (by decide +kernel) (by simp only [muteCode]; omega) (by simp only [muteCode]; omega) h
  · exact (evalCurve_range (lo := 0) (hi := 1400) (by decide) (by decide +kernel) (by decide +kernel) x).1

theorem test_supply_curve : [3200, 3500, 3611, 3700, 3750, 3833, 4300].map (curveDown ref.supplyPoints) =
    [0, 900, 1627, 2400, 2600, 2849, 3400] := by decide +kernel

/-- 07, worked validation: faults of one word each, by index and reason. -/
theorem test_validation_faults :
    (ref.write 60 0).validate = some (0, .badValue) ∧ (ref.write 65 4).validate = some (0, .badRef) ∧
    (ref.write 74 196).validate = some (1, .badOrder) ∧ (ref.write 18 0).validate = some (16, .missingKind) ∧
    (ref.write 21 7).validate = some (7, .duplicateKind) ∧ (ref.write 20 2).validate = some (6, .badCount) ∧
    (ref.write 10 4080).validate = some (3, .outOfBank) ∧ (ref.write 13 182).validate = some (6, .overlap) ∧
    (ref.write 185 96).validate = some (4, .notMonotone) ∧ ((ref.write 11 5).writeAll 235 [3, 0, 0, 0, 64]).validate = some (3, .duplicateBand) := by
  decide +kernel

theorem test_controller_sequence :
    let r := ref.zone 0
    let c := [225, 232, 244, 236, 218, 210].foldl (fun (c : Control) t => c.update r t) ⟨.steady, 20, 30, true⟩
    let d := [190, 195, 200, 205, 204, 203, 202, 201, 178, 176].foldl (fun (c : Control) t => c.update r t) c
    let e := [174, 197, 284].foldl (fun (c : Control) t => c.update r t) d
    c = ⟨.steady, 44, 1, false⟩ ∧ d = ⟨.ease, 42, 11, false⟩ ∧ e = ⟨.critical, 64, 0, false⟩ ∧
      (e.update r 250).update r 211 = ⟨.steady, 64, 1, false⟩ := by decide +kernel

/-- Max back-off raised from 48 to 64 under a CRITICAL zone: it leaves with the 48 it held (log 31), or is held at the 64 in use (R90). -/
theorem test_critical_after_a_raise :
    let c : Control := ⟨.critical, 48, 0, true⟩
    c.update (ref.zone 0) 211 = ⟨.steady, 48, 1, false⟩ ∧ c.update (ref.zone 0) 250 = ⟨.critical, 64, 0, false⟩ := by decide +kernel

theorem test_thermal_backoff :
    thermalBackoff ref ⟨⟨.steady, 20, 0, false⟩, ⟨.steady, 0, 0, false⟩, ⟨.steady, 9, 0, false⟩, ⟨.steady, 0, 0, false⟩⟩ 1 = 16 := by
  decide +kernel

theorem test_frame_close :
    let h : Heat := ⟨⟨0, 38000, 0, 0⟩, ⟨1000000, 400000, 600000, 400000⟩, Four.fill true, Four.fill 0⟩
    (h.close (some ref)).account.i0 = 1003375 ∧ (h.close (some ref)).account.i2 = 604813 ∧
      (ref.zone 0).model 1003375 = 225 ∧ (ref.zone 2).model 604813 = 200 := by decide +kernel

/-! ### Reset, the queue and arrivals -/

theorem test_step_front_and_idle :
    step { State.reset with pending := [.grainEvent, .commandTake] } =
        exec .grainEvent { State.reset with pending := [.commandTake] } ∧
      step State.reset = .next State.reset := ⟨rfl, rfl⟩

theorem test_reset_low_and_high : low.pins.resetN = false ∧ State.reset.pins.resetN = true ∧ ran .grainEvent low = low ∧
    (ran .resetNAssert gov).mdHoldOut = true ∧ (ran .resetNRelease low) = State.reset := by decide +kernel

/-- A state with packets in the Pass Buffers. -/
def passing (n : Nat) : State :=
  { State.reset with link := { State.reset.link with down := List.replicate n ⟨data, true⟩, up := List.replicate n data } }

theorem test_passing_packets :
    classify .modem data = .pass ∧ classify .modem (burstOf 5 1 2 40 20 20 200) = .order ∧ classify .frontEnd data = .pass ∧
      (passing 15).link.down.length < 16 ∧ (passing 15).link.up.length < 16 ∧ 16 ≤ (passing 16).link.down.length ∧
      16 ≤ (passing 16).link.up.length ∧ (ran (.passPacketArrival .modem data) (passing 11)).link.downHold = true ∧
      (ran (.passPacketArrival .frontEnd data) (passing 16)).events.flags = 0x2000 := by decide +kernel

theorem test_classification :
    classify .modem (changeOf 3 9 0 []) = .order ∧ classify .modem (pk 15 2 0 [0, 0, 0, 0]) ≠ .order ∧
      classify .modem (markOf 1) ≠ .pass ∧ classify .modem (pk 15 0 0 []) ≠ .pass ∧ classify .frontEnd (pk 14 13 0 []) = .pass ∧
      classify .frontEnd (pk 0 11 0 [3750]) ≠ .pass ∧ classify .frontEnd (pk 15 13 0 []) ≠ .pass := by decide +kernel

theorem test_mark_at_a_full_buffer : (markOf 41).wellFormed = true ∧ (markOf 41).kind = 1 ∧
    16 ≤ (passing 16).link.down.length ∧ (ran (.frameMark (markOf 41) .plain) (passing 16)).timer = State.reset.timer := by
  decide +kernel

theorem test_malformed_packets :
    let long := pk 1 0 0 (List.replicate 16 0)
    (spoilt data).wellFormed = false ∧ (spoilt data).unit ≠ 15 ∧ (spoilt data).payload.length ≤ 15 ∧
      (spoilt (pk 15 0 0 [])).wellFormed = false ∧ (spoilt (pk 15 0 0 [])).unit = 15 ∧ long.wellFormed = false ∧
      15 < long.payload.length ∧ (passing 15).link.full .modem = false ∧ (passing 16).link.full .modem = true ∧
      (passing 15).link.full .frontEnd = false ∧ (passing 16).link.full .frontEnd = true ∧
      (ran (.malformedPacket .modem (spoilt data)) (passing 15)).events.flags = 0x1000 := by decide +kernel

/-- A state with commands waiting in the Command Queue. -/
def queued (n : Nat) : State := { State.reset with engine := ⟨List.replicate n (cmd 1 0 []), none, []⟩ }

theorem test_unit_fifteen :
    (burstOf 5 1 2 40 20 20 200).unit ≠ 15 ∧ (pk 15 2 0 [0, 0, 0, 0]).wellFormed = true ∧ (pk 15 2 0 [0, 0, 0, 0]).kind ≠ 9 ∧
      (pk 15 11 0 [0]).wellFormed = true ∧ (pk 15 11 0 [0]).kind ≠ 10 ∧ (pk 15 11 0 [0]).kind ≠ 13 ∧
      (cmd 1 0 []).wellFormed = true ∧ (cmd 1 0 []).unit = 15 ∧ (cmd 1 0 []).kind = 9 ∧ (queued 7).engine.queue.length < 8 ∧
      8 ≤ (queued 8).engine.queue.length ∧ (ran (.govCommandArrival (cmd 1 0 [])) (queued 8)).events.flags = 0x4000 ∧
      (ran (.misdirectedPacket .frontEnd (pk 15 11 0 [0])) State.reset).events.flags = 0x1000 := by decide +kernel

theorem test_flag_rises :
    let e : Events := ⟨0x0002, 0xFFFD, some 0x0800⟩
    e.has .trip = true ∧ e.has .bar = false ∧ e.announces .bar = true ∧ e.announces .trip = false ∧
      e.raise .bar = ⟨0x0006, 0xFFFD, some 0x0804⟩ ∧ (Events.mk 0 0xFFFD none).raise .trip = ⟨0x0002, 0xFFFD, none⟩ ∧
      Events.initial.has .trip = false ∧ Events.initial.notice = none ∧ Events.initial.announces .trip = true ∧
      Events.initial.raise .trip = ⟨0x0002, 0xFFFF, some 0x0002⟩ := by decide +kernel

/-- A TEMP-REPORT. -/
def temp (unit zone : Nat) (t : Int) : Packet := pk unit 10 0 [natWord zone, codeWord t]

theorem test_temperature_reports :
    (temp 15 3 150).wellFormed = true ∧ (temp 15 3 150).kind = 10 ∧ (temp 15 3 150).unit = 15 ∧
      ((temp 0 3 150).word 0).toNat = 3 ∧ 4 ≤ ((temp 15 4 150).word 0).toNat ∧ 4 ≤ ((temp 0 4 150).word 0).toNat ∧
      gov.timer.mode ≠ .unset ∧ State.reset.timer.mode = .unset ∧ gov.heat.seeded.get 0 = true ∧ gov.modelTemp 0 = 225 ∧
      (ran (.tempReport (temp 15 0 233)) gov).heat.account.i0 = 1000000 ∧
      (ran (.tempReport (temp 15 0 240)) gov).heat.account.i0 = 1120000 := by decide +kernel

theorem test_seed :
    let s : State := { gov with heat := { gov.heat with seeded := Four.fill false } }
    s.heat.seeded.get 2 = false ∧ (ran (.tempReport (temp 0 2 170)) s).heat.account.i2 = 420000 ∧
      (ran (.tempReport (temp 0 2 170)) s).link.up.length = 1 ∧
      (ran (.tempReport (temp 15 0 (-300))) State.reset).sense.i0 = ⟨.fresh, -160, 0, none, false, 0⟩ := by decide +kernel

theorem test_supply_reports : (pk 0 11 0 [3750]).wellFormed = true ∧ (pk 0 11 0 [3750]).kind = 11 ∧
    (pk 0 11 0 [3750]).unit ≠ 15 ∧ (ran (.supplyReport (pk 0 11 0 [3833])) gov).supply.ceiling = 2849 ∧
    (ran (.supplyReport (pk 0 11 0 [7000])) State.reset).supply.volts = 6000 := by decide +kernel

/-- A state whose path 1 stands in a protection state. -/
def pathAt (st : Protection) (trip : Int) (bar : Nat) : State :=
  { gov with path := gov.path.set 1 ⟨st, trip, bar, none, 16⟩ }

theorem test_trip_escalation :
    let p := pk 0 12 0 [1]
    let s := pathAt .clear 0 0
    p.wellFormed = true ∧ p.kind = 12 ∧ p.unit ≠ 15 ∧ (p.word 0).toNat = (1 : Fin 4).val ∧
      4 ≤ ((pk 0 12 0 [4]).word 0).toNat ∧ ((pk 0 12 0 [3]).word 0).toNat = (3 : Fin 4).val ∧ s.timer.mode ≠ .unset ∧
      (s.path.get 1).state = .clear ∧ (pathAt .tripped 72 0).link.up.length < 16 ∧
      (ran (.tripReport p) s).path.i1 = ⟨.tripped, 96, 0, none, 16⟩ ∧
      (ran (.tripReport p) (pathAt .tripped 72 0)).path.i1 = ⟨.barred, 96, 50, none, 16⟩ ∧
      (ran (.tripReport p) (pathAt .barred 96 33)).path.i1 = ⟨.barred, 96, 50, none, 16⟩ := by decide +kernel

theorem test_trip_report_at_a_full_buffer :
    16 ≤ (passing 16).link.up.length ∧ (ran (.tripReport (pk 0 12 0 [1])) (passing 16)).events.flags = 0x2000 ∧
      (ran (.tripReport (pk 0 12 0 [1])) (passing 16)).path = (passing 16).path := by decide +kernel

/-- A bar restarted when a switch has changed the trip step takes the step now in force (R103, R182). -/
theorem test_bar_restart_after_a_switch :
    (ran (.tripReport (pk 0 12 0 [1])) (pathAt .barred 72 33)).path.i1 = ⟨.barred, 96, 50, none, 16⟩ := by decide +kernel

/-- A state with the Boost Controller in a state and packets in the Originated Queue. -/
def boostAt (st : BoostState) (wait : Option Nat) (cooldown n : Nat) : State :=
  { gov with
    boost := ⟨st, wait, 0, cooldown, false, false, false⟩
    link := { gov.link with orig := List.replicate n (Draft.poll 9 0) } }

theorem test_readiness :
    let p := pk 15 13 0 []
    p.wellFormed = true ∧ p.kind = 13 ∧ p.unit = 15 ∧ (boostAt .requested (some 7) 0 0).boost.state = .requested ∧
      gov.boost.state = .ready ∧ (boostAt .failed none 5 11).link.orig.length + gov.supply.claimed < 12 ∧
      12 ≤ (boostAt .off none 0 12).link.orig.length + gov.supply.claimed ∧
      (ran (.boostReady p) (boostAt .requested (some 7) 0 0)).boost = ⟨.ready, none, 0, 0, false, false, false⟩ ∧
      (ran (.boostReady p) (boostAt .failed none 5 11)).link.orig.length = 12 ∧
      (ran (.boostReady p) (boostAt .off none 0 12)).boost.releaseDue = true := by decide +kernel

/-- One release answers every release that is due; at a full queue the marker is set, and a set one stays. -/
theorem test_late_readiness_answers_what_is_due :
    let p := pk 15 13 0 []
    let due := fun n => { boostAt .failed none 5 n with boost := ⟨.failed, none, 0, 5, false, false, true⟩ }
    (ran (.boostReady p) (due 11)).boost.releaseDue = false ∧ (ran (.boostReady p) (due 11)).link.orig.length = 12 ∧
      (ran (.boostReady p) (due 12)).boost.releaseDue = true ∧ (ran (.boostReady p) (due 12)).link = (due 12).link := by
  decide +kernel

/-! ### The clock -/

/-- An entry of the current or the next slot with current curve K and the dissipation curve of the test bank. -/
def ent (serial tag : Nat) (path : Fin 4) (cls : Nat) (slot : Slot) (start length : Nat) (granted reserved : Int)
    (state : EntryState) : Entry :=
  ⟨serial, tag, path, 3, cls, 0, slot, start, length, granted, granted, min granted 80, reserved, 1900, state, .request, 0⟩

/-- A state with entries, the map as their reservations make it. -/
def holding (s : State) (es : List Entry) : State :=
  { s with
    sched := ⟨es, 100⟩
    supply := { s.supply with map := es.foldl (fun m e => addRows m e.row e.length e.reserved) (List.replicate 160 0) } }

/-- Grain 19, entries that commit, do not yet commit, and close at grain 20. -/
def clockState : State :=
  { holding (govAt 19) [ent 1 7 1 2 .current 0 20 192 660 .committed, ent 2 8 0 0 .current 24 10 200 760 .booked,
      ent 3 9 2 1 .current 25 10 200 760 .booked, ent 4 9 3 1 .next 2 10 200 760 .booked] with
    boost := ⟨.requested, some 2, 0, 0, false, false, false⟩
    sense := gov.sense.set 1 ⟨.stale, 150, 30, some 2, false, 0⟩ }

theorem test_grain_event :
    clockState.timer.grain < 79 ∧ (govAt 78).timer.grain < 79 ∧ clockState.windowDue = false ∧
      clockState.boost.state = .requested ∧ clockState.boost.wait = some (0 + 2) ∧
      (clockState.sense.get 1).poll = some (0 + 2) ∧ (∀ z, (clockState.control.get z).presented = false) ∧
      gov.boost.state ≠ .requested ∧ (gov.sense.get 0).poll = none ∧
      (ran .grainEvent clockState).sched.entries.map (fun e => (e.tag, e.state)) =
        [(8, .committed), (9, .booked), (9, .booked)] ∧
      (ran .grainEvent clockState).heat.acc.i1 = 38000 := by decide +kernel

theorem test_grain_79 : (govAt 79).timer.grain = 79 ∧ (govAt 78).timer.grain < 79 ∧ ran .grainEvent (govAt 79) = govAt 79 ∧
    ran (.timerFrameTurn .plain) (govAt 78) = govAt 78 := by decide +kernel

/-- AWAITING at a grain, GOVERNING, with a missed count. -/
def awaiting (grain missed : Nat) : State :=
  { gov with timer := ⟨121, grain, .awaiting, missed, 9, .governing⟩ }

theorem test_awaiting_window :
    (awaiting 1 0).timer.state = .awaiting ∧ (awaiting 1 0).timer.grain + 1 = (awaiting 1 0).tolerance ∧
      gov.limits.holdoverLimit ≤ min 255 ((awaiting 1 2).timer.missed + 1) ∧
      min 255 ((awaiting 1 1).timer.missed + 1) < gov.limits.holdoverLimit ∧
      (ran .awaitingWindowEnd (awaiting 1 2)).timer = ⟨121, 2, .holdover, 3, 0, .safe⟩ ∧
      (ran .awaitingWindowEnd (awaiting 1 1)).timer = ⟨121, 2, .holdover, 2, 0, .governing⟩ ∧
      (ran .grainEvent { State.reset with timer := { State.reset.timer with grain := 1 } }).timer =
        ⟨0, 2, .holdover, 1, 0, .unset⟩ := by decide +kernel

/-- The grain event that ends the window does the grain's other work, and SAFE entry lists what it has not committed. -/
theorem test_awaiting_window_commits_and_closes :
    let s : State := { holding (awaiting 1 2) [ent 1 7 1 2 .current 0 2 192 660 .committed,
        ent 2 8 0 0 .current 6 10 200 760 .booked, ent 3 9 2 1 .current 60 10 200 760 .booked] with
      boost := ⟨.requested, some 2, 0, 0, false, false, false⟩
      sense := gov.sense.set 1 ⟨.stale, 150, 30, some 2, false, 0⟩ }
    let t := ran .awaitingWindowEnd s
    s.timer.grain + 1 = s.tolerance ∧ s.timer.mode = .governing ∧ (∀ z, (s.control.get z).presented = false) ∧
      t.sched.entries.map (fun e => (e.tag, e.state)) = [(8, .committed), (9, .booked)] ∧ t.heat.acc.i1 = 3800 ∧
      t.supply.requests = [⟨.safe, [3]⟩] ∧ t.boost.wait = some 1 ∧ t.sense.i1.poll = some 1 ∧ t.events.flags = 0x60 := by
  decide +kernel

/-- Grain 79 of frame 122. -/
def turning (st : TimerState) (missed run : Nat) (mode : Mode) : State :=
  { gov with timer := ⟨122, 79, st, missed, run, mode⟩ }

theorem test_timer_turn :
    gov.tables.firstSwitch = false ∧ (turning .holdover 2 0 .governing).modeBegun = .governing ∧
      (turning .holdover 2 0 .governing).bankBegun.limits.holdoverLimit = 3 ∧
      (ran (.timerFrameTurn .plain) (turning .synced 0 9 .governing)).timer = ⟨123, 0, .awaiting, 0, 9, .governing⟩ ∧
      (ran (.timerFrameTurn .plain) (turning .holdover 2 0 .governing)).timer = ⟨123, 0, .holdover, 3, 0, .safe⟩ ∧
      (ran (.timerFrameTurn .plain) (turning .holdover 1 0 .governing)).timer = ⟨123, 0, .holdover, 2, 0, .governing⟩ ∧
      (ran (.timerFrameTurn .plain) (turning .holdover 3 0 .safe)).timer = ⟨123, 0, .holdover, 4, 0, .safe⟩ := by
  decide +kernel

/-- A turn that enters SAFE hands on the SAFE request, and a turn that stays in SAFE does not. -/
theorem test_turn_enters_safe :
    let es := [ent 1 7 1 2 .next 20 20 192 660 .booked, ent 2 8 0 0 .next 40 10 200 760 .booked]
    let s := holding (turning .holdover 2 0 .governing) es
    let o : TurnOrder := { TurnOrder.plain with queue := .safeBoostPoll }
    s.turnOf (.timer o) = some (.timer, o) ∧ s.modeBegun ≠ .safe ∧ (ran (.timerFrameTurn o) s).timer.mode = .safe ∧
      (ran (.timerFrameTurn o) s).supply.requests = [⟨.safe, [1, 2]⟩] ∧
      (turning .holdover 3 0 .safe).modeBegun = .safe ∧
      (ran (.timerFrameTurn o) (holding (turning .holdover 3 0 .safe) es)).supply.requests = [] := by decide +kernel

/-- The bring-up of 06, section 6.7, from its turn on the mark 37. -/
theorem test_marks :
    let s : State := { State.reset with timer := ⟨39, 0, .awaiting, 0, 2, .unset⟩ }
    let t := ran (.frameMark (markOf 39) .plain) s
    s.timer.state ≠ .synced ∧ s.timer.grain < s.tolerance ∧ s.link.down.length < 16 ∧
      t.timer = ⟨39, 0, .synced, 0, 3, .unset⟩ ∧ t.events.flags = 0 ∧ t.timer.state = .synced ∧ t.timer.grain < t.tolerance ∧
      (ran (.frameMark (markOf 39) .plain) t).timer = t.timer ∧ (ran (.frameMark (markOf 39) .plain) t).events.flags = 0x80 ∧
      (ran (.frameMark (markOf 37) .plain) { State.reset with timer := ⟨1, 23, .holdover, 2, 0, .unset⟩ }).timer =
        ⟨37, 0, .synced, 0, 1, .unset⟩ := by decide +kernel

theorem test_safe_exit :
    let s : State := { gov with timer := ⟨128, 1, .awaiting, 0, 3, .safe⟩ }
    s.limits.safeExit ≤ 4 ∧ s.timer.grain < s.tolerance ∧ s.timer.state ≠ .synced ∧
      (ran (.frameMark (markOf 128) .plain) s).timer = ⟨128, 1, .synced, 0, 4, .governing⟩ ∧
      (ran (.frameMark (markOf 129) .plain) s).events.flags = 0x80 := by decide +kernel

theorem test_mark_turns :
    let at77 : State := { gov with timer := ⟨128, 77, .synced, 0, 3, .safe⟩ }
    let at78 : State := { gov with timer := ⟨128, 78, .synced, 0, 3, .safe⟩ }
    at77.tolerance ≤ at77.timer.grain ∧ at77.timer.grain < 80 - at77.tolerance ∧ 80 - at78.tolerance ≤ at78.timer.grain ∧
      ((markOf 129).word 0).toNat % 256 = (at78.timer.frame + 1) % 256 ∧ at78.timer.mode ≠ .unset ∧
      at78.tables.firstSwitch = false ∧ at78.bankBegun.limits.safeExit ≤ min 255 (at78.timer.run + 1) ∧
      (ran (.frameMark (markOf 129) .plain) at78).timer = ⟨129, 0, .synced, 0, 4, .governing⟩ ∧
      at78.events.has .slip = false ∧ (ran (.frameMark (markOf 129) .plain) at78).events.flags = 0x01 ∧
      (ran (.frameMark (markOf 129) .plain) at77).events.flags = 0x81 ∧
      (ran (.frameMark (markOf 130) .plain) at78).events.flags = 0x81 := by decide +kernel

/-- Grain 79, with entries of both slots; and a mark at grain 2, the tolerance. -/
def turnState : State :=
  holding (govAt 79) [ent 1 7 1 2 .current 0 20 192 660 .committed, ent 2 8 0 0 .next 4 10 200 760 .booked,
    ent 3 9 2 1 .next 5 75 200 760 .booked]

theorem test_turn_and_map :
    turnState.turnOf (.timer .plain) = some (.timer, .plain) ∧
      (govAt 2).turnOf (.mark (markOf 41) .plain) = some (.mark 41, .plain) ∧ turnState.supply.map.length = 160 ∧
      (let t := ran (.timerFrameTurn .plain) turnState
       t.sched.entries.map (fun e => (e.tag, e.slot, e.state)) = [(8, .current, .committed), (9, .current, .booked)] ∧
         [0, 4, 5, 13, 14, 79, 80, 159].map (rowOf t.supply.map) = [0, 760, 1520, 1520, 760, 760, 0, 0] ∧
         t.heat.account.i0 = 1003375 ∧ t.heat.account.i2 = 604813 ∧ t.heat.acc.i1 = 0) := by decide +kernel

theorem test_supply_goes_stale :
    let s : State := { govAt 79 with supply := { gov.supply with age := 20 } }
    s.turnOf (.timer .plain) = some (.timer, .plain) ∧ s.timer.mode ≠ .unset ∧ s.supply.reported = true ∧
      s.supply.age ≤ (s.bankFor .current).supplyStale ∧ s.bankBegun.supplyStale < min 255 (s.supply.age + 1) ∧
      (ran (.supplyStale (.timer .plain)) s).supply.ceiling = 1500 ∧
      ran (.supplyStale (.timer .plain)) (govAt 79) = govAt 79 := by decide +kernel

theorem test_frame_close_premises :
    turnState.tables.firstSwitch = false ∧ turnState.tables.inForce .current = some ref ∧
      (turning .synced 0 0 .unset).timer.grain = 79 ∧
      (let u := { State.reset with timer := { State.reset.timer with grain := 79 } }
       u.tables.inForce .current = none ∧ u.tables.active = none ∧ u.sched.entries = [] ∧ u.tables.firstSwitch = false ∧
         (∀ z, (u.control.get z).presented = false) ∧
         u.turnOf (.timer .plain) = some (.timer, .plain)) := by decide +kernel

/-- Zones of each freshness at grain 79; the poll of zone 1 expires at the turn. -/
def zones (orig : Nat) : State :=
  { govAt 79 with
    sense := ⟨⟨.fresh, 150, 0, none, false, 0⟩, ⟨.stale, 150, 30, some 1, false, 0⟩, ⟨.blind, 150, 40, none, false, 3⟩,
      ⟨.seeding, -160, 255, none, false, 19⟩⟩
    link := { gov.link with orig := List.replicate orig (Draft.amend 1 0 0) } }

theorem test_estimates_by_freshness :
    let early : TurnOrder := { TurnOrder.plain with expiryFirst := true }
    (zones 0).tables.active ≠ none ∧ (zones 0).tables.firstSwitch = false ∧
      (ran (.timerFrameTurn .plain) (zones 0)).heat.estimate = ⟨223, 166, 219, 200⟩ ∧
      (ran (.timerFrameTurn early) (zones 0)).heat.estimate = ⟨223, 186, 219, 200⟩ := by decide +kernel

/-- Due polls join the queue in the order of zones as far as there are slots; one without a slot stays due. -/
theorem test_polls_at_a_turn :
    let t := fun n => ran (.timerFrameTurn .plain) (zones n)
    (zones 0).modeBegun ≠ .unset ∧ (t 11).link.orig.drop 11 = [Draft.poll 9 3] ∧ (t 11).sense.i3.poll = some 16 ∧
      (t 11).sense.i1 = ⟨.blind, 150, 31, none, false, 1⟩ ∧ (t 12).link.orig.length = 12 ∧
      (t 12).sense.i3 = ⟨.seeding, -160, 255, none, true, 20⟩ := by decide +kernel

/-- The packets of the users asked before the SAFE request take their slots first. -/
theorem test_turn_enters_safe_in_every_order :
    let es := [ent 1 7 1 2 .next 20 20 192 660 .booked, ent 2 8 0 0 .next 40 10 200 760 .booked]
    let s := { holding (turning .holdover 2 0 .governing) es with
      boost := ⟨.failed, none, 0, 5, false, false, true⟩
      sense := (zones 0).sense
      link := { gov.link with orig := List.replicate 9 (Draft.amend 1 0 0) } }
    let t := fun q => ran (.timerFrameTurn { TurnOrder.plain with queue := q }) s
    (t .pollBoostSafe).supply.requests = [⟨.safe, [1]⟩] ∧ (t .pollBoostSafe).link.orig.length = 11 ∧
      (t .pollSafeBoost).supply.requests = [⟨.safe, [1, 2]⟩] ∧ (t .pollSafeBoost).boost.releaseDue = true ∧
      (t .boostSafePoll).supply.requests = [⟨.safe, [1, 2]⟩] ∧ (t .boostSafePoll).sense.i3.pollDue = true ∧
      (t .safePollBoost).link.orig.drop 9 = [Draft.poll 9 3] ∧ (t .safeBoostPoll).link.orig.drop 9 = [Draft.boostRelease 10] ∧
      (t .boostPollSafe).link.orig.drop 9 = [Draft.boostRelease 10, Draft.poll 9 3] := by decide +kernel

/-- Path 1 in a protection state at grain 79. -/
def pathTurning (st : Protection) (trip : Int) (bar : Nat) : State := { pathAt st trip bar with timer := (govAt 79).timer }

theorem test_trips_and_bars :
    let k := Clock.timer .plain
    (pathTurning .tripped 8 0).turnOf k = some (.timer, .plain) ∧ (pathTurning .tripped 8 0).timer.mode ≠ .unset ∧
      ((pathTurning .tripped 8 0).path.get 1).trip ≤ gov.bankBegun.limits.tripDecay ∧
      ((pathTurning .barred 96 1).path.get 1).barLeft ≤ 1 ∧ 2 ≤ ((pathTurning .barred 96 2).path.get 1).barLeft ∧
      (ran (.tripClear 1 k) (pathTurning .tripped 8 0)).path.i1.state = .clear ∧
      (ran (.timerFrameTurn .plain) (pathTurning .tripped 9 0)).path.i1.trip = 1 ∧
      (ran (.barExpiry 1 k) (pathTurning .barred 96 1)).path.i1.state = .tripped ∧
      (ran (.timerFrameTurn .plain) (pathTurning .barred 96 2)).path.i1.barLeft = 1 := by decide +kernel

/-- Bank 0 pending at grain 79, the first switch. -/
def launching (turns : Nat) : State :=
  { gov with
    timer := ⟨64, 79, .synced, 0, 6, .unset⟩
    tables := ⟨ref, ⟨[]⟩, true, false, none, some (.bank0, turns), .pending, none⟩
    boost := State.reset.boost
    heat := State.reset.heat
    supply := { gov.supply with age := 1, ceiling := 0 }
    sense := ⟨⟨.fresh, 150, 2, none, false, 0⟩, ⟨.fresh, 140, 3, none, false, 0⟩, State.reset.sense.i2, State.reset.sense.i3⟩ }

/-- The switching turn of 10, worked bring-up. -/
theorem test_first_switch :
    (launching 1).turnOf (.timer .plain) = some (.timer, .plain) ∧ (launching 2).tables.pending = some (.bank0, 2) ∧
      (launching 1).tables.pending = some (.bank0, 1) ∧ (launching 1).tables.active = none ∧
      (ran (.timerFrameTurn .plain) (launching 2)).tables.pending = some (.bank0, 1) ∧
      (let t := ran (.bankSwitch (.timer .plain)) (launching 1)
       t.tables.active = some .bank0 ∧ t.timer.mode = .governing ∧ t.events.flags = 0x8000 ∧ t.supply.ceiling = 2600 ∧
         t.heat.account = ⟨400000, 240000, 0, 0⟩ ∧ t.heat.estimate = ⟨150, 140, 200, 200⟩ ∧
         t.control = Four.fill ⟨.steady, 0, 1, false⟩ ∧ t.link.orig = [Draft.poll 9 2, Draft.poll 9 3] ∧
         t.sense.i2.poll = some 16) := by decide +kernel

/-- The first switch at a mark. A holdover limit of 0, which no validated bank has, makes the mode SAFE at once. -/
theorem test_first_switch_at_a_mark :
    let k := Clock.mark (markOf 65) .plain
    let hollow : State := { launching 1 with
      tables := ⟨⟨[]⟩, ⟨[]⟩, true, false, none, some (.bank0, 1), .pending, none⟩ }
    (launching 1).turnOf k = some (.mark 65, .plain) ∧ (launching 1).tables.firstSwitch = true ∧
      0 < (launching 1).bankBegun.limits.holdoverLimit ∧ hollow.bankBegun.limits.holdoverLimit = 0 ∧
      hollow.tables.firstSwitch = true ∧ hollow.turnOf k = some (.mark 65, .plain) ∧
      (ran (.frameMark (markOf 65) .plain) (launching 1)).timer = ⟨65, 0, .synced, 0, 7, .governing⟩ ∧
      (ran (.frameMark (markOf 65) .plain) hollow).timer = ⟨65, 0, .synced, 0, 0, .safe⟩ := by decide +kernel

theorem test_zone_goes_stale :
    let s : State := { govAt 79 with sense := gov.sense.set 1 ⟨.fresh, 200, 20, none, false, 0⟩ }
    s.turnOf (.timer .plain) = some (.timer, .plain) ∧ s.timer.mode ≠ .unset ∧ (s.sense.get 1).fresh = .fresh ∧
      (s.bankBegun.zone 1).staleFrames < min 255 ((s.sense.get 1).age + 1) ∧
      (ran (.zoneStale 1 (.timer .plain)) s).sense.i1 = ⟨.stale, 200, 21, some 16, false, 0⟩ ∧
      ran (.zoneStale 1 (.timer .plain)) (govAt 79) = govAt 79 := by decide +kernel

/-- A zone whose poll is at its expiry. -/
def polling (grain : Nat) (f : Freshness) : State :=
  { govAt grain with sense := gov.sense.set 1 ⟨f, 200, 6, some 1, false, 0⟩ }

theorem test_poll_expiry :
    ((polling 15 .stale).sense.get 1).poll = some 1 ∧ (polling 78 .stale).timer.grain < 79 ∧
      (polling 79 .stale).turnOf (.timer .plain) = some (.timer, .plain) ∧ (polling 79 .stale).timer.grain ≠ 0 ∧
      ((polling 79 .seeding).sense.get 1).fresh ≠ .fresh ∧
      (ran (.pollExpiry 1 .grain) (polling 15 .stale)).sense.i1 = ⟨.blind, 200, 6, none, false, 0⟩ ∧
      (ran (.pollExpiry 1 .grain) (polling 15 .stale)).events.flags = 0x10 ∧
      ran (.pollExpiry 0 .grain) (polling 15 .stale) = polling 15 .stale := by decide +kernel

theorem test_boost_expiry_and_cooldown :
    let s : State := { boostAt .requested (some 1) 0 0 with timer := (govAt 44).timer }
    let t : State := { boostAt .requested (some 1) 0 0 with timer := (govAt 79).timer }
    let c : State := { boostAt .failed none 1 0 with timer := (govAt 79).timer }
    s.boost.state = .requested ∧ s.boost.wait = some 1 ∧ s.timer.grain < 79 ∧ t.turnOf (.timer .plain) = some (.timer, .plain) ∧
      (ran (.boostWaitExpiry .grain) s).boost = ⟨.failed, none, 0, 5, false, false, false⟩ ∧
      (ran (.boostWaitExpiry (.timer .plain)) t).boost.cooldown = 5 ∧ c.boost.cooldown ≤ 1 ∧ c.boost.requestDue = false ∧
      (ran (.boostCooldownEnd (.timer .plain)) c).boost.state = .off := by decide +kernel

theorem test_quiet_release :
    let o : TurnOrder := { TurnOrder.plain with queue := .boostPollSafe }
    let s := govAt 79
    s.turnOf (.timer o) = some (.timer, o) ∧ s.timer.grain ≠ 0 ∧ s.boost.state = .ready ∧ s.boost.boosted = false ∧
      s.boost.requestDue = false ∧ s.bankBegun.limits.boostRelease ≤ s.boost.quiet + 1 ∧
      s.link.orig.length + s.supply.claimed < 12 ∧ (ran (.boostQuietRelease (.timer o)) s).boost.state = .off ∧
      (ran (.boostQuietRelease (.timer o)) s).link.orig = [Draft.boostRelease 10] ∧
      (ran (.timerFrameTurn o) { s with boost := ⟨.ready, none, 1, 0, false, false, false⟩ }).boost.quiet = 2 := by
  decide +kernel

/-- Attempts for due packets: a release first, then a request, as far as there are free slots. -/
theorem test_due_boost_packets_at_a_turn :
    let o : TurnOrder := { TurnOrder.plain with queue := .boostPollSafe }
    let s := fun (st : BoostState) (release : Bool) (n : Nat) =>
      { boostAt st none 1 n with boost := ⟨st, none, 0, 1, false, true, release⟩, timer := (govAt 79).timer }
    let t := fun st release n => ran (.timerFrameTurn o) (s st release n)
    (s .off false 0).turnOf (.timer o) = some (.timer, o) ∧
      (t .off false 0).boost = ⟨.requested, some 40, 0, 1, false, false, false⟩ ∧
      (t .off false 0).link.orig = [Draft.boostRequest 10] ∧
      (t .failed true 10).link.orig.drop 10 = [Draft.boostRelease 10, Draft.boostRequest 10] ∧
      (t .failed true 11).boost = ⟨.off, none, 0, 0, false, true, false⟩ ∧
      (t .failed true 12).boost = ⟨.off, none, 0, 0, false, true, true⟩ := by decide +kernel

/-- A release deferred by a full queue is not due while a raised boost release is above the count (log 30). -/
theorem test_deferred_release_after_a_raise :
    let b : Boost := ⟨.ready, none, 3, 0, false, false, false⟩
    (b.turn 3).quietDue false 3 = true ∧ (b.turn 5).quiet = 4 ∧ (b.turn 5).quietDue false 5 = false := by decide +kernel

/-- Polls asked first take the slots: four due ones leave none of two for the release. -/
theorem test_polls_ahead_of_the_release :
    let s := { boostAt .failed none 5 10 with
      boost := ⟨.failed, none, 0, 5, false, false, true⟩
      timer := (govAt 79).timer
      sense := ⟨(zones 0).sense.i3, (zones 0).sense.i3, (zones 0).sense.i3, (zones 0).sense.i3⟩ }
    let t := fun q => ran (.timerFrameTurn { TurnOrder.plain with queue := q }) s
    (t .pollSafeBoost).link.orig.drop 10 = [Draft.poll 9 0, Draft.poll 9 1] ∧ (t .pollSafeBoost).boost.releaseDue = true ∧
      (t .safeBoostPoll).link.orig.drop 10 = [Draft.boostRelease 10, Draft.poll 9 0] := by decide +kernel

/-! ### Zone control -/

/-- Zones 2 and 0 held back at a turn, zone 0 hot: each takes its estimate at a step of its own, in the operand's order. -/
theorem test_held_updates :
    let o : TurnOrder := { TurnOrder.plain with held := [2, 0] }
    let s : State := { govAt 79 with heat := { gov.heat with account := ⟨3000000, 400000, 600000, 400000⟩ } }
    let t := ran (.timerFrameTurn o) s
    let u := t.runController 2
    s.turnOf (.timer o) = some (.timer, o) ∧ (∀ z, (s.control.get z).presented = false) ∧ t.updates = [2, 0] ∧
      t.control = ⟨⟨.steady, 0, 0, true⟩, ⟨.steady, 0, 1, false⟩, ⟨.steady, 0, 0, true⟩, ⟨.steady, 0, 1, false⟩⟩ ∧
      t.pending = [] ∧ t.pins.resetN = true ∧
      ((t.updates ++ [0, 1, 2, 3]).find? fun y => (t.control.get y).presented) = some 2 ∧ stepped t = u ∧
      ((u.updates ++ [0, 1, 2, 3]).find? fun y => (u.control.get y).presented) = some 0 ∧
      (u.path.get 1).thermal = 0 ∧ stepped u = u.runController 0 ∧ ((u.runController 0).path.get 1).thermal = 52 ∧
      (u.runController 0).control.i0 = ⟨.critical, 64, 0, false⟩ ∧
      stepped (u.runController 0) = u.runController 0 := by decide +kernel

/-- An update not made by the next turn is made there first, on its own estimate. -/
theorem test_held_update_at_the_next_turn :
    let s : State := { govAt 79 with
      heat := { gov.heat with account := ⟨400000, 400000, 400000, 400000⟩, estimate := ⟨300, 0, 0, 0⟩ }
      control := gov.control.set 0 ⟨.steady, 0, 0, true⟩ }
    (s.control.get 0).presented = true ∧
      (ran (.timerFrameTurn .plain) s).control.i0 = ⟨.steady, 64, 1, false⟩ ∧
      (ran (.timerFrameTurn .plain) s).events.flags = 0x01 := by decide +kernel

/-- An update not made by the next grain event is made there; TIER is the one flag set. -/
theorem test_held_update_at_a_grain_event :
    let s : State := { govAt 5 with
      heat := { gov.heat with estimate := ⟨300, 0, 0, 0⟩ }
      control := gov.control.set 0 ⟨.steady, 0, 0, true⟩
      updates := [0] }
    let t := ran .grainEvent s
    s.windowDue = false ∧ (t.control.get 0).state ≠ (s.control.get 0).state ∧ t.control.i0 = s.caughtUp 0 ∧
      t.updates = [] ∧ (t.path.get 1).thermal = 52 ∧ t.events.flags = 0x01 := by decide +kernel

/-! ### Orders -/

/-- Order X of 01, section 1.8, its thermal back-off in place. -/
def orderX : Packet := burstOf 5 1 2 40 20 20 200

/-- The states order X meets: thermal back-off 16 on path 1. -/
def warm : State := { gov with path := gov.path.set 1 ⟨.clear, 0, 0, none, 16⟩ }

/-- 03, section 3.4: the schedule and map before order X. -/
def beforeX : State :=
  holding warm [ent 1 21 2 3 .current 20 20 200 1340 .booked, ent 2 22 3 2 .current 12 12 80 60 .booked,
    ent 3 23 0 0 .current 24 20 200 760 .booked]

theorem test_order_x_alone :
    let s := meets warm orderX
    let o := burstOrder orderX .current false
    let w := s.workingRecord o
    s.link.nextOrder = some orderX ∧ orderX.kind = 2 ∧ s.timer.mode ≠ .unset ∧ s.frameSlot orderX.orderFrame = some .current ∧
      s.timing (some .current) 20 20 = .normal ∧ w.terms.headroom = 192 ∧ w.firstGrant = 192 ∧ w.lower = 80 ∧
      w.terms.reason 200 = .thermal ∧ w.terms.demandsBoost 200 = true ∧ w.current 192 = 660 ∧ clampRequest orderX.power ≠ muteCode ∧
      (∀ g, g < 40 → 20 ≤ g → w.current 192 ≤ s.supply.ceiling - rowOf s.supply.map g) ∧
      s.sched.entries.length < 32 ∧ (ran (.burst 0) s).heat = s.heat ∧ ((ran (.burst 0) s).link.down.map (·.packet.check)) = [47460] := by
  decide +kernel

theorem test_fit_1 :
    let t := ran (.burst 0) (meets beforeX orderX)
    t.sched.entries.map (fun e => (e.tag, e.granted, e.reserved, e.reason, e.amends)) =
        [(21, 200, 1340, .request, 0), (22, 80, 60, .request, 0), (23, 185, 599, .amended, 1), (5, 192, 660, .thermal, 0)] ∧
      [12, 20, 24, 39, 40, 43, 44].map (rowOf t.supply.map) = [60, 2060, 2599, 2599, 599, 599, 0] ∧
      t.link.orig = [Draft.amend 23 0 185] ∧ t.boost = ⟨.ready, none, 0, 0, true, false, false⟩ := by decide +kernel

theorem test_fit_2 :
    let s : State := { beforeX with
      supply := { beforeX.supply with ceiling := 2400 }
      link := { beforeX.link with orig := List.replicate 12 (Draft.poll 9 0) } }
    (ran (.burst 0) (meets s orderX)).sched.entries.map (fun e => (e.tag, e.granted, e.reserved, e.reason)) =
      [(21, 200, 1340, .request), (22, 80, 60, .request), (23, 200, 760, .request), (5, 137, 300, .supply)] := by
  decide +kernel

theorem test_burst_late_and_in_the_next_frame :
    let late := meets warm (burstOf 5 1 2 40 8 20 200)
    let next := meets warm (burstOf 5 1 2 41 0 200 200)
    late.timing (some .current) 8 20 = .late ∧ (ran (.burst 0) late).events.flags = 0x0100 ∧
      (ran (.burst 0) late).sched.entries.map (fun e => (e.granted, e.state, e.reason)) = [(120, .committed, .late)] ∧
      next.timing (some .next) 0 80 = .normal ∧
      (ran (.burst 0) next).sched.entries.map (fun e => (e.slot, e.start, e.length, e.granted)) = [(.next, 0, 80, 192)] ∧
      rowOf (ran (.burst 0) next).supply.map 159 = 660 := by decide +kernel

/-- A BURST that supersedes the BOOKED entries it overlaps. -/
theorem test_superseding_burst :
    let s := meets (holding warm [ent 1 7 1 0 .current 30 20 200 760 .booked, ent 2 8 1 0 .current 50 5 200 760 .booked]) orderX
    let overlaps := fun e : Entry => e.path == orderX.orderPath && e.slot == .current && spansMeet e.start e.length 20 20
    s.sched.entries.map overlaps = [true, false] ∧ (∀ e ∈ s.sched.entries, overlaps e = true → e.state = .booked) ∧
      (s.sched.entries.filter fun e => !overlaps e).length < 32 ∧
      (ran (.burst 0) s).sched.entries.map (fun e => (e.tag, e.granted)) = [(8, 200), (5, 192)] ∧
      [20, 39, 40, 49, 50].map (rowOf (ran (.burst 0) s).supply.map) = [660, 660, 0, 0, 760] := by decide +kernel

/-- A mute request is booked as it is; an order that nothing fits is granted mute. -/
theorem test_muted_bursts :
    let silent := meets warm (burstOf 5 1 2 40 20 20 (-512))
    let starved := meets (holding { warm with supply := { warm.supply with ceiling := 700 } }
      [ent 1 21 2 3 .current 20 20 96 400 .booked, ent 2 22 3 3 .current 20 20 96 200 .booked]) orderX
    (ran (.burst 0) silent).sched.entries.map (fun e => (e.granted, e.reserved, e.reason)) = [(-512, 0, .request)] ∧
      (ran (.burst 0) silent).events.flags = 0 ∧
      (ran (.burst 0) starved).sched.entries.map (fun e => (e.granted, e.reason)) =
        [(96, .request), (96, .request), (-512, .mute)] ∧ (ran (.burst 0) starved).events.flags = 0x0400 := by decide +kernel

theorem test_timing_ends :
    gov.timing (gov.frameSlot 42) 20 20 = .outOfWindow ∧ gov.timing (gov.frameSlot 40) 80 1 = .outOfWindow ∧
      gov.timing (gov.frameSlot 40) 4 1 = .past ∧ gov.timing (gov.frameSlot 40) 5 1 = .late ∧
      gov.timing (gov.frameSlot 40) 8 1 = .late ∧ gov.timing (gov.frameSlot 40) 9 1 = .normal ∧
      gov.timing (gov.frameSlot 41) 0 1 = .normal ∧ burstLength 79 255 = 1 ∧ burstLength 0 0 = 1 ∧ burstLength 80 81 = 80 := by
  decide +kernel

theorem test_unset_orders :
    let s := meets State.reset (burstOf 5 1 2 40 20 20 200)
    let r := meets State.reset (changeOf 4 5 1 [100])
    let a := meets State.reset (changeOf 5 5 1 [0xFE00])
    s.timer.mode = .unset ∧ s.link.nextOrder = some orderX ∧ r.link.nextOrder = some (changeOf 4 5 1 [100]) ∧
      (changeOf 4 5 1 [100]).kind = 4 ∧ (changeOf 5 5 1 [100]).kind = 5 ∧
      (ran (.burst 2) s).link.down.map (·.packet.power) = [144] ∧ (ran (.revise 0) r).link.down.map (·.packet.power) = [48] ∧
      (ran (.amendReceived 3) a).link.down = [⟨changeOf 5 5 1 [0xFE00], true⟩] := by decide +kernel

theorem test_unbooked_bursts :
    let past := meets gov (burstOf 5 1 2 40 0 5 200)
    let out := meets gov (burstOf 5 1 2 42 20 20 200)
    let crowded := meets (holding gov (List.replicate 32 (ent 1 7 0 0 .next 0 1 200 760 .booked))) orderX
    let blocked := meets (holding gov [ent 1 7 1 0 .current 39 1 200 760 .committed]) orderX
    gov.timing (gov.frameSlot 40) 0 5 = .past ∧ gov.timing (gov.frameSlot 42) 20 20 = .outOfWindow ∧
      (ran (.burst 0) past).heat.acc.i1 = 625 * 5 ∧ (ran (.burst 0) past).link.down.map (·.packet.power) = [120] ∧
      (ran (.burst 0) out).events.flags = 0x0100 ∧ 32 ≤ crowded.sched.entries.length ∧
      (∀ e ∈ crowded.sched.entries, ¬ (e.path = orderX.orderPath ∧ e.slot = .current ∧ spansMeet e.start e.length 20 20 = true)) ∧
      (ran (.burst 0) crowded).events.flags = 0x0200 ∧
      (∃ e ∈ blocked.sched.entries, (e.path = orderX.orderPath ∧ e.slot = .current ∧ spansMeet e.start e.length 20 20 = true) ∧
        e.state = .committed) ∧ (ran (.burst 0) blocked).events.flags = 0x0100 := by decide +kernel

/-- A state with one entry, tag 9 on path 0, and a REVISE, AMEND or WITHDRAW of it. -/
def changing (state : EntryState) (kind : Nat) (words : List Word) : State :=
  meets (holding gov [ent 3 9 0 1 .current 45 10 160 420 state]) (changeOf kind 9 0 words)

theorem test_revisions :
    let s := changing .committed 4 [100]
    let e := ent 3 9 0 1 .current 45 10 160 420 .committed
    s.sched.find 9 0 = some e ∧ s.link.nextOrder = some (changeOf 4 9 0 [100]) ∧ (changeOf 4 9 0 [100]).orderTag = 9 ∧
      (changeOf 4 9 0 [100]).orderPath = 0 ∧ clampRequest (changeOf 4 9 0 [100]).power < e.granted ∧
      e.granted ≤ clampRequest (changeOf 4 9 0 [160]).power ∧ gov.sched.find 9 0 = none ∧
      (changing .booked 5 [200]).sched.find 9 0 = some (ent 3 9 0 1 .current 45 10 160 420 .booked) ∧
      (ran (.revise 0) s).sched.entries.map (fun e => (e.granted, e.reserved, e.reason)) = [(100, 190, .request)] ∧
      (ran (.amendReceived 0) (changing .booked 5 [200])).sched.entries.map (fun e => (e.granted, e.requested, e.serial)) =
        [(200, 200, 100)] := by decide +kernel

theorem test_readmission_premises :
    let s := changing .booked 4 [100]
    let e := ent 3 9 0 1 .current 45 10 160 420 .booked
    s.sched.sound ∧ s.sched.find 9 0 = some e ∧ e.cls < 4 ∧
      (ran (.revise 0) s).sched.entries.map (fun e => (e.granted, e.state)) = [(100, .booked)] := by
  refine ⟨⟨by decide +kernel, by decide +kernel, ?_⟩, by decide +kernel, by decide +kernel, by decide +kernel⟩
  simp only [Entry.spanOk]
  decide +kernel

theorem test_withdrawals :
    let s := changing .booked 3 []
    (changeOf 3 9 0 []).kind = 3 ∧ s.link.nextOrder = some (changeOf 3 9 0 []) ∧
      s.sched.find 9 0 = some (ent 3 9 0 1 .current 45 10 160 420 .booked) ∧ (ran .withdraw s).sched.entries = [] ∧
      rowOf (ran .withdraw s).supply.map 45 = 0 ∧
      (ran .withdraw (changing .committed 3 [])).sched = (changing .committed 3 []).sched := by decide +kernel

/-- 08, worked rewrite. -/
theorem test_rewrite :
    orderX.header = 4672 ∧ orderX.payload = [1376, 6696, 5140, 200] ∧ orderX.check = 47452 ∧
      (orderX.setPower 192).check = 47460 ∧ orderX.powerIndex < orderX.payload.length ∧ (orderX.setPower 192).sum = 0 ∧
      (changeOf 4 5 1 [100]).powerIndex < (changeOf 4 5 1 [100]).payload.length ∧
      (Draft.mk 15 15 15 (List.replicate 15 0xFFFF)).seal.sum = 0 := by decide +kernel

theorem test_an_order_is_finished_in_its_place :
    let l : Link := { gov.link with down := [⟨data, true⟩, ⟨orderX, false⟩, ⟨data, true⟩, ⟨orderX, false⟩] }
    (l.finishOrder fun p => p.setPower 192).down = [⟨data, true⟩, ⟨orderX.setPower 192, true⟩, ⟨data, true⟩, ⟨orderX, false⟩] ∧
      (passing 3).link.finishOrder id = (passing 3).link := by decide +kernel

/-! ### Amendment requests -/

/-- 10, section 10.7 in small: a request of a path's trip, with its two entries. -/
def requested : State :=
  let s := holding (pathAt .tripped 96 0) [ent 1 41 1 1 .next 10 30 208 860 .booked, ent 2 42 1 3 .next 50 10 208 860 .booked]
  s.takeRequest (.trip 1)

theorem test_requests :
    requested.supply.requests = [⟨.trip 1, [1, 2]⟩] ∧ requested.supply.claimed = 2 ∧
      requested.supply.requests[0]? = some ⟨.trip 1, [1, 2]⟩ ∧
      (∃ e ∈ requested.sched.bySerial 1, e.state = .booked ∧ requested.targetCode (.trip 1) e < e.granted) ∧
      (ran (.requestedAmendment 0) requested).link.orig = [Draft.amend 41 1 104] ∧
      (ran (.requestedAmendment 0) requested).supply.requests = [⟨.trip 1, [2]⟩] ∧
      (ran (.requestedAmendment 0) (ran (.requestedAmendment 0) requested)).link.orig =
        [Draft.amend 41 1 104, Draft.amend 42 1 120] ∧
      (ran (.requestedAmendment 0) (ran (.requestedAmendment 0) requested)).supply.requests = [] := by decide +kernel

theorem test_request_dropped :
    let s : State := { requested with sched := { requested.sched with entries := requested.sched.entries.map fun e =>
      { e with state := .committed } } }
    (∀ e ∈ s.sched.bySerial 1, e.state = .committed) ∧ (ran (.requestedAmendment 0) s).link.orig = [] ∧
      (ran (.requestedAmendment 0) s).supply.claimed = 1 := by decide +kernel

/-- As many entries as there are free slots are listed, by absolute start; a request that lists none ends at once. -/
theorem test_requests_by_kind_and_room :
    let s : State := { requested with supply := { requested.supply with requests := [] } }
    let tight : State := { s with link := { s.link with orig := List.replicate 11 (Draft.poll 9 0) } }
    (tight.takeRequest (.trip 1)).supply.requests = [⟨.trip 1, [1]⟩] ∧ (s.takeRequest (.bar 1)).supply.requests = [⟨.bar 1, [1, 2]⟩] ∧
      (s.takeRequest .safe).supply.requests = [⟨.safe, [1, 2]⟩] ∧ (s.takeRequest (.trip 0)).supply.requests = [] ∧
      s.sched.entries.map (fun e => (e.row, s.targetCode (.trip 1) e, s.targetCode (.bar 1) e, s.targetCode .safe e)) =
        [(90, 104, 80, 144), (130, 120, 80, 144)] := by decide +kernel

theorem test_no_such_request :
    let idle : State := { requested with supply := { requested.supply with requests := [⟨.safe, []⟩] } }
    requested.supply.requests[1]? = none ∧ ran (.requestedAmendment 1) requested = requested ∧
      idle.supply.requests[0]? = some ⟨.safe, []⟩ ∧ ran (.requestedAmendment 0) idle = idle ∧
      (∀ q ∈ requested.supply.requests, q.items ≠ []) ∧ requested.pins.resetN = true := by decide +kernel

/-! ### Commands -/

/-- The reply a command gets, when it is one. -/
def replyTo (i : Instr) (s : State) : List (List Word) := (ran i s).engine.replies.map (·.payload)

/-- A state whose Reply Queue holds a number of replies. -/
def replying (s : State) (n : Nat) : State :=
  { s with engine := { s.engine with replies := List.replicate n (Draft.reply 1 [0]) } }

theorem test_command_take :
    let s : State := { State.reset with engine := ⟨[cmd 1 0 [], cmd 2 0 []], none, []⟩ }
    s.engine.current = none ∧ s.engine.queue = [cmd 1 0 [], cmd 2 0 []] ∧
      (ran .commandTake s).engine = ⟨[cmd 2 0 []], some (cmd 1 0 []), []⟩ ∧
      (executes gov (cmd 1 0 [])).engine.current ≠ none ∧ State.reset.engine.queue = [] := by decide +kernel

theorem test_a_full_reply_queue_holds_commands :
    let s := replying (executes gov (cmd 1 0 [])) 8
    8 ≤ s.engine.replies.length ∧ s.engine.current = some (cmd 1 0 []) ∧ commandRow 0 (cmd 1 0 []).commandCode = some .readStatus ∧
      commandRow 0 (cmd 9 0 []).commandCode = none ∧ ran .readStatus s = s ∧
      (replying s 7).engine.replies.length < 8 ∧ (ran .readStatus (replying s 7)).engine.replies.length = 8 := by decide +kernel

theorem test_refusals :
    let s := executes gov (cmd 0x10 0 [0, 1, 0])
    commandRow 0 (cmd 0x10 0 [0, 1, 0]).commandCode = some (.readTable 0) ∧ commandLengthOk (cmd 0x10 0 [0, 1, 0]) = false ∧
      (cmd 0x10 0 [0, 1, 0]).word 2 = 1 ∧ replyTo (.readTable 0) s = [[0x1004, 0x1004]] ∧ s.tables.copyWaiting = false ∧
      commandLengthOk (cmd 1 0 [0]) = false ∧ replyTo .readStatus (executes gov (cmd 1 0 [0])) = [[0x0104]] ∧
      replyTo .unknownCommand (executes gov (cmd 9 0 [])) = [[0x0907]] := by decide +kernel

theorem test_read_status : (cmd 1 0 []).commandCode = 0x01 ∧ (cmd 1 0 []).payload.length = 1 ∧
    replyTo .readStatus (executes gov (cmd 1 0 [])) = [[0x0100, 0x1028, 0x0500, 0x0F00, 0x0200, 2600]] ∧
    replyTo .readStatus (executes State.reset (cmd 1 0 [])) = [[0x0100, 0x0100, 0, 0xFF00, 0, 0]] := by decide +kernel

theorem test_read_zone_and_path :
    (cmd 4 3 []).parameter = (3 : Fin 4).val ∧ 4 ≤ (cmd 4 4 []).parameter ∧ (cmd 5 4 []).commandCode = 0x05 ∧
      replyTo .readZone (executes gov (cmd 4 0 [])) = [[0x0400, 0x1000, 150, 225, 150, 15, 16960, 0, 0]] ∧
      replyTo .readZone (executes State.reset (cmd 4 3 [])) = [[0x0406, 0x00FF, 0xFF60, 0xFF60, 0xFF60, 0, 0, 0, 0]] ∧
      replyTo .readPath (executes warm (cmd 5 1 [])) = [[0x0500, 16, 0, 0, 0, 0x8000]] ∧
      replyTo .readPath (executes gov (cmd 5 4 [])) = [[0x0504]] ∧
      replyTo .readPath (executes State.reset (cmd 5 3 [])) = [[0x0506, 0, 0, 0, 0, 0x8000]] := by decide +kernel

theorem test_read_schedule :
    let s := executes (holding gov [ent 3 9 0 1 .current 45 10 160 420 .booked]) (cmd 6 0 [])
    (cmd 6 0 []).parameter < s.sched.entries.length ∧ gov.sched.entries.length ≤ (cmd 6 0 []).parameter ∧
      replyTo .readSchedule s = [[0x0600, 1, 0x0009, 0x1810, 0x2D0A, 160, 160, 80, 420, 1900, 0]] ∧
      replyTo .readSchedule (executes gov (cmd 6 0 [])) = [[0x0600, 0]] ∧
      replyTo .readSchedule (executes State.reset (cmd 6 0 [])) = [[0x0606, 0]] := by decide +kernel

theorem test_read_events :
    let s : State := { executes gov (cmd 2 0 []) with events := ⟨0x0806, 0xFFFD, some 0x0804⟩ }
    (cmd 2 0 []).commandCode = 0x02 ∧ (cmd 2 0 []).payload.length = 1 ∧
      replyTo .readEvents s = [[0x0200, 0x0806, 0xFFFD]] ∧ (ran .readEvents s).events = ⟨0, 0xFFFD, none⟩ := by decide +kernel

theorem test_set_mask : (cmd 3 0 [0xFFFD]).payload.length = 2 ∧ (cmd 3 0 [0xFFFD]).commandCode = 0x03 ∧
    (ran .setMask (executes gov (cmd 3 0 [0xFFFD]))).events = ⟨0, 0xFFFD, none⟩ := by decide +kernel

theorem test_set_cap :
    let cap := fun (w : Word) => executes gov (cmd 7 3 [w])
    (cmd 7 3 [0x8000]).word 1 = 0x8000 ∧ (cmd 7 3 [272]).parameter = (3 : Fin 4).val ∧ ((cmd 7 3 [272]).word 1).toInt = 272 ∧
      ((cmd 7 3 [0xFE70]).word 1).toInt = -400 ∧ (ran .setCap (cap 272)).path.i3.cap = some 272 ∧
      (ran .setCap (cap 0xFE70)).path.i3.cap = some (-400) ∧ replyTo .setCap (cap 273) = [[0x0704]] ∧
      replyTo .setCap (cap 0xFE6F) = [[0x0704]] ∧ replyTo .setCap (cap 0x8000) = [[0x0700]] ∧
      replyTo .setCap (executes gov (cmd 7 4 [0])) = [[0x0704]] := by decide +kernel

theorem test_clear_bar :
    let s := executes (pathAt .barred 96 33) (cmd 8 1 [])
    (cmd 8 1 []).parameter = (1 : Fin 4).val ∧ (s.path.get 1).state = .barred ∧ (cmd 8 1 []).commandCode = 0x08 ∧
      (ran .clearBar s).path.i1 = ⟨.tripped, 96, 0, none, 16⟩ ∧ 4 ≤ (cmd 8 4 []).parameter ∧
      replyTo .clearBar (executes gov (cmd 8 3 [])) = [[0x0800]] ∧ replyTo .clearBar (executes gov (cmd 8 4 [])) = [[0x0804]] := by
  decide +kernel

/-- Bank 0 active, a copy into bank 1 with 100 words copied. -/
def copying : State := { gov with tables := { gov.tables with copy := some ⟨.bank1, 0, 7⟩ } }

theorem test_read_table :
    let r := fun (bank : Nat) (offset count : Word) => executes copying (cmd 0x10 bank [offset, count])
    (cmd 0x10 0 [48, 12]).payload.length = 3 ∧ ((cmd 0x10 0 [4084, 12]).word 1).toNat + 12 = 4096 ∧
      replyTo (.readTable 0) (r 0 48 3) = [[144, 120, 184]] ∧ replyTo (.readTable 50) (r 1 48 3) = [[144, 120, 0]] ∧
      (ran (.readTable 50) (r 1 48 3)).tables.copy = some ⟨.bank1, 50, 7⟩ ∧
      replyTo (.readTable 0) (r 0 4084 12) = [List.replicate 12 0] ∧ replyTo (.readTable 0) (r 0 4085 12) = [[0x1004]] ∧
      replyTo (.readTable 0) (r 0 0 13) = [[0x1004]] ∧ replyTo (.readTable 0) (r 2 0 1) = [[0x1004, 0x1004]] ∧
      replyTo (.readTable 0) (r 0 0 0) = [[0x1004]] := by decide +kernel

/-- Bank 1 pending, with turns remaining. -/
def pendingAt (turns : Nat) : State :=
  { gov with tables := ⟨ref, ref, true, true, some .bank0, some (.bank1, turns), .pending, none⟩ }

/-- Flags of a turn that loses a frame, enters SAFE, switches a bank, lets a boost wait and a poll run out and moves zone 0 to
another tier. -/
theorem test_flags_at_a_turn :
    let s : State := { turning .holdover 2 0 .governing with
      tables := (pendingAt 1).tables
      boost := ⟨.requested, some 1, 0, 0, false, false, false⟩
      sense := (zones 0).sense }
    (ran (.timerFrameTurn .plain) s).events.flags = 0x8079 ∧ (ran (.timerFrameTurn .plain) (govAt 79)).events.flags = 1 := by
  decide +kernel

theorem test_write_table :
    let w := fun (s : State) (bank : Nat) (words : List Word) => executes s (cmd 0x11 bank words)
    3 ≤ (cmd 0x11 1 [4095, 9]).payload.length ∧ (cmd 0x11 1 (4086 :: List.replicate 10 9)).payload.length ≤ 12 ∧
      gov.tables.active ≠ some .bank1 ∧ gov.tables.copy = none ∧ gov.tables.bank1.wf = true ∧
      (pendingAt 2).tables.pending.map Prod.fst = some .bank1 ∧
      (ran .writeTable (w gov 1 [4095, 9])).tables.bank1 = ⟨[(4095, 9)]⟩ ∧
      replyTo .writeTable (w gov 1 [4095, 9, 9]) = [[0x1104]] ∧ replyTo .writeTable (w gov 2 [0, 9]) = [[0x1104]] ∧
      (ran .writeTable (w gov 0 [0, 9])).events.flags = 0x0800 ∧ replyTo .writeTable (w (pendingAt 2) 1 [0, 9]) = [[0x1102]] ∧
      replyTo .writeTable (w copying 1 [0, 9]) = [[0x1103]] := by decide +kernel

theorem test_launch :
    let l := fun (s : State) (bank : Nat) => executes s (cmd 0x12 bank [])
    let full := { gov with tables := { gov.tables with bank1 := ref } }
    (cmd 0x12 1 []).parameter = BankId.bank1.number ∧ full.tables.mark .bank1 = false ∧ (full.tables.bank .bank1).validate = none ∧
      (gov.tables.bank .bank1).validate = some (16, .missingKind) ∧ (pendingAt 1).tables.mark .bank1 = true ∧
      (ran .launch (l full 1)).tables.pending = some (.bank1, 2) ∧ replyTo .launch (l gov 1) = [[0x1205, 0x1001]] ∧
      replyTo .launch (l gov 0) = [[0x1203]] ∧ replyTo .launch (l (pendingAt 1) 1) = [[0x1203]] ∧
      replyTo .launch (l copying 1) = [[0x1203]] ∧ replyTo .launch (l gov 2) = [[0x1204]] := by decide +kernel

/-- A directory entry's kind is the table's when no earlier entry has it. -/
theorem test_directory_entries :
    (∀ j, j < 6 → ref.kindAt j ≠ ref.kindAt 6) ∧ ref.kindAt 6 = 7 ∧ ref.count 7 = ref.countAt 6 ∧ ref.baseAt 6 = 165 ∧
      Bank.zero.validate = some (16, .missingKind) ∧ (pendingAt 1).tables.inForce .next = some ref := by decide +kernel

/-- Where the tables of the reference bank lie, and fields of each read from their own words. -/
theorem test_fields_of_the_reference_bank :
    ref.record 1 0 = 48 ∧ ref.record 2 3 = 123 ∧ ref.record 6 2 = 159 ∧ ref.record 7 0 = 165 ∧
      (ref.read 60).toNat = ref.limits.holdoverLimit ∧ ref.limits.holdoverLimit = 3 ∧ ref.limits.safeCeiling = 144 ∧
      (ref.zone 3).ambient = (ref.read 123).toInt ∧ ref.modBackoff 2 = ((ref.read 159).toNat : Int) ∧
      ref.supplyStale = (ref.read 181).toNat := by decide +kernel

theorem test_recall :
    let r := fun (s : State) => executes s (cmd 0x13 0 [])
    (cmd 0x13 0 []).commandCode = 0x13 ∧ (ran .recallLaunch (r (pendingAt 2))).tables.launch = .cancelled ∧
      (ran .recallLaunch (r (pendingAt 2))).tables.pending = none ∧ replyTo .recallLaunch (r (pendingAt 1)) = [[0x1308]] ∧
      gov.tables.launch = .switched ∧ replyTo .recallLaunch (r gov) = [[0x1308]] ∧
      State.reset.tables.launch ≠ .switched ∧ replyTo .recallLaunch (r State.reset) = [[0x1309]] := by decide +kernel

theorem test_copy :
    let c := fun (s : State) => executes s (cmd 0x14 0 [])
    (cmd 0x14 0 []).payload.length = 1 ∧ gov.tables.active = some .bank0 ∧
      (ran .copy (c gov)).tables.copy = some ⟨.bank1, 0, 3⟩ ∧ (ran .copy (c gov)).engine = ⟨[], none, []⟩ ∧
      replyTo .copy (c State.reset) = [[0x1406]] ∧ replyTo .copy (c (pendingAt 1)) = [[0x1402]] ∧
      replyTo .copy (c copying) = [[0x1403]] := by decide +kernel

theorem test_copy_complete :
    copying.tables.copy = some ⟨.bank1, 0, 7⟩ ∧ copying.engine.replies.length < 8 ∧ 8 ≤ (replying copying 8).engine.replies.length ∧
      (ran .copyComplete copying).tables.bank1 = ref ∧ (ran .copyComplete copying).tables.mark1 = true ∧
      (ran .copyComplete copying).engine.replies = [Draft.reply 7 [0x1400]] ∧
      (ran .copyComplete (replying copying 8)).tables.copy = some ⟨.bank1, 4096, 7⟩ ∧
      (ran .copyComplete (replying copying 8)).tables.copyWaiting = true := by decide +kernel

theorem test_soft_reset :
    let s := executes { boostAt .ready none 0 3 with
      path := gov.path.set 1 ⟨.barred, 96, 33, some 100, 16⟩
      tables := (pendingAt 2).tables } (cmd 0x1F 0 [])
    let t := ran (.softReset 0) s
    (cmd 0x1F 0 []).commandCode = 0x1F ∧ (cmd 0x1F 0 []).payload.length = 1 ∧ s.tables.pending = some (.bank1, 2) ∧
      s.boost.state = .ready ∧ t.link.orig = [Draft.boostRelease 10] ∧ t.path.i1 = ⟨.clear, 0, 0, none, 16⟩ ∧
      t.tables.launch = .cancelled ∧ t.engine = ⟨[], none, [Draft.reply 3 [0x1F00]]⟩ ∧ t.boost.state = .off ∧
      (ran (.softReset 9) (executes copying (cmd 0x1F 0 []))).tables.copy = none := by decide +kernel

/-- A copy aborted with 50 words copied: those of the source, then the destination's old words. -/
theorem test_soft_reset_aborts_a_copy :
    let s := executes copying (cmd 0x1F 0 [])
    let t := ran (.softReset 50) s
    s.tables.copy = some ⟨.bank1, 0, 7⟩ ∧ t.tables.copy = none ∧ t.tables.mark1 = false ∧ t.tables.bank0 = s.tables.bank0 ∧
      [48, 49, 50].map t.tables.bank1.read = [144, 120, 0] := by decide +kernel

theorem test_soft_reset_at_a_full_queue :
    let s := executes { boostAt .ready none 0 0 with
      link := { gov.link with orig := List.replicate 12 (Draft.amend 1 0 0) } } (cmd 0x1F 0 [])
    ¬ ((s.link.orig.filter fun d => d.kind != 6).length + s.supply.claimed < 12) ∧
      (ran (.softReset 0) s).boost.releaseDue = true ∧ gov.tables.pending = none ∧
      (ran (.softReset 0) (executes (pendingAt 1) (cmd 0x1F 0 []))).tables.pending = some (.bank1, 1) := by decide +kernel

/-! ### Arbiters -/

/-- 08, worked arbitration. -/
def arbiting (run : Nat) : State :=
  { gov with link := { gov.link with
    down := [⟨data, true⟩, ⟨orderX, false⟩]
    orig := [Draft.amend 5 0 80, Draft.poll 9 1, Draft.boostRequest 10]
    run := run } }

theorem test_downstream_arbiter :
    (arbiting 2).link.run = 2 ∧ (arbiting 1).link.run ≠ 2 ∧ (ran (.downstreamGrant false) (arbiting 2)).link.run = 0 ∧
      (ran (.downstreamGrant false) (arbiting 2)).link.down = [⟨orderX, false⟩] ∧
      (ran (.downstreamGrant false) (arbiting 1)).link.orig.length = 2 ∧ (ran (.downstreamGrant false) (arbiting 1)).link.run = 2 ∧
      (ran (.downstreamGrant false) (passing 9)).link.down.length = 8 ∧
      (ran (.downstreamGrant false) (meets gov orderX)).link = (meets gov orderX).link ∧
      (ran (.downstreamGrant true) (arbiting 2)).link = (arbiting 2).link := by decide +kernel

/-- 09, worked exchange: three sources that hold packets. -/
def upward (last : UpSource) : State :=
  { gov with
    link := { gov.link with up := [data], last := last }
    engine := ⟨[], none, [Draft.reply 4 [0x1103]]⟩
    events := ⟨0x0006, 0xFFFD, some 0x0004⟩ }

theorem test_upstream_arbiter :
    (ran (.upstreamGrant false) (upward .notice)).link.mdOut = some data ∧
      (ran (.upstreamGrant false) (upward .pass)).link.mdOut = some (Draft.reply 4 [0x1103]).seal ∧
      (ran (.upstreamGrant false) (upward .reply)).link.mdOut = some (Draft.notice 0x0006 0x0004).seal ∧
      (ran (.upstreamGrant false) (upward .reply)).events.notice = none ∧
      (upward .pass).engine.replies ≠ [] ∧ gov.link.up = [] ∧ gov.engine.replies = [] ∧ gov.events.notice = none ∧
      (ran (.upstreamGrant false) gov).link = gov.link ∧ (ran (.upstreamGrant true) (upward .pass)).pins.mdHoldIn = true := by
  decide +kernel

/-! ### The states the laws speak of -/

theorem test_tables_sound : gov.tables.sound ∧ (pendingAt 2).tables.sound ∧ copying.tables.sound := by
  refine ⟨⟨by decide +kernel, by decide +kernel, ?_, ?_, ?_, ?_⟩, ⟨by decide +kernel, by decide +kernel, ?_, ?_, ?_, ?_⟩,
    ⟨by decide +kernel, by decide +kernel, ?_, ?_, ?_, ?_⟩⟩
  · intro b; cases b
    · intro _; exact test_the_reference_bank_passes_validation
    · intro h; exact absurd h (by decide +kernel)
  · intro b; cases b
    · intro _; rfl
    · intro h; exact absurd h (by decide +kernel)
  · intro b n h; exact absurd h (by simp [gov])
  · intro c h; exact absurd h (by simp [gov])
  · intro b; cases b <;> intro _ <;> exact test_the_reference_bank_passes_validation
  · intro b; cases b <;> intro _ <;> rfl
  · intro b n h
    simp only [pendingAt, Option.some.injEq, Prod.mk.injEq] at h
    obtain ⟨rfl, rfl⟩ := h
    exact ⟨rfl, by decide +kernel, Or.inr rfl, rfl⟩
  · intro c h; exact absurd h (by simp [pendingAt])
  · intro b; cases b
    · intro _; exact test_the_reference_bank_passes_validation
    · intro h; exact absurd h (by decide +kernel)
  · intro b; cases b
    · intro _; rfl
    · intro h; exact absurd h (by decide +kernel)
  · intro b n h; exact absurd h (by simp [copying, gov])
  · intro c h
    simp only [copying, Option.some.injEq] at h
    subst h
    exact ⟨rfl, rfl, by decide, fun a ha => absurd ha (Nat.not_lt_zero a)⟩

theorem test_queues_and_link_sound :
    let s := meets beforeX orderX
    s.queuesBounded ∧ s.link.sound ∧ (passing 12).queuesBounded ∧ ¬ (passing 12).link.sound ∧ (passing 8).link.sound ∧
      requested.queuesBounded := by
  refine ⟨⟨?_, ?_, ?_, ?_, ?_⟩, ⟨⟨?_, ?_⟩, ⟨?_, ?_⟩, ?_⟩, ⟨?_, ?_, ?_, ?_, ?_⟩, ?_, ⟨⟨?_, ?_⟩, ⟨?_, ?_⟩, ?_⟩, ⟨?_, ?_, ?_, ?_, ?_⟩⟩ <;>
    first
      | decide +kernel
      | exact fun h => absurd (h.1.1 (by decide +kernel)) (by decide +kernel)

theorem test_schedule_and_supply_sound :
    beforeX.sched.sound ∧ beforeX.supply.sound ∧ (∀ e ∈ beforeX.sched.entries, 0 ≤ e.dissipation) := by
  refine ⟨⟨by decide +kernel, by decide +kernel, ?_⟩, ⟨by decide +kernel, by decide +kernel, by decide +kernel⟩, by decide +kernel⟩
  simp only [Entry.spanOk]
  decide +kernel

theorem test_ranges_and_backoffs_sound :
    let s := turning .holdover 2 0 .governing
    s.timer.sound ∧ s.heat.sound ∧ (∀ z, (s.sense.get z).sound) ∧ s.boost.sound ∧ (boostAt .requested (some 7) 0 0).boost.sound ∧
      warm.backoffsSound ∧ s.modeFollowsBank ∧ (launching 2).modeFollowsBank ∧ s.quietInUnset := by
  refine ⟨⟨by decide +kernel, by decide +kernel, by decide +kernel, by decide +kernel, by decide +kernel⟩, ?_, ?_,
    ⟨by decide +kernel, by decide +kernel⟩, ⟨by decide +kernel, by decide +kernel⟩, ⟨by decide +kernel, by decide +kernel⟩,
    ⟨by decide +kernel, by decide +kernel⟩, ⟨by decide +kernel, by decide +kernel⟩, fun h => absurd h (by decide +kernel)⟩
  · simp only [Heat.sound, inHeatRange]; decide +kernel
  · simp only [Sense.sound]; decide +kernel

/-- Order X booked, and another order to be taken. -/
def priced : State := meets (ran (.burst 0) (meets warm orderX)) (burstOf 6 2 1 40 45 10 160)

theorem test_priced_and_stocked :
    priced.tables.sound ∧ priced.sched.sound ∧ priced.supply.sound ∧ priced.ranged ∧ priced.entriesPriced ∧ priced.mapSound ∧
      priced.boost.sound ∧ (∀ z, (priced.sense.get z).sound) := by
  have tables : priced.tables = gov.tables := by decide +kernel
  have uncapped : ∀ i, (priced.path.get i).cap = none := by decide +kernel
  refine ⟨by rw [tables]; exact test_tables_sound.1, ⟨by decide +kernel, by decide +kernel, ?_⟩, ⟨by decide +kernel, by decide +kernel, by decide +kernel⟩,
    ⟨by decide +kernel, by decide +kernel, ⟨?_, by decide +kernel, by decide +kernel, by decide +kernel⟩, ?_⟩, ?_, ?_,
    ⟨by decide +kernel, by decide +kernel⟩, ?_⟩
  · simp only [Entry.spanOk]; decide +kernel
  · intro n h
    rw [show priced.boost.wait = none by decide +kernel] at h
    cases h
  · intro i
    refine ⟨?_, ?_, fun c h => ?_⟩
    · revert i; decide +kernel
    · revert i; decide +kernel
    · rw [uncapped] at h
      cases h
  · simp only [State.entriesPriced, codeRange]; decide +kernel
  · intro g h; revert g; decide +kernel
  · simp only [Sense.sound]; decide +kernel

/-- What that order books lies within the supply ceiling, its serial new. -/
theorem test_booked_within_the_ceiling :
    let t := ran (.burst 0) priced
    exec (.burst 0) priced = .next t ∧ priced.sched.nextSerial = 1 ∧
      t.sched.entries.map (fun e => (e.tag, e.serial, e.granted)) = [(5, 0, 192), (6, 1, 160)] ∧
      (List.range 160).all (fun g => decide (rowOf t.supply.map g ≤ t.supply.ceiling)) = true := by
  refine ⟨rfl, ?_⟩
  decide +kernel

/-- Quiet while UNSET, in a state that is not the reset state: zones have reported and a bank is about to be switched in. -/
theorem test_unset_is_quiet : (launching 1).quietInUnset := by
  intro _
  refine ⟨rfl, rfl, ?_, rfl, rfl, rfl, rfl, rfl, by decide +kernel, by decide +kernel, by decide +kernel⟩
  intro g
  simp only [rowOf, launching, gov, List.getD_eq_getElem?_getD, List.getElem?_replicate]
  split <;> rfl

/-- The laws' premises are met where a command does what they bound: an amendment, a switch, a boost request, an order made
ready. -/
theorem test_laws_at_work :
    let s := meets beforeX orderX
    let n : State := { pendingAt 1 with timer := (govAt 79).timer }
    let b := meets { warm with boost := State.reset.boost } orderX
    exec (.burst 0) s = .next (ran (.burst 0) s) ∧
      (∃ e ∈ s.sched.entries, ∃ f ∈ (ran (.burst 0) s).sched.entries, f.serial = e.serial ∧ f.granted < e.granted) ∧
      (ran (.timerFrameTurn .plain) n).tables.active = some .bank1 ∧ n.tables.active ≠ some .bank1 ∧
      (ran (.burst 0) b).link.orig = [Draft.boostRequest 10] ∧ (ran (.burst 0) b).boost.state = .requested ∧
      (ran (.burst 0) b).sched.entries.map (·.granted) = [184] ∧
      (ran (.burst 0) b).link.down.map (·.ready) = [true] := by
  refine ⟨rfl, ?_⟩
  decide +kernel

end Sys2Proof.Tests
end

section
/-! PROOFS. Law 2 and R47 as invariants: what keeps the schedule apart, the Supply Map in shape, the entries priced and the rows
carrying them, command by command. -/

namespace Sys2Proof.Machine

/-! ### Predicates of the tables, the schedule and the supply state -/

/-- One change of the Table Store that a command makes, with the guards under which the command makes it. -/
inductive TableStep (t : Tables) : Tables → Prop
  | advance (n : Nat) : TableStep t (t.advance n)
  | write (b : BankId) (a : Nat) (ws : List Word) (active : t.active ≠ some b) (pending : t.isPending b = false)
      (copy : t.copy = none) (fits : a + ws.length ≤ bankSize) :
      TableStep t ((t.setBank b ((t.bank b).writeAll a ws)).setMark b false)
  | launch (b : BankId) (free : t.launchBusy b = false) (passes : t.launchFault b = none) : TableStep t (t.accept b)
  | cancel (early : t.cancellable = true) : TableStep t t.cancel
  | startCopy (a : BankId) (tag : Nat) (active : t.active = some a) (pending : t.pending = none) (copy : t.copy = none) :
      TableStep t (t.startCopy a tag)
  | copyDone (c : CopyRun) (copy : t.copy = some c) : TableStep t (t.copyDone c)
  | copyEnd (c : CopyRun) (copy : t.copy = some c) : TableStep t (t.copyEnd c)
  | softReset (n : Nat) : TableStep t (t.softReset n)

theorem TableStep.sound {t u : Tables} (h : TableStep t u) (hs : t.sound) : u.sound := by
  cases h with
  | advance n => exact Tables.sound_advance hs n
  | write b a ws active pending copy fits => exact Tables.sound_write hs active pending copy fits
  | launch b free passes => exact Tables.sound_accept hs free passes
  | cancel early => exact Tables.sound_cancel hs
  | startCopy a tag active pending copy => exact Tables.sound_startCopy hs active pending tag
  | copyDone c copy => exact Tables.sound_copyDone hs copy
  | copyEnd c copy => exact Tables.sound_copyEnd hs copy
  | softReset n => exact Tables.sound_softReset hs n

/-- R130, Law 8: no command changes a bank in force for a frame of the window; only a frame turn does. -/
theorem TableStep.inForce {t u : Tables} (h : TableStep t u) (hs : t.sound) (slot : Slot) : u.inForce slot = t.inForce slot := by
  cases h with
  | advance n => exact Tables.inForce_advance hs n slot
  | write b a ws active pending copy fits =>
    refine Tables.inForce_of (fun c hc => ?_) (by simp) (fun c => by simp) slot
    have hne : c ≠ b := by
      rintro rfl
      rcases hc with hc | hc
      · exact active hc
      · simp [Tables.isPending, hc] at pending
    rw [Tables.bank_setMark, Tables.bank_setBank_other t _ hne]
  | launch b free passes =>
    have hp : t.pending = none := by
      simp only [Tables.launchBusy, Bool.or_eq_false_iff] at free
      simpa using free.1.2
    refine Tables.inForce_of (fun c _ => ?_) (by simp [Tables.accept]) (fun c => ?_) slot
    · show (t.setMark b true).bank c = t.bank c
      simp
    · simp [Tables.accept, hp]
  | cancel early => exact Tables.inForce_cancel early slot
  | startCopy a tag active pending copy =>
    refine Tables.inForce_of (fun c _ => ?_) (by simp [Tables.startCopy]) (fun c => by simp [Tables.startCopy]) slot
    show (t.setMark a.other false).bank c = t.bank c
    simp
  | copyDone c copy =>
    refine Tables.inForce_of (fun b hb => ?_) (by simp [Tables.copyDone]) (fun b => by simp [Tables.copyDone]) slot
    exact Tables.bank_setBank_other t _ (Tables.dest_ne hs copy b hb)
  | copyEnd c copy =>
    refine Tables.inForce_of (fun b hb => ?_) (by simp [Tables.copyEnd]) (fun b => by simp [Tables.copyEnd]) slot
    show ((t.setBank c.dest (t.bank c.source)).setMark c.dest true).bank b = t.bank b
    rw [Tables.bank_setMark]
    exact Tables.bank_setBank_other t _ (Tables.dest_ne hs copy b hb)
  | softReset n =>
    have hadv : ∀ slot, ({ t.advance n with copy := none } : Tables).inForce slot = t.inForce slot := fun slot =>
      (Tables.inForce_advance hs n slot)
    unfold Tables.softReset
    dsimp only
    split
    · rename_i hc
      rw [Tables.inForce_cancel hc, hadv]
    · exact hadv slot

/-- What a predicate that reads the tables, the schedule and the supply state alone has to meet, for every command to keep it:
the parts of the machine's work that write one of the three. -/
structure KeptByStores (P : State → Prop) : Prop where
  reads : ∀ s t, t.tables = s.tables → t.sched = s.sched → t.supply = s.supply → P s → P t
  tables : ∀ s t, TableStep s.tables t.tables → t.sched = s.sched → t.supply = s.supply → P s → P t
  grain : ∀ s, P s → P s.grainStep
  turn : ∀ s turn o, P s → P (s.frameTurn turn o)
  takeSupply : ∀ s mv, P s → P (s.takeSupply mv)
  takeTrip : ∀ s p, P s → P (s.takeTrip p)
  takeBurst : ∀ s p straps, P s → P (s.takeBurst p straps).1
  takeRevise : ∀ s p straps, P s → P (s.takeRevise p straps).1
  takeWithdraw : ∀ s p, P s → P (s.takeWithdraw p)
  makeRequested : ∀ s k, P s → P (s.makeRequested k)

/-- Everything else a command does leaves the tables, the schedule and the supply state. -/
theorem KeptByStores.kept {P : State → Prop} (k : KeptByStores P) : Kept P where
  grain := k.grain
  turn := fun s turn o _ h => k.turn s turn o h
  confirm := fun s _ _ h => k.reads s _ (by simp) (by simp) (by simp) h
  events := fun s _ h => k.reads s _ rfl rfl rfl h
  enter := fun s _ _ _ _ h => k.reads s _ rfl rfl rfl h
  queueCommand := fun s _ h => k.reads s _ (by simp) (by simp) (by simp) h
  takeTemp := fun s _ _ h => k.reads s _ (by simp) (by simp) (by simp) h
  takeReady := fun s h => k.reads s _ (by simp) (by simp) (by simp) h
  takeSupply := k.takeSupply
  takeTrip := k.takeTrip
  pins := fun s _ h => k.reads s _ rfl rfl rfl h
  takeBurst := k.takeBurst
  takeRevise := k.takeRevise
  takeWithdraw := k.takeWithdraw
  finishOrder := fun s _ _ h => k.reads s _ rfl rfl rfl h
  makeRequested := k.makeRequested
  takeCommand := fun s h => k.reads s _ (by simp) (by simp) (by simp) h
  answer := fun s _ _ _ h => k.reads s _ rfl rfl rfl h
  advance := fun s n h => k.tables s _ (.advance n) rfl rfl h
  setCap := fun s _ _ _ h => k.reads s _ rfl rfl rfl h
  barEnd := fun s _ _ h => k.reads s _ rfl rfl rfl h
  writeTable := fun s b a ws h active pending copy fits =>
    k.tables s _ (.write b a ws active pending copy fits) rfl rfl h
  launch := fun s b h free passes => k.tables s _ (.launch b free passes) rfl rfl h
  cancel := fun s h early => k.tables s _ (.cancel early) rfl rfl h
  startCopy := fun s a tag h active pending copy => k.tables s _ (.startCopy a tag active pending copy) rfl rfl h
  finishCopy := fun s h => by
    unfold State.finishCopy
    split
    · exact h
    · rename_i c hc
      split
      · exact k.tables s _ (.copyEnd c hc) rfl rfl h
      · exact k.tables s _ (.copyDone c hc) rfl rfl h
  softReset := fun s n p h => by
    have ht : TableStep s.tables (s.softReset n p).tables := by
      have : (s.softReset n p).tables = s.tables.softReset n := by simp [State.softReset]
      rw [this]
      exact .softReset n
    exact k.tables s _ ht (by simp) (by simp) h
  grantDown := fun s h => k.reads s _ rfl rfl rfl h
  grantUp := fun s c h => k.reads s _ (by simp) (by simp) (by simp) h
  update := fun s z _ h => k.reads s _ rfl rfl rfl h

/-- A predicate so kept and met by the reset values is kept by every step. -/
theorem KeptByStores.step {P : State → Prop} (k : KeptByStores P) (hreset : P State.reset) {s t : State} (hs : P s)
    (h : Sys2Proof.Machine.step s = .next t) : P t :=
  k.kept.step (fun _ _ => k.reads State.reset _ rfl rfl rfl hreset) (fun s _ hq => k.reads s _ rfl rfl rfl hq) hs h

/-! ### Law 2: the schedule apart, the Supply Map in shape -/

/-- Law 2 and R47: the schedule is sound and the supply state has its shape. -/
def State.apart (s : State) : Prop := s.sched.sound ∧ s.supply.sound

theorem reset_apart : State.reset.apart := by
  refine ⟨⟨by decide, List.Pairwise.nil, fun e he => by cases he⟩, ?_, by decide, by decide⟩
  exact List.length_replicate

theorem takeSupply_sound {s : State} (h : s.supply.sound) (mv : Nat) : (s.takeSupply mv).supply.sound :=
  ⟨h.1, Nat.min_le_left _ _, Nat.zero_le _⟩

theorem frameTurn_supply_sound {s : State} (h : s.supply.sound) (turn : Turn) (o : TurnOrder) :
    (s.frameTurn turn o).supply.sound := by
  obtain ⟨hv, _, ha, hm⟩ := frameTurn_supplyFields s turn o
  refine ⟨?_, ?_, ?_⟩
  · rw [hm]; exact shiftRows_length h.1
  · rw [hv]; exact h.2.1
  · rw [ha]; exact Nat.min_le_left _ _

theorem frameTurn_sched_sound {s : State} (h : s.sched.sound) (turn : Turn) (o : TurnOrder) :
    (s.frameTurn turn o).sched.sound := by
  rw [frameTurn_sched]
  exact Schedule.sound_commit (Schedule.sound_relabel h) _ _

theorem takeWithdraw_shape (s : State) (p : Packet) : s.supply.sameShape (s.takeWithdraw p).supply := by
  unfold State.takeWithdraw
  split
  · split
    · exact addSpan_shape _ _ _ _
    · exact Headroom.sameShape_refl _
  · exact Headroom.sameShape_refl _

/-- Law 2 as an invariant of every command (R24, R28, R29, R44, R47). -/
theorem apart_kept : KeptByStores State.apart where
  reads := fun s t _ hsched hsupply h => by unfold State.apart; rw [hsched, hsupply]; exact h
  tables := fun s t _ hsched hsupply h => by unfold State.apart; rw [hsched, hsupply]; exact h
  grain := fun s h => ⟨grainStep_sound h.1, Headroom.sound_of h.2 (grainStep_shape s)⟩
  turn := fun s turn o h => ⟨frameTurn_sched_sound h.1 turn o, frameTurn_supply_sound h.2 turn o⟩
  takeSupply := fun s mv h => ⟨by simpa using h.1, takeSupply_sound h.2 mv⟩
  takeTrip := fun s p h => ⟨by simpa using h.1, Headroom.sound_of h.2 (takeTrip_shape s p)⟩
  takeBurst := fun s p straps h => ⟨takeBurst_sound h.1 p straps, Headroom.sound_of h.2 (takeBurst_shape s p straps)⟩
  takeRevise := fun s p straps h => ⟨takeRevise_sound h.1 p straps, Headroom.sound_of h.2 (takeRevise_shape s p straps)⟩
  takeWithdraw := fun s p h => ⟨takeWithdraw_sound h.1 p, Headroom.sound_of h.2 (takeWithdraw_shape s p)⟩
  makeRequested := fun s k h => ⟨makeRequested_sound h.1 k, Headroom.sound_of h.2 (makeRequested_shape s k)⟩

end Sys2Proof.Machine
end

section
/-! PROOFS. The supply ceiling through the commands, and the entries priced on rows that carry them (Law 1, R4, R47). -/

namespace Sys2Proof.Machine

/-! ### What an operation on the schedule leaves of the supply state -/

/-- Two supply states differ at most in their rows and in the requests in progress. -/
def Headroom.sameReport (h h' : Headroom) : Prop := h' = { h with map := h'.map, requests := h'.requests }

theorem Headroom.sameReport_trans {a b c : Headroom} (h : a.sameReport b) (g : b.sameReport c) : a.sameReport c := by
  unfold Headroom.sameReport at *
  rw [g, h]

theorem Headroom.sameReport_ceiling {h h' : Headroom} (g : h.sameReport h') : h'.ceiling = h.ceiling := by
  rw [show h' = { h with map := h'.map, requests := h'.requests } from g]

theorem addSpan_report (h : Headroom) (lo len : Nat) (d : Int) : h.sameReport (h.addSpan lo len d) := rfl

theorem amendSerial_report (s : State) (n : Nat) (code : Int) : s.supply.sameReport (s.amendSerial n code).supply := by
  unfold State.amendSerial
  split <;> rfl

theorem commitPlan_report (plan : List (Nat × Int)) (s : State) : s.supply.sameReport (s.commitPlan plan).supply := by
  induction plan generalizing s with
  | nil => rfl
  | cons a rest ih => exact Headroom.sameReport_trans (amendSerial_report s a.1 a.2) (ih (s.amendSerial a.1 a.2))

theorem admission_report (s : State) (o : Order) : s.supply.sameReport (s.admission o).1.supply := by
  unfold State.admission
  dsimp only
  refine Headroom.sameReport_trans ?_ (Headroom.sameReport_trans (commitPlan_report _ _) rfl)
  split
  · rw [(boostDemand_frame s).2.2.2.1]; rfl
  · rfl

theorem supersede_report (s : State) (o : Order) : s.supply.sameReport (s.supersede o).supply := by
  unfold State.supersede
  generalize s.sched.overlapping o = es
  induction es generalizing s with
  | nil => rfl
  | cons e es ih => exact Headroom.sameReport_trans (addSpan_report _ _ _ _) (ih (s.freeEntry e))

theorem bookBurst_report (s : State) (p : Packet) (o : Order) : s.supply.sameReport (s.bookBurst p o).1.supply := by
  unfold State.bookBurst
  split
  · rfl
  · dsimp only
    split
    · exact supersede_report s o
    · exact Headroom.sameReport_trans (supersede_report s o) (admission_report _ o)

theorem takeBurst_report (s : State) (p : Packet) (straps : BitVec 2) :
    s.supply.sameReport (s.takeBurst p straps).1.supply := by
  unfold State.takeBurst
  split
  · rfl
  · dsimp only
    split
    · exact bookBurst_report _ _ _
    · exact bookBurst_report _ _ _
    · rfl

theorem takeRevise_report (s : State) (p : Packet) (straps : BitVec 2) :
    s.supply.sameReport (s.takeRevise p straps).1.supply := by
  unfold State.takeRevise
  dsimp only
  split
  · rfl
  · split
    · rfl
    · rename_i e _
      split
      · exact Headroom.sameReport_trans (addSpan_report _ _ _ _) (admission_report (s.freeEntry e) _)
      · unfold State.lowerCommitted
        split <;> rfl

theorem takeWithdraw_report (s : State) (p : Packet) : s.supply.sameReport (s.takeWithdraw p).supply := by
  unfold State.takeWithdraw
  (repeat' split) <;> rfl

theorem makeRequested_report (s : State) (k : Nat) : s.supply.sameReport (s.makeRequested k).supply := by
  unfold State.makeRequested
  dsimp only
  (repeat' split) <;> rfl

/-- A trip changes of the supply state the requests in progress alone (R58, R59). -/
theorem takeTrip_supply (s : State) (p : Nat) :
    (s.takeTrip p).supply = { s.supply with requests := (s.takeTrip p).supply.requests } := by
  unfold State.takeTrip
  split
  · rfl
  · dsimp only
    split
    · rfl
    · unfold State.takeRequest?
      split
      · rw [takeRequest_supply]; rfl
      · rfl

theorem takeTrip_report (s : State) (p : Nat) : s.supply.sameReport (s.takeTrip p).supply := by
  unfold Headroom.sameReport
  rw [takeTrip_supply]

theorem windowEnd_report (s : State) : s.supply.sameReport s.windowEnd.supply := by
  unfold Headroom.sameReport State.windowEnd
  rw [safeRequest_supply]

theorem grainStep_report (s : State) : s.supply.sameReport s.grainStep.supply := by
  by_cases hg : s.timer.grain < 79
  · have hw : s.supply.sameReport (s.grainWork (s.timer.grain + 1)).supply := by rw [grainWork_supply]; rfl
    rw [grainStep_cases hg]
    split
    · exact Headroom.sameReport_trans hw (windowEnd_report _)
    · exact hw
  · unfold State.grainStep; rw [if_neg hg]; rfl

/-! ### The supply ceiling where it is computed anew -/

/-- R46: with the banks sound S is a current of the supply curve's range. -/
theorem supplyCeiling_le {s : State} (ht : s.tables.sound) : s.supplyCeiling ≤ 8191 := by
  have hg := bankFor_governs ht .current
  unfold State.supplyCeiling
  split
  · decide
  · split
    · exact hg.supplyFloor.2
    · split
      · exact hg.supplyFloor.2
      · exact (hg.supplyCurve _).2

theorem takeSupply_ceiling {s : State} (ht : s.tables.sound) (mv : Nat) : (s.takeSupply mv).supply.ceiling ≤ 8191 := by
  unfold State.takeSupply State.recomputeSupply
  exact supplyCeiling_le ht

theorem frameTurn_ceiling {s : State} (ht : s.tables.sound) (turn : Turn) (o : TurnOrder) :
    (s.frameTurn turn o).supply.ceiling ≤ 8191 := by
  have hg := bankBegun_governs ht
  rw [frameTurn_supply]
  dsimp only
  split
  · decide
  · split
    · exact hg.supplyFloor.2
    · exact (hg.supplyCurve _).2

/-! ### The invariant -/

/-- What keeps the entries priced and the rows carrying them: banks that govern, entries apart, a map in shape, S no higher than
a row may stand (R47). -/
structure State.carried (s : State) : Prop where
  tables : s.tables.sound
  apart : s.apart
  ceiling : s.supply.ceiling ≤ 8191
  stocked : s.stocked

/-- The part after hardware reset holds no entry and no reservation (R42, R47, R123). -/
theorem reset_carried : State.reset.carried where
  tables := Tables.sound_mk (fun b => by cases b <;> rfl) (fun b hb => by cases b <;> cases hb) (fun b hb => by cases hb)
    (fun b n hb => by cases hb) (fun c hc => by cases hc)
  apart := reset_apart
  ceiling := by decide
  stocked := by
    refine (stocked_iff _).2 ⟨fun e he => (by cases he), fun g hg => ?_⟩
    have h0 : rowOf State.reset.supply.map g = 0 := by
      show (List.replicate 160 (0 : Int)).getD g 0 = 0
      rw [List.getD_eq_getElem?_getD, List.getElem?_replicate, if_pos hg]
      rfl
    rw [h0]
    exact ⟨le_refl 0, by decide⟩

/-- The tables and the ceiling left as they are. -/
theorem State.carried.of_report {s t : State} (h : s.carried) (ht : t.tables = s.tables) (ha : t.apart)
    (hr : s.supply.sameReport t.supply) (hk : t.stocked) : t.carried where
  tables := ht ▸ h.tables
  apart := ha
  ceiling := (Headroom.sameReport_ceiling hr).trans_le h.ceiling
  stocked := hk

/-- Laws 1 and 2 with R4 and R47, as an invariant of every command. -/
theorem carried_kept : KeptByStores State.carried where
  reads := fun s t htables hsched hsupply h =>
    h.of_report htables (apart_kept.reads s t htables hsched hsupply h.apart) (by rw [hsupply]; rfl)
      (stocked_congr h.stocked htables hsched (by rw [hsupply]))
  tables := fun s t hstep hsched hsupply h =>
    { tables := hstep.sound h.tables
      apart := apart_kept.tables s t hstep hsched hsupply h.apart
      ceiling := by rw [hsupply]; exact h.ceiling
      stocked := stocked_force h.stocked (hstep.inForce h.tables) hsched (by rw [hsupply]) }
  grain := fun s h => h.of_report (by simp) (apart_kept.grain s h.apart) (grainStep_report s)
    (grainStep_stocked h.tables h.stocked)
  turn := fun s turn o h =>
    { tables := by rw [frameTurn_tables]; exact Tables.sound_turned h.tables
      apart := apart_kept.turn s turn o h.apart
      ceiling := frameTurn_ceiling h.tables turn o
      stocked := frameTurn_stocked h.tables h.apart.1 h.apart.2.1 h.stocked turn o }
  takeSupply := fun s mv h =>
    { tables := by simpa using h.tables
      apart := apart_kept.takeSupply s mv h.apart
      ceiling := takeSupply_ceiling h.tables mv
      stocked := stocked_congr h.stocked (by simp) (by simp) rfl }
  takeTrip := fun s p h => h.of_report (by simp) (apart_kept.takeTrip s p h.apart) (takeTrip_report s p)
    (stocked_congr h.stocked (by simp) (by simp) (by rw [takeTrip_supply]))
  takeBurst := fun s p straps h => h.of_report (by simp) (apart_kept.takeBurst s p straps h.apart) (takeBurst_report s p straps)
    (takeBurst_carries h.tables h.apart.1 h.apart.2.1 h.stocked h.ceiling p straps).1
  takeRevise := fun s p straps h => h.of_report (by simp) (apart_kept.takeRevise s p straps h.apart)
    (takeRevise_report s p straps) (takeRevise_carries h.tables h.apart.1 h.apart.2.1 h.stocked h.ceiling p straps).1
  takeWithdraw := fun s p h => h.of_report (by simp) (apart_kept.takeWithdraw s p h.apart) (takeWithdraw_report s p)
    (takeWithdraw_stocked h.tables h.apart.1 h.apart.2.1 h.stocked p)
  makeRequested := fun s k h => h.of_report (by simp) (apart_kept.makeRequested s k h.apart) (makeRequested_report s k)
    (makeRequested_stocked h.tables h.apart.1 h.apart.2.1 h.stocked k)

/-- Settles O56: Law 2 is `apart_kept`, pricing and the map's rows are `carried_kept`. -/
theorem everyStepKeepsTheScheduleSound : Obligations.EveryStepKeepsTheScheduleSound := by
  refine ⟨fun s t hsched hsupply hstep => apart_kept.step reset_apart ⟨hsched, hsupply⟩ hstep, ?_⟩
  intro s t htables hsched hsupply hranged hpriced hmap hstep
  have hcarried : s.carried := ⟨htables, ⟨hsched, hsupply⟩, hranged.1.2, hpriced, hmap⟩
  exact (carried_kept.step reset_carried hcarried hstep).stocked

end Sys2Proof.Machine
end

section
/-! PROOFS. The orders: a BURST, a REVISE and a received AMEND as the commands make them, in UNSET and outside it. -/

namespace Sys2Proof.Machine

/-! ### An order taken, the straps read -/

/-- The part when the handling of an order is complete: the straps stand as they were read (log 12), the code granted is written
into the order's packet, which is ready (R17, R19, R152). -/
def State.orderDone (s : State) (straps : BitVec 2) (r : State × Int) : State :=
  { r.1 with
    pins := { s.pins with straps := straps }
    link := r.1.link.finishOrder fun q => q.setPower r.2 }

/-- A rule that does not look at the pins takes the order next to be taken. -/
theorem takeOrder_done {s : State} {p : Packet} {kind : Nat} {straps : BitVec 2}
    {take : State → Packet → BitVec 2 → State × Int} (hn : s.link.nextOrder = some p) (hk : p.kind = kind)
    (hp : ∀ P, take (s.withPins P) p straps = ((take s p straps).1.withPins P, (take s p straps).2)) :
    s.takeOrder kind straps take = s.orderDone straps (take s p straps) := by
  rw [takeOrder_of hn hk]
  change (take (s.withPins { s.pins with straps := straps }) p straps).1.writePower
    (take (s.withPins { s.pins with straps := straps }) p straps).2 = _
  rw [hp]
  rfl

theorem exec_burst {s : State} {p : Packet} (straps : BitVec 2) (hr : s.pins.resetN = true)
    (hn : s.link.nextOrder = some p) (hk : p.kind = 2) :
    exec (.burst straps) s = .next (s.orderDone straps (s.takeBurst p straps)) := by
  rw [exec_effect (by simp) (by simp) hr]
  exact congrArg _ (takeOrder_done hn hk fun P => takeBurst_pins s P p straps)

theorem exec_revise {s : State} {p : Packet} (straps : BitVec 2) (hr : s.pins.resetN = true)
    (hn : s.link.nextOrder = some p) (hk : p.kind = 4) :
    exec (.revise straps) s = .next (s.orderDone straps (s.takeRevise p straps)) := by
  rw [exec_effect (by simp) (by simp) hr]
  exact congrArg _ (takeOrder_done hn hk fun P => takeRevise_pins s P p straps)

/-- R39: a received AMEND is handled as a REVISE. -/
theorem exec_amendReceived {s : State} {p : Packet} (straps : BitVec 2) (hr : s.pins.resetN = true)
    (hn : s.link.nextOrder = some p) (hk : p.kind = 5) :
    exec (.amendReceived straps) s = .next (s.orderDone straps (s.takeRevise p straps)) := by
  rw [exec_effect (by simp) (by simp) hr]
  exact congrArg _ (takeOrder_done hn hk fun P => takeRevise_pins s P p straps)

/-- Where the handling leaves the link but for the Originated Queue, the downstream Pass Buffer is rewritten at the order's place
alone. -/
theorem orderDone_down {s : State} {r : State × Int} (h : s.link.sameBut r.1.link) (straps : BitVec 2) :
    (s.orderDone straps r).link.down = (s.link.finishOrder fun q => q.setPower r.2).down := by
  show finishFirst _ r.1.link.down = finishFirst _ s.link.down
  rw [Link.sameBut_down h]

/-! ### UNSET (R17) -/

theorem takeBurst_unset {s : State} (h : s.timer.mode = .unset) (p : Packet) (straps : BitVec 2) :
    s.takeBurst p straps = (s, strapGrant (clampRequest p.power) straps) := by
  unfold State.takeBurst
  rw [if_pos h]

theorem takeRevise_unset {s : State} (h : s.timer.mode = .unset) (p : Packet) (straps : BitVec 2) :
    s.takeRevise p straps = (s, strapGrant (clampRequest p.power) straps) := by
  unfold State.takeRevise
  dsimp only
  rw [if_pos h]

/-- Settles O31: in UNSET the rule of each kind answers the state and the strap grant. -/
theorem unsetOrdersMeetTheStrapCeiling : Obligations.UnsetOrdersMeetTheStrapCeiling := by
  intro s p straps hr hm hn ceiling after
  have hdone : s.orderDone straps (s, strapGrant (clampRequest p.power) straps) = after := rfl
  refine ⟨fun hk => ?_, fun hk => ?_, fun hk => ?_⟩
  · rw [exec_burst straps hr hn hk, takeBurst_unset hm, hdone]
  · rw [exec_revise straps hr hn hk, takeRevise_unset hm, hdone]
  · rw [exec_amendReceived straps hr hn hk, takeRevise_unset hm, hdone]

/-! ### A BURST outside UNSET, by its timing and by the schedule it meets (R20 to R24) -/

/-- The classification of a BURST by its timing alone (R22). -/
def State.burstTiming (s : State) (p : Packet) : Classification :=
  s.timing (s.frameSlot p.orderFrame) p.orderStart (burstLength p.orderStart p.orderLength)

/-- The slot a BURST is booked for; the current one where its frame lies out of the window, where it is not booked. -/
def State.burstSlot (s : State) (p : Packet) : Slot := (s.frameSlot p.orderFrame).getD .current

theorem takeBurst_untimely {s : State} {p : Packet} (hm : s.timer.mode ≠ .unset)
    (ht : s.burstTiming p = .outOfWindow ∨ s.burstTiming p = .past) (straps : BitVec 2) :
    s.takeBurst p straps = s.refuseBurst p .lateOrder := by
  unfold State.burstTiming at ht
  unfold State.takeBurst
  rw [if_neg hm]
  dsimp only
  rcases ht with ht | ht <;> rw [ht]

theorem takeBurst_timely {s : State} {p : Packet} {late : Bool} (hm : s.timer.mode ≠ .unset)
    (ht : s.burstTiming p = if late then .late else .normal) (straps : BitVec 2) :
    s.takeBurst p straps = s.bookBurst p (burstOrder p (s.burstSlot p) late) := by
  unfold State.burstTiming at ht
  unfold State.takeBurst
  rw [if_neg hm]
  dsimp only
  cases late <;> (rw [ht]; rfl)

theorem mem_overlapping {c : Schedule} {o : Order} {e : Entry} :
    e ∈ c.overlapping o ↔ e ∈ c.entries ∧ o.collides e = true := List.mem_filter

theorem collides_iff {o : Order} {e : Entry} :
    o.collides e = true ↔ e.path = o.path ∧ e.slot = o.slot ∧ spansMeet e.start e.length o.start o.length = true := by
  simp [Order.collides, and_assoc]

theorem overlapping_nil {c : Schedule} {o : Order} (h : ∀ e ∈ c.entries, o.collides e = false) : c.overlapping o = [] := by
  refine List.eq_nil_iff_forall_not_mem.2 fun e he => ?_
  obtain ⟨hmem, hmeet⟩ := mem_overlapping.1 he
  rw [h e hmem] at hmeet
  cases hmeet

theorem supersede_of_apart {s : State} {o : Order} (h : ∀ e ∈ s.sched.entries, o.collides e = false) : s.supersede o = s := by
  unfold State.supersede
  rw [overlapping_nil h]
  rfl

theorem bookBurst_committed {s : State} {o : Order} (h : ∃ e ∈ s.sched.entries, o.collides e = true ∧ e.state = .committed)
    (p : Packet) : s.bookBurst p o = s.refuseBurst p .lateOrder := by
  obtain ⟨e, hmem, hmeet, hstate⟩ := h
  unfold State.bookBurst
  rw [if_pos (List.any_eq_true.2 ⟨e, mem_overlapping.2 ⟨hmem, hmeet⟩, by rw [hstate]; rfl⟩)]

theorem bookBurst_uncommitted {s : State} {o : Order} (h : ∀ e ∈ s.sched.entries, o.collides e = true → e.state = .booked)
    (p : Packet) :
    s.bookBurst p o =
      if 32 ≤ (s.supersede o).sched.entries.length then (s.supersede o).refuseBurst p .schedFull
      else (((s.supersede o).admission o).1.raiseIf o.late .lateOrder, ((s.supersede o).admission o).2) := by
  have hany : ((s.sched.overlapping o).any fun e => e.state == .committed) = false := by
    refine List.any_eq_false.2 fun e he => ?_
    rw [h e (mem_overlapping.1 he).1 (mem_overlapping.1 he).2]
    decide
  unfold State.bookBurst
  rw [hany]
  rfl

/-! ### Charges and spans -/

theorem charge_acc (h : Heat) (path : Fin 4) (amount : Int) (i : Fin 4) :
    (h.charge path amount).acc.get i = if i = path then min 2147483647 (h.acc.get i + amount) else h.acc.get i := by
  unfold Heat.charge
  rw [Four.get_set]
  split
  · rename_i hi; rw [hi]; rfl
  · rfl

/-- Two spans of a grain at least meet exactly where they share one: the later of the two first grains. -/
theorem spansMeet_iff {lo len lo' len' : Nat} (h : 1 ≤ len) (h' : 1 ≤ len') :
    spansMeet lo len lo' len' = true ↔ ∃ g, lo ≤ g ∧ g < lo + len ∧ lo' ≤ g ∧ g < lo' + len' := by
  simp only [spansMeet, Bool.and_eq_true, decide_eq_true_eq]
  constructor
  · rintro ⟨h1, h2⟩
    exact ⟨max lo lo', by omega⟩
  · rintro ⟨g, h1, h2, h3, h4⟩
    omega

/-- Settles O32: each of the four grounds of R25 leads to `State.refuseBurst`. -/
theorem unbookedBurstIsChargedAtOnce : Obligations.UnbookedBurstIsChargedAtOnce := by
  refine ⟨fun h path amount => ⟨rfl, charge_acc h path amount⟩, fun lo len lo' len' h h' => spansMeet_iff h h', ?_⟩
  intro s p straps hr hm hn hk b len grant heat timing slot overlaps after
  have hrefused : ∀ f, s.orderDone straps (s.refuseBurst p f) = after f := fun f => rfl
  refine ⟨fun ht => ?_, fun ht => ?_⟩
  · rw [exec_burst straps hr hn hk, takeBurst_untimely hm ht, hrefused]
  · obtain ⟨late, hlate⟩ : ∃ late : Bool, s.burstTiming p = if late then .late else .normal := by
      rcases ht with ht | ht
      · exact ⟨false, ht⟩
      · exact ⟨true, ht⟩
    have hmeets : ∀ e, (burstOrder p (s.burstSlot p) late).collides e = true ↔ overlaps e := fun e => collides_iff
    rw [exec_burst straps hr hn hk, takeBurst_timely hm hlate]
    refine ⟨fun ⟨e, hmem, hover, hstate⟩ => ?_, fun hnone hfull => ?_⟩
    · rw [bookBurst_committed ⟨e, hmem, (hmeets e).2 hover, hstate⟩, hrefused]
    · have hapart : ∀ e ∈ s.sched.entries, (burstOrder p (s.burstSlot p) late).collides e = false := fun e he =>
        Bool.eq_false_iff.2 fun hc => hnone e he ((hmeets e).1 hc)
      rw [bookBurst_uncommitted (fun e he hc => by rw [hapart e he] at hc; cases hc), supersede_of_apart hapart,
        if_pos hfull, hrefused]

end Sys2Proof.Machine
end

section
/-! PROOFS. A BURST that is booked: at its first grant where that fits, in full otherwise; Laws 1 and 3 for every order. -/

namespace Sys2Proof.Machine

/-! ### An admission whose first grant fits (R50, R53) -/

theorem fit_first {s : State} {w : WorkingRecord} (hl : 1 ≤ w.order.length) (hq : w.order.request ≠ muteCode)
    (hfit : rowsFit s.supply.ceiling s.supply.map w.row w.order.length (w.current w.firstGrant)) :
    s.fit w = ⟨w.firstGrant, w.terms.reason w.order.request, [], false⟩ := by
  unfold State.fit
  dsimp only
  rw [if_neg hq, if_pos ((spanHeadroom_iff hl).2 hfit)]

/-- The state after the boost demand of an order, where it makes one (R13, R63). -/
def State.demanded (s : State) (o : Order) : State :=
  if (s.workingRecord o).terms.demandsBoost o.request then s.boostDemand else s

@[simp] theorem demanded_frame (s : State) (o : Order) :
    (s.demanded o).timer = s.timer ∧ (s.demanded o).sched = s.sched ∧ (s.demanded o).supply = s.supply ∧
    (s.demanded o).heat = s.heat ∧ (s.demanded o).sense = s.sense ∧ (s.demanded o).control = s.control ∧
    (s.demanded o).path = s.path ∧ (s.demanded o).tables = s.tables ∧ (s.demanded o).engine = s.engine ∧
    (s.demanded o).events = s.events := by
  unfold State.demanded
  split <;> simp

theorem demanded_link (s : State) (o : Order) : s.link.sameBut (s.demanded o).link := by
  unfold State.demanded
  split
  · exact boostDemand_link s
  · rfl

/-- The entry an order is booked as at its first grant (R28). -/
def State.firstEntry (s : State) (o : Order) : Entry :=
  (s.workingRecord o).entry s.sched.nextSerial (s.workingRecord o).firstGrant ((s.workingRecord o).terms.reason o.request)

/-- R18, R53: an order whose first grant fits is booked at it and amends nothing. -/
theorem admission_first {s : State} {o : Order} (hl : 1 ≤ o.length) (hq : o.request ≠ muteCode)
    (hfit : rowsFit s.supply.ceiling s.supply.map (s.workingRecord o).row o.length
      ((s.workingRecord o).current (s.workingRecord o).firstGrant)) :
    s.admission o =
      ({ (s.demanded o).book (s.firstEntry o) with
          boost := (s.demanded o).boost.noteGrant
            ((s.workingRecord o).terms.boostThreshold < (s.workingRecord o).firstGrant) },
        (s.workingRecord o).firstGrant) := by
  have hsupply : (s.demanded o).supply = s.supply := (demanded_frame s o).2.2.1
  have hf : (s.demanded o).fit (s.workingRecord o) =
      ⟨(s.workingRecord o).firstGrant, (s.workingRecord o).terms.reason o.request, [], false⟩ := by
    refine fit_first hl hq ?_
    rw [hsupply]
    exact hfit
  unfold State.demanded at hf
  unfold State.admission
  dsimp only
  rw [hf]
  rfl

/-! ### A BURST that can be booked -/

theorem burstTiming_of {s : State} {p : Packet} {slot : Slot} (h : s.frameSlot p.orderFrame = some slot) :
    s.burstTiming p = s.timing (some slot) p.orderStart (burstLength p.orderStart p.orderLength) := by
  unfold State.burstTiming
  rw [h]

theorem burstSlot_of {s : State} {p : Packet} {slot : Slot} (h : s.frameSlot p.orderFrame = some slot) :
    s.burstSlot p = slot := by
  unfold State.burstSlot
  rw [h]
  rfl

/-- R21: a BURST classed Normal or Late has a span within its frame. -/
theorem burst_span {s : State} {p : Packet} {late : Bool} (ht : s.burstTiming p = if late then .late else .normal) :
    1 ≤ burstLength p.orderStart p.orderLength ∧ p.orderStart + burstLength p.orderStart p.orderLength ≤ 80 := by
  unfold State.burstTiming at ht
  refine burstLength_ok (timing_start (s := s) (slot := s.frameSlot p.orderFrame)
    (len := burstLength p.orderStart p.orderLength) ?_)
  cases late
  · exact Or.inl ht
  · exact Or.inr ht

/-- Where no COMMITTED entry overlaps and a place is left once the BOOKED ones that overlap are gone, a timely BURST supersedes
these and is admitted (R23, R24). -/
theorem takeBurst_booked {s : State} {p : Packet} {slot : Slot} {late : Bool} (hm : s.timer.mode ≠ .unset)
    (hf : s.frameSlot p.orderFrame = some slot) (ht : s.burstTiming p = if late then .late else .normal)
    (hb : ∀ e ∈ s.sched.entries, (burstOrder p slot late).collides e = true → e.state = .booked)
    (hl : (s.supersede (burstOrder p slot late)).sched.entries.length < 32) (straps : BitVec 2) :
    s.takeBurst p straps =
      (((s.supersede (burstOrder p slot late)).admission (burstOrder p slot late)).1.raiseIf late .lateOrder,
        ((s.supersede (burstOrder p slot late)).admission (burstOrder p slot late)).2) := by
  rw [takeBurst_timely hm ht, burstSlot_of hf, bookBurst_uncommitted hb, if_neg (not_le.2 hl)]
  rfl

/-- O33, first half: no entry overlaps and the first grant fits every row. -/
theorem fitting_burst_booked {s : State} {p : Packet} {slot : Slot} {late : Bool} (hm : s.timer.mode ≠ .unset)
    (hf : s.frameSlot p.orderFrame = some slot) (ht : s.burstTiming p = if late then .late else .normal)
    (hapart : ∀ e ∈ s.sched.entries, (burstOrder p slot late).collides e = false) (hplace : s.sched.entries.length < 32)
    (hq : clampRequest p.power ≠ muteCode)
    (hfit : rowsFit s.supply.ceiling s.supply.map (s.workingRecord (burstOrder p slot late)).row
      (burstLength p.orderStart p.orderLength)
      ((s.workingRecord (burstOrder p slot late)).current (s.workingRecord (burstOrder p slot late)).firstGrant))
    (straps : BitVec 2) :
    s.takeBurst p straps =
      (({ (s.demanded (burstOrder p slot late)).book (s.firstEntry (burstOrder p slot late)) with
          boost := (s.demanded (burstOrder p slot late)).boost.noteGrant
            ((s.workingRecord (burstOrder p slot late)).terms.boostThreshold <
              (s.workingRecord (burstOrder p slot late)).firstGrant) } : State).raiseIf late .lateOrder,
        (s.workingRecord (burstOrder p slot late)).firstGrant) := by
  have hself := supersede_of_apart hapart
  rw [takeBurst_booked hm hf ht (fun e he hc => by rw [hapart e he] at hc; cases hc) (by rw [hself]; exact hplace), hself,
    admission_first (burst_span ht).1 hq hfit]

/-- Settles O33, by `fitting_burst_booked` and `admission_admits`. -/
theorem fittingBurstIsBookedAtItsFirstGrant : Obligations.FittingBurstIsBookedAtItsFirstGrant := by
  refine ⟨?_, ?_⟩
  · intro s p straps slot late hr hm hn hk hf len ht hnone hplace b r req c row cur hq hfit
    have htiming := (burstTiming_of hf).trans ht
    have hapart : ∀ e ∈ s.sched.entries, (burstOrder p slot late).collides e = false := fun e he =>
      Bool.eq_false_iff.2 fun hc => hnone e he (collides_iff.1 hc)
    have htake := fitting_burst_booked hm hf htiming hapart hplace hq hfit straps
    obtain ⟨dtimer, dsched, dsupply, dheat, dsense, dcontrol, dpath, dtables, dengine, devents⟩ :=
      demanded_frame s (burstOrder p slot late)
    refine ⟨_, s.firstEntry (burstOrder p slot late), exec_burst straps hr hn hk, ?_⟩
    rw [htake]
    refine ⟨?_, rfl, rfl, rfl, rfl, rfl, rfl, rfl, rfl, rfl, rfl, rfl, rfl, rfl, rfl, rfl, rfl, ?_, ?_, ?_, ?_,
      dheat, dpath, dcontrol, dsense, dtables, dtimer, dengine⟩
    · exact congrArg (fun c : Schedule => c.entries ++ [s.firstEntry (burstOrder p slot late)]) dsched
    · exact congrArg (fun h : Headroom => h.addSpan row len cur) dsupply
    · have hlink := demanded_link s (burstOrder p slot late)
      exact congrArg (fun l : Link => l.finishOrder fun q => q.setPower (c.firstGrant req)) hlink
    · rintro rfl
      exact Events.has_raise_self _ _
    · rintro rfl
      exact devents
  · intro s p straps slot late hs hr hm hn hk hf len ht overlaps kept hbooked hplace freed
    have htiming := (burstTiming_of hf).trans ht
    have hfreed : s.supersede (burstOrder p slot late) = freed := supersede_eq hs _
    have hsound : freed.sched.sound := Schedule.sound_sublist hs List.filter_sublist (le_refl _)
    have htake := takeBurst_booked hm hf htiming hbooked (by rw [hfreed]; exact hplace) straps
    rw [hfreed] at htake
    refine ⟨_, _, admission_admits hsound (o := burstOrder p slot late) (Nat.mod_lt _ (by decide)) (burst_span htiming).1, ?_⟩
    rw [exec_burst straps hr hn hk, htake]
    cases late <;> rfl

/-! ### Laws 1 and 3 -/

/-- What taking an order comes to, whether or not it is there: nothing, or the handling of the order next to be taken. -/
theorem takeOrder_cases {s : State} {kind : Nat} {straps : BitVec 2} {take : State → Packet → BitVec 2 → State × Int}
    (hp : ∀ p P, take (s.withPins P) p straps = ((take s p straps).1.withPins P, (take s p straps).2)) :
    s.takeOrder kind straps take = s ∨ ∃ p, s.takeOrder kind straps take = s.orderDone straps (take s p straps) := by
  cases hn : s.link.nextOrder with
  | none => left; unfold State.takeOrder; rw [hn]
  | some p =>
    by_cases hk : p.kind = kind
    · exact Or.inr ⟨p, takeOrder_done hn hk (hp p)⟩
    · left; unfold State.takeOrder; rw [hn]; exact if_neg hk

/-- Law 3 for the three orders that book (R56): what `State.carries` says of the step each command makes. -/
theorem exec_order_carries {s t : State} {straps : BitVec 2} {c : Instr} (h : s.carried)
    (hc : c = .burst straps ∨ c = .revise straps ∨ c = .amendReceived straps) (he : exec c s = .next t) : s.carries t := by
  obtain ⟨htables, ⟨hsched, hsupply⟩, hceiling, hstocked⟩ := h
  have same : s.carries s := carries_old hstocked hsched (le_refl _)
  have burst : ∀ kind, s.carries (s.takeOrder kind straps State.takeBurst) := fun kind => by
    rcases takeOrder_cases (s := s) (kind := kind) (straps := straps) fun p P => takeBurst_pins s P p straps with e | ⟨p, e⟩
    · rw [e]; exact same
    · rw [e]; exact takeBurst_carries htables hsched hsupply.1 hstocked hceiling p straps
  have revise : ∀ kind, s.carries (s.takeOrder kind straps State.takeRevise) := fun kind => by
    rcases takeOrder_cases (s := s) (kind := kind) (straps := straps) fun p P => takeRevise_pins s P p straps with e | ⟨p, e⟩
    · rw [e]; exact same
    · rw [e]; exact takeRevise_carries htables hsched hsupply.1 hstocked hceiling p straps
  rcases exec_cases he with rfl | ⟨hreset, _⟩ | ⟨_, _, _, rfl⟩
  · exact same
  · rcases hc with rfl | rfl | rfl <;> simp at hreset
  · rcases hc with rfl | rfl | rfl
    · exact burst _
    · exact revise _
    · exact revise _

/-- Settles O34: Law 1 by `takeBurst_le` and `takeRevise_le`, Law 3 by `exec_order_carries`. -/
theorem noOrderIsGrantedAboveItsRequest : Obligations.NoOrderIsGrantedAboveItsRequest := by
  refine ⟨fun s p straps => ⟨takeBurst_le s p straps, takeRevise_le s p straps, fun hn hr => ⟨fun hk => ?_, fun hk => ?_,
    fun hk => ?_⟩⟩, ?_⟩
  · exact ⟨_, exec_burst straps hr hn hk, orderDone_down (takeBurst_link s p straps) straps⟩
  · exact ⟨_, exec_revise straps hr hn hk, orderDone_down (takeRevise_link s p straps) straps⟩
  · exact ⟨_, exec_amendReceived straps hr hn hk, orderDone_down (takeRevise_link s p straps) straps⟩
  · intro s t straps c htables hsched hsupply hranged hpriced hmap hc he
    exact (exec_order_carries ⟨htables, ⟨hsched, hsupply⟩, hranged.1.2, hpriced, hmap⟩ hc he).2

end Sys2Proof.Machine
end

section
/-! PROOFS. The curves as straight lines between breakpoints (R3, R45), and the fitting inverse (R5). -/

namespace Sys2Proof.Machine

/-! ### One curve for both roundings -/

/-- Straight lines between breakpoints, the quotient of a line rounded by `div`; the first value below the first breakpoint, the
last above the last. -/
def polyline (div : Int → Int → Int) : List (Int × Int) → Int → Int
  | [], _ => 0
  | [a], _ => a.2
  | a :: b :: rest, x =>
    if x ≤ a.1 then a.2
    else if x < b.1 then a.2 + div ((b.2 - a.2) * (x - a.1)) (b.1 - a.1)
    else polyline div (b :: rest) x

theorem curveUp_eq_polyline : ∀ (pts : List (Int × Int)) (x : Int), curveUp pts x = polyline ceilDiv pts x
  | [], _ => rfl
  | [_], _ => rfl
  | _ :: b :: rest, x => by rw [curveUp, polyline, curveUp_eq_polyline (b :: rest) x]

theorem curveDown_eq_polyline : ∀ (pts : List (Int × Int)) (x : Int), curveDown pts x = polyline (· / ·) pts x
  | [], _ => rfl
  | [_], _ => rfl
  | _ :: b :: rest, x => by rw [curveDown, polyline, curveDown_eq_polyline (b :: rest) x]

section Polyline

variable {div : Int → Int → Int}

theorem polyline_head {pts : List (Int × Int)} {f : Int × Int} (hf : pts.head? = some f) {x : Int} (hx : x ≤ f.1) :
    polyline div pts x = f.2 := by
  match pts with
  | [] => cases hf
  | [a] => cases hf; rfl
  | a :: b :: rest => cases hf; rw [polyline, if_pos hx]

/-- Past its second breakpoint a polyline is that of its tail. -/
theorem polyline_tail {a b : Int × Int} {rest : List (Int × Int)} {x : Int} (hab : a.1 < b.1) (hx : b.1 ≤ x) :
    polyline div (a :: b :: rest) x = polyline div (b :: rest) x := by
  rw [polyline, if_neg (by omega), if_neg (by omega)]

/-- The first breakpoint of an ascending list lies at or below every one. -/
theorem head_le {b c : Int × Int} {rest : List (Int × Int)} (hp : (b :: rest).Pairwise fun a b => a.1 < b.1)
    (hc : c ∈ b :: rest) : b.1 ≤ c.1 := by
  rcases List.mem_cons.1 hc with rfl | hc
  · exact le_refl _
  · exact le_of_lt ((List.pairwise_cons.1 hp).1 c hc)

theorem polyline_last : ∀ {pts : List (Int × Int)} {l : Int × Int}, pts.Pairwise (fun a b => a.1 < b.1) →
    pts.getLast? = some l → ∀ {x : Int}, l.1 ≤ x → polyline div pts x = l.2
  | [], _, _, hl, _, _ => by cases hl
  | [a], _, _, hl, _, _ => by cases hl; rfl
  | a :: b :: rest, l, hp, hl, x, hx => by
    have htail := (List.pairwise_cons.1 hp).2
    have hl' : (b :: rest).getLast? = some l := by rwa [List.getLast?_cons_cons] at hl
    have hbl := head_le htail (List.mem_of_getLast? hl')
    rw [polyline_tail ((List.pairwise_cons.1 hp).1 b List.mem_cons_self) (hbl.trans hx)]
    exact polyline_last htail hl' hx

/-- Between two neighbouring breakpoints a polyline is the line through them, rounded. -/
theorem polyline_between (h0 : ∀ d, div 0 d = 0) : ∀ {pts : List (Int × Int)}, pts.Pairwise (fun a b => a.1 < b.1) →
    ∀ {i : Nat} {a b : Int × Int}, pts[i]? = some a → pts[i + 1]? = some b → ∀ {x : Int}, a.1 ≤ x → x < b.1 →
      polyline div pts x = a.2 + div ((b.2 - a.2) * (x - a.1)) (b.1 - a.1)
  | [], _, _, _, _, ha, _, _, _, _ => by cases ha
  | [_], _, 0, _, _, _, hb, _, _, _ => by cases hb
  | [_], _, _ + 1, _, _, ha, _, _, _, _ => by cases ha
  | a₀ :: b₀ :: rest, _, 0, a, b, ha, hb, x, hax, hxb => by
    obtain rfl : a₀ = a := Option.some.inj ha
    obtain rfl : b₀ = b := Option.some.inj hb
    by_cases hxa : x ≤ a₀.1
    · have hzero : x - a₀.1 = 0 := by omega
      rw [polyline, if_pos hxa, hzero, mul_zero, h0, add_zero]
    · rw [polyline, if_neg hxa, if_pos hxb]
  | a₀ :: b₀ :: rest, hp, i + 1, a, b, ha, hb, x, hax, hxb => by
    have htail := (List.pairwise_cons.1 hp).2
    have ha' : (b₀ :: rest)[i]? = some a := ha
    have hb' : (b₀ :: rest)[i + 1]? = some b := hb
    have hle := head_le htail (List.mem_of_getElem? ha')
    rw [polyline_tail ((List.pairwise_cons.1 hp).1 b₀ List.mem_cons_self) (hle.trans hax)]
    exact polyline_between h0 htail ha' hb' hax hxb

end Polyline

/-! ### The two curves of the model -/

theorem ceilDiv_zero (d : Int) : ceilDiv 0 d = 0 := by simp [ceilDiv]

theorem evalCurve_of_ne {x : Int} (h : x ≠ muteCode) (pts : List (Int × Int)) :
    evalCurve pts x = polyline ceilDiv pts x := by
  rw [evalCurve, if_neg h, curveUp_eq_polyline]

/-! ### The fitting inverse -/

theorem fitInverse_none_iff (f : Int → Int) (h lo hi : Int) :
    fitInverse f h lo hi = none ↔ ∀ p, lo ≤ p → p ≤ hi → h < f p := by
  refine ⟨(fitInverse_spec f h lo hi).2, fun hall => ?_⟩
  cases hfit : fitInverse f h lo hi with
  | none => rfl
  | some p =>
    obtain ⟨h1, h2, h3, _⟩ := (fitInverse_spec f h lo hi).1 p hfit
    exact absurd h3 (not_le.2 (hall p h1 h2))

/-- Settles O28: the curves by the lemmas of `polyline`, the fitting inverse by `fitInverse_spec`. -/
theorem curveAndFittingInverse : Obligations.CurveAndFittingInverse := by
  refine ⟨fun pts x _ hp => ⟨if_pos rfl,
      fun hx => ⟨fun f hf hxf => ?_, fun l hl hlx => ?_, fun i a b ha hb hax hxb => ?_⟩,
      fun hv y hx hy hxy => evalCurve_mono hp hv hx hy hxy⟩,
    fun f h lo hi => ⟨fun p hfit => ?_, fitInverse_none_iff f h lo hi, fun hnonneg hneg => ?_⟩,
    fun pts x _ hp => ⟨fun f hf hxf => ?_, fun l hl hlx => ?_, fun i a b ha hb hax hxb => ?_⟩⟩
  · rw [evalCurve_of_ne hx]; exact polyline_head hf hxf
  · rw [evalCurve_of_ne hx]; exact polyline_last hp hl hlx
  · rw [evalCurve_of_ne hx]; exact polyline_between ceilDiv_zero hp ha hb hax hxb
  · obtain ⟨hlo, hhi, hle, hgreatest⟩ := (fitInverse_spec f h lo hi).1 p hfit
    exact ⟨hlo, hhi, hle, hgreatest, fun hmono q hq hqp => (hmono q p hq hqp hhi).trans hle⟩
  · exact (fitInverse_none_iff f h lo hi).2 fun p h1 h2 => hneg.trans_le (hnonneg p h1 h2)
  · rw [curveDown_eq_polyline]; exact polyline_head hf hxf
  · rw [curveDown_eq_polyline]; exact polyline_last hp hl hlx
  · rw [curveDown_eq_polyline]; exact polyline_between Int.zero_ediv hp ha hb hax hxb

end Sys2Proof.Machine
end

section
/-! PROOFS. The ceiling of an order, stage by stage: values and limit reasons (R9 to R14), and the band search (R6). -/

namespace Sys2Proof.Machine

/-! ### The stages of a ceiling (R10, R11, R14) -/

/-- A term that may lower a ceiling: the value. -/
theorem met_value (p : Prop) [Decidable p] (c : Int × Reason) (v : Int) (r : Reason) :
    (if p then lesser c v r else c).1 = if p then min c.1 v else c.1 := by
  unfold lesser
  split
  · split
    · rename_i hv; exact (min_eq_right (le_of_lt hv)).symm
    · rename_i hv; exact (min_eq_left (not_lt.1 hv)).symm
  · rfl

/-- A term that may lower a ceiling: the reason. -/
theorem met_reason (p : Prop) [Decidable p] (c : Int × Reason) (v : Int) (r : Reason) :
    (if p then lesser c v r else c).2 = if p ∧ v < c.1 then r else c.2 := by
  unfold lesser
  by_cases hp : p
  · by_cases hv : v < c.1 <;> simp [hp, hv]
  · simp [hp]

/-- The headroom term met by the cap. -/
def CeilingTerms.capped (t : CeilingTerms) : Int × Reason :=
  match t.cap with
  | some v => lesser (t.headroom, t.headroomReason) v .cap
  | none => (t.headroom, t.headroomReason)

/-- Met by the boost term. -/
def CeilingTerms.boosted (t : CeilingTerms) : Int × Reason :=
  if t.boostApplies then lesser t.capped t.boostThreshold .boost else t.capped

/-- Met by the safe term. -/
def CeilingTerms.safed (t : CeilingTerms) : Int × Reason :=
  if t.safeApplies then lesser t.boosted t.safeCeiling .safe else t.boosted

/-- The least term raised to the assured floor. -/
def CeilingTerms.raised (t : CeilingTerms) : Int × Reason :=
  if t.isAssured ∧ t.least.1 < t.assured then (t.assured, .assured) else t.least

theorem ceiling_eq (t : CeilingTerms) : t.ceiling = if t.barred then (t.floor, .bar) else t.raised := rfl

theorem capped_value (t : CeilingTerms) : t.capped.1 = t.cap.elim t.headroom (min t.headroom) := by
  unfold CeilingTerms.capped
  cases t.cap with
  | none => rfl
  | some v => exact met_value True (t.headroom, t.headroomReason) v .cap

theorem capped_reason (t : CeilingTerms) :
    t.capped.2 = t.cap.elim t.headroomReason fun v => if v < t.headroom then .cap else t.headroomReason := by
  unfold CeilingTerms.capped
  cases t.cap with
  | none => rfl
  | some v => exact (met_reason True (t.headroom, t.headroomReason) v .cap).trans (by simp)

section Stages

variable {t : CeilingTerms} {p : Prop} [Decidable p]

theorem boosted_value (h : t.boostApplies = true ↔ p) :
    t.boosted.1 = if p then min t.capped.1 t.boostThreshold else t.capped.1 :=
  (met_value _ _ _ _).trans (if_congr h rfl rfl)

theorem boosted_reason (h : t.boostApplies = true ↔ p) :
    t.boosted.2 = if p ∧ t.boostThreshold < t.capped.1 then .boost else t.capped.2 :=
  (met_reason _ _ _ _).trans (if_congr (and_congr_left' h) rfl rfl)

theorem safed_value (h : t.safeApplies = true ↔ p) :
    t.safed.1 = if p then min t.boosted.1 t.safeCeiling else t.boosted.1 :=
  (met_value _ _ _ _).trans (if_congr h rfl rfl)

theorem safed_reason (h : t.safeApplies = true ↔ p) :
    t.safed.2 = if p ∧ t.safeCeiling < t.boosted.1 then .safe else t.boosted.2 :=
  (met_reason _ _ _ _).trans (if_congr (and_congr_left' h) rfl rfl)

theorem least_value (h : t.lateApplies = true ↔ p) :
    t.least.1 = if p then min t.safed.1 t.lateCeiling else t.safed.1 :=
  (met_value _ _ _ _).trans (if_congr h rfl rfl)

theorem least_reason (h : t.lateApplies = true ↔ p) :
    t.least.2 = if p ∧ t.lateCeiling < t.safed.1 then .late else t.safed.2 :=
  (met_reason _ _ _ _).trans (if_congr (and_congr_left' h) rfl rfl)

theorem raised_value (h : t.isAssured = true ↔ p) : t.raised.1 = if p then max t.least.1 t.assured else t.least.1 := by
  unfold CeilingTerms.raised
  by_cases hp : p
  · by_cases hl : t.least.1 < t.assured
    · rw [if_pos ⟨h.2 hp, hl⟩, if_pos hp, max_eq_right (le_of_lt hl)]
    · rw [if_neg fun hc => hl hc.2, if_pos hp, max_eq_left (not_lt.1 hl)]
  · rw [if_neg fun hc => hp (h.1 hc.1), if_neg hp]

theorem raised_reason (h : t.isAssured = true ↔ p) :
    t.raised.2 = if p ∧ t.least.1 < t.assured then .assured else t.least.2 := by
  unfold CeilingTerms.raised
  rw [apply_ite Prod.snd]
  exact if_congr (and_congr_left' h) rfl rfl

theorem ceiling_value (h : t.barred = true ↔ p) : t.ceiling.1 = if p then t.floor else t.raised.1 := by
  rw [ceiling_eq, apply_ite Prod.fst]
  exact if_congr h rfl rfl

theorem ceiling_reason (h : t.barred = true ↔ p) : t.ceiling.2 = if p then .bar else t.raised.2 := by
  rw [ceiling_eq, apply_ite Prod.snd]
  exact if_congr h rfl rfl

end Stages

/-! ### The clamp (R1) -/

theorem clampRequest_spec (x : Int) :
    (x = -512 → clampRequest x = -512) ∧ (x ≠ -512 → x < -400 → clampRequest x = -400) ∧
      (-400 ≤ x → x ≤ 272 → clampRequest x = x) ∧ (272 < x → clampRequest x = 272) := by
  unfold clampRequest clampTo muteCode minCode maxCode
  split <;> omega

/-! ### The band search (R6) -/

/-- BANDS record `k` of a bank is the one of a path and band. -/
def Bank.names (b : Bank) (path : Fin 4) (k band : Nat) : Prop :=
  k < b.count Table.bands ∧ (b.read (b.record Table.bands k)).toNat = path.val * 32 + band

theorem findBand_first {b : Bank} {path : Fin 4} {k band : Nat} (hk : b.names path k band)
    (hfirst : ∀ j < k, ¬ b.names path j band) : b.findBand path band = some (b.bandAt (b.record Table.bands k)) := by
  unfold Bank.findBand
  rw [Option.map_eq_some_iff]
  refine ⟨k, ?_, rfl⟩
  rw [List.find?_range_eq_some]
  refine ⟨by simpa [Bank.nat] using hk.2, List.mem_range.2 hk.1, fun j hj => ?_⟩
  have hne : b.nat (b.record Table.bands j) ≠ path.val * 32 + band := fun h => hfirst j hj ⟨hj.trans hk.1, h⟩
  simpa using hne

theorem findBand_none {b : Bank} {path : Fin 4} {band : Nat} (h : ∀ j, ¬ b.names path j band) :
    b.findBand path band = none := by
  rw [← Option.not_isSome_iff_eq_none, findBand_isSome_iff]
  rintro ⟨j, hj⟩
  exact h j hj

theorem fallback_word (b : Bank) (path : Fin 4) :
    b.limits.fallback.get path = (b.read (b.record Table.limits 0 + 17 + path.val)).toNat :=
  Four.get_of _ path

/-- Settles O29, stage by stage of the ceiling. -/
theorem ceilingAndFirstGrant : Obligations.CeilingAndFirstGrant := by
  refine ⟨?_, clampRequest_spec, ?_⟩
  · intro s o req b r path m cls late t x h c1 c2 c3 c4 c5 c w
    have hboost : t.boostApplies = true ↔ s.boost.state ≠ .ready := bne_iff_ne
    have hsafe : t.safeApplies = true ↔ s.timer.mode = .safe := beq_iff_eq
    have hlate : t.lateApplies = true ↔ late = true := Iff.rfl
    have hassured : t.isAssured = true ↔ cls = 3 := beq_iff_eq
    have hbarred : t.barred = true ↔ x.state = .barred := beq_iff_eq
    have v1 : t.capped.1 = c1 := by
      rw [capped_value]
      show x.cap.elim h (min h) = c1
      cases hcap : x.cap <;> simp [c1, hcap]
    have v2 : t.boosted.1 = c2 := by rw [boosted_value hboost, v1, ite_not]; rfl
    have v3 : t.safed.1 = c3 := by rw [safed_value hsafe, v2]; rfl
    have v4 : t.least.1 = c4 := by rw [least_value hlate, v3]; rfl
    have v5 : t.raised.1 = c5 := by rw [raised_value hassured, v4]; rfl
    have v6 : t.ceiling.1 = c := by rw [ceiling_value hbarred, v5]; rfl
    have hfirst : ∀ q, t.firstGrant q = max (min q c) (min q r.floor) := fun q => by
      rw [CeilingTerms.firstGrant, v6]; rfl
    refine ⟨rfl, rfl, rfl, rfl, rfl, rfl, fun code => rfl, rfl, rfl, v6, hfirst req, ?_, ?_, ?_⟩
    · rw [CeilingTerms.lowerBound, hfirst]; rfl
    · intro r0 r1 r2 r3 r4 r5 r6 p1
      have q1 : t.capped.2 = r1 := by
        rw [capped_reason]
        show (x.cap.elim r0 fun v => if v < h then .cap else r0) = r1
        cases hcap : x.cap <;> simp [r1, hcap]
      have q2 : t.boosted.2 = r2 := by rw [boosted_reason hboost, v1, q1]; rfl
      have q3 : t.safed.2 = r3 := by rw [safed_reason hsafe, v2, q2]; rfl
      have q4 : t.least.2 = r4 := by rw [least_reason hlate, v3, q3]; rfl
      have q5 : t.raised.2 = r5 := by rw [raised_reason hassured, v4, q4]; rfl
      have q6 : t.ceiling.2 = r6 := by rw [ceiling_reason hbarred, q5]
      rw [CeilingTerms.reason, hfirst, v6, q6]
    · intro d3 d4 d5 d
      let u : CeilingTerms := { t with boostApplies := false }
      have w2 : u.boosted.1 = c1 := v1
      have w3 : u.safed.1 = d3 := by rw [safed_value (t := u) hsafe, w2]; rfl
      have w4 : u.least.1 = d4 := by rw [least_value (t := u) hlate, w3]; rfl
      have w5 : u.raised.1 = d5 := by rw [raised_value (t := u) hassured, w4]; rfl
      have w6 : u.ceiling.1 = d := by rw [ceiling_value (t := u) hbarred, w5]; rfl
      show decide (b.limits.boostThreshold < min req u.ceiling.1) = true ↔ _
      rw [w6, decide_eq_true_iff]
  · intro b path band n at_ names fallback
    refine ⟨fun k hk hfirst => ?_, fun hnone k hk hfirst => ?_⟩
    · rw [Bank.resolveBand, findBand_first hk hfirst]; rfl
    · rw [Bank.resolveBand, findBand_none hnone, fallback_word, findBand_first hk hfirst]; rfl

end Sys2Proof.Machine
end

section
/-! PROOFS. LAUNCH and RECALL as their answers, validation as R131 and R132 give it, and the words the table fields are
read from. -/

namespace Sys2Proof.Machine

/-! ### LAUNCH and RECALL (R136, R139, R169) -/

theorem bankOf_number (b : BankId) : bankOf? b.number = some b := by cases b <;> rfl

theorem bankOf_none {n : Nat} (h : 2 ≤ n) : bankOf? n = none := by
  unfold bankOf?
  rw [if_neg (by omega), if_neg (by omega)]

/-- A refusal of a command other than READ-TABLE is its status word alone (R168). -/
theorem refuse_eq {p : Packet} (h : p.commandCode ≠ Code.readTable) (s : State) (status : Nat) :
    s.refuse p status = s.answerStatus p status := by
  unfold State.refuse State.answerStatus refusalWords
  dsimp only
  rw [if_neg fun hc => h hc.1]

theorem launchBusy_iff (t : Tables) (b : BankId) :
    t.launchBusy b = true ↔ t.active = some b ∨ t.pending ≠ none ∨ t.copy ≠ none := by
  simp [Tables.launchBusy, or_assoc, Option.isSome_iff_ne_none]

theorem launch_range {s : State} {p : Packet} (hc : p.commandCode = 0x12) (h : 2 ≤ p.parameter) :
    s.launch p = s.answerStatus p Status.range := by
  unfold State.launch
  rw [bankOf_none h]
  exact refuse_eq (by rw [hc]; decide) s _

theorem launch_busy {s : State} {p : Packet} {b : BankId} (hp : p.parameter = b.number) (h : s.tables.launchBusy b = true) :
    s.launch p = s.answerStatus p Status.busy := by
  unfold State.launch
  rw [hp, bankOf_number]
  exact if_pos h

theorem launch_invalid {s : State} {p : Packet} {b : BankId} {i : Nat} {r : FailReason} (hp : p.parameter = b.number)
    (h : s.tables.launchBusy b = false) (hf : s.tables.launchFault b = some (i, r)) :
    s.launch p = s.answer p [statusWord Code.launch Status.invalid, natWord (i * 256 + r.code)] := by
  unfold State.launch
  rw [hp, bankOf_number]
  dsimp only
  rw [if_neg (by simp [h]), hf]

theorem launch_done {s : State} {p : Packet} {b : BankId} (hp : p.parameter = b.number)
    (h : s.tables.launchBusy b = false) (hf : s.tables.launchFault b = none) :
    s.launch p = { s.answerStatus p Status.done with tables := s.tables.accept b } := by
  unfold State.launch
  rw [hp, bankOf_number]
  dsimp only
  rw [if_neg (by simp [h]), hf]

theorem launchFault_some {t : Tables} {b : BankId} {i : Nat} {r : FailReason} (hm : t.mark b = false)
    (h : (t.bank b).validate = some (i, r)) : t.launchFault b = some (i, r) := by
  simp [Tables.launchFault, hm, h]

theorem launchFault_none {t : Tables} {b : BankId} (h : t.mark b = true ∨ (t.bank b).validate = none) :
    t.launchFault b = none := by
  unfold Tables.launchFault
  split
  · rfl
  · exact h.resolve_left (by assumption)

/-- An accepted launch marks its bank and lets it pend with 2 turns remaining; nothing else of the tables changes. -/
theorem accept_spec (t : Tables) (b : BankId) :
    (t.accept b).pending = some (b, 2) ∧ (t.accept b).launch = .pending ∧ (t.accept b).mark b = true ∧
      (t.accept b).mark b.other = t.mark b.other ∧ (t.accept b).bank0 = t.bank0 ∧ (t.accept b).bank1 = t.bank1 ∧
      (t.accept b).active = t.active ∧ (t.accept b).copy = t.copy := by
  cases b <;> exact ⟨rfl, rfl, rfl, rfl, rfl, rfl, rfl, rfl⟩

theorem recall_early {s : State} {b : BankId} (h : s.tables.pending = some (b, 2)) (p : Packet) :
    s.recall p = { s.answerStatus p Status.done with tables := s.tables.cancel } := by
  unfold State.recall
  rw [if_pos (by simp [Tables.cancellable, h])]

theorem recall_late {s : State} {b : BankId} (h : s.tables.pending = some (b, 1)) (p : Packet) :
    s.recall p = s.answerStatus p Status.late := by
  unfold State.recall
  rw [if_neg (by simp [Tables.cancellable, h]), if_pos (by simp [h])]

theorem recall_settled {s : State} (h : s.tables.pending = none) (p : Packet) :
    s.recall p = s.answerStatus p (if s.tables.launch = .switched then Status.late else Status.nothing) := by
  unfold State.recall
  rw [if_neg (by simp [Tables.cancellable, h]), if_neg (by simp [h])]
  split <;> rfl

/-! ### The directory (R125) -/

/-- The table of a kind is the one of the first directory entry of that kind. -/
theorem tableEntry_first {b : Bank} {i : Nat} (hi : i < 16) (hfirst : ∀ j, j < i → b.kindAt j ≠ b.kindAt i) :
    b.tableEntry (b.kindAt i) = b.dirEntry i := by
  have hfind : b.directory.find? (fun e => e.kind == b.kindAt i) = some (b.dirEntry i) := by
    unfold Bank.directory
    rw [List.find?_map, Option.map_eq_some_iff]
    refine ⟨i, ?_, rfl⟩
    rw [List.find?_range_eq_some]
    refine ⟨beq_self_eq_true _, List.mem_range.2 hi, fun j hj => ?_⟩
    have hne : (b.dirEntry j).kind ≠ b.kindAt i := hfirst j hj
    simpa using hne
  unfold Bank.tableEntry
  rw [hfind]
  rfl

theorem record_first {b : Bank} {i : Nat} (hi : i < 16) (hfirst : ∀ j, j < i → b.kindAt j ≠ b.kindAt i) (k : Nat) :
    b.record (b.kindAt i) k = b.baseAt i + (tableShape (b.kindAt i)).1 * k := by
  unfold Bank.record
  rw [tableEntry_first hi hfirst, recordWords_shape]
  rfl

/-! ### The two passes of validation (R131, R132) -/

/-- Some kind of table has no directory entry. -/
def Bank.lacksKind (b : Bank) : Prop := ∃ kind, 1 ≤ kind ∧ kind ≤ 7 ∧ ∀ j, j < 16 → b.kindAt j ≠ kind

/-- The first pass answers nothing exactly where no entry fails and no kind is missing. -/
theorem firstPass_none_iff (b : Bank) : firstPass b.directory [] = none ↔ b.passedTo 16 ∧ ¬ b.lacksKind := by
  constructor
  · intro hnone
    have hno : ∀ i r, ¬ ((i < 16 ∧ b.passedTo i ∧ b.entryFails i r) ∨
        (b.passedTo 16 ∧ b.lacksKind ∧ i = 16 ∧ r = .missingKind)) := fun i r h => by
      have hsome := (firstPass_directory b i r).2 h
      rw [hnone] at hsome
      cases hsome
    have hpassed : ∀ n, n ≤ 16 → b.passedTo n := by
      intro n
      induction n with
      | zero => intro _ j hj; omega
      | succ n ih =>
        intro hn j hj q hq
        rcases Nat.lt_succ_iff_lt_or_eq.1 hj with hlt | rfl
        · exact ih (by omega) j hlt q hq
        · exact hno j q (Or.inl ⟨by omega, ih (by omega), hq⟩)
    exact ⟨hpassed 16 (le_refl _), fun hlacks => hno 16 .missingKind (Or.inr ⟨hpassed 16 (le_refl _), hlacks, rfl, rfl⟩)⟩
  · rintro ⟨hpassed, hlacks⟩
    cases hfirst : firstPass b.directory [] with
    | none => rfl
    | some x =>
      obtain ⟨i, r⟩ := x
      rcases (firstPass_directory b i r).1 hfirst with ⟨hi, _, hfails⟩ | ⟨_, habsent, _⟩
      · exact absurd hfails (hpassed i hi r)
      · exact absurd habsent hlacks

/-- After the first pass an entry that is not empty is the only one of its kind so far, and its count is one of its kind's. -/
theorem passed_entry {b : Bank} (h : b.passedTo 16) {i : Nat} (hi : i < 16) (hk : b.kindAt i ≠ 0) :
    (∀ j, j < i → b.kindAt j ≠ b.kindAt i) ∧ b.countAt i ≤ (tableShape (b.kindAt i)).2.2 := by
  have hchecks := firstFails_none.1 fun q hq => h i hi q ⟨hk, hq⟩
  refine ⟨fun j hj hkind => hchecks _ (List.mem_cons_of_mem _ List.mem_cons_self) ⟨j, hj, hkind⟩, ?_⟩
  exact (not_not.1 (hchecks _ (List.mem_cons_of_mem _ (List.mem_cons_of_mem _ List.mem_cons_self)))).2

/-- After the first pass a record fails its checks as R132 orders them. -/
theorem recordFails_iff {b : Bank} (h : b.passedTo 16) {i : Nat} (hi : i < 16) (k : Nat) (r : FailReason) :
    b.recordFails i k r ↔ b.kindAt i ≠ 0 ∧ k < b.countAt i ∧
      b.recordFault (b.kindAt i) (b.baseAt i + recordWords (b.kindAt i) * k) k = some r := by
  unfold Bank.recordFails
  rw [← recordWords_shape]
  refine and_congr_right fun hk => and_congr_right fun hcount => (recordFault_iff b _ _ k r fun hone => ?_).symm
  obtain ⟨hfirst, hmax⟩ := passed_entry h hi hk
  have hlimits := record_first hi hfirst 0
  rw [hone] at hmax hlimits
  have hk0 : k = 0 := by
    have : b.countAt i ≤ 1 := hmax
    omega
  rw [hone, hk0]
  exact hlimits.symm

/-- What the second pass finds in one directory entry. -/
def Bank.entryFault (b : Bank) (e : DirEntry) : Option (Nat × FailReason) :=
  if e.kind = 0 then none
  else (List.range e.count).findSome? fun k =>
    (b.recordFault e.kind (e.base + recordWords e.kind * k) k).map fun r => (e.index, r)

theorem secondPass_eq (b : Bank) : b.secondPass = (List.range 16).findSome? fun i => b.entryFault (b.dirEntry i) := by
  unfold Bank.secondPass Bank.directory
  rw [List.findSome?_map]
  rfl

theorem entryFault_some {b : Bank} (h : b.passedTo 16) {n : Nat} (hn : n < 16) (i : Nat) (r : FailReason) :
    b.entryFault (b.dirEntry n) = some (i, r) ↔
      i = n ∧ ∃ k, b.recordFails n k r ∧ ∀ m, m < k → ∀ q, ¬ b.recordFails n m q := by
  have hentry : b.entryFault (b.dirEntry n) = if b.kindAt n = 0 then none
      else (List.range (b.countAt n)).findSome? fun k =>
        (b.recordFault (b.kindAt n) (b.baseAt n + recordWords (b.kindAt n) * k) k).map fun r => (n, r) := rfl
  rw [hentry]
  by_cases hk : b.kindAt n = 0
  · rw [if_pos hk]
    refine ⟨fun hc => (by cases hc), ?_⟩
    rintro ⟨_, k, hfails, _⟩
    exact absurd hk hfails.1
  · rw [if_neg hk, findSome_range]
    constructor
    · rintro ⟨k, hcount, hfault, hbefore⟩
      obtain ⟨q, hq, hpair⟩ := Option.map_eq_some_iff.1 hfault
      obtain ⟨rfl, rfl⟩ := Prod.mk.inj hpair
      refine ⟨rfl, k, (recordFails_iff h hn k q).2 ⟨hk, hcount, hq⟩, fun m hm q' hfails => ?_⟩
      obtain ⟨_, _, hfault'⟩ := (recordFails_iff h hn m q').1 hfails
      have hnone := Option.map_eq_none_iff.1 (hbefore m hm)
      rw [hnone] at hfault'
      cases hfault'
    · rintro ⟨rfl, k, hfails, hbefore⟩
      obtain ⟨_, hcount, hfault⟩ := (recordFails_iff h hn k r).1 hfails
      refine ⟨k, hcount, by rw [hfault]; rfl, fun m hm => Option.map_eq_none_iff.2 ?_⟩
      refine Option.eq_none_iff_forall_ne_some.2 fun q hq => ?_
      exact hbefore m hm q ((recordFails_iff h hn m q).2 ⟨hk, hm.trans hcount, hq⟩)

/-- An entry in which the second pass finds nothing has no record that fails: among records that fail one is the first. -/
theorem entryFault_none {b : Bank} (h : b.passedTo 16) {n : Nat} (hn : n < 16) :
    b.entryFault (b.dirEntry n) = none ↔ ∀ m q, ¬ b.recordFails n m q := by
  classical
  constructor
  · intro hnone m q hfails
    have hex : ∃ k, ∃ q, b.recordFails n k q := ⟨m, q, hfails⟩
    obtain ⟨r, hr⟩ := Nat.find_spec hex
    have hsome := (entryFault_some h hn n r).2
      ⟨rfl, Nat.find hex, hr, fun m hm q hq => Nat.find_min hex hm ⟨q, hq⟩⟩
    rw [hnone] at hsome
    cases hsome
  · intro hall
    refine Option.eq_none_iff_forall_ne_some.2 fun x hx => ?_
    obtain ⟨_, k, hfails, _⟩ := (entryFault_some h hn x.1 x.2).1 hx
    exact hall k x.2 hfails

theorem secondPass_iff {b : Bank} (h : b.passedTo 16) (i : Nat) (r : FailReason) :
    b.secondPass = some (i, r) ↔ i < 16 ∧ ∃ k, b.recordFails i k r ∧
      ∀ j m, j < i ∨ (j = i ∧ m < k) → ∀ q, ¬ b.recordFails j m q := by
  rw [secondPass_eq, findSome_range]
  constructor
  · rintro ⟨n, hn, hfault, hbefore⟩
    obtain ⟨rfl, k, hfails, hfirst⟩ := (entryFault_some h hn i r).1 hfault
    refine ⟨hn, k, hfails, ?_⟩
    rintro j m (hj | ⟨rfl, hm⟩)
    · exact (entryFault_none h (hj.trans hn)).1 (hbefore j hj) m
    · exact hfirst m hm
  · rintro ⟨hi, k, hfails, hbefore⟩
    refine ⟨i, hi, ?_, fun j hj => ?_⟩
    · exact (entryFault_some h hi i r).2 ⟨rfl, k, hfails, fun m hm => hbefore i m (Or.inr ⟨rfl, hm⟩)⟩
    · exact (entryFault_none h (hj.trans hi)).2 fun m => hbefore j m (Or.inl hj)

/-- R131, R132: validation ends with the index and the reason the rules give. -/
theorem validate_iff (b : Bank) (i : Nat) (r : FailReason) : b.validate = some (i, r) ↔ b.fails i r := by
  have hfirst := firstPass_directory b i r
  have hnone := firstPass_none_iff b
  change _ ↔ (i < 16 ∧ b.passedTo i ∧ b.entryFails i r) ∨
    (b.passedTo 16 ∧ b.lacksKind ∧ i = 16 ∧ r = .missingKind) ∨
    (b.passedTo 16 ∧ ¬ b.lacksKind ∧ i < 16 ∧ ∃ k, b.recordFails i k r ∧
      ∀ j m, j < i ∨ (j = i ∧ m < k) → ∀ q, ¬ b.recordFails j m q)
  change _ ↔ (i < 16 ∧ b.passedTo i ∧ b.entryFails i r) ∨
    (b.passedTo 16 ∧ b.lacksKind ∧ i = 16 ∧ r = .missingKind) at hfirst
  rw [← or_assoc, ← hfirst]
  unfold Bank.validate
  cases hpass : firstPass b.directory [] with
  | some x =>
    refine ⟨Or.inl, fun h => h.resolve_right ?_⟩
    rintro ⟨hpassed, hlacks, _⟩
    rw [hnone.2 ⟨hpassed, hlacks⟩] at hpass
    cases hpass
  | none =>
    obtain ⟨hpassed, hlacks⟩ := hnone.1 hpass
    dsimp only
    rw [secondPass_iff hpassed]
    simp [hpassed, hlacks]

/-- Settles O45: the answers of LAUNCH and RECALL, `validate_iff`, `tableEntry_first`, and each field by its definition. -/
theorem launchAndRecall : Obligations.LaunchAndRecall := by
  refine ⟨?_, validate_iff, fun b i hi hfirst => ⟨?_, record_first hi hfirst⟩, ?_, by decide⟩
  · intro s p hr hc hl hw hlen answer
    have hstatus : ∀ status, s.answerStatus p status = answer [statusWord p.commandCode status] := fun _ => rfl
    refine ⟨fun hcode => ?_, fun hcode => ?_⟩
    · have hexec : exec .launch s = .next (s.launch p) :=
        exec_command hr hc hl hw rfl hcode rfl (le_of_eq hlen.symm) (le_of_eq hlen)
      rw [hexec]
      refine ⟨fun hparam => ?_, fun b hparam => ⟨fun hbusy => ?_, fun hactive hpending hcopy => ?_⟩⟩
      · rw [launch_range hcode hparam, hstatus, hcode]; rfl
      · rw [launch_busy hparam ((launchBusy_iff _ _).2 hbusy), hstatus, hcode]; rfl
      · have hfree : s.tables.launchBusy b = false := Bool.eq_false_iff.2 fun h => by
          rcases (launchBusy_iff _ _).1 h with h | h | h
          · exact hactive h
          · exact h hpending
          · exact h hcopy
        refine ⟨fun i r hmark hfails => ?_, fun hpasses => ?_⟩
        · rw [launch_invalid hparam hfree (launchFault_some hmark hfails)]; rfl
        · obtain ⟨h1, h2, h3, h4, h5, h6, h7, h8⟩ := accept_spec s.tables b
          refine ⟨_, rfl, ?_⟩
          rw [launch_done hparam hfree (launchFault_none hpasses), hstatus, hcode]
          exact ⟨rfl, h1, h2, h3, h4, h5, h6, h7, h8.trans hcopy⟩
    · have hexec : exec .recallLaunch s = .next (s.recall p) :=
        exec_command hr hc hl hw rfl hcode rfl (le_of_eq hlen.symm) (le_of_eq hlen)
      rw [hexec]
      refine ⟨fun b h => ?_, fun b h => ?_, fun h => ⟨fun hswitched => ?_, fun hswitched => ?_⟩⟩
      · rw [recall_early h, hstatus, hcode]; rfl
      · rw [recall_late h, hstatus, hcode]; rfl
      · rw [recall_settled h, if_pos hswitched, hstatus, hcode]; rfl
      · rw [recall_settled h, if_neg hswitched, hstatus, hcode]; rfl
  · unfold Bank.count
    rw [tableEntry_first hi hfirst]
    rfl
  · intro b word code breakpoints
    exact ⟨by decide, fun i => ⟨rfl, rfl, rfl⟩, rfl, fun z => rfl, fun p z => ⟨rfl, rfl⟩, fun a => rfl, fun k => rfl,
      fun m => rfl, ⟨rfl, rfl, rfl⟩, fun r x => ⟨rfl, rfl⟩⟩

end Sys2Proof.Machine
end

section
/-! PROOFS. Law 4 (R30): along every command an entry that stays keeps what it was booked as, and its grant does not rise. -/

namespace Sys2Proof.Machine

/-! ### A schedule that has come down from another -/

/-- What an entry keeps while it stays (R28, R30): its grant may fall, the order it was booked from stands. -/
structure Entry.descends (e f : Entry) : Prop where
  granted : f.granted ≤ e.granted
  requested : f.requested = e.requested
  lower : f.lower = e.lower
  tag : f.tag = e.tag
  path : f.path = e.path
  start : f.start = e.start
  length : f.length = e.length

theorem Entry.descends_refl (e : Entry) : e.descends e := ⟨le_refl _, rfl, rfl, rfl, rfl, rfl, rfl⟩

theorem Entry.descends.trans {e f g : Entry} (h : e.descends f) (k : f.descends g) : e.descends g where
  granted := k.granted.trans h.granted
  requested := k.requested.trans h.requested
  lower := k.lower.trans h.lower
  tag := k.tag.trans h.tag
  path := k.path.trans h.path
  start := k.start.trans h.start
  length := k.length.trans h.length

/-- R30: lowering an entry changes neither its place nor what it was booked from. -/
theorem lowered_descends {e f : Entry} (h : e.descends f) {code : Int} (hc : code ≤ e.granted) (b : Bank) (r : Reason) (n : Nat) :
    e.descends (f.lowered b code r n) where
  granted := hc
  requested := h.requested
  lower := h.lower
  tag := h.tag
  path := h.path
  start := h.start
  length := h.length

/-- A later schedule: serials go on from where they stood (log 14), and every entry with an earlier serial has come down from the
entry that had it. -/
structure Schedule.descends (c d : Schedule) : Prop where
  serials : c.nextSerial ≤ d.nextSerial
  entries : ∀ f ∈ d.entries, f.serial < c.nextSerial → ∃ e ∈ c.entries, f.serial = e.serial ∧ e.descends f

theorem Schedule.descends_refl (c : Schedule) : c.descends c :=
  ⟨le_refl _, fun f hf _ => ⟨f, hf, rfl, f.descends_refl⟩⟩

theorem Schedule.descends.trans {c d d' : Schedule} (h : c.descends d) (k : d.descends d') : c.descends d' where
  serials := h.serials.trans k.serials
  entries := fun f hf hlt => by
    obtain ⟨g, hg, hfg, hgf⟩ := k.entries f hf (lt_of_lt_of_le hlt h.serials)
    obtain ⟨e, he, hge, heg⟩ := h.entries g hg (hfg ▸ hlt)
    exact ⟨e, he, hfg.trans hge, heg.trans hgf⟩

/-- Entries that leave: the rest stand. -/
theorem Schedule.descends_remove (c : Schedule) (gone : Entry → Bool) : c.descends (c.remove gone) :=
  ⟨le_refl _, fun f hf _ => ⟨f, List.mem_of_mem_filter hf, rfl, f.descends_refl⟩⟩

/-- Entries changed in their places, each coming down from what it was. -/
theorem Schedule.descends_map (c : Schedule) {change : Entry → Entry}
    (hc : ∀ e ∈ c.entries, (change e).serial = e.serial ∧ e.descends (change e)) :
    c.descends { c with entries := c.entries.map change } where
  serials := le_refl _
  entries := fun f hf _ => by
    obtain ⟨e, he, rfl⟩ := List.mem_map.1 hf
    exact ⟨e, he, hc e he⟩

theorem Schedule.descends_commit (c : Schedule) (lead g : Nat) : c.descends (c.commitUpTo lead g) :=
  c.descends_map fun e _ => by
    split
    · exact ⟨rfl, le_refl _, rfl, rfl, rfl, rfl, rfl, rfl⟩
    · exact ⟨rfl, e.descends_refl⟩

theorem Schedule.descends_relabel (c : Schedule) : c.descends c.relabel :=
  c.descends_map fun _ _ => ⟨rfl, le_refl _, rfl, rfl, rfl, rfl, rfl, rfl⟩

/-- A new entry takes the next serial, so it comes down from none. -/
theorem Schedule.descends_append {c d : Schedule} (h : c.descends d) {e : Entry} (he : c.nextSerial ≤ e.serial) :
    c.descends ⟨d.entries ++ [e], d.nextSerial + 1⟩ where
  serials := h.serials.trans (Nat.le_succ _)
  entries := fun f hf hlt => by
    rcases List.mem_append.1 hf with hf | hf
    · exact h.entries f hf hlt
    · rw [List.mem_singleton.1 hf] at hlt
      omega

/-! ### Amendments -/

/-- An amendment of the entry with serial `n` to a code that does not exceed what that entry was granted at first. -/
theorem amendSerial_descends {c : Schedule} {s : State} (h : c.descends s.sched) {n : Nat} {code : Int}
    (hcode : ∀ e ∈ c.entries, e.serial = n → code ≤ e.granted) : c.descends (s.amendSerial n code).sched := by
  unfold State.amendSerial
  split
  · rename_i x hx
    obtain ⟨hmem, hserial⟩ := bySerial_mem hx
    refine ⟨h.serials, fun f hf hlt => ?_⟩
    obtain ⟨y, hy, rfl⟩ := List.mem_map.1 hf
    by_cases hyx : y.serial = x.serial
    · rw [if_pos hyx] at hlt ⊢
      obtain ⟨e, he, hxe, hdesc⟩ := h.entries x hmem hlt
      exact ⟨e, he, hxe, lowered_descends hdesc (hcode e he (hxe.symm.trans hserial)) _ _ _⟩
    · rw [if_neg hyx] at hlt ⊢
      exact h.entries y hy hlt
  · exact h

theorem commitPlan_descends {c : Schedule} (plan : List (Nat × Int)) {s : State} (h : c.descends s.sched)
    (hplan : ∀ a ∈ plan, ∀ e ∈ c.entries, e.serial = a.1 → a.2 ≤ e.granted) : c.descends (s.commitPlan plan).sched := by
  induction plan generalizing s with
  | nil => exact h
  | cons a rest ih =>
    exact ih (amendSerial_descends h (hplan a (by simp))) fun b hb => hplan b (List.mem_cons_of_mem _ hb)

/-- R52: a walk plans a code for a candidate only below what the candidate is granted. -/
theorem planWalk_below {ceiling : Int} {lo len : Nat} {cur : Int} {cs : List Candidate} {m : List Int} {a : Nat × Int}
    (ha : a ∈ (planWalk ceiling lo len cur cs m).2) : ∃ k ∈ cs, a.1 = k.serial ∧ a.2 < k.granted := by
  induction cs generalizing m with
  | nil => simp [planWalk] at ha
  | cons k cs ih =>
    have later : ∀ {m'}, a ∈ (planWalk ceiling lo len cur cs m').2 → ∃ k' ∈ k :: cs, a.1 = k'.serial ∧ a.2 < k'.granted :=
      fun ha => by
        obtain ⟨k', hk', hbelow⟩ := ih ha
        exact ⟨k', List.mem_cons_of_mem _ hk', hbelow⟩
    unfold planWalk at ha
    split at ha
    · simp at ha
    · dsimp only at ha
      split at ha
      · rename_i hlt
        rcases List.mem_cons.1 ha with rfl | ha
        · exact ⟨k, by simp, rfl, hlt⟩
        · exact later ha
      · exact later ha

theorem mem_candidates {s : State} {w : WorkingRecord} {k : Candidate} (h : k ∈ s.candidates w) :
    ∃ e ∈ s.sched.entries, k = s.asCandidate e := by
  unfold State.candidates at h
  split at h
  · cases h
  · obtain ⟨e, he, rfl⟩ := List.mem_map.1 h
    obtain ⟨_, _, he⟩ := List.mem_flatMap.1 (List.mem_of_mem_take he)
    exact ⟨e, List.mem_reverse.1 (List.mem_of_mem_filter he), rfl⟩

/-- R51, R52: a fit plans amendments of entries in the schedule alone, each below the entry's grant. -/
theorem fit_plan_below {s : State} {w : WorkingRecord} {a : Nat × Int} (ha : a ∈ (s.fit w).plan) :
    ∃ e ∈ s.sched.entries, e.serial = a.1 ∧ a.2 < e.granted := by
  have walked : ∀ {cur}, a ∈ (planWalk s.supply.ceiling w.row w.order.length cur (s.candidates w) s.supply.map).2 →
      ∃ e ∈ s.sched.entries, e.serial = a.1 ∧ a.2 < e.granted := fun ha => by
    obtain ⟨k, hk, hserial, hbelow⟩ := planWalk_below ha
    obtain ⟨e, he, rfl⟩ := mem_candidates hk
    exact ⟨e, he, hserial.symm, hbelow⟩
  unfold State.fit at ha
  dsimp only at ha
  split at ha
  · cases ha
  · split at ha
    · cases ha
    · split at ha
      · exact walked ha
      · split at ha
        · exact walked ha
        · cases ha

/-! ### Orders -/

theorem admission_descends {s : State} (h : s.sched.sound) (o : Order) : s.sched.descends (s.admission o).1.sched := by
  have hd : (s.demanded o).sched = s.sched := (demanded_frame s o).2.1
  have hplan : s.sched.descends ((s.demanded o).commitPlan ((s.demanded o).fit (s.workingRecord o)).plan).sched := by
    refine commitPlan_descends _ (hd ▸ Schedule.descends_refl _) fun a ha e he hserial => ?_
    obtain ⟨x, hx, hxa, hbelow⟩ := fit_plan_below ha
    rw [hd] at hx
    rw [Schedule.unique h he hx (hserial.trans hxa.symm)]
    exact hbelow.le
  exact Schedule.descends_append hplan (le_refl _)

theorem supersede_descends (s : State) (o : Order) : s.sched.descends (s.supersede o).sched := by
  unfold State.supersede
  generalize s.sched.overlapping o = es
  induction es generalizing s with
  | nil => exact s.sched.descends_refl
  | cons e es ih => exact (s.sched.descends_remove fun x => x.serial == e.serial).trans (ih (s.freeEntry e))

theorem supersede_sound {s : State} (h : s.sched.sound) (o : Order) : (s.supersede o).sched.sound := by
  obtain ⟨hsub, hnext, _⟩ := supersede_sched s o
  exact Schedule.sound_sublist h hsub hnext.ge

theorem bookBurst_descends {s : State} (h : s.sched.sound) (p : Packet) (o : Order) :
    s.sched.descends (s.bookBurst p o).1.sched := by
  unfold State.bookBurst
  split
  · exact s.sched.descends_refl
  · dsimp only
    split
    · exact supersede_descends s o
    · exact (supersede_descends s o).trans (admission_descends (supersede_sound h o) o)

theorem takeBurst_descends {s : State} (h : s.sched.sound) (p : Packet) (straps : BitVec 2) :
    s.sched.descends (s.takeBurst p straps).1.sched := by
  unfold State.takeBurst
  split
  · exact s.sched.descends_refl
  · dsimp only
    split
    · exact bookBurst_descends h p _
    · exact bookBurst_descends h p _
    · exact s.sched.descends_refl

theorem freeEntry_descends (s : State) (e : Entry) : s.sched.descends (s.freeEntry e).sched := s.sched.descends_remove _

/-- An entry of the schedule replaced by a lowered form of itself. -/
theorem replaceEntry_descends (s : State) {e : Entry} (he : e ∈ s.sched.entries) {code : Int} (hc : code ≤ e.granted) (b : Bank)
    (r : Reason) (n : Nat) : s.sched.descends (s.replaceEntry e (e.lowered b code r n)).sched where
  serials := le_refl _
  entries := fun f hf _ => by
    obtain ⟨x, hx, rfl⟩ := List.mem_map.1 hf
    split
    · exact ⟨e, he, rfl, lowered_descends e.descends_refl hc b r n⟩
    · exact ⟨x, hx, rfl, x.descends_refl⟩

theorem takeRevise_descends {s : State} (h : s.sched.sound) (p : Packet) (straps : BitVec 2) :
    s.sched.descends (s.takeRevise p straps).1.sched := by
  unfold State.takeRevise
  dsimp only
  split
  · exact s.sched.descends_refl
  · split
    · exact s.sched.descends_refl
    · rename_i e he
      split
      · exact (freeEntry_descends s e).trans (admission_descends (freeEntry_sound h e) _)
      · unfold State.lowerCommitted
        split
        · rename_i hlt
          exact replaceEntry_descends s (find_mem he) hlt.le _ _ _
        · exact s.sched.descends_refl

theorem takeWithdraw_descends (s : State) (p : Packet) : s.sched.descends (s.takeWithdraw p).sched := by
  unfold State.takeWithdraw
  split
  · split
    · exact freeEntry_descends s _
    · exact s.sched.descends_refl
  · exact s.sched.descends_refl

/-- R61: a requested amendment is made only while its target lies below the grant. -/
theorem makeRequested_descends (s : State) (k : Nat) : s.sched.descends (s.makeRequested k).sched := by
  unfold State.makeRequested
  split
  · exact s.sched.descends_refl
  · split
    · exact s.sched.descends_refl
    · dsimp only
      split
      · exact s.sched.descends_refl
      · rename_i e he
        split
        · rename_i hlower
          exact replaceEntry_descends s (bySerial_mem he).1 hlower.2.le _ _ _
        · exact s.sched.descends_refl

/-! ### The clock -/

theorem grainStep_descends (s : State) : s.sched.descends s.grainStep.sched := by
  by_cases hg : s.timer.grain < 79
  · rw [(grainStep_work hg).1, grainWork_sched]
    exact (s.sched.descends_commit _ _).trans (Schedule.descends_remove _ _)
  · unfold State.grainStep
    rw [if_neg hg]
    exact s.sched.descends_refl

theorem frameTurn_descends (s : State) (turn : Turn) (o : TurnOrder) : s.sched.descends (s.frameTurn turn o).sched := by
  rw [frameTurn_sched]
  exact ((s.sched.descends_remove _).trans (Schedule.descends_relabel _)).trans
    (Schedule.descends_commit _ _ _)

/-! ### Every command -/

/-- A sound schedule that has come down from `c`. -/
structure State.descendsFrom (c : Schedule) (s : State) : Prop where
  sound : s.sched.sound
  descends : c.descends s.sched

theorem State.descendsFrom.step {c : Schedule} {s t : State} (h : s.descendsFrom c) (ht : t.sched.sound)
    (hd : s.sched.descends t.sched) : t.descendsFrom c := ⟨ht, h.descends.trans hd⟩

theorem State.descendsFrom.congr {c : Schedule} {s t : State} (h : s.descendsFrom c) (hsched : t.sched = s.sched) :
    t.descendsFrom c := ⟨hsched ▸ h.sound, hsched ▸ h.descends⟩

theorem descendsFrom_kept (c : Schedule) : KeptByStores (State.descendsFrom c) where
  reads := fun _ _ _ hsched _ h => h.congr hsched
  tables := fun _ _ _ hsched _ h => h.congr hsched
  grain := fun s h => h.step (grainStep_sound h.sound) (grainStep_descends s)
  turn := fun s turn o h => h.step (frameTurn_sched_sound h.sound turn o) (frameTurn_descends s turn o)
  takeSupply := fun _ _ h => h.congr (by simp)
  takeTrip := fun _ _ h => h.congr (by simp)
  takeBurst := fun s p straps h => h.step (takeBurst_sound h.sound p straps) (takeBurst_descends h.sound p straps)
  takeRevise := fun s p straps h => h.step (takeRevise_sound h.sound p straps) (takeRevise_descends h.sound p straps)
  takeWithdraw := fun s p h => h.step (takeWithdraw_sound h.sound p) (takeWithdraw_descends s p)
  makeRequested := fun s k h => h.step (makeRequested_sound h.sound k) (makeRequested_descends s k)

/-- No command but hardware reset makes a schedule that has not come down from the one it found. -/
theorem exec_descends {c : Instr} {s t : State} (hs : s.sched.sound) (ha : c ≠ .resetNAssert) (hr : c ≠ .resetNRelease)
    (h : exec c s = .next t) : s.sched.descends t.sched := by
  rcases exec_cases h with rfl | ⟨hreset, _⟩ | ⟨_, _, _, rfl⟩
  · exact t.sched.descends_refl
  · rcases hreset with e | e
    · exact absurd e ha
    · exact absurd e hr
  · exact ((descendsFrom_kept s.sched).kept.effect c ⟨hs, s.sched.descends_refl⟩).descends

/-- Settles O51, by `exec_descends`: serials tell entries apart, so an entry found again is the one that had the serial. -/
theorem grantedPowerNeverRises : Obligations.GrantedPowerNeverRises := by
  intro c s t hs ha hr h e he f hf hserial
  obtain ⟨x, hx, hfx, hdesc⟩ := (exec_descends hs ha hr h).entries f hf (hserial ▸ (hs.2.2 e he).2)
  rw [Schedule.unique hs hx he (hfx.symm.trans hserial)] at hdesc
  exact ⟨hdesc.granted, hdesc.requested, hdesc.lower, hdesc.tag, hdesc.path, hdesc.start, hdesc.length⟩

end Sys2Proof.Machine
end

section
/-! PROOFS. UNSET (R27, R42, R46, R70, R90, R100): while the mode is UNSET the part stands quiet, command by command. -/

namespace Sys2Proof.Machine

/-! ### The standing of UNSET, block by block -/

/-- S at 0, no reservation, no request in progress (R42, R46). -/
structure Headroom.atRest (h : Headroom) : Prop where
  ceiling : h.ceiling = 0
  map : ∀ g, rowOf h.map g = 0
  requests : h.requests = []

/-- OFF, with nothing due (R63). -/
structure Boost.atRest (b : Boost) : Prop where
  state : b.state = .off
  requestDue : b.requestDue = false
  releaseDue : b.releaseDue = false

/-- No heat held, no zone seeded (R70). -/
def Heat.atRest (h : Heat) : Prop := ∀ i, h.acc.get i = 0 ∧ h.account.get i = 0 ∧ h.seeded.get i = false

/-- No poll outstanding or due (R82). -/
structure Sense.atRest (y : Sense) : Prop where
  poll : y.poll = none
  pollDue : y.pollDue = false

/-- CLEAR, with no back-off (R100). -/
structure PathState.atRest (x : PathState) : Prop where
  state : x.state = .clear
  trip : x.trip = 0
  barLeft : x.barLeft = 0
  thermal : x.thermal = 0

/-- A controller at rest: STEADY, no back-off, no estimate to take (R90). -/
def Control.atRest : Control := ⟨.steady, 0, 0, false⟩

/-- `State.quiet`, with a name for what it says of each block. -/
structure State.quietBlocks (s : State) : Prop where
  sched : s.sched.entries = []
  supply : s.supply.atRest
  orig : s.link.orig = []
  boost : s.boost.atRest
  heat : s.heat.atRest
  control : ∀ z, s.control.get z = Control.atRest
  sense : ∀ z, (s.sense.get z).atRest
  path : ∀ p, (s.path.get p).atRest

theorem quiet_iff (s : State) : s.quiet ↔ s.quietBlocks := by
  constructor
  · rintro ⟨hsched, hceiling, hmap, hrequests, horig, hstate, hrequest, hrelease, hheat, hzones, hpath⟩
    exact ⟨hsched, ⟨hceiling, hmap, hrequests⟩, horig, ⟨hstate, hrequest, hrelease⟩, hheat, fun z => (hzones z).1,
      fun z => ⟨(hzones z).2.1, (hzones z).2.2⟩, fun p => ⟨(hpath p).1, (hpath p).2.1, (hpath p).2.2.1, (hpath p).2.2.2⟩⟩
  · rintro ⟨hsched, ⟨hceiling, hmap, hrequests⟩, horig, ⟨hstate, hrequest, hrelease⟩, hheat, hcontrol, hsense, hpath⟩
    exact ⟨hsched, hceiling, hmap, hrequests, horig, hstate, hrequest, hrelease, hheat, 
      fun z => ⟨hcontrol z, (hsense z).poll, (hsense z).pollDue⟩,
      fun p => ⟨(hpath p).state, (hpath p).trip, (hpath p).barLeft, (hpath p).thermal⟩⟩

/-- The mode is UNSET exactly while no bank is active, and then every block stands quiet. -/
structure State.calm (s : State) : Prop where
  mode : s.modeFollowsBank
  quiet : s.timer.mode = .unset → s.quietBlocks

/-- A step that leaves the mode, or turns one of the two governing modes into the other, and the active bank. -/
theorem State.calm.keep {s t : State} (h : s.calm) (hmode : t.timer.mode = .unset ↔ s.timer.mode = .unset)
    (hactive : t.tables.active = s.tables.active) (hquiet : s.timer.mode = .unset → s.quietBlocks → t.quietBlocks) :
    t.calm where
  mode := by unfold State.modeFollowsBank; rw [hmode, hactive]; exact h.mode
  quiet := fun hu => hquiet (hmode.1 hu) (h.quiet (hmode.1 hu))

/-- A step changes nothing that the standing of UNSET reads. -/
structure State.leavesQuiet (s t : State) : Prop where
  mode : t.timer.mode = s.timer.mode := by simp
  active : t.tables.active = s.tables.active := by simp
  sched : t.sched = s.sched := by simp
  supply : t.supply = s.supply := by simp
  orig : t.link.orig = s.link.orig := by simp
  boost : t.boost = s.boost := by simp
  heat : t.heat = s.heat := by simp
  control : t.control = s.control := by simp
  sense : t.sense = s.sense := by simp
  path : t.path = s.path := by simp

theorem State.calm.leave {s t : State} (h : s.calm) (k : s.leavesQuiet t) : t.calm :=
  h.keep (by rw [k.mode]) k.active fun _ hq =>
    { sched := k.sched ▸ hq.sched
      supply := k.supply ▸ hq.supply
      orig := k.orig ▸ hq.orig
      boost := k.boost ▸ hq.boost
      heat := k.heat ▸ hq.heat
      control := k.control ▸ hq.control
      sense := k.sense ▸ hq.sense
      path := k.path ▸ hq.path }

theorem reset_calm : State.reset.calm where
  mode := ⟨fun _ => rfl, fun _ => rfl⟩
  quiet := fun _ => by
    refine (quiet_iff _).1 ⟨rfl, rfl, fun g => ?_, rfl, rfl, rfl, rfl, rfl, by decide, by decide, by decide⟩
    show (List.replicate 160 (0 : Int)).getD g 0 = 0
    rw [List.getD_eq_getElem?_getD, List.getElem?_replicate]
    split <;> rfl

theorem atReset_calm (s : State) (level : Bool) : (s.atReset level).calm :=
  reset_calm.leave ⟨rfl, rfl, rfl, rfl, rfl, rfl, rfl, rfl, rfl, rfl⟩

/-! ### Quiet blocks through what the clock does to them -/

theorem rowOf_zero_iff (m : List Int) : (∀ g, rowOf m g = 0) ↔ ∀ x ∈ m, x = 0 := by
  unfold rowOf
  constructor
  · intro h x hx
    obtain ⟨g, hg, rfl⟩ := List.mem_iff_getElem.1 hx
    have := h g
    rwa [List.getD_eq_getElem _ _ hg] at this
  · intro h g
    by_cases hg : g < m.length
    · rw [List.getD_eq_getElem _ _ hg]
      exact h _ (List.getElem_mem hg)
    · exact List.getD_eq_default _ _ (not_lt.1 hg)

/-- R49: a map without reservations shifts into one. -/
theorem shiftRows_zero {m : List Int} (h : ∀ g, rowOf m g = 0) (g : Nat) : rowOf (shiftRows m) g = 0 := by
  rw [rowOf_zero_iff] at h
  refine (rowOf_zero_iff _).2 (fun x hx => ?_) g
  rcases List.mem_append.1 hx with hx | hx
  · exact h x (List.mem_of_mem_drop hx)
  · exact List.eq_of_mem_replicate hx

theorem Boost.tick_off {b : Boost} (h : b.state = .off) (cooldown : Nat) : b.tick cooldown = b := by
  simp [Boost.tick, Boost.expires, h]

theorem Sense.tick_atRest {y : Sense} (h : y.atRest) : y.tick.atRest := by
  unfold Sense.tick Sense.expires
  rw [h.poll]
  exact ⟨rfl, h.pollDue⟩

/-- R66, R68: at a turn a quiet Boost Controller clears its marker of a boosted frame and asks for nothing. -/
theorem boostTurn_atRest {s : State} (h : s.boost.atRest) : s.boostTurn = { s with boost := { s.boost with boosted := false } } := by
  obtain ⟨hstate, hrequest, hrelease⟩ := h
  simp [State.boostTurn, State.boostCount, State.quietReleaseDue, State.attemptDue, State.attemptRelease, State.attemptRequest,
    Boost.turn, hstate, hrequest, hrelease]

/-- In UNSET the users of the Originated Queue ask for nothing at a turn that does not enter SAFE (R82, R156). -/
theorem askQueue_atRest {s : State} (hu : s.timer.mode = .unset) (h : s.boost.atRest) (q : QueueOrder) :
    s.askQueue q false = { s with boost := { s.boost with boosted := false } } := by
  have polls : ∀ {u : State}, u.timer.mode = .unset → u.queuePolls = u := fun hu => by
    unfold State.queuePolls
    exact if_pos hu
  have safe : ∀ u : State, u.safeRequest false = u := fun _ => rfl
  unfold State.askQueue
  cases q <;> simp only [safe, polls hu, boostTurn_atRest h] <;> exact polls hu

/-- With no estimate left to take a run of the controllers runs none. -/
theorem runControllers_of_none {s : State} (h : ∀ z, (s.control.get z).presented = false) (held : List (Fin 4)) :
    s.runControllers held = { s with updates := held } := by
  unfold State.runControllers
  simp [Four.indices, h]

theorem rest_presented {s : State} (h : ∀ z, s.control.get z = Control.atRest) (z : Fin 4) :
    (s.control.get z).presented = false := by rw [h z]; rfl

/-! ### The grain event -/

theorem windowEntersSafe_mode {s : State} (h : s.windowEntersSafe = true) : s.timer.mode = .governing := by
  simp only [State.windowEntersSafe, FrameTimer.overLimit, Bool.and_eq_true, beq_iff_eq] at h
  exact h.1

theorem windowEnd_unset (s : State) : s.windowEnd.timer.mode = .unset ↔ s.timer.mode = .unset := by
  rw [windowEnd_timer]
  split
  · rename_i h
    simp [FrameTimer.enterSafe, windowEntersSafe_mode h]
  · rfl

theorem windowEnd_supply {s : State} (h : s.timer.mode = .unset) : s.windowEnd.supply = s.supply := by
  have hno : s.windowEntersSafe = false := by
    refine Bool.eq_false_iff.2 fun hs => ?_
    rw [windowEntersSafe_mode hs] at h
    cases h
  unfold State.windowEnd
  rw [hno]
  rfl

theorem grainStep_unset (s : State) : s.grainStep.timer.mode = .unset ↔ s.timer.mode = .unset := by
  by_cases hg : s.timer.grain < 79
  · have hw : (s.grainWork (s.timer.grain + 1)).timer.mode = s.timer.mode := by rw [grainWork_timer]
    rw [grainStep_cases hg]
    split
    · rw [windowEnd_unset, hw]
    · rw [hw]
  · unfold State.grainStep
    rw [if_neg hg]

theorem grainStep_quiet {s : State} (hu : s.timer.mode = .unset) (h : s.quietBlocks) : s.grainStep.quietBlocks := by
  by_cases hg : s.timer.grain < 79
  · obtain ⟨hsched, hheat, hcontrol, hpath⟩ := grainStep_work hg
    obtain ⟨kcontrol, kpath⟩ := grainWork_control (rest_presented h.control) (s.timer.grain + 1)
    have hsupply : s.grainStep.supply = s.supply := by
      rw [grainStep_cases hg]
      split
      · rw [windowEnd_supply (by rw [grainWork_timer]; exact hu), grainWork_supply]
      · exact grainWork_supply s _
    exact
      { sched := by rw [hsched, grainWork_entries, h.sched]; rfl
        supply := hsupply ▸ h.supply
        orig := by rw [(grainStep_frame s).2.1]; exact h.orig
        boost := by rw [grainStep_boost hg, Boost.tick_off h.boost.state]; exact h.boost
        heat := by rw [hheat, grainWork_heat, h.sched]; exact h.heat
        control := by rw [hcontrol, kcontrol]; exact h.control
        sense := fun z => by rw [grainStep_sense hg]; exact Sense.tick_atRest (h.sense z)
        path := by rw [hpath, kpath]; exact h.path }
  · unfold State.grainStep
    rwa [if_neg hg]

/-! ### The frame turn -/

/-- A turn that begins a frame in UNSET: no switch, no SAFE entry, no bank in force before or after. -/
theorem unset_turn {s : State} (h : s.calm) (hu : s.modeBegun = .unset) (turn : Turn) :
    s.timer.mode = .unset ∧ s.tables.firstSwitch = false ∧ s.tables.active = none ∧ s.tables.turned.active = none ∧
      s.entersSafe turn = false := by
  have hfirst : s.tables.firstSwitch = false := by
    refine Bool.eq_false_iff.2 fun hf => ?_
    unfold State.modeBegun at hu
    rw [if_pos hf] at hu
    cases hu
  have hmode : s.timer.mode = .unset := by
    unfold State.modeBegun at hu
    rwa [hfirst] at hu
  refine ⟨hmode, hfirst, h.mode.1 hmode, (modeBegun_unset h.mode).1 hu, Bool.eq_false_iff.2 fun hs => ?_⟩
  rw [entersSafe_mode hs] at hu
  cases hu

/-- The controllers and the paths at a turn without a bank in force for the frame begun: no estimate is formed, so none runs. -/
theorem turnBase_rest {s : State} (h : ∀ z, s.control.get z = Control.atRest) (ha : s.tables.turned.active = none) (turn : Turn)
    (o : TurnOrder) : (s.turnBase turn o).runControllers o.held = { s.turnBase turn o with updates := o.held } ∧
      (∀ z, (s.turnBase turn o).control.get z = Control.atRest) ∧ (s.turnBase turn o).path = s.path := by
  have hheld := runHeld_of_none (rest_presented h)
  have hbase : ∀ z, (s.turnBase turn o).control.get z = Control.atRest := fun z => by
    rw [turnBase_control, ha, hheld]
    exact h z
  refine ⟨runControllers_of_none (rest_presented hbase) _, hbase, ?_⟩
  rw [(turnBase_frame s turn o).2.1, hheld]

theorem frameTurn_quiet {s : State} (h : s.calm) (hu : s.modeBegun = .unset) (turn : Turn) (o : TurnOrder) :
    (s.frameTurn turn o).quietBlocks := by
  obtain ⟨hmode, hfirst, hactive, hturned, hsafe⟩ := unset_turn h hu turn
  have hq := h.quiet hmode
  have hask : s.frameTurn turn o = { s.turnWork turn o with boost := { s.boost with boosted := false } } := by
    have hboost : (s.turnWork turn o).boost = s.boost := (turnWork_frame s turn o).2.2.1
    unfold State.frameTurn
    rw [hsafe, askQueue_atRest ((turnWork_unset s turn o).2 hu) (hboost ▸ hq.boost), hboost]
  obtain ⟨hrun, hrest, hpath⟩ := turnBase_rest hq.control hturned turn o
  obtain ⟨hcontrol, _, hthermal, _⟩ := frameTurn_control s turn o
  exact
    { sched := by rw [frameTurn_sched]; simp [Schedule.commitUpTo, Schedule.relabel, Schedule.remove, hq.sched]
      supply := by
        rw [hask]
        show (s.turnWork turn o).supply.atRest
        rw [turnWork_supply, if_pos hu]
        exact ⟨rfl, shiftRows_zero hq.supply.map, hq.supply.requests⟩
      orig := by rw [hask]; exact (congrArg Link.orig (turnWork_frame s turn o).2.1).trans hq.orig
      boost := by rw [hask]; exact { hq.boost with }
      heat := by
        obtain ⟨est, hheat, _⟩ := frameTurn_heat hfirst turn o
        have hforce : s.tables.inForce .current = none := by simp [Tables.inForce, hactive]
        rw [hheat, hforce]
        simp only [Heat.close, Schedule.charge, hq.sched]
        exact hq.heat
      control := by rw [hcontrol, hrun]; exact hrest
      sense := fun z => by
        rw [hask]
        show ((s.turnWork turn o).sense.get z).atRest
        rw [turnWork_sense, if_pos hu]
        exact { Sense.tick_atRest (hq.sense z) with }
      path := fun p => by
        obtain ⟨th, hp⟩ := frameTurn_path s turn o p
        have hth : th = 0 := by
          have := hthermal p
          rw [hp, if_pos hu, hrun, hpath] at this
          exact this.trans (hq.path p).thermal
        rw [hp, if_pos hu, hth]
        exact ⟨(hq.path p).state, (hq.path p).trip, (hq.path p).barLeft, rfl⟩ }

theorem frameTurn_calm {s : State} (h : s.calm) (turn : Turn) (o : TurnOrder) : (s.frameTurn turn o).calm where
  mode := by
    unfold State.modeFollowsBank
    rw [frameTurn_unset, frameTurn_tables]
    exact modeBegun_unset h.mode
  quiet := fun hu => frameTurn_quiet h ((frameTurn_unset s turn o).1 hu) turn o

/-! ### Orders, reports and requests in UNSET -/

theorem find_of_empty {c : Schedule} (h : c.entries = []) (tag : Nat) (path : Fin 4) : c.find tag path = none := by
  unfold Schedule.find
  rw [h]
  rfl

theorem takeWithdraw_quiet {s : State} (h : s.quietBlocks) (p : Packet) : s.takeWithdraw p = s := by
  unfold State.takeWithdraw
  rw [find_of_empty h.sched]

theorem makeRequested_quiet {s : State} (h : s.quietBlocks) (k : Nat) : s.makeRequested k = s := by
  unfold State.makeRequested
  rw [h.supply.requests]
  rfl

theorem takeReady_unset {s : State} (hu : s.timer.mode = .unset) : s.takeReady = s := by
  unfold State.takeReady
  exact if_pos hu

/-- R46: in UNSET a report leaves S at 0. -/
theorem takeSupply_quiet {s : State} (hu : s.timer.mode = .unset) (h : s.quietBlocks) (mv : Nat) :
    (s.takeSupply mv).quietBlocks :=
  { h with supply := ⟨if_pos hu, h.supply.map, h.supply.requests⟩ }

/-- R100: in UNSET a trip sets its flag alone. -/
theorem takeTrip_quiet {s : State} (hu : s.timer.mode = .unset) (h : s.quietBlocks) (p : Nat) : (s.takeTrip p).quietBlocks := by
  unfold State.takeTrip
  split
  · exact h
  · dsimp only
    rw [if_pos hu]
    exact { h with }

/-- R79: a report ends a zone's poll; in UNSET it makes no heat. -/
theorem takeTemp_quiet {s : State} (hu : s.timer.mode = .unset) (h : s.quietBlocks) (z : Nat) (t : Int) :
    (s.takeTemp z t).quietBlocks := by
  unfold State.takeTemp
  split
  · exact h
  · refine { h with heat := ?_, sense := fun y => ?_ }
    · show Heat.atRest (if s.timer.mode = .unset then s.heat else _)
      rw [if_pos hu]
      exact h.heat
    · show Sense.atRest ((s.sense.set _ _).get y)
      rw [Four.get_set]
      split
      · exact ⟨rfl, rfl⟩
      · exact h.sense y

/-! ### Commands and grants in UNSET -/

/-- R69: SOFT-RESET finds no controller to switch off. -/
theorem boostSoftReset_quiet {s : State} (h : s.quietBlocks) : s.boostSoftReset.quietBlocks := by
  unfold State.boostSoftReset
  rw [h.boost.state]
  exact { h with boost := ⟨rfl, rfl, h.boost.releaseDue⟩ }

theorem softReset_quiet {s : State} (hu : s.timer.mode = .unset) (h : s.quietBlocks) (n : Nat) (p : Packet) :
    (s.softReset n p).quietBlocks := by
  have hlink : ({ s with link := s.link.softReset } : State).quietBlocks :=
    { h with orig := by show s.link.orig.filter _ = []; rw [h.orig]; rfl }
  have hboost := boostSoftReset_quiet hlink
  refine { hboost with sense := fun z => ?_, path := fun i => ?_ }
  · have hsense : (s.softReset n p).sense.get z = (s.sense.get z).softReset false := by simp [State.softReset, hu]
    rw [hsense]
    exact ⟨rfl, rfl⟩
  · have hpath : (s.softReset n p).path.get i = (s.path.get i).softReset := by simp [State.softReset]
    rw [hpath]
    exact ⟨rfl, rfl, rfl, (h.path i).thermal⟩

theorem grantDown_orig {l : Link} (h : l.orig = []) : l.grantDown.orig = [] := by
  unfold Link.grantDown Link.grantPass
  (repeat' split) <;> simp_all

/-- R107: a cap is no part of what UNSET holds of a path. -/
theorem setCap_quiet {s : State} (h : s.quietBlocks) (i : Fin 4) (c : Option Int) :
    ({ s with path := s.path.set i { s.path.get i with cap := c } } : State).quietBlocks := by
  refine { h with path := fun j => ?_ }
  show PathState.atRest ((s.path.set i _).get j)
  rw [Four.get_set]
  split
  · exact { h.path i with }
  · exact h.path j

theorem finishCopy_active (s : State) : s.finishCopy.tables.active = s.tables.active := by
  unfold State.finishCopy
  split
  · rfl
  · split
    · simp [Tables.copyEnd]
    · simp [Tables.copyDone]

theorem grantUp_orig (s : State) (c : UpSource) : (s.grantUp c).link.orig = s.link.orig := by
  unfold State.grantUp Link.grantUpPass
  (repeat' split) <;> rfl

/-- A confirming mark may end SAFE, but neither enters nor leaves UNSET (R118). -/
theorem confirm_unset (s : State) (m : Nat) : (s.confirm m).timer.mode = .unset ↔ s.timer.mode = .unset := by
  show (FrameTimer.testExit _ _).mode = .unset ↔ _
  rw [testExit_eq]
  dsimp only
  split
  · rename_i hexit
    have hsafe : s.timer.mode = .safe := hexit.1
    simp [hsafe]
  · rfl

theorem softReset_tables (s : State) (n : Nat) (p : Packet) : (s.softReset n p).tables = s.tables.softReset n := by
  simp [State.softReset]

/-! ### Every step -/

/-- Each part of a command's work keeps the standing of UNSET; the first switch ends it at a frame turn (R138). -/
theorem calm_kept : Kept State.calm where
  grain := fun s h => h.keep (grainStep_unset s) (by simp) grainStep_quiet
  turn := fun s turn o _ h => frameTurn_calm h turn o
  confirm := fun s m _ h => h.keep (confirm_unset s m) (by simp) fun _ hq => { hq with }
  events := fun s e h => h.leave {}
  enter := fun s port p ready _ h => h.leave { orig := by cases port <;> rfl }
  queueCommand := fun s p h => h.leave {}
  takeTemp := fun s z t h => h.keep (by simp) (by simp) fun hu hq => takeTemp_quiet hu hq z t
  takeReady := fun s h => h.keep (by simp) (by simp) fun hu hq => by rwa [takeReady_unset hu]
  takeSupply := fun s mv h => h.keep (by simp) (by simp) fun hu hq => takeSupply_quiet hu hq mv
  takeTrip := fun s p h => h.keep (by simp) (by simp) fun hu hq => takeTrip_quiet hu hq p
  pins := fun s pins h => h.leave {}
  takeBurst := fun s p straps h => h.keep (by simp) (by simp) fun hu hq => by rwa [takeBurst_unset hu]
  takeRevise := fun s p straps h => h.keep (by simp) (by simp) fun hu hq => by rwa [takeRevise_unset hu]
  takeWithdraw := fun s p h => h.keep (by simp) (by simp) fun _ hq => by rwa [takeWithdraw_quiet hq]
  finishOrder := fun s f _ h => h.leave { orig := rfl }
  makeRequested := fun s k h => h.keep (by simp) (by simp) fun _ hq => by rwa [makeRequested_quiet hq]
  takeCommand := fun s h => h.leave {}
  answer := fun s p w _ h => h.leave {}
  advance := fun s n h => h.leave { active := Tables.advance_active _ n }
  setCap := fun s i c _ h => h.keep Iff.rfl rfl fun _ hq => setCap_quiet hq i c
  barEnd := fun s i hb h => h.keep Iff.rfl rfl fun _ hq => by
    rw [(hq.path i).state] at hb
    cases hb
  writeTable := fun s b a ws h _ _ _ _ => h.leave {}
  launch := fun s b h _ _ => h.leave { active := by simp [Tables.accept] }
  cancel := fun s h _ => h.leave { active := rfl }
  startCopy := fun s a tag h _ _ _ => h.leave { active := by simp [Tables.startCopy] }
  finishCopy := fun s h => h.leave { active := finishCopy_active s }
  softReset := fun s n p h => h.keep (by simp) (by rw [softReset_tables]; exact Tables.softReset_active _ n) fun hu hq =>
    softReset_quiet hu hq n p
  grantDown := fun s h => h.keep Iff.rfl rfl fun _ hq => { hq with orig := grantDown_orig hq.orig }
  grantUp := fun s c h => h.leave { orig := grantUp_orig s c }
  update := fun s z hz h => h.keep Iff.rfl rfl fun _ hq => by
    rw [rest_presented hq.control z] at hz
    cases hz

/-- Settles O59: `calm_kept`, and the reset values are calm. -/
theorem everyStepKeepsUnsetQuiet : Obligations.EveryStepKeepsUnsetQuiet := by
  intro s t hbank hquiet hstep hu
  have hs : s.calm := ⟨hbank, fun hu => (quiet_iff s).1 (hquiet hu)⟩
  have ht : t.calm := calm_kept.step atReset_calm (fun _ _ h => h.leave {}) hs hstep
  exact (quiet_iff t).2 (ht.quiet hu)

end Sys2Proof.Machine
end

section
/-! PROOFS. The timing of a BURST (R20 to R22), and the orders that name a booked entry: WITHDRAW, REVISE, received AMEND
(R35 to R39). -/

namespace Sys2Proof.Machine

/-! ### The timing of a BURST -/

/-- R21: a length of 1 to 80 grains. -/
theorem burstLength_range (start length : Nat) : 1 ≤ burstLength start length ∧ burstLength start length ≤ 80 := by
  unfold burstLength
  dsimp only
  split <;> omega

theorem timing_outside (s : State) (start len : Nat) : s.timing none start len = .outOfWindow := rfl

theorem timing_beyond {start : Nat} (h : 79 < start) (s : State) (slot : Option Slot) (len : Nat) :
    s.timing slot start len = .outOfWindow := by
  cases slot with
  | none => rfl
  | some f => exact if_pos h

theorem timing_next {start : Nat} (h : start ≤ 79) (s : State) (len : Nat) : s.timing (some .next) start len = .normal :=
  if_neg (not_lt.2 h)

/-- R22: a span of the current frame, by its end and its start against the grain and the commit lead. -/
theorem timing_current {start : Nat} (h : start ≤ 79) (s : State) (len : Nat) :
    s.timing (some .current) start len =
      if start + len ≤ s.timer.grain then .past
      else if start < s.timer.grain + (s.bankFor .current).limits.commitLead then .late
      else .normal :=
  if_neg (not_lt.2 h)

theorem frameSlot_current (s : State) : s.frameSlot s.timer.frame = some .current := if_pos rfl

theorem frameSlot_next {s : State} (h : (s.timer.frame + 1) % 256 ≠ s.timer.frame) :
    s.frameSlot ((s.timer.frame + 1) % 256) = some .next :=
  (if_neg h).trans (if_pos rfl)

theorem frameSlot_none {s : State} {frame : Nat} (hc : frame ≠ s.timer.frame) (hn : frame ≠ (s.timer.frame + 1) % 256) :
    s.frameSlot frame = none :=
  (if_neg hc).trans (if_neg hn)

/-- Settles O30, slot by slot. -/
theorem burstTimingClassification : Obligations.BurstTimingClassification := by
  intro s start length n lead len
  obtain ⟨hpos, hmax⟩ := burstLength_range start length
  refine ⟨rfl, ⟨hpos, hmax, fun h => (burstLength_ok h).2⟩, fun frame => rfl, fun frame hc hn => ?_,
    fun slot h => timing_beyond h s slot len,
    fun h => ⟨fun hpast => ?_, fun hlive hlate => ?_, fun hlive hnormal => ?_, fun hne => ?_⟩⟩
  · rw [frameSlot_none hc hn, timing_outside]
  · rw [frameSlot_current, timing_current h, if_pos hpast]
  · rw [frameSlot_current, timing_current h, if_neg (not_le.2 hlive), if_pos hlate]
  · rw [frameSlot_current, timing_current h, if_neg (not_le.2 hlive), if_neg (not_lt.2 hnormal)]
  · rw [frameSlot_next hne, timing_next h]

/-! ### The entry an order names (R35) -/

theorem find_some {c : Schedule} {tag : Nat} {path : Fin 4} {e : Entry} (h : c.find tag path = some e) :
    ∃ before after, c.entries = before ++ e :: after ∧ e.tag = tag ∧ e.path = path ∧
      ∀ x ∈ after, ¬ (x.tag = tag ∧ x.path = path) := by
  obtain ⟨hmatch, later, earlier, hsplit, hlater⟩ := List.find?_eq_some_iff_append.1 h
  have hmatch : e.tag = tag ∧ e.path = path := by simpa using hmatch
  refine ⟨earlier.reverse, later.reverse, ?_, hmatch.1, hmatch.2, fun x hx => ?_⟩
  · rw [← List.reverse_reverse c.entries, hsplit]
    simp
  · rintro ⟨htag, hpath⟩
    simpa [htag, hpath] using hlater x (List.mem_reverse.1 hx)

theorem find_none_iff (c : Schedule) (tag : Nat) (path : Fin 4) :
    c.find tag path = none ↔ ∀ x ∈ c.entries, ¬ (x.tag = tag ∧ x.path = path) := by
  simp [Schedule.find, List.find?_eq_none]

/-! ### WITHDRAW (R36) -/

/-- A WITHDRAW next to be taken is taken, and its packet is ready as it is. -/
theorem exec_withdraw {s : State} {p : Packet} (hr : s.pins.resetN = true) (hn : s.link.nextOrder = some p) (hk : p.kind = 3) :
    exec .withdraw s = .next { s.takeWithdraw p with link := s.link.finishOrder id } := by
  have hnext : s.withdrawNext = { s.takeWithdraw p with link := (s.takeWithdraw p).link.finishOrder id } := by
    unfold State.withdrawNext
    rw [hn]
    exact if_pos hk
  rw [exec_effect (by simp) (by simp) hr, ← (takeWithdraw_frame s p).2.1]
  exact congrArg _ hnext

theorem takeWithdraw_booked {s : State} {p : Packet} {e : Entry} (hf : s.sched.find p.orderTag p.orderPath = some e)
    (hb : e.state = .booked) : s.takeWithdraw p = s.freeEntry e := by
  unfold State.takeWithdraw
  rw [hf]
  exact if_pos hb

theorem takeWithdraw_committed {s : State} {p : Packet} {e : Entry} (hf : s.sched.find p.orderTag p.orderPath = some e)
    (hc : e.state = .committed) : s.takeWithdraw p = s := by
  unfold State.takeWithdraw
  rw [hf]
  exact if_neg (by rw [hc]; decide)

theorem takeWithdraw_unmatched {s : State} {p : Packet} (hf : s.sched.find p.orderTag p.orderPath = none) :
    s.takeWithdraw p = s := by
  unfold State.takeWithdraw
  rw [hf]

/-- Settles O36: the three cases of R36, and R35's choice of the entry by `find_some`. -/
theorem withdrawFreesTheLatestBookedMatch : Obligations.WithdrawFreesTheLatestBookedMatch := by
  refine ⟨fun s p hr hn hk => ⟨fun e hf hb => ?_, fun e hf hc => ?_, fun hf => ?_⟩,
    fun c tag path => ⟨fun e h => find_some h, find_none_iff c tag path⟩⟩
  · rw [exec_withdraw hr hn hk, takeWithdraw_booked hf hb]
    rfl
  · rw [exec_withdraw hr hn hk, takeWithdraw_committed hf hc]
  · rw [exec_withdraw hr hn hk, takeWithdraw_unmatched hf]

/-! ### REVISE and received AMEND (R37 to R39) -/

/-- Either order is taken by the one rule (R39). -/
theorem exec_revision {s : State} {p : Packet} {straps : BitVec 2} {c : Instr} (hr : s.pins.resetN = true)
    (hn : s.link.nextOrder = some p) (hc : (c = .revise straps ∧ p.kind = 4) ∨ (c = .amendReceived straps ∧ p.kind = 5)) :
    exec c s = .next (s.orderDone straps (s.takeRevise p straps)) := by
  rcases hc with ⟨rfl, hk⟩ | ⟨rfl, hk⟩
  · exact exec_revise straps hr hn hk
  · exact exec_amendReceived straps hr hn hk

theorem takeRevise_unmatched {s : State} {p : Packet} (hm : s.timer.mode ≠ .unset)
    (hf : s.sched.find p.orderTag p.orderPath = none) (straps : BitVec 2) :
    s.takeRevise p straps = (s, min (clampRequest p.power) s.limits.lateCeiling) := by
  unfold State.takeRevise
  dsimp only
  rw [if_neg hm, hf]
  rfl

theorem takeRevise_committed {s : State} {p : Packet} {e : Entry} (hm : s.timer.mode ≠ .unset)
    (hf : s.sched.find p.orderTag p.orderPath = some e) (hc : e.state = .committed) (straps : BitVec 2) :
    s.takeRevise p straps = s.lowerCommitted e (clampRequest p.power) := by
  unfold State.takeRevise
  dsimp only
  rw [if_neg hm, hf]
  dsimp only
  rw [hc]

theorem takeRevise_booked {s : State} {p : Packet} {e : Entry} (hm : s.timer.mode ≠ .unset)
    (hf : s.sched.find p.orderTag p.orderPath = some e) (hb : e.state = .booked) (straps : BitVec 2) :
    s.takeRevise p straps = (s.freeEntry e).admission (e.revised (clampRequest p.power)) := by
  unfold State.takeRevise
  dsimp only
  rw [if_neg hm, hf]
  dsimp only
  rw [hb]

/-- R38: a request at or above the old grant leaves the entry. -/
theorem lowerCommitted_kept {s : State} {e : Entry} {request : Int} (h : e.granted ≤ request) :
    s.lowerCommitted e request = (s, e.granted) := if_neg (not_lt.2 h)

/-- R38, R30: a request below the old grant lowers it. -/
theorem lowerCommitted_lowered {s : State} {e : Entry} {request : Int} (h : request < e.granted) :
    s.lowerCommitted e request =
      (s.replaceEntry e (e.lowered (s.bankFor e.slot) request .request e.amends), request) := if_pos h

theorem rowOf_addRows_ite (m : List Int) (lo len : Nat) (d : Int) (g : Nat) :
    rowOf (addRows m lo len d) g = if lo ≤ g ∧ g < lo + len ∧ g < m.length then rowOf m g + d else rowOf m g := by
  rw [rowOf_addRows]
  split
  · rfl
  · exact add_zero _

/-! ### An order booked again (R37) -/

theorem amendSerial_serials (s : State) (n : Nat) (code : Int) :
    (s.amendSerial n code).sched.entries.map (·.serial) = s.sched.entries.map (·.serial) := by
  unfold State.amendSerial
  split
  · refine (List.map_map).trans (List.map_congr_left fun x _ => ?_)
    dsimp only [Function.comp]
    split
    · rename_i hx
      exact hx.symm
    · rfl
  · rfl

/-- R55: amendments leave the entries in their places. -/
theorem commitPlan_serials (plan : List (Nat × Int)) (s : State) :
    (s.commitPlan plan).sched.entries.map (·.serial) = s.sched.entries.map (·.serial) := by
  induction plan generalizing s with
  | nil => rfl
  | cons a rest ih => exact (ih (s.amendSerial a.1 a.2)).trans (amendSerial_serials s a.1 a.2)

/-- R56: an admission books its order as the last entry, behind those that were there. -/
theorem admission_entries (s : State) (o : Order) :
    ∃ es reason, (s.admission o).1.sched.entries =
        es ++ [(s.workingRecord o).entry s.sched.nextSerial (s.admission o).2 reason] ∧
      es.map (·.serial) = s.sched.entries.map (·.serial) := by
  refine ⟨((s.demanded o).commitPlan ((s.demanded o).fit (s.workingRecord o)).plan).sched.entries, _, rfl, ?_⟩
  rw [commitPlan_serials, (demanded_frame s o).2.1]

/-- Settles O35: `lowerCommitted_kept` and `lowerCommitted_lowered` for a COMMITTED entry; for a BOOKED one `admission_entries`
gives the place and `admission_admits` the admission in full. -/
theorem reviseRebooksOrLowersItsEntry : Obligations.ReviseRebooksOrLowersItsEntry := by
  refine ⟨⟨rfl, rfl, fun e => rfl, fun m lo len d => ⟨addRows_length m lo len d, fun g =>
    ⟨rfl, rowOf_addRows_ite m lo len d g⟩⟩⟩, ?_, ?_⟩
  · intro s p straps c hr hm hn hc req s' write
    rw [exec_revision hr hn hc]
    refine ⟨fun e hf hstate => ⟨fun hle => ?_, fun hlt => ?_⟩, fun hf => ?_⟩
    · rw [takeRevise_committed hm hf hstate, lowerCommitted_kept hle]
      rfl
    · rw [takeRevise_committed hm hf hstate, lowerCommitted_lowered hlt]
      rfl
    · rw [takeRevise_unmatched hm hf]
      rfl
  · intro s p straps c e hr hm hn hc hf hstate
    have htake := takeRevise_booked hm hf hstate straps
    rw [exec_revision hr hn hc]
    refine ⟨?_, fun hsound hcls => ?_⟩
    · obtain ⟨es, reason, hentries, hserials⟩ := admission_entries (s.freeEntry e) (e.revised (clampRequest p.power))
      obtain ⟨_, htimer, hheat, _, _, hpath, htables, _, _⟩ := takeRevise_frame s p straps
      have hdown : (s.orderDone straps (s.takeRevise p straps)).link.down =
          (s.link.finishOrder fun q => q.setPower (s.takeRevise p straps).2).down :=
        orderDone_down (takeRevise_link s p straps) straps
      rw [htake] at hdown ⊢
      rw [htake] at htimer hheat hpath htables
      exact ⟨_, es, _, rfl, hentries, hserials, rfl, rfl, rfl, rfl, rfl, rfl, rfl, rfl, rfl, rfl, rfl, hdown, hheat, hpath,
        htables, htimer⟩
    · have hspan : e.spanOk := (hsound.2.2 e (find_mem hf)).1
      refine ⟨_, _, admission_admits (freeEntry_sound hsound e) (o := e.revised (clampRequest p.power)) hcls hspan.1, ?_⟩
      rw [htake]
      rfl

end Sys2Proof.Machine
end

section
/-! PROOFS. The frame turn on the schedule, the heat and the estimates (R33, R70 to R77, R84, R85). -/

namespace Sys2Proof.Machine

/-! ### The schedule (R33) -/

/-- R33: the entries of the current slot go, those of the next become current, and commit where their start lies within the lead. -/
theorem turned_entries (c : Schedule) (lead : Nat) :
    (((c.remove fun e => e.slot == .current).relabel).commitUpTo lead 0).entries =
      (c.entries.filter fun e => e.slot == .next).map fun e =>
        if e.state = .booked ∧ e.start ≤ lead then { e with slot := .current, state := .committed }
        else { e with slot := .current } := by
  have hslots : (c.entries.filter fun e => !(e.slot == .current)) = c.entries.filter fun e => e.slot == .next :=
    List.filter_congr fun e _ => by cases e.slot <;> rfl
  simp only [Schedule.commitUpTo, Schedule.relabel, Schedule.remove, List.map_map, hslots]
  refine List.map_congr_left fun e _ => ?_
  simp only [Function.comp, Nat.zero_add, true_and]

/-! ### The frame close (R72, R73) -/

/-- R70, R73: what the close of a frame with a bank in force makes of accounts and accumulators. -/
theorem close_some (h : Heat) (b : Bank) (i : Fin 4) :
    (h.close (some b)).acc.get i = 0 ∧
      (h.close (some b)).account.get i = clampTo 0 heatMax (h.account.get i - h.account.get i * (b.zone i).leak / 4096 +
        (h.acc.get 0 * b.coupling 0 i / 256 + (h.acc.get 1 * b.coupling 1 i / 256 +
          (h.acc.get 2 * b.coupling 2 i / 256 + (h.acc.get 3 * b.coupling 3 i / 256 + 0))))) := by
  refine ⟨Four.get_fill 0 i, ?_⟩
  exact Four.get_of _ i

theorem inForce_none {t : Tables} (h : t.active = none) : t.inForce .current = none := by simp [Tables.inForce, h]

/-- A turn that makes no switch leaves a part without an active bank without one. -/
theorem turned_active_none {s : State} (ha : s.tables.active = none) (hf : s.tables.firstSwitch = false) :
    s.tables.turned.active = none := by
  rw [← Option.not_isSome_iff_eq_none, turned_isSome]
  simp [ha, hf]

/-- In UNSET a turn without entries leaves the heat. -/
theorem frameTurn_heat_unset {s : State} (hf : s.tables.firstSwitch = false) (hb : s.tables.inForce .current = none)
    (he : s.sched.entries = []) (turn : Turn) (o : TurnOrder) : (s.frameTurn turn o).heat = s.heat := by
  obtain ⟨est, hheat, hest⟩ := frameTurn_heat hf turn o
  have hactive : s.tables.active = none := by simpa [Tables.inForce] using hb
  have hclose : (s.sched.charge (fun e => e.slot == .current) s.heat).close (s.tables.inForce .current) = s.heat := by
    rw [hb]
    simp [Heat.close, Schedule.charge, he]
  rw [hheat, hest (turned_active_none hactive hf), hclose]

/-! ### The estimates (R76, R84) -/

/-- What a poll's grain event makes of a zone's freshness: a STALE zone whose poll expires is BLIND. -/
theorem Sense.tick_fresh (y : Sense) : y.tick.fresh = if y.expires ∧ y.fresh = .stale then .blind else y.fresh := by
  unfold Sense.tick
  by_cases h : y.expires = true
  · simp [h]
  · simp [h]

theorem estimate_hot {r : ZoneRec} {account : Int} {y : Sense} (h : y.fresh = .fresh ∨ y.fresh = .stale) :
    r.estimate account y = max (r.model account) y.sensed := by
  unfold ZoneRec.estimate
  rcases h with h | h <;> rw [h]

theorem estimate_blind {r : ZoneRec} {account : Int} {y : Sense} (h : y.fresh = .blind) :
    r.estimate account y = min 600 (max (r.model account) y.sensed + r.blindMargin) := by
  unfold ZoneRec.estimate
  rw [h]

theorem estimate_seeding {r : ZoneRec} {account : Int} {y : Sense} (h : y.fresh = .seeding) :
    r.estimate account y = r.seedAssumption := by
  unfold ZoneRec.estimate
  rw [h]

/-- A zone as the frame close of a turn finds it: after its poll's grain event, where the operand takes that first (R84, log 5). -/
def Sense.atClose (y : Sense) (expiryFirst : Bool) : Sense := if expiryFirst then y.tick else y

@[simp] theorem Sense.atClose_sensed (y : Sense) (first : Bool) : (y.atClose first).sensed = y.sensed := by
  unfold Sense.atClose
  split
  · exact Sense.tick_sensed y
  · rfl

theorem Sense.atClose_fresh (y : Sense) (first : Bool) :
    (y.atClose first).fresh = if (first && y.expires) = true ∧ y.fresh = .stale then .blind else y.fresh := by
  unfold Sense.atClose
  cases first
  · simp
  · simpa using Sense.tick_fresh y

/-- R76, R84: the estimate of a zone as the frame close finds it, by its freshness before the turn and its poll's expiry. -/
theorem estimate_atClose (r : ZoneRec) (account : Int) (y : Sense) (first : Bool) :
    (y.fresh = .fresh ∨ (y.fresh = .stale ∧ (first && y.expires) = false) →
      r.estimate account (y.atClose first) = max (r.model account) y.sensed) ∧
    (y.fresh = .blind ∨ (y.fresh = .stale ∧ (first && y.expires) = true) →
      r.estimate account (y.atClose first) = min 600 (max (r.model account) y.sensed + r.blindMargin)) ∧
    (y.fresh = .seeding → r.estimate account (y.atClose first) = r.seedAssumption) := by
  have hfresh := Sense.atClose_fresh y first
  refine ⟨fun h => ?_, fun h => ?_, fun h => ?_⟩
  · have hstands : (y.atClose first).fresh = .fresh ∨ (y.atClose first).fresh = .stale := by
      rcases h with h | ⟨h, hno⟩
      · exact Or.inl (by rw [hfresh, h]; simp)
      · exact Or.inr (by rw [hfresh, h, hno]; rfl)
    rw [estimate_hot hstands, Sense.atClose_sensed]
  · have hblind : (y.atClose first).fresh = .blind := by
      rcases h with h | ⟨h, hyes⟩
      · rw [hfresh, h]; simp
      · rw [hfresh, h, hyes]; rfl
    rw [estimate_blind hblind, Sense.atClose_sensed]
  · exact estimate_seeding (by rw [hfresh, h]; simp)

/-- The account an estimate of a turn is formed from: at the first switch the one that stood, which a seed replaces only
afterwards (R85); else the one the turn leaves. -/
theorem turnBase_account (s : State) (turn : Turn) (o : TurnOrder) (z : Fin 4) :
    (s.turnBase turn o).heat.account.get z =
      if s.tables.firstSwitch then s.heat.account.get z else (s.frameTurn turn o).heat.account.get z := by
  split
  · rename_i hf
    have hactive : s.tables.active = none := by
      simp only [Tables.firstSwitch, Bool.and_eq_true, Option.isNone_iff_eq_none] at hf
      exact hf.2
    obtain ⟨est, hheat, _⟩ := turnBase_heat s turn o
    rw [hheat, inForce_none hactive]
    exact congrArg (fun a : Four Int => a.get z) (charge_account _ _ _)
  · rename_i hf
    exact (((frameTurn_seeds s turn o z).1 (by simpa using hf)).1).symm

/-- R72, R76: the estimates formed at a turn that begins a frame with a bank in force. -/
theorem frameTurn_estimates {s : State} (ha : s.tables.active ≠ none ∨ s.tables.firstSwitch = true) (turn : Turn) (o : TurnOrder)
    (z : Fin 4) : (s.frameTurn turn o).heat.estimate.get z = (s.bankBegun.zone z).estimate
      (if s.tables.firstSwitch then s.heat.account.get z else (s.frameTurn turn o).heat.account.get z)
      ((s.sense.get z).atClose o.expiryFirst) := by
  rw [frameTurn_estimate, turnBase_estimate ((turned_isSome s).2 ha), turnBase_account]
  rfl

/-- R72: where no bank is in force for the frame begun no estimate is formed. -/
theorem frameTurn_estimate_unset {s : State} (ha : s.tables.active = none) (hf : s.tables.firstSwitch = false) (turn : Turn)
    (o : TurnOrder) : (s.frameTurn turn o).heat.estimate = s.heat.estimate := by
  obtain ⟨est, hheat, hest⟩ := turnBase_heat s turn o
  have hcharge : ∀ (es : List Entry) (h : Heat), (es.foldl (fun h e => h.charge e.path e.heat) h).estimate = h.estimate := by
    intro es
    induction es with
    | nil => intro h; rfl
    | cons e es ih => intro h; rw [List.foldl_cons, ih]; rfl
  rw [frameTurn_estimate, hheat, hest (turned_active_none ha hf), inForce_none ha]
  exact hcharge _ _

/-- Settles O20: the schedule by `turned_entries`, the close by `frameTurn_heat` and `close_some`, the estimates by
`frameTurn_estimates`, the seeds of the first switch by `frameTurn_seeds`. -/
theorem frameTurnClosesTheFrame : Obligations.FrameTurnClosesTheFrame := by
  refine ⟨fun s k turn o hr hk => ⟨_, exec_of_turn hr hk, ?_⟩, fun s k turn o hr hk hf => ⟨_, exec_of_turn hr hk, ?_, ?_⟩,
    fun s k turn o hr hk => ⟨_, exec_of_turn hr hk, ?_, ?_⟩⟩
  · rw [frameTurn_sched, turned_entries, bankBegun_beforeTurn, (beforeTurn_frame s k).2.1]
  · intro b hb h i
    obtain ⟨est, hheat, _⟩ := frameTurn_heat (s := s.beforeTurn k) (by simpa using hf) turn o
    have hclose : (((s.beforeTurn k).sched.charge (fun e => e.slot == .current) (s.beforeTurn k).heat).close
        ((s.beforeTurn k).tables.inForce .current)) = h.close (some b) := by
      simp only [beforeTurn_frame, hb]
      rfl
    rw [hheat, hclose]
    exact close_some h b i
  · intro hb he
    rw [frameTurn_heat_unset (by simpa using hf) (by simpa using hb) (by simpa using he), (beforeTurn_frame s k).2.2.2.2.1]
  · intro hbank z r y expired account hot
    have hest := frameTurn_estimates (s := s.beforeTurn k) (by simpa using hbank) turn o z
    obtain ⟨hlater, hfirst⟩ := frameTurn_seeds (s.beforeTurn k) turn o z
    simp only [beforeTurn_frame, bankBegun_beforeTurn] at hest hlater hfirst
    obtain ⟨hhot, hblind, hseeding⟩ := estimate_atClose r account y o.expiryFirst
    refine ⟨fun h => hest.trans (hhot h), fun h => hest.trans (hblind h), fun h => hest.trans (hseeding h), fun hf h => ?_,
      fun hf h => ?_, fun hf => (hlater hf).2⟩
    · obtain ⟨haccount, hseeded⟩ := hfirst hf
      rw [haccount, hseeded, if_pos h, if_pos h]
      exact ⟨rfl, rfl⟩
    · obtain ⟨haccount, hseeded⟩ := hfirst hf
      rw [haccount, hseeded, if_neg h, if_neg h]
      have hstood := turnBase_account (s.beforeTurn k) turn o z
      simp only [beforeTurn_frame, hf, if_true] at hstood
      exact ⟨hstood, rfl⟩
  · intro ha hf
    rw [frameTurn_estimate_unset (by simpa using ha) (by simpa using hf), (beforeTurn_frame s k).2.2.2.2.1]

end Sys2Proof.Machine
end

section
/-! PROOFS. The Boost Controller (R62 to R69): its answer to a readiness, its expiry, what it does at a frame turn. -/

namespace Sys2Proof.Machine

/-! ### A readiness for the governor (R65, R68) -/

/-- A readiness addressed to the governor is consumed by the Boost Controller (R149). -/
theorem exec_boostReady {s : State} {p : Packet} (hr : s.pins.resetN = true) (hw : p.wellFormed = true) (hk : p.kind = 13)
    (hu : p.unit = 15) : exec (.boostReady p) s = .next s.takeReady := by
  have harrive : s.arrive .frontEnd p .plain = s.takeReady := by
    unfold State.arrive
    rw [classify_ready hw hk hu]
  exact (live_high hr fun s => s.arrive .frontEnd p .plain).trans (congrArg _ harrive)

/-- R156: a slot is free exactly while packets held and slots claimed are fewer than 12. -/
theorem freeSlots_pos (s : State) : 0 < s.freeSlots ↔ s.link.orig.length + s.supply.claimed < 12 := by
  simp only [State.freeSlots, origCapacity]
  omega

theorem releaseNow_room {s : State} (h : s.link.orig.length + s.supply.claimed < 12) (left : Bool) :
    s.releaseNow left = { s with
      boost := { s.boost with releaseDue := left }
      link := { s.link with orig := s.link.orig ++ [⟨s.limits.supplyTag, 8, 0, []⟩] } } :=
  if_pos ((freeSlots_pos s).2 h)

theorem releaseNow_full {s : State} (h : 12 ≤ s.link.orig.length + s.supply.claimed) (left : Bool) :
    s.releaseNow left = { s with boost := { s.boost with releaseDue := true } } :=
  if_neg (fun hfree => by have := (freeSlots_pos s).1 hfree; omega)

theorem takeReady_requested {s : State} (hm : s.timer.mode ≠ .unset) (hb : s.boost.state = .requested) :
    s.takeReady = { s with boost := { s.boost with state := .ready, wait := none, quiet := 0 } } := by
  simp only [State.takeReady, if_neg hm, hb]

theorem takeReady_ready {s : State} (hm : s.timer.mode ≠ .unset) (hb : s.boost.state = .ready) : s.takeReady = s := by
  simp only [State.takeReady, if_neg hm, hb]

theorem takeReady_late {s : State} (hm : s.timer.mode ≠ .unset) (hb : s.boost.state = .off ∨ s.boost.state = .failed) :
    s.takeReady = s.releaseNow false := by
  rcases hb with hb | hb <;> simp only [State.takeReady, if_neg hm, hb]

/-- Settles O11: R65 state by state; a late readiness is answered by `State.releaseNow`. -/
theorem boostReadyAnswersTheRequest : Obligations.BoostReadyAnswersTheRequest := by
  intro s p hr hw hk hu
  rw [exec_boostReady hr hw hk hu]
  refine ⟨fun hm => by rw [takeReady_unset hm], fun hm => ⟨fun hb => by rw [takeReady_requested hm hb],
    fun hb => by rw [takeReady_ready hm hb], fun hb => ⟨fun hroom => ?_, fun hfull => ?_⟩⟩⟩
  · rw [takeReady_late hm hb, releaseNow_room hroom]
  · rw [takeReady_late hm hb, releaseNow_full hfull]

/-! ### The action of a turn, case by case (R66, R67, R68) -/

/-- R67, R68: a READY controller whose quiet count reaches boost release, and no request due: with a free slot it queues its
release and is OFF, without one it stays READY with the count at boost release. -/
theorem boostTurn_quiet {u : State} (hready : u.boost.state = .ready) (hboosted : u.boost.boosted = false)
    (hrequest : u.boost.requestDue = false) (hquiet : u.limits.boostRelease ≤ u.boost.quiet + 1) :
    (0 < u.freeSlots → u.boostTurn.boost.state = .off ∧ u.boostTurn.boost.quiet = 0 ∧
      (⟨u.limits.supplyTag, 8, 0, []⟩ : Draft) ∈ u.boostTurn.link.orig) ∧
    (u.freeSlots = 0 → u.boostTurn.boost.state = .ready ∧ u.boostTurn.boost.quiet = u.limits.boostRelease) := by
  obtain ⟨hstate, _, hcount, _, _, _, _, horig⟩ := boostTurn_spec u
  have hmin : min u.limits.boostRelease (u.boost.quiet + 1) = u.limits.boostRelease := min_eq_left hquiet
  rw [hstate, hcount, horig]
  refine ⟨fun hfree => ?_, fun hfull => ?_⟩
  · have hone : 1 ≤ u.freeSlots := hfree
    simp [hready, hboosted, hrequest, hmin, hone]
  · simp [hready, hboosted, hrequest, hmin, hfull]

/-- R67: a FAILED controller whose cooldown falls to 0, and no request due, is OFF. -/
theorem boostTurn_cooled {u : State} (hfailed : u.boost.state = .failed) (hcool : u.boost.cooldown ≤ 1)
    (hrequest : u.boost.requestDue = false) : u.boostTurn.boost.state = .off ∧ u.boostTurn.boost.cooldown = 0 := by
  obtain ⟨hstate, _, _, hcooldown, _⟩ := boostTurn_spec u
  rw [hstate, hcooldown]
  simp [hfailed, hcool, hrequest]

/-- R66: a controller whose wait timer stands at 1 fails at the turn, whatever request is due. -/
theorem boostTurn_expired {u : State} (hrequested : u.boost.state = .requested) (hwait : u.boost.wait = some 1) :
    u.boostTurn.boost.state = .failed ∧ u.boostTurn.boost.wait = none ∧
      u.boostTurn.boost.cooldown = u.limits.boostCooldown ∧ u.boostTurn.events.has .boostFail = true := by
  obtain ⟨hstate, htimer, _, hcooldown, _⟩ := boostTurn_spec u
  have hevents : u.boostTurn.events = u.boostTick.events := by
    unfold State.boostTurn
    rw [(attemptDue_frame _ _).2.2.2.2.2.2.2.2.2.2.1]
    unfold State.boostCount
    rw [if_pos hrequested]
  have hoff : (BoostState.failed == BoostState.off) = false := rfl
  rw [hstate, htimer, hcooldown, hevents]
  refine ⟨by simp [hrequested, hwait, hoff], by simp [hrequested, hwait, hoff], by simp [hrequested, hwait], ?_⟩
  exact raiseIf_has_self (by simp [Boost.expires, hrequested, hwait]) _

/-- R68: what the Boost Controller queues at a turn: at most one release, then at most one request, which leaves it REQUESTED
and was due. -/
theorem boostTurn_queued (u : State) : ∃ releases requests : Bool,
    u.boostTurn.link.orig = u.link.orig ++ (if releases then [Draft.boostRelease u.limits.supplyTag] else []) ++
      (if requests then [Draft.boostRequest u.limits.supplyTag] else []) ∧
    (requests = true → u.boostTurn.boost.state = .requested ∧ u.boost.requestDue = true) := by
  obtain ⟨hstate, _, _, _, _, _, _, horig⟩ := boostTurn_spec u
  refine ⟨_, _, horig, fun hrequests => ⟨hstate.trans (if_pos hrequests), ?_⟩⟩
  simp only [Bool.and_eq_true] at hrequests
  exact hrequests.1.1.1

/-! ### The frame turn (R66 to R68, R156) -/

/-- The state in which the Boost Controller is asked at a turn, and the POLL packets queued before and after its own. -/
theorem frameTurn_boostAsked (s : State) (turn : Turn) (o : TurnOrder) :
    ∃ (u : State) (ahead after : List Draft), u.boost = s.boost ∧ u.limits = s.bankBegun.limits ∧
      u.link.orig = s.link.orig ++ ahead ∧ (∀ d ∈ ahead ++ after, d.kind = Kind.poll) ∧
      (pollsAhead o.queue → after = []) ∧ (¬ pollsAhead o.queue → ahead = []) ∧
      (safeAhead o.queue → u.supply.claimed = (s.frameTurn turn o).supply.claimed) ∧
      (¬ safeAhead o.queue → u.supply.claimed = s.supply.claimed) ∧
      (s.frameTurn turn o).boost = u.boostTurn.boost ∧ (s.frameTurn turn o).link.orig = u.boostTurn.link.orig ++ after := by
  obtain ⟨u, ahead, after, hboost, htables, horig, hkinds, hpolls, hlater, hsafe, hother, hb, ho⟩ :=
    askQueue_boostQueue (s.turnWork turn o) o.queue (s.entersSafe turn)
  obtain ⟨hlink, hclaimed⟩ := turnWork_queue s turn o
  refine ⟨u, ahead, after, hboost.trans (by simp), ?_, by rw [horig, hlink], hkinds, hpolls, hlater, hsafe,
    fun h => (hother h).trans hclaimed, hb, ho⟩
  rw [← turnWork_limits s turn o]
  simp only [State.limits, State.bankFor, htables]

/-- The same of the turn an indication makes. -/
theorem indication_boostAsked (s : State) (k : Clock) (turn : Turn) (o : TurnOrder) :
    let t := (s.beforeTurn k).frameTurn turn o
    ∃ (u : State) (ahead after : List Draft), u.boost = s.boost ∧ u.limits = s.bankBegun.limits ∧
      u.link.orig = s.link.orig ++ ahead ∧ (∀ d ∈ ahead ++ after, d.kind = Kind.poll) ∧
      (pollsAhead o.queue → after = []) ∧ (¬ pollsAhead o.queue → ahead = []) ∧
      (safeAhead o.queue → u.supply.claimed = t.supply.claimed) ∧ (¬ safeAhead o.queue → u.supply.claimed = s.supply.claimed) ∧
      t.boost = u.boostTurn.boost ∧ t.link.orig = u.boostTurn.link.orig ++ after := by
  have h := frameTurn_boostAsked (s.beforeTurn k) turn o
  simpa only [beforeTurn_frame, bankBegun_beforeTurn] using h

theorem frameTurn_grain (s : State) (turn : Turn) (o : TurnOrder) : (s.frameTurn turn o).timer.grain = 0 := by
  rw [frameTurn_timer, timerBegun_eq, timerTurned_eq]
  cases turn with
  | mark m => rfl
  | timer =>
    simp only [FrameTimer.turned]
    split <;> rfl

theorem frameTurn_limits (s : State) (turn : Turn) (o : TurnOrder) : (s.frameTurn turn o).limits = s.bankBegun.limits := by
  rw [State.limits, bankBegun_eq]

/-- R156: asked first, the Boost Controller finds no poll and no SAFE request of the turn in the queue. -/
theorem not_ahead_of_boostFirst {q : QueueOrder} (h : q = .boostPollSafe ∨ q = .boostSafePoll) :
    ¬ pollsAhead q ∧ ¬ safeAhead q := by
  unfold pollsAhead safeAhead
  rcases h with rfl | rfl <;> decide

/-- Settles O25: at a grain event by `grainStep_boost`, at a turn by `boostTurn_expired`. -/
theorem boostWaitExpires : Obligations.BoostWaitExpires := by
  intro s hr hrequested hwait
  have hexpires : s.boost.expires = true := by simp [Boost.expires, hrequested, hwait]
  refine ⟨fun hg => ?_, fun k turn o hk => ?_⟩
  · have hboost : s.grainStep.boost =
        { s.boost with state := .failed, wait := none, cooldown := s.limits.boostCooldown } := by
      rw [grainStep_boost hg]
      exact if_pos hexpires
    have hfails : waitExpired s s.grainStep = true := by simp [waitExpired, hrequested, hboost]
    exact ⟨s.grainStep, live_tickWhen_of_grain hr hfails, exec_commandOf hr .grain, hboost, (grainStep_sets hg).1 hexpires,
      (grainStep_frame s).2.1⟩
  · obtain ⟨u, hb, hl, hboost, hevents, _⟩ := frameTurn_boost (s.beforeTurn k) turn o
    have hub : u.boost = s.boost := hb.trans (by simp)
    obtain ⟨hstate, htimer, hcooldown, hflag⟩ := boostTurn_expired (u := u) (hub ▸ hrequested) (hub ▸ hwait)
    have hfails : waitExpired s ((s.beforeTurn k).frameTurn turn o) = true := by
      simp [waitExpired, hrequested, hboost, hstate]
    refine ⟨_, live_tickWhen_of_turn hr hk hfails, exec_of_turn hr hk, ?_⟩
    rw [hboost, hevents]
    exact ⟨hstate, htimer, by rw [hcooldown, hl, bankBegun_beforeTurn], hflag⟩

/-- R67: the quiet release has come about where the turn leaves OFF, or READY with the count at boost
release. -/
theorem quietReleased_of {s t : State} (hgrain : s.timer.grain ≠ 0) (hturn : t.timer.grain = 0) (hready : s.boost.state = .ready)
    (hends : t.boost.state = .off ∨ (t.boost.state = .ready ∧ t.boost.quiet = t.limits.boostRelease)) :
    quietReleased s t = true := by
  unfold quietReleased
  rcases hends with hoff | ⟨hstays, hcount⟩
  · simp [hgrain, hturn, hready, hoff]
  · simp [hgrain, hturn, hready, hstays, hcount]

/-- Settles O26: the whole action by `indication_boostAsked` and `boostTurn_spec`, its two named ends by `boostTurn_quiet` and
`boostTurn_cooled`. -/
theorem quietBoostAndCooldownEndAtATurn : Obligations.QuietBoostAndCooldownEndAtATurn := by
  refine ⟨fun s k turn o hr hk hgrain hready hboosted hrequest hquiet => ?_,
    fun s k turn o hr hk hfailed hcool hrequest => ?_, fun s k turn o hr hk => ?_⟩
  · obtain ⟨u, ahead, after, hb, hl, horig, _, _, hlater, _, hother, hboost, hqueue⟩ := indication_boostAsked s k turn o
    obtain ⟨hroom, hfull⟩ := boostTurn_quiet (u := u) (hb ▸ hready) (hb ▸ hboosted) (hb ▸ hrequest)
      (by rw [hl, hb]; exact hquiet)
    rw [hl] at hroom hfull
    have hends : u.boostTurn.boost.state = .off ∨
        (u.boostTurn.boost.state = .ready ∧ u.boostTurn.boost.quiet = s.bankBegun.limits.boostRelease) :=
      (Nat.eq_zero_or_pos u.freeSlots).elim (fun hzero => Or.inr (hfull hzero)) fun hpos => Or.inl (hroom hpos).1
    have hreleased : quietReleased s ((s.beforeTurn k).frameTurn turn o) = true :=
      quietReleased_of hgrain (frameTurn_grain _ _ _) hready
        (by rw [hboost, frameTurn_limits, bankBegun_beforeTurn]; exact hends)
    refine ⟨_, live_tickWhen_of_turn hr hk hreleased, exec_of_turn hr hk, ?_⟩
    rw [hboost, hqueue]
    refine ⟨hends, fun hfirst hslot => ?_⟩
    obtain ⟨hpolls, hsafe⟩ := not_ahead_of_boostFirst hfirst
    have hfree : 0 < u.freeSlots := by
      rw [freeSlots_pos, horig, hlater hpolls, hother hsafe, List.append_nil]
      exact hslot
    obtain ⟨hoff, hzero, hmem⟩ := hroom hfree
    exact ⟨hoff, hzero, List.mem_append_left _ hmem⟩
  · obtain ⟨u, _, _, hb, _, _, _, _, _, _, _, hboost, _⟩ := indication_boostAsked s k turn o
    obtain ⟨hoff, hzero⟩ := boostTurn_cooled (u := u) (hb ▸ hfailed) (hb ▸ hcool) (hb ▸ hrequest)
    have hends : cooled s ((s.beforeTurn k).frameTurn turn o) = true := by simp [cooled, hfailed, hboost, hoff]
    refine ⟨_, live_tickWhen_of_turn hr hk hends, exec_of_turn hr hk, ?_⟩
    rw [hboost]
    exact ⟨hoff, hzero⟩
  · obtain ⟨u, ahead, after, hb, hl, horig, hkinds, hpolls, hlater, hsafe, hother, hboost, hqueue⟩ :=
      indication_boostAsked s k turn o
    have hfree : u.freeSlots = 12 - (s.link.orig.length + ahead.length) - u.supply.claimed := by
      simp only [State.freeSlots, origCapacity, horig, List.length_append]
    have hspec := boostTurn_spec u
    rw [hb, hl, horig] at hspec
    obtain ⟨hstate, htimer, hquiet, hcooldown, hmarker, hrequest, hrelease, hpackets⟩ := hspec
    refine ⟨_, u.freeSlots, u.supply.claimed, ahead, after, exec_of_turn hr hk, hfree, hsafe, hother, hkinds, hpolls, hlater,
      ?_⟩
    rw [hboost, hqueue, hpackets]
    exact ⟨hstate, htimer, hquiet, hcooldown, hmarker, hrequest, hrelease, rfl⟩

end Sys2Proof.Machine
end

section
/-! PROOFS. Law 9 (R63, R68): a BOOST-REQUEST joins the Originated Queue only from OFF, one at a time, command by command. -/

namespace Sys2Proof.Machine

/-! ### The requests waiting -/

/-- The BOOST-REQUEST packets waiting in a queue. -/
def requestsIn (orig : List Draft) : Nat := (orig.filter fun d => d.kind == Kind.boostRequest).length

theorem requestsIn_append (a b : List Draft) : requestsIn (a ++ b) = requestsIn a + requestsIn b := by
  simp only [requestsIn, List.filter_append, List.length_append]

/-- Packets of other kinds are no requests. -/
theorem requestsIn_others {l : List Draft} (h : ∀ d ∈ l, d.kind ≠ Kind.boostRequest) : requestsIn l = 0 := by
  unfold requestsIn
  rw [List.length_eq_zero_iff, List.filter_eq_nil_iff]
  exact fun d hd => by simpa using h d hd

theorem requestsIn_sublist {a b : List Draft} (h : a.Sublist b) : requestsIn a ≤ requestsIn b := (h.filter _).length_le

/-- Law 9 from one state to another: no more requests wait, or one more does, and the controller has gone from OFF to
REQUESTED. -/
def State.requestsOnce (s t : State) : Prop :=
  requestsIn t.link.orig ≤ requestsIn s.link.orig ∨
    (requestsIn t.link.orig = requestsIn s.link.orig + 1 ∧ t.boost.state = .requested ∧ s.boost.state = .off)

/-- The two states agree on the requests waiting and on the Boost Controller's state. -/
structure State.sameRequests (s t : State) : Prop where
  waiting : requestsIn t.link.orig = requestsIn s.link.orig
  state : t.boost.state = s.boost.state

theorem State.requestsOnce_refl (s : State) : s.requestsOnce s := Or.inl le_rfl

theorem requestsOnce_of_orig {s t : State} (h : t.link.orig = s.link.orig) : s.requestsOnce t := Or.inl (by rw [h])

theorem requestsOnce_of_link {s t : State} (h : t.link = s.link) : s.requestsOnce t := requestsOnce_of_orig (by rw [h])

theorem State.requestsOnce.after {s s' t : State} (h : s'.requestsOnce t) (k : s.sameRequests s') : s.requestsOnce t := by
  unfold State.requestsOnce at *
  rwa [k.waiting, k.state] at h

theorem State.requestsOnce.before {s t t' : State} (h : s.requestsOnce t) (k : t.sameRequests t') : s.requestsOnce t' := by
  unfold State.requestsOnce at *
  rwa [k.waiting, k.state]

/-! ### The Boost Controller -/

/-- R63: a demand queues a request from OFF, or leaves it due. -/
theorem boostDemand_requestsOnce (s : State) : s.requestsOnce s.boostDemand := by
  unfold State.boostDemand
  split
  · rename_i hoff
    split
    · refine Or.inr ⟨?_, rfl, hoff.1⟩
      exact requestsIn_append s.link.orig [Draft.boostRequest s.limits.supplyTag]
    · exact s.requestsOnce_refl
  · exact s.requestsOnce_refl

/-- R65, R69: a release queued is no request. -/
theorem releaseNow_waiting (s : State) (left : Bool) : requestsIn (s.releaseNow left).link.orig = requestsIn s.link.orig := by
  unfold State.releaseNow
  split
  · exact requestsIn_append s.link.orig [Draft.boostRelease s.limits.supplyTag]
  · rfl

theorem takeReady_requestsOnce (s : State) : s.requestsOnce s.takeReady := by
  unfold State.takeReady
  split
  · exact s.requestsOnce_refl
  · split
    · exact requestsOnce_of_orig rfl
    · exact s.requestsOnce_refl
    · exact Or.inl (releaseNow_waiting s false).le
    · exact Or.inl (releaseNow_waiting s false).le

/-- R69: SOFT-RESET queues a release at most, once the POLL packets have left. -/
theorem softReset_requestsOnce (s : State) (copied : Nat) (p : Packet) : s.requestsOnce (s.softReset copied p) := by
  have hboost : ∀ u : State, requestsIn u.boostSoftReset.link.orig = requestsIn u.link.orig := by
    intro u
    unfold State.boostSoftReset
    dsimp only
    split
    · exact releaseNow_waiting _ _
    · rfl
  exact Or.inl ((hboost _).trans_le (requestsIn_sublist List.filter_sublist))

/-- R68: at a turn a request that was due is queued; by R63 it was due in OFF. -/
theorem frameTurn_requestsOnce {s : State} (hs : s.boost.sound) (turn : Turn) (o : TurnOrder) :
    s.requestsOnce (s.frameTurn turn o) := by
  obtain ⟨u, ahead, after, hb, _, horig, hkinds, _, _, _, _, hboost, hqueue⟩ := frameTurn_boostAsked s turn o
  obtain ⟨releases, requests, hpackets, hrequested⟩ := boostTurn_queued u
  have hahead : requestsIn ahead = 0 :=
    requestsIn_others fun d hd => by rw [hkinds d (List.mem_append_left _ hd)]; decide
  have hafter : requestsIn after = 0 :=
    requestsIn_others fun d hd => by rw [hkinds d (List.mem_append_right _ hd)]; decide
  have hreleases : requestsIn (if releases then [Draft.boostRelease u.limits.supplyTag] else []) = 0 := by
    cases releases <;> rfl
  unfold State.requestsOnce
  rw [hqueue, hpackets, horig, hboost]
  simp only [requestsIn_append, hahead, hafter, hreleases]
  cases requests with
  | false => exact Or.inl le_rfl
  | true =>
    obtain ⟨hstate, hdue⟩ := hrequested rfl
    exact Or.inr ⟨rfl, hstate, hs.1 (hb ▸ hdue)⟩

/-! ### Orders and amendments -/

/-- R55, R57: an amendment announces itself by an AMEND packet alone. -/
theorem commitPlan_waiting (plan : List (Nat × Int)) (s : State) :
    requestsIn (s.commitPlan plan).link.orig = requestsIn s.link.orig := by
  have one : ∀ (u : State) n code, requestsIn (u.amendSerial n code).link.orig = requestsIn u.link.orig := by
    intro u n code
    unfold State.amendSerial
    split
    · exact requestsIn_append u.link.orig [Draft.amend _ _ _]
    · rfl
  induction plan generalizing s with
  | nil => rfl
  | cons a rest ih => exact (ih (s.amendSerial a.1 a.2)).trans (one s a.1 a.2)

@[simp] theorem noteGrant_state (b : Boost) (above : Bool) : (b.noteGrant above).state = b.state := by
  unfold Boost.noteGrant
  split <;> rfl

/-- After its boost demand an admission concerns neither the requests waiting nor the controller's state. -/
theorem admission_requests (s : State) (o : Order) : (s.demanded o).sameRequests (s.admission o).1 where
  waiting := commitPlan_waiting _ _
  state := by
    refine (noteGrant_state _ _).trans ?_
    exact congrArg Boost.state (commitPlan_frame _ _).2.2.1

theorem admission_requestsOnce (s : State) (o : Order) : s.requestsOnce (s.admission o).1 := by
  have hdemand : s.requestsOnce (s.demanded o) := by
    unfold State.demanded
    split
    · exact boostDemand_requestsOnce s
    · exact s.requestsOnce_refl
  exact hdemand.before (admission_requests s o)

theorem sameRequests_of {s t : State} (hl : t.link = s.link) (hb : t.boost = s.boost) : s.sameRequests t :=
  ⟨by rw [hl], by rw [hb]⟩

theorem bookBurst_requestsOnce (s : State) (p : Packet) (o : Order) : s.requestsOnce (s.bookBurst p o).1 := by
  have hfreed : s.sameRequests (s.supersede o) := sameRequests_of (by simp) (by simp)
  unfold State.bookBurst
  split
  · exact requestsOnce_of_link (by simp)
  · dsimp only
    split
    · exact requestsOnce_of_link (by simp)
    · exact ((admission_requestsOnce _ o).after hfreed).before (sameRequests_of (by simp) (by simp))

theorem takeBurst_requestsOnce (s : State) (p : Packet) (straps : BitVec 2) : s.requestsOnce (s.takeBurst p straps).1 := by
  unfold State.takeBurst
  split
  · exact s.requestsOnce_refl
  · dsimp only
    split
    · exact bookBurst_requestsOnce s p _
    · exact bookBurst_requestsOnce s p _
    · exact requestsOnce_of_link (by simp)

theorem takeRevise_requestsOnce (s : State) (p : Packet) (straps : BitVec 2) : s.requestsOnce (s.takeRevise p straps).1 := by
  unfold State.takeRevise
  dsimp only
  split
  · exact s.requestsOnce_refl
  · split
    · exact s.requestsOnce_refl
    · rename_i e _
      split
      · exact (admission_requestsOnce (s.freeEntry e) _).after (sameRequests_of rfl rfl)
      · exact requestsOnce_of_link (by simp)

/-- An order taken reads its straps, is handled, and is written into its packet in the Pass Buffer. -/
theorem takeOrder_requestsOnce (s : State) (kind : Nat) (straps : BitVec 2)
    {take : State → Packet → BitVec 2 → State × Int} (ht : ∀ (u : State) p, u.requestsOnce (take u p straps).1) :
    s.requestsOnce (s.takeOrder kind straps take) := by
  unfold State.takeOrder
  split
  · rename_i p _
    split
    · exact ((ht { s with pins := { s.pins with straps := straps } } p).after ⟨rfl, rfl⟩).before ⟨rfl, rfl⟩
    · exact s.requestsOnce_refl
  · exact s.requestsOnce_refl

theorem withdrawNext_requestsOnce (s : State) : s.requestsOnce s.withdrawNext := by
  unfold State.withdrawNext
  split
  · split
    · refine requestsOnce_of_orig ?_
      show (s.takeWithdraw _).link.orig = s.link.orig
      simp
    · exact s.requestsOnce_refl
  · exact s.requestsOnce_refl

theorem makeRequested_requestsOnce (s : State) (k : Nat) : s.requestsOnce (s.makeRequested k) := by
  unfold State.makeRequested
  dsimp only
  split
  · exact s.requestsOnce_refl
  · split
    · exact s.requestsOnce_refl
    · split
      · exact requestsOnce_of_orig rfl
      · split
        · exact Or.inl (requestsIn_append s.link.orig [Draft.amend _ _ _]).le
        · exact requestsOnce_of_orig rfl

/-! ### Arrivals and the clock -/

/-- A packet passed on enters a Pass Buffer, not the Originated Queue. -/
theorem pass_requestsOnce (s : State) (port : Port) (p : Packet) (ready : Bool) {taken : State → State}
    (ht : ∀ u : State, u.boost = s.boost → u.requestsOnce (taken u)) : s.requestsOnce (s.pass port p ready taken) := by
  cases hfull : s.link.full port with
  | true =>
    rw [pass_full hfull]
    exact requestsOnce_of_orig rfl
  | false =>
    rw [pass_room hfull]
    exact (ht { s with link := s.link.enter port p ready } rfl).after ⟨by cases port <;> rfl, rfl⟩

theorem takeMark_requestsOnce {s : State} (hs : s.boost.sound) (m : Nat) (o : TurnOrder) : s.requestsOnce (s.takeMark m o) := by
  unfold State.takeMark
  split
  · split
    · exact requestsOnce_of_orig rfl
    · exact requestsOnce_of_orig rfl
  · exact frameTurn_requestsOnce hs _ o

theorem arrive_requestsOnce {s : State} (hs : s.boost.sound) (port : Port) (p : Packet) (o : TurnOrder) :
    s.requestsOnce (s.arrive port p o) := by
  unfold State.arrive
  cases classify port p with
  | malformedDrop => exact requestsOnce_of_orig rfl
  | malformedPass => exact pass_requestsOnce s port p true fun u _ => requestsOnce_of_orig rfl
  | misdirected => exact requestsOnce_of_orig rfl
  | command => exact requestsOnce_of_link (by simp)
  | mark => exact pass_requestsOnce s port p true fun u hu => takeMark_requestsOnce (hu ▸ hs) _ o
  | order => exact pass_requestsOnce s port p false fun u _ => u.requestsOnce_refl
  | pass => exact pass_requestsOnce s port p true fun u _ => u.requestsOnce_refl
  | tempConsumed => exact requestsOnce_of_link (by simp)
  | readyConsumed => exact takeReady_requestsOnce s
  | tempPassed => exact pass_requestsOnce s port p true fun u _ => requestsOnce_of_link (by simp)
  | supplyPassed => exact pass_requestsOnce s port p true fun u _ => requestsOnce_of_link (by simp)
  | tripPassed => exact pass_requestsOnce s port p true fun u _ => requestsOnce_of_link (by simp)

theorem timerStep_requestsOnce {s : State} (hs : s.boost.sound) (o : TurnOrder) : s.requestsOnce (s.timerStep o) := by
  unfold State.timerStep
  split
  · exact frameTurn_requestsOnce hs .timer o
  · exact s.requestsOnce_refl

theorem grainStep_requestsOnce (s : State) : s.requestsOnce s.grainStep := requestsOnce_of_link (by simp)

theorem tickWhen_requestsOnce {s : State} (hs : s.boost.sound) (k : Clock) (happens : State → State → Bool) :
    s.requestsOnce (s.tickWhen k happens) := by
  unfold State.tickWhen
  split
  · cases k with
    | grain => exact grainStep_requestsOnce s
    | timer o => exact timerStep_requestsOnce hs o
    | mark p o => exact arrive_requestsOnce hs .modem p o
  · exact s.requestsOnce_refl

/-! ### Management commands and grants -/

/-- A command whose effect leaves the link leaves the requests waiting. -/
theorem execute_requestsOnce (s : State) (code : Nat) {eff : State → Packet → State} (he : ∀ p, (eff s p).link = s.link) :
    s.requestsOnce (s.execute code eff) :=
  requestsOnce_of_link (execute_frame State.link s code eff (fun p => by simp) he)

theorem runSoftReset_requestsOnce (s : State) (copied : Nat) : s.requestsOnce (s.runSoftReset copied) := by
  unfold State.runSoftReset
  split
  · split
    · split
      · exact softReset_requestsOnce s copied _
      · split
        · exact requestsOnce_of_link (by simp)
        · exact s.requestsOnce_refl
    · exact s.requestsOnce_refl
  · exact s.requestsOnce_refl

/-- R158: a grant takes the head of a queue and puts nothing into one. -/
theorem grantDown_sublist (l : Link) : l.grantDown.orig.Sublist l.orig := by
  have hpass : l.grantPass.orig = l.orig := by
    unfold Link.grantPass
    split <;> rfl
  unfold Link.grantDown
  split
  · rw [hpass]
  · split
    · unfold Link.grantOriginated
      split
      · rename_i hl
        rw [hl]
        exact List.sublist_cons_self _ _
      · exact List.Sublist.refl _
    · split
      · rw [hpass]
      · exact List.Sublist.refl _

/-! ### Every command -/

/-- Law 9 as a step law, over the commands by the part of the work they make. -/
theorem effect_requestsOnce (c : Instr) {s : State} (hs : s.boost.sound) : s.requestsOnce (effect c s) := by
  cases c with
  | resetNAssert | resetNRelease => exact s.requestsOnce_refl
  | grainEvent => exact grainStep_requestsOnce s
  | awaitingWindowEnd =>
    show s.requestsOnce (if s.windowDue then s.grainStep else s)
    split
    · exact grainStep_requestsOnce s
    · exact s.requestsOnce_refl
  | timerFrameTurn o => exact timerStep_requestsOnce hs o
  | bankSwitch k | supplyStale k | tripClear _ k | barExpiry _ k | zoneStale _ k | pollExpiry _ k | boostQuietRelease k
  | boostCooldownEnd k | boostWaitExpiry k => exact tickWhen_requestsOnce hs k _
  | frameMark p o => exact arrive_requestsOnce hs .modem p o
  | burst straps => exact takeOrder_requestsOnce s _ straps fun u p => takeBurst_requestsOnce u p straps
  | revise straps | amendReceived straps =>
    exact takeOrder_requestsOnce s _ straps fun u p => takeRevise_requestsOnce u p straps
  | withdraw => exact withdrawNext_requestsOnce s
  | requestedAmendment k => exact makeRequested_requestsOnce s k
  | tempReport p | supplyReport p | tripReport p | boostReady p => exact arrive_requestsOnce hs .frontEnd p .plain
  | passPacketArrival port p | malformedPacket port p | misdirectedPacket port p => exact arrive_requestsOnce hs port p .plain
  | govCommandArrival p => exact arrive_requestsOnce hs .modem p .plain
  | commandTake => exact requestsOnce_of_link (takeCommand_frame s).2.1
  | unknownCommand => exact requestsOnce_of_link (answerUnknown_frame s).2.1
  | readStatus | readEvents | setMask | readZone | readPath | readSchedule | setCap | clearBar | readTable _ | writeTable
  | launch | recallLaunch | copy => exact execute_requestsOnce s _ fun p => by simp
  | copyComplete => exact requestsOnce_of_link (finishCopy_frame s).2.1
  | softReset copied => exact runSoftReset_requestsOnce s copied
  | downstreamGrant hold =>
    cases hold
    · exact Or.inl (requestsIn_sublist (grantDown_sublist s.link))
    · exact s.requestsOnce_refl
  | upstreamGrant hold =>
    cases hold
    · refine requestsOnce_of_orig ?_
      show (State.grantNextUp _).link.orig = _
      unfold State.grantNextUp
      split
      · exact grantUp_orig _ _
      · rfl
    · exact s.requestsOnce_refl

/-- Settles O53: `effect_requestsOnce`; hardware reset empties the queue. -/
theorem oneBoostRequestAtATime : Obligations.OneBoostRequestAtATime := by
  intro c s t hs h
  rcases exec_cases h with rfl | ⟨_, level, rfl⟩ | ⟨_, _, _, rfl⟩
  · exact t.requestsOnce_refl
  · exact Or.inl (Nat.zero_le _)
  · exact effect_requestsOnce c hs

end Sys2Proof.Machine
end

section
/-! PROOFS. The supply state: a supply report (R44 to R46), the Supply Map and S at a frame turn (R46, R49). -/

namespace Sys2Proof.Machine

/-- R44, R46: a report taken, its age 0, so S comes from its voltage. -/
theorem takeSupply_eq (s : State) (mv : Nat) :
    s.takeSupply mv = { s with supply := { s.supply with
      volts := min 6000 mv
      age := 0
      reported := true
      ceiling := if s.timer.mode = .unset then 0
        else curveDown (s.bankFor .current).supplyPoints ((min 6000 mv : Nat) : Int) } } := rfl

/-- Settles O9: the report is passed on upstream and taken, by `takeSupply_eq`. -/
theorem supplyReportRecomputesTheCeiling : Obligations.SupplyReportRecomputesTheCeiling := by
  intro s p hr hw hk hu v
  have hexec : exec (.supplyReport p) s =
      .next (s.pass .frontEnd p true fun u => u.takeSupply (p.word 0).toNat) := by
    have harrive : s.arrive .frontEnd p .plain = s.pass .frontEnd p true fun u => u.takeSupply (p.word 0).toNat := by
      unfold State.arrive
      rw [classify_supply hw hk hu]
    exact (live_high hr fun s => s.arrive .frontEnd p .plain).trans (congrArg _ harrive)
  rw [hexec]
  refine ⟨fun hroom => ?_, fun hfull => ?_⟩
  · rw [pass_room (room_frontEnd.2 hroom), takeSupply_eq]
    rfl
  · rw [pass_full (full_frontEnd.2 hfull)]

/-- R33: every entry that a turn leaves is one of the current slot. -/
theorem frameTurn_slots {s : State} {turn : Turn} {o : TurnOrder} {f : Entry} (hf : f ∈ (s.frameTurn turn o).sched.entries) :
    f.slot = .current := by
  rw [frameTurn_sched, turned_entries] at hf
  obtain ⟨e, _, rfl⟩ := List.mem_map.1 hf
  split <;> rfl

/-- Settles O18: the map by `rowOf_shiftRows`, the entries by `frameTurn_slots`. -/
theorem frameTurnShiftsTheSupplyMap : Obligations.FrameTurnShiftsTheSupplyMap := by
  intro s k turn o hr hk hm
  obtain ⟨_, _, _, hmap⟩ := frameTurn_supplyFields (s.beforeTurn k) turn o
  rw [(beforeTurn_frame s k).2.2.1] at hmap
  refine ⟨_, exec_of_turn hr hk, ?_⟩
  rw [hmap]
  refine ⟨shiftRows_length hm, fun g hg => ?_, fun g hg _ => ?_, fun f hf => frameTurn_slots hf⟩
  · rw [rowOf_shiftRows hm, if_pos hg]
  · rw [rowOf_shiftRows hm, if_neg (not_lt.2 hg)]

/-- R46: a report within its stale frames has not aged, one beyond them has, outside UNSET. -/
theorem supplyAged_iff (s : State) : s.supplyAged = true ↔
    s.timer.mode ≠ .unset ∧ s.supply.reported = true ∧ (s.bankFor .current).supplyStale < s.supply.age := by
  simp only [State.supplyAged, Bool.and_eq_true, bne_iff_ne, decide_eq_true_iff, and_assoc]

/-- R44, R46: the supply state after the turn of an indication, the map and the requests apart. -/
theorem indication_supply (s : State) (k : Clock) (turn : Turn) (o : TurnOrder) :
    let t := (s.beforeTurn k).frameTurn turn o
    t.supply.age = min 255 (s.supply.age + 1) ∧ t.supply.volts = s.supply.volts ∧ t.supply.reported = s.supply.reported ∧
    t.supply.ceiling =
      if s.modeBegun = .unset then 0
      else if s.supply.reported = false ∨ s.bankBegun.supplyStale < min 255 (s.supply.age + 1) then s.bankBegun.supplyFloor
      else curveDown s.bankBegun.supplyPoints (s.supply.volts : Int) := by
  dsimp only
  rw [frameTurn_supply]
  simp only [beforeTurn_frame, bankBegun_beforeTurn, modeBegun_beforeTurn, and_self]

/-- Settles O19: the supply state of a turn is `indication_supply`; the row SUPPLY_STALE is that turn where the age passes the
stale frames of the bank begun. -/
theorem frameTurnRecomputesTheSupplyCeiling : Obligations.FrameTurnRecomputesTheSupplyCeiling := by
  constructor
  · intro s k turn o hr hk age
    exact ⟨_, exec_of_turn hr hk, indication_supply s k turn o⟩
  · intro s k turn o hr hk hmode hreported hfresh hstale
    obtain ⟨hage, _, hrep, hceiling⟩ := indication_supply s k turn o
    have hbefore : s.supplyAged = false := by
      rw [Bool.eq_false_iff, ne_eq, supplyAged_iff]
      exact fun h => not_lt.2 hfresh h.2.2
    have hafter : ((s.beforeTurn k).frameTurn turn o).supplyAged = true := by
      rw [supplyAged_iff, ne_eq, frameTurn_unset, modeBegun_beforeTurn, bankBegun_eq, bankBegun_beforeTurn, hrep, hage]
      exact ⟨modeBegun_ne_unset hmode, hreported, hstale⟩
    refine ⟨_, live_tickWhen_of_turn hr hk (by simp [staled, hbefore, hafter]), exec_of_turn hr hk, hage, ?_⟩
    rw [hceiling, if_neg (modeBegun_ne_unset hmode), if_pos (Or.inr hstale)]

end Sys2Proof.Machine
end

section
/-! PROOFS. Amendment requests (R57 to R61): what a request lists, its target codes, and the next amendment of one. -/

namespace Sys2Proof.Machine

/-! ### A request taken (R57) -/

/-- R57: a request taken joins the requests in progress with its list, or ends at once where it lists nothing. -/
theorem takeRequest_listed (s : State) (kind : RequestKind) :
    s.takeRequest kind = { s with supply := { s.supply with
      requests := if s.listed kind = [] then s.supply.requests
        else s.supply.requests ++ [⟨kind, (s.listed kind).map fun e => e.serial⟩] } } := by
  rcases takeRequest_cases s kind with ⟨hlist, h⟩ | ⟨hlist, h⟩ <;> rw [h]
  · rw [if_pos hlist]
  · rw [if_neg hlist]

/-- Each entry listed claims one slot. -/
theorem takeRequest_claims (s : State) (kind : RequestKind) :
    (s.takeRequest kind).supply.claimed = s.supply.claimed + (s.listed kind).length := by
  rcases takeRequest_cases s kind with ⟨hlist, h⟩ | ⟨_, h⟩ <;> rw [h]
  · rw [hlist]
    rfl
  · rw [claimed_append, List.length_map]

/-! ### The next amendment of a request (R41, R57, R61) -/

/-- The state in which the next amendment of request `k` is decided: its item has left the list. -/
def State.itemTaken (s : State) (k : Nat) : State :=
  { s with supply := { s.supply with requests := dropFirstItem s.supply.requests k } }

/-- R58 to R60: no target code depends on the requests in progress. -/
@[simp] theorem itemTaken_target (s : State) (k : Nat) (kind : RequestKind) (e : Entry) :
    (s.itemTaken k).targetCode kind e = s.targetCode kind e := rfl

theorem makeRequested_none {s : State} {k : Nat} (h : s.supply.requests[k]? = none) : s.makeRequested k = s := by
  simp only [State.makeRequested, h]

theorem makeRequested_empty {s : State} {k : Nat} {r : Request} (h : s.supply.requests[k]? = some r) (hr : r.items = []) :
    s.makeRequested k = s := by
  simp only [State.makeRequested, h, hr]

/-- R57: the amendment is made while its entry is BOOKED and above its target. -/
theorem makeRequested_made {s : State} {k : Nat} {r : Request} {n : Nat} {rest : List Nat} {e : Entry}
    (h : s.supply.requests[k]? = some r) (hr : r.items = n :: rest) (he : s.sched.bySerial n = some e)
    (hb : e.state = .booked) (ht : s.targetCode r.kind e < e.granted) :
    s.makeRequested k = (s.itemTaken k).amendEntry e (s.targetCode r.kind e) := by
  simp only [State.makeRequested, h, hr, he]
  exact if_pos ⟨hb, ht⟩

/-- R57: it is dropped where its entry has gone, is COMMITTED, or stands at or below its target. -/
theorem makeRequested_dropped {s : State} {k : Nat} {r : Request} {n : Nat} {rest : List Nat}
    (h : s.supply.requests[k]? = some r) (hr : r.items = n :: rest)
    (hd : ∀ e, s.sched.bySerial n = some e → e.state = .committed ∨ e.granted ≤ s.targetCode r.kind e) :
    s.makeRequested k = s.itemTaken k := by
  simp only [State.makeRequested, h, hr]
  cases he : s.sched.bySerial n with
  | none => rfl
  | some e =>
    refine if_neg fun hmade => ?_
    rcases hd e he with hcommitted | hreached
    · rw [hcommitted] at hmade
      cases hmade.1
    · exact absurd hmade.2 (not_lt.2 hreached)

/-- Made or dropped, the item has left its request's list. -/
theorem makeRequested_requests {s : State} {k : Nat} {r : Request} {n : Nat} {rest : List Nat}
    (h : s.supply.requests[k]? = some r) (hr : r.items = n :: rest) :
    (s.makeRequested k).supply.requests = dropFirstItem s.supply.requests k := by
  unfold State.makeRequested
  rw [h]
  dsimp only
  rw [hr]
  dsimp only
  split
  · rfl
  · split <;> rfl

theorem makeRequested_claimed {s : State} {k : Nat} {r : Request} {n : Nat} {rest : List Nat}
    (h : s.supply.requests[k]? = some r) (hr : r.items = n :: rest) :
    (s.makeRequested k).supply.claimed + 1 = s.supply.claimed := by
  unfold Headroom.claimed
  rw [makeRequested_requests h hr]
  exact sum_dropFirstItem s.supply.requests k r n rest h hr

/-! ### The statement -/

/-- The entry of a serial is one of the schedule with that serial; there is none exactly where no entry has it (log 14). -/
theorem bySerial_none_iff (c : Schedule) (n : Nat) : c.bySerial n = none ↔ ∀ e ∈ c.entries, e.serial ≠ n := by
  simp only [Schedule.bySerial, List.find?_eq_none, beq_iff_eq, ne_eq]

/-- Settles O38: the ranking by the lemmas of `rankByRow`, the request by `takeRequest_listed`, its next amendment by
`makeRequested_made` and `makeRequested_dropped`. -/
theorem amendmentRequestsListAndLower : Obligations.AmendmentRequestsListAndLower := by
  refine ⟨fun s kind => ?_, fun s e => ?_, fun c n => ⟨fun e he => bySerial_mem he, bySerial_none_iff c n⟩, fun h => rfl,
    fun s k hr => ?_⟩
  · intro t inScope wanted
    refine ⟨rankByRow (s.sched.entries.filter wanted), rankByRow_perm _, rankByRow_sorted _, fun r => ?_,
      takeRequest_listed s kind, takeRequest_claims s kind⟩
    rw [rankByRow_filter, List.filter_filter]
    exact List.filter_congr fun e _ => Bool.and_comm _ _
  · intro b r
    refine ⟨fun p => rfl, fun hc => if_neg hc, fun hc => ?_, fun p o hp hb hc hm hs hl => ?_⟩
    · exact (if_pos hc).trans (max_assoc _ _ _).symm
    · simp only [State.targetCode, State.workingRecord, hp, hb, hc, hm, hs, hl]
  · have hexec : exec (.requestedAmendment k) s = .next (s.makeRequested k) := live_high hr fun s => s.makeRequested k
    rw [hexec]
    refine ⟨fun h => by rw [makeRequested_none h], fun r h => ⟨fun hi => by rw [makeRequested_empty h hi], fun n rest hi =>
      ⟨s.makeRequested k, rfl, makeRequested_claimed h hi, fun hne => ?_, fun e he hb ht => ?_, fun hd => ?_⟩⟩⟩
    · rw [makeRequested_requests h hi]
      exact dropFirstItem_eq _ _ _ _ _ hne h hi
    · intro b code e'
      rw [makeRequested_requests h hi, makeRequested_made h hi he hb ht, ← (bySerial_mem he).2]
      rfl
    · rw [makeRequested_requests h hi]
      exact makeRequested_dropped h hi hd

end Sys2Proof.Machine
end

section
/-! PROOFS. A temperature report (R79, R86, R87): the zone it refreshes, and what it makes of the zone's account. -/

namespace Sys2Proof.Machine

theorem clampTo_eq_ite {lo hi x : Int} (h : lo ≤ hi) :
    clampTo lo hi x = if x < lo then lo else if hi < x then hi else x := by
  unfold clampTo
  split
  · omega
  · split <;> omega

/-! ### The report taken -/

theorem takeTemp_above {n : Nat} (h : 4 ≤ n) (s : State) (temp : Int) : s.takeTemp n temp = s := by
  unfold State.takeTemp
  rw [index4_none h]

/-- R79: a report for one of the four zones refreshes it, and touches nothing else but the heat. -/
theorem takeTemp_zone {n : Nat} {z : Fin 4} (h : n = z.val) (s : State) (temp : Int) :
    s.takeTemp n temp = { s with
      sense := s.sense.set z ⟨.fresh, clampTo (-160) 600 temp, 0, none, false, (s.sense.get z).spacing⟩
      heat := (s.takeTemp n temp).heat } := by
  unfold State.takeTemp
  rw [index4_of h]
  rfl

/-- The Sense Tracker takes a report without a look at the link. -/
theorem takeTemp_link (s : State) (l : Link) (n : Nat) (temp : Int) :
    { s with link := l }.takeTemp n temp = { s.takeTemp n temp with link := l } := by
  unfold State.takeTemp
  split <;> rfl

/-- R79: while the mode is UNSET no report is handed on to the Heat Model. -/
theorem takeTemp_heat_unset {s : State} (hm : s.timer.mode = .unset) (n : Nat) (temp : Int) :
    (s.takeTemp n temp).heat = s.heat := by
  unfold State.takeTemp
  split
  · rfl
  · exact if_pos hm

/-- Outside UNSET the report is handed on to the Heat Model, as a seed or to be compared. -/
theorem takeTemp_heat_handed {s : State} {n : Nat} {z : Fin 4} (h : n = z.val) (hm : s.timer.mode ≠ .unset) (temp : Int) :
    (s.takeTemp n temp).heat =
      if s.heat.seeded.get z then s.heat.rebase (s.zoneRec z) z (clampTo (-160) 600 temp)
      else s.heat.seed (s.zoneRec z) z (clampTo (-160) 600 temp) := by
  unfold State.takeTemp
  rw [index4_of h]
  exact if_neg hm

/-- R87: only a report above the model temperature by more than the gap re-bases the account. -/
theorem rebase_above {h : Heat} {r : ZoneRec} {z : Fin 4} {v : Int} (hv : r.model (h.account.get z) + r.rebaseGap < v) :
    h.rebase r z v = { h with account := h.account.set z (clampTo 0 heatMax ((v - r.ambient) * r.scale)) } := if_pos hv

theorem rebase_within {h : Heat} {r : ZoneRec} {z : Fin 4} {v : Int} (hv : v ≤ r.model (h.account.get z) + r.rebaseGap) :
    h.rebase r z v = h := if_neg (not_lt.2 hv)

/-! ### The report's way through the part -/

/-- The Link Interface once it has taken a temperature report: one for the governor enters no buffer (R149, R151). -/
def Link.withReport (l : Link) (p : Packet) : Link := if p.unit = 15 then l else l.enterUp p

/-- R149, R151: a report for the governor is consumed at its arrival, any other has to pass before it is taken. -/
theorem exec_tempReport {s : State} {p : Packet} (hr : s.pins.resetN = true) (hw : p.wellFormed = true) (hk : p.kind = 10) :
    exec (.tempReport p) s = .next (if p.unit = 15 then s.takeTemp (p.word 0).toNat (p.word 1).toInt
      else s.pass .frontEnd p true fun u => u.takeTemp (p.word 0).toNat (p.word 1).toInt) := by
  refine (live_high hr fun s => s.arrive .frontEnd p .plain).trans (congrArg _ ?_)
  unfold State.arrive
  rw [classify_temp hw hk]
  by_cases hu : p.unit = 15
  · rw [if_pos hu, if_pos hu]
  · rw [if_neg hu, if_neg hu]

/-- A report for the governor, or one that finds a place in the upstream buffer, is taken by the Sense Tracker. -/
theorem exec_tempReport_taken {s : State} {p : Packet} (hr : s.pins.resetN = true) (hw : p.wellFormed = true)
    (hk : p.kind = 10) (hplace : p.unit = 15 ∨ s.link.up.length < 16) :
    exec (.tempReport p) s =
      .next { s.takeTemp (p.word 0).toNat (p.word 1).toInt with link := s.link.withReport p } := by
  rw [exec_tempReport hr hw hk, ← takeTemp_link, Link.withReport]
  by_cases hu : p.unit = 15
  · rw [if_pos hu, if_pos hu]
  · rw [if_neg hu, if_neg hu, pass_room (room_frontEnd.2 (hplace.resolve_left hu))]
    rfl

/-- A report that has to pass and finds the buffer full is dropped with OVERRUN. -/
theorem exec_tempReport_full {s : State} {p : Packet} (hr : s.pins.resetN = true) (hw : p.wellFormed = true)
    (hk : p.kind = 10) (hu : p.unit ≠ 15) (hfull : 16 ≤ s.link.up.length) :
    exec (.tempReport p) s = .next (s.raise .overrun) := by
  rw [exec_tempReport hr hw hk, if_neg hu, pass_full (full_frontEnd.2 hfull)]

/-- Settles O8: the zone by `takeTemp_zone`, its account by `takeTemp_heat_handed` and R87's two cases. -/
theorem temperatureReportRefreshesItsZone : Obligations.TemperatureReportRefreshesItsZone := by
  refine ⟨fun s p z hr hw hk hplace hz => ?_, fun s p hr hw hk => ⟨fun hu habove => ?_, fun hu hroom habove => ?_,
    fun hu hfull => exec_tempReport_full hr hw hk hu hfull⟩, fun s z => rfl, fun lo hi x h => clampTo_eq_ite h⟩
  · intro v r
    have hzone := takeTemp_zone hz s (p.word 1).toInt
    refine ⟨_, exec_tempReport_taken hr hw hk hplace, by rw [hzone], rfl, by rw [hzone],
      fun hm => takeTemp_heat_unset hm _ _, fun hm hunseeded => ?_, fun hm hseeded => ?_⟩
    · exact (takeTemp_heat_handed hz hm _).trans (if_neg (Bool.eq_false_iff.1 hunseeded))
    · have hheat := (takeTemp_heat_handed hz hm (p.word 1).toInt).trans (if_pos hseeded)
      exact ⟨fun hv => hheat.trans (rebase_above hv), fun hv => hheat.trans (rebase_within hv)⟩
  · rw [exec_tempReport_taken hr hw hk (Or.inl hu), takeTemp_above habove, Link.withReport, if_pos hu]
  · rw [exec_tempReport_taken hr hw hk (Or.inr hroom), takeTemp_above habove, Link.withReport, if_neg hu]

end Sys2Proof.Machine
end

section
/-! PROOFS. Ageing, staleness and polls (R80 to R85, R156): a zone at a grain event and at a frame turn, its poll asked of the
Originated Queue, and the end of a poll that no report answers. -/

namespace Sys2Proof.Machine

/-! ### One zone -/

/-- R83: the wait timer that falls to 0 ends the poll, and a STALE zone is BLIND. -/
theorem Sense.tick_of_last {x : Sense} (h : x.poll = some 1) :
    x.tick = { x with poll := none, fresh := if x.fresh = .stale then .blind else x.fresh } :=
  if_pos (by simp [Sense.expires, h])

/-- R80: a turn makes no zone STALE that was not FRESH. -/
theorem Sense.turn_fresh {x : Sense} (h : x.fresh ≠ .fresh) (stale : Nat) (first : Bool) :
    (x.turn stale first).fresh = x.fresh := by
  have hstays : x.aged.staled stale = x.aged := if_neg fun hgoes => h hgoes.1
  rw [Sense.turn, hstays]
  rfl

/-- R80: a FRESH zone whose age exceeds its stale frames is STALE after the turn, and its poll is due. -/
theorem Sense.tick_turn_stale {x : Sense} {stale : Nat} (hfresh : x.fresh = .fresh) (hage : stale < min 255 (x.age + 1))
    (first : Bool) : (x.tick.turn stale first).fresh = .stale ∧ (x.tick.turn stale first).age = min 255 (x.age + 1) ∧
      (x.tick.turn stale first).pollDue = true := by
  have hgoes : (x.fresh == .fresh && decide (stale < min 255 (x.age + 1))) = true := by simp [hfresh, hage]
  have hturn := x.tick_turn stale first
  simp only [hgoes] at hturn
  rw [hturn]
  simp

/-! ### The polls of a turn (R82, R156) -/

/-- Asked of the Originated Queue, in whichever order, a zone's poll that is not due leaves the zone; a due one is queued, or stays
due because packets and claimed slots fill the queue. -/
theorem askQueue_poll {s : State} (hm : s.timer.mode ≠ .unset) (q : QueueOrder) (b : Bool) (z : Fin 4) :
    ((s.sense.get z).pollDue = false → (s.askQueue q b).sense.get z = s.sense.get z) ∧
    ((s.sense.get z).pollDue = true →
      ((s.askQueue q b).sense.get z = (s.sense.get z).polled s.limits.pollWait ∧
        Draft.poll s.limits.senseTag z ∈ (s.askQueue q b).link.orig) ∨
      ((s.askQueue q b).sense.get z = s.sense.get z ∧ 12 ≤ (s.askQueue q b).origUse)) := by
  obtain ⟨u, hsense, htimer, htables, _, hafter, hgrows, huse⟩ := askQueue_polls s q b
  have hmode : u.timer.mode ≠ .unset := htimer ▸ hm
  have hlimits : u.limits = s.limits := by simp only [State.limits, State.bankFor, htables]
  obtain ⟨horig, hzones⟩ := queuePolls_eq hmode
  have hzone := hzones z
  rw [hafter]
  rw [hlimits] at horig hzone
  by_cases hqueued : z ∈ (Four.indices.filter fun z => (u.sense.get z).pollDue).take u.freeSlots
  · have hdue : (s.sense.get z).pollDue = true := hsense ▸ (List.mem_filter.1 (List.mem_of_mem_take hqueued)).2
    rw [if_pos hqueued, hsense] at hzone
    refine ⟨fun hnot => absurd hdue (Bool.eq_false_iff.1 hnot), fun _ => Or.inl ⟨hzone, hgrows.subset ?_⟩⟩
    rw [horig]
    exact List.mem_append_right _ (List.mem_map_of_mem hqueued)
  · rw [if_neg hqueued, hsense] at hzone
    refine ⟨fun _ => hzone, fun hdue => Or.inr ⟨hzone, le_trans ?_ huse⟩⟩
    exact queuePolls_full hmode (hsense.symm ▸ hdue) hqueued

/-- Asked first, the due polls join the queue in the order of zones, as far as there are free slots. -/
theorem askQueue_pollsFirst {s : State} (hm : s.timer.mode ≠ .unset) {q : QueueOrder}
    (hq : q = .pollBoostSafe ∨ q = .pollSafeBoost) (b : Bool) :
    ∃ rest, (s.askQueue q b).link.orig = s.link.orig ++
      ((Four.indices.filter fun z => (s.sense.get z).pollDue).take s.freeSlots).map (Draft.poll s.limits.senseTag) ++ rest := by
  obtain ⟨u, _, _, _, hfirst, _, ⟨rest, hrest⟩, _⟩ := askQueue_polls s q b
  rw [hfirst hq, (queuePolls_eq hm).1] at hrest
  exact ⟨rest, hrest.symm⟩

/-! ### The turn of an indication -/

/-- A zone at the turn of an indication outside UNSET, the queueing of its poll apart: a poll that runs out has ended before the
zone ages (R80 to R83, log 10). -/
theorem indication_zone {s : State} (hm : s.modeBegun ≠ .unset) (k : Clock) (turn : Turn) (o : TurnOrder) (z : Fin 4) :
    ((s.beforeTurn k).turnWork turn o).sense.get z =
      (s.sense.get z).tick.turn (s.bankBegun.zone z).staleFrames s.tables.firstSwitch := by
  rw [turnWork_sense, modeBegun_beforeTurn, if_neg hm, bankBegun_beforeTurn]
  simp only [beforeTurn_frame]

/-- What is held and claimed of the Originated Queue, and the limits in force, when an indication's turn asks for its polls. -/
theorem indication_asked (s : State) (k : Clock) (turn : Turn) (o : TurnOrder) :
    let w := (s.beforeTurn k).turnWork turn o
    w.link.orig = s.link.orig ∧ w.freeSlots = 12 - s.link.orig.length - s.supply.claimed ∧ w.limits = s.bankBegun.limits := by
  obtain ⟨hlink, hclaimed⟩ := turnWork_queue (s.beforeTurn k) turn o
  simp only [State.freeSlots, origCapacity, hlink, hclaimed, turnWork_limits, beforeTurn_frame, bankBegun_beforeTurn, and_self]

/-- Settles O23: the zone by `indication_zone` and `Sense.tick_turn`, its poll by `askQueue_poll`, the polls asked first by
`askQueue_pollsFirst`. -/
theorem zoneGoesStaleAtATurn : Obligations.ZoneGoesStaleAtATurn := by
  refine ⟨fun s k turn o z hr hk hm hfresh hage => ?_, fun s k turn o hr hk hm => ?_⟩
  · obtain ⟨hstale, haged, hdue⟩ := Sense.tick_turn_stale hfresh hage s.tables.firstSwitch
    obtain ⟨hf, _, ha, hpoll⟩ := frameTurn_sense (s.beforeTurn k) turn o z
    rw [indication_zone hm] at hf ha hpoll
    have hsensed := frameTurn_sensed (s.beforeTurn k) turn o z
    simp only [beforeTurn_frame] at hsensed
    have hgoes : zoneStaled z s ((s.beforeTurn k).frameTurn turn o) = true := by simp [zoneStaled, hfresh, hf, hstale]
    exact ⟨_, live_tickWhen_of_turn hr hk hgoes, exec_of_turn hr hk, hf.trans hstale, ha.trans haged, hsensed,
      hpoll (Or.inl hdue)⟩
  · intro l poll stale age spacing waiting goes standing due
    have hmode : ((s.beforeTurn k).turnWork turn o).timer.mode ≠ .unset := by
      rwa [ne_eq, turnWork_unset, modeBegun_beforeTurn]
    have hzone : ∀ z, ((s.beforeTurn k).turnWork turn o).sense.get z =
        ⟨standing z, (s.sense.get z).sensed, age z, if waiting z then (s.sense.get z).poll.map (· - 1) else none, due z,
          spacing z⟩ :=
      fun z => (indication_zone hm k turn o z).trans (Sense.tick_turn _ _ _)
    obtain ⟨horig, hfree, hlimits⟩ := indication_asked s k turn o
    refine ⟨_, exec_of_turn hr hk, fun z => ?_, fun hfirst => ?_⟩
    · obtain ⟨hnot, hasked⟩ := askQueue_poll hmode o.queue ((s.beforeTurn k).entersSafe turn) z
      rw [hzone] at hnot hasked
      rw [hlimits] at hasked
      obtain ⟨hf, hs, ha, _⟩ := frameTurn_sense (s.beforeTurn k) turn o z
      rw [hzone] at hf hs ha
      refine ⟨hf, ha, hs, fun hd => ?_, fun hd => (hasked hd).imp (fun ⟨hqueued, hmem⟩ => ?_) fun ⟨hstays, hfull⟩ => ?_⟩
      · rw [State.frameTurn, hnot hd]
        exact ⟨hd, rfl, rfl⟩
      · rw [State.frameTurn, hqueued]
        exact ⟨rfl, rfl, rfl, hmem⟩
      · rw [State.frameTurn, hstays]
        exact ⟨hd, rfl, hfull⟩
    · obtain ⟨rest, hrest⟩ := askQueue_pollsFirst hmode hfirst ((s.beforeTurn k).entersSafe turn)
      simp only [hzone] at hrest
      rw [horig, hfree, hlimits] at hrest
      exact ⟨rest, hrest⟩

/-! ### A poll that no report answers -/

/-- A flag that one of the settings sets stands set after them. -/
theorem Events.has_of_sets {e e' : Events} {P : Flag → Prop} (h : e.sets P e') {f : Flag} (hf : P f) : e'.has f = true := by
  obtain ⟨raised, rfl, hmem⟩ := h
  have keeps : ∀ (fs : List Flag) (e : Events), e.has f = true → (fs.foldl (fun e g => e.raise g) e).has f = true := by
    intro fs
    induction fs with
    | nil => exact fun _ h => h
    | cons g fs ih => exact fun e h => ih _ (Events.has_raise h g)
  obtain ⟨before, after, rfl⟩ := List.append_of_mem ((hmem f).2 hf)
  rw [List.foldl_append, List.foldl_cons]
  exact keeps after _ (Events.has_raise_self _ f)

/-- Whatever the mode, a zone that is not FRESH after its poll's timer has fallen keeps its standing at a turn. -/
theorem frameTurn_fresh {s : State} {z : Fin 4} (h : (s.sense.get z).tick.fresh ≠ .fresh) (turn : Turn) (o : TurnOrder) :
    ((s.frameTurn turn o).sense.get z).fresh = (s.sense.get z).tick.fresh := by
  rw [(frameTurn_sense s turn o z).1, turnWork_sense]
  split
  · rfl
  · exact Sense.turn_fresh h _ _

/-- Settles O24: at a grain event by `grainStep_sense`, at a turn by `frameTurn_fresh`; BLIND by the flags each sets. -/
theorem unansweredPollExpires : Obligations.UnansweredPollExpires := by
  intro s z hr hpoll
  have hexpires : (s.sense.get z).expires = true := by simp [Sense.expires, hpoll]
  have hrunsOut : s.pollRunsOut := ⟨z, 1, hpoll, le_refl 1⟩
  have htick := Sense.tick_of_last hpoll
  refine ⟨fun hg => ?_, fun k turn o hk hgrain hfresh => ?_⟩
  · have hends : pollExpired z s s.grainStep = true := by simp [pollExpired, hexpires, grainStep_grain hg]
    exact ⟨s.grainStep, live_tickWhen_of_grain hr hends, exec_commandOf hr .grain,
      (grainStep_sets hg).2 ((anyExpires_iff s).2 hrunsOut), (grainStep_sense hg z).trans htick⟩
  · have hends : pollExpired z s ((s.beforeTurn k).frameTurn turn o) = true := by
      simp [pollExpired, hexpires, frameTurn_grain, hgrain.symm]
    have hstanding : (s.sense.get z).tick.fresh = if (s.sense.get z).fresh = .stale then .blind else (s.sense.get z).fresh :=
      congrArg Sense.fresh htick
    have hnot : (s.sense.get z).tick.fresh ≠ .fresh := by
      rw [hstanding]
      split
      · decide
      · exact hfresh
    have hsense : (s.beforeTurn k).sense = s.sense := by simp only [beforeTurn_frame]
    have hblind : (s.beforeTurn k).turnSets turn ((s.beforeTurn k).frameTurn turn o) .blind := by
      have hruns : (s.beforeTurn k).pollRunsOut := by rwa [State.pollRunsOut, hsense]
      exact .inr (.inr (.inr (.inr (.inr (.inr ⟨rfl, hruns⟩)))))
    refine ⟨_, live_tickWhen_of_turn hr hk hends, exec_of_turn hr hk, Events.has_of_sets (frameTurn_turnSets _ _ _) hblind, ?_⟩
    rw [frameTurn_fresh (by rwa [hsense]), hsense, hstanding]

end Sys2Proof.Machine
end

section
/-! PROOFS. Law 5 (R90, R97): zone back-offs and thermal back-offs stay in 0 to 255, command by command. -/

namespace Sys2Proof.Machine

/-- Laws 7 and 8: the soundness of the tables, as an invariant of every command. -/
theorem soundTables_kept : KeptByStores fun s => s.tables.sound where
  reads := fun s t htables _ _ h => htables ▸ h
  tables := fun s t hstep _ _ h => hstep.sound h
  grain := fun s h => by rwa [(grainStep_frame s).2.2.1]
  turn := fun s turn o h => by rw [frameTurn_tables]; exact Tables.sound_turned h
  takeSupply := fun s mv h => by simpa using h
  takeTrip := fun s p h => by simpa using h
  takeBurst := fun s p straps h => by simpa using h
  takeRevise := fun s p straps h => by simpa using h
  takeWithdraw := fun s p h => by simpa using h
  makeRequested := fun s k h => by simpa using h

/-- The back-offs lie in their ranges, and so do the numbers of the banks they are computed with. -/
structure State.tempered (s : State) : Prop where
  tables : s.tables.sound
  backoffs : s.backoffsSound

/-- No back-off differs between two states. -/
structure State.sameBackoffs (s t : State) : Prop where
  zone : ∀ z, (t.control.get z).backoff = (s.control.get z).backoff := by simp
  thermal : ∀ p, (t.path.get p).thermal = (s.path.get p).thermal := by simp

theorem State.tempered.move {s t : State} (h : s.tempered) (ht : t.tables.sound) (k : s.sameBackoffs t) : t.tempered :=
  ⟨ht, backoffs_of h.backoffs k.zone k.thermal⟩

theorem State.tempered.leave {s t : State} (h : s.tempered) (k : s.sameBackoffs t) (ht : t.tables = s.tables := by simp) :
    t.tempered :=
  h.move (ht ▸ h.tables) k

/-- A change of one path that leaves its thermal back-off leaves every path's. -/
theorem set_thermal (v : Four PathState) {i : Fin 4} {x : PathState} (hx : x.thermal = (v.get i).thermal) (p : Fin 4) :
    ((v.set i x).get p).thermal = (v.get p).thermal := by
  rw [Four.get_set]
  split
  · rename_i h; rw [hx, h]
  · rfl

/-- R101 to R103: a trip leaves the thermal back-off of the path it names. -/
theorem tripped_thermal (x : PathState) (l : Limits) : (x.tripped l).thermal = x.thermal := by
  unfold PathState.tripped
  split <;> rfl

theorem takeTrip_thermal (s : State) (n : Nat) (p : Fin 4) :
    ((s.takeTrip n).path.get p).thermal = (s.path.get p).thermal := by
  unfold State.takeTrip
  split
  · rfl
  · dsimp only
    split
    · rfl
    · simp only [takeRequestOpt_frame]
      exact set_thermal _ (tripped_thermal _ _) p

/-- R99: SOFT-RESET leaves the thermal back-offs. -/
theorem softReset_thermal (s : State) (n : Nat) (q : Packet) (p : Fin 4) :
    ((s.softReset n q).path.get p).thermal = (s.path.get p).thermal := by
  simp [State.softReset, PathState.softReset]

/-- R130: the numbers of the bank in force for the frame a turn begins lie in their ranges. -/
theorem bankBegun_bounds {s : State} (h : s.tables.sound) : s.bankBegun.bounds :=
  bankFor_bounds (s := { s with tables := s.tables.turned }) (Tables.sound_turned h)

theorem reset_tempered : State.reset.tempered where
  tables := reset_carried.tables
  backoffs := ⟨by decide, by decide⟩

/-- Law 5 as an invariant of every command: a back-off changes at a controller's update alone (R90, R97). -/
theorem tempered_kept : Kept State.tempered :=
  have k := soundTables_kept.kept
  { grain := fun s h => ⟨k.grain s h.tables, grainStep_backoffs h.backoffs (bankFor_bounds h.tables)⟩
    turn := fun s turn o hm h => ⟨k.turn s turn o hm h.tables,
      frameTurn_backoffs h.backoffs (bankFor_bounds h.tables) (bankBegun_bounds h.tables) turn o⟩
    update := fun s z hz h => ⟨k.update s z hz h.tables, runController_backoffs h.backoffs (bankFor_bounds h.tables) z⟩
    confirm := fun s m _ h => h.leave {}
    events := fun s e h => h.leave {}
    enter := fun s port p ready _ h => h.leave {}
    queueCommand := fun s p h => h.leave {}
    takeTemp := fun s z t h => h.leave {}
    takeReady := fun s h => h.leave {}
    takeSupply := fun s mv h => h.leave {}
    takeTrip := fun s p h => h.leave { thermal := takeTrip_thermal s p }
    pins := fun s pins h => h.leave {}
    takeBurst := fun s p straps h => h.leave {}
    takeRevise := fun s p straps h => h.leave {}
    takeWithdraw := fun s p h => h.leave {}
    finishOrder := fun s f _ h => h.leave {}
    makeRequested := fun s n h => h.leave {}
    takeCommand := fun s h => h.leave {}
    answer := fun s p w _ h => h.leave {}
    advance := fun s n h => h.move (k.advance s n h.tables) {}
    setCap := fun s i c _ h => h.leave { thermal := set_thermal _ rfl }
    barEnd := fun s i _ h => h.leave { thermal := set_thermal _ rfl }
    writeTable := fun s b a ws h active pending copy fits => h.move (k.writeTable s b a ws h.tables active pending copy fits) {}
    launch := fun s b h free passes => h.move (k.launch s b h.tables free passes) {}
    cancel := fun s h early => h.move (k.cancel s h.tables early) {}
    startCopy := fun s a tag h active pending copy => h.move (k.startCopy s a tag h.tables active pending copy) {}
    finishCopy := fun s h => h.move (k.finishCopy s h.tables) {}
    softReset := fun s n p h => h.move (k.softReset s n p h.tables) { thermal := softReset_thermal s n p }
    grantDown := fun s h => h.leave {}
    grantUp := fun s c h => h.leave {} }

/-- Settles O58: `tempered_kept`, and the reset values are in their ranges. -/
theorem everyStepKeepsTheBackoffs : Obligations.EveryStepKeepsTheBackoffs := by
  intro s t htables hbackoffs hstep
  have hreset : ∀ (s : State) level, (s.atReset level).tempered := fun s level =>
    reset_tempered.leave ⟨fun _ => rfl, fun _ => rfl⟩ rfl
  exact (tempered_kept.step hreset (fun s q h => h.leave {}) ⟨htables, hbackoffs⟩ hstep).backoffs

end Sys2Proof.Machine
end

section
/-! PROOFS. Path Protection (R100 to R104): a trip report and what it makes of its path, and the decay of trips and bars at a
frame turn. -/

namespace Sys2Proof.Machine

/-! ### A trip report (R100 to R103) -/

theorem takeTrip_above {n : Nat} (h : 4 ≤ n) (s : State) : s.takeTrip n = s := by
  unfold State.takeTrip
  rw [index4_none h]

theorem takeTrip_unset {s : State} {n : Nat} {i : Fin 4} (h : n = i.val) (hm : s.timer.mode = .unset) :
    s.takeTrip n = s.raise .trip := by
  unfold State.takeTrip
  rw [index4_of h]
  exact if_pos hm

/-- Outside UNSET the path named is escalated, and what that asks of the Headroom Unit is handed on (R101 to R103). -/
theorem takeTrip_governed {s : State} {n : Nat} {i : Fin 4} (h : n = i.val) (hm : s.timer.mode ≠ .unset) :
    s.takeTrip n = State.takeRequest? { s with
      path := s.path.set i ((s.path.get i).tripped s.limits)
      events := (s.events.raise .trip).raiseIf ((s.path.get i).state != .clear) .bar } ((s.path.get i).tripRequest i) := by
  unfold State.takeTrip
  rw [index4_of h]
  exact if_neg hm

theorem takeTrip_clear {s : State} {n : Nat} {i : Fin 4} (h : n = i.val) (hm : s.timer.mode ≠ .unset)
    (hclear : (s.path.get i).state = .clear) :
    s.takeTrip n = State.takeRequest { s with
      path := s.path.set i { s.path.get i with state := .tripped, trip := s.limits.tripStep }
      events := s.events.raise .trip } (.trip i) := by
  rw [takeTrip_governed h hm, PathState.tripped, PathState.tripRequest, hclear]
  rfl

theorem takeTrip_tripped {s : State} {n : Nat} {i : Fin 4} (h : n = i.val) (hm : s.timer.mode ≠ .unset)
    (htripped : (s.path.get i).state = .tripped) :
    s.takeTrip n = State.takeRequest { s with
      path := s.path.set i { s.path.get i with
        state := .barred, trip := s.limits.tripStep, barLeft := s.limits.barFrames }
      events := (s.events.raise .trip).raise .bar } (.bar i) := by
  rw [takeTrip_governed h hm, PathState.tripped, PathState.tripRequest, htripped]
  rfl

theorem takeTrip_barred {s : State} {n : Nat} {i : Fin 4} (h : n = i.val) (hm : s.timer.mode ≠ .unset)
    (hbarred : (s.path.get i).state = .barred) :
    s.takeTrip n = { s with
      path := s.path.set i { s.path.get i with trip := s.limits.tripStep, barLeft := s.limits.barFrames }
      events := (s.events.raise .trip).raise .bar } := by
  simp only [takeTrip_governed h hm, PathState.tripped, PathState.tripRequest, hbarred]
  rfl

theorem takeTrip_other (s : State) {n : Nat} {i j : Fin 4} (h : n = i.val) (hj : j ≠ i) :
    (s.takeTrip n).path.get j = s.path.get j := by
  by_cases hm : s.timer.mode = .unset
  · rw [takeTrip_unset h hm]
    rfl
  · rw [takeTrip_governed h hm]
    simp only [takeRequestOpt_frame]
    exact Four.get_set_other _ _ hj

/-- A trip changes nothing but the path, the flags and the requests in progress. -/
theorem takeTrip_eq (s : State) (n : Nat) :
    s.takeTrip n = { s with path := (s.takeTrip n).path, events := (s.takeTrip n).events, supply := (s.takeTrip n).supply } := by
  unfold State.takeTrip
  split
  · rfl
  · dsimp only
    split
    · rfl
    · cases PathState.tripRequest _ _ with
      | none => rfl
      | some kind => 
        rw [State.takeRequest?, takeRequest_eq]
        rfl

/-- R57: of the link a request reads only what the Originated Queue holds, and no flag. -/
theorem takeRequest_supply_congr {s : State} {l : Link} (h : l.orig = s.link.orig) (x : Four PathState) (e : Events)
    (kind : RequestKind) :
    (State.takeRequest { s with link := l, path := x, events := e } kind).supply =
      (State.takeRequest { s with path := x } kind).supply := by
  have hlisted : State.listed { s with link := l, path := x, events := e } kind = State.listed { s with path := x } kind := by
    unfold State.listed State.freeSlots
    rw [h]
    rfl
  rw [takeRequest_supply_of_listed, takeRequest_supply_of_listed, hlisted]

/-- R149, R151: a trip report passes upstream and is then taken. -/
theorem exec_tripReport {s : State} {p : Packet} (hr : s.pins.resetN = true) (hw : p.wellFormed = true) (hk : p.kind = 12)
    (hu : p.unit ≠ 15) :
    exec (.tripReport p) s = .next (s.pass .frontEnd p true fun u => u.takeTrip (p.word 0).toNat) := by
  refine (live_high hr fun s => s.arrive .frontEnd p .plain).trans (congrArg _ ?_)
  unfold State.arrive
  rw [classify_trip hw hk hu]

theorem exec_tripReport_taken {s : State} {p : Packet} (hr : s.pins.resetN = true) (hw : p.wellFormed = true)
    (hk : p.kind = 12) (hu : p.unit ≠ 15) (hroom : s.link.up.length < 16) :
    exec (.tripReport p) s = .next (State.takeTrip { s with link := s.link.enterUp p } (p.word 0).toNat) := by
  rw [exec_tripReport hr hw hk hu, pass_room (room_frontEnd.2 hroom)]
  rfl

theorem exec_tripReport_full {s : State} {p : Packet} (hr : s.pins.resetN = true) (hw : p.wellFormed = true)
    (hk : p.kind = 12) (hu : p.unit ≠ 15) (hfull : 16 ≤ s.link.up.length) :
    exec (.tripReport p) s = .next (s.raise .overrun) := by
  rw [exec_tripReport hr hw hk hu, pass_full (full_frontEnd.2 hfull)]

/-- Settles O10, state by state of the path named. -/
theorem tripReportEscalatesItsPath : Obligations.TripReportEscalatesItsPath := by
  intro s p hr hw hk hu
  refine ⟨exec_tripReport_full hr hw hk hu, fun hroom => ?_⟩
  rw [exec_tripReport_taken hr hw hk hu hroom]
  refine ⟨fun i hi => ⟨_, rfl, takeTrip_eq _ _, fun j hj => takeTrip_other _ hi hj, fun hm => ?_,
    fun hm => ⟨fun hclear => ?_, fun htripped => ?_, fun hbarred => ?_⟩⟩, fun habove => by rw [takeTrip_above habove]⟩
  · rw [takeTrip_unset (s := { s with link := s.link.enterUp p }) hi hm]
    exact ⟨rfl, rfl, rfl⟩
  · rw [takeTrip_clear (s := { s with link := s.link.enterUp p }) hi hm hclear]
    simp only [takeRequest_frame, Four.get_set_self]
    exact ⟨trivial, rfl, takeRequest_supply_congr (l := s.link.enterUp p) rfl _ _ _⟩
  · rw [takeTrip_tripped (s := { s with link := s.link.enterUp p }) hi hm htripped]
    simp only [takeRequest_frame, Four.get_set_self]
    exact ⟨trivial, rfl, takeRequest_supply_congr (l := s.link.enterUp p) rfl _ _ _⟩
  · rw [takeTrip_barred (s := { s with link := s.link.enterUp p }) hi hm hbarred]
    exact ⟨rfl, rfl, Four.get_set_self _ _ _⟩

/-! ### Trips and bars at a frame turn (R104) -/

/-- A path outside UNSET after the turn of an indication: R104 on it, its thermal back-off apart. -/
theorem indication_path {s : State} (hm : s.timer.mode ≠ .unset) (k : Clock) (turn : Turn) (o : TurnOrder) (i : Fin 4) :
    ∃ th, ((s.beforeTurn k).frameTurn turn o).path.get i =
      { s.path.get i with thermal := th }.turn s.bankBegun.limits := by
  obtain ⟨th, hpath⟩ := frameTurn_path (s.beforeTurn k) turn o i
  rw [modeBegun_beforeTurn, if_neg (modeBegun_ne_unset hm), bankBegun_beforeTurn] at hpath
  simp only [beforeTurn_frame] at hpath
  exact ⟨th, hpath⟩

/-- Settles O21: R104 on each path by `indication_path` and `pathTurn_cases`. -/
theorem frameTurnDecaysTripsAndBars : Obligations.FrameTurnDecaysTripsAndBars := by
  refine ⟨fun s k turn o hr hk hm => ⟨_, exec_of_turn hr hk, fun i => ?_⟩, fun s k turn o i hr hk hm => ?_⟩
  · obtain ⟨th, hpath⟩ := indication_path hm k turn o i
    obtain ⟨hcap, _, hclear, htripped, hcounted, hended⟩ :=
      pathTurn_cases { s.path.get i with thermal := th } s.bankBegun.limits
    rw [← hpath] at hcap hclear htripped hcounted hended
    refine ⟨hcap, fun h => ?_, htripped, fun h h2 => ?_, fun h h1 => ?_⟩
    · rw [hclear h]
      exact ⟨h, rfl, rfl⟩
    · rw [hcounted h h2]
      exact ⟨h, rfl, rfl⟩
    · rw [hended h h1]
      exact ⟨rfl, rfl, rfl⟩
  · obtain ⟨th, hpath⟩ := indication_path hm k turn o i
    obtain ⟨_, _, _, htripped, _, hended⟩ := pathTurn_cases { s.path.get i with thermal := th } s.bankBegun.limits
    rw [← hpath] at htripped hended
    refine ⟨fun h hdecays => ?_, fun h hlast => ?_⟩
    · obtain ⟨htrip, _, hstate⟩ := htripped h
      have hclear := hstate.trans (if_pos hdecays)
      have hmoved : protectionMoved i .tripped .clear s ((s.beforeTurn k).frameTurn turn o) = true := by
        simp [protectionMoved, h, hclear]
      exact ⟨_, live_tickWhen_of_turn hr hk hmoved, exec_of_turn hr hk, hclear,
        htrip.trans (max_eq_left (sub_nonpos.2 hdecays))⟩
    · have hpathEnd := hended h hlast
      have hmoved : protectionMoved i .barred .tripped s ((s.beforeTurn k).frameTurn turn o) = true := by
        simp [protectionMoved, h, hpathEnd]
      refine ⟨_, live_tickWhen_of_turn hr hk hmoved, exec_of_turn hr hk, ?_⟩
      rw [hpathEnd]
      exact ⟨rfl, rfl, rfl⟩

end Sys2Proof.Machine
end

section
/-! PROOFS. The zone controllers (R90 to R98): one update case by case, a run of one controller, the controllers of a frame
turn. -/

namespace Sys2Proof.Machine

/-! ### One update (R91 to R95) -/

/-- R91: the back-off an update starts from, held to max back-off. -/
def Control.heldBackoff (c : Control) (r : ZoneRec) : Int := min r.maxBackoff c.backoff

@[simp] theorem clamped_fields (c : Control) (r : ZoneRec) : (c.clamped r).state = c.state ∧
    (c.clamped r).backoff = c.heldBackoff r ∧ (c.clamped r).sinceRaise = c.sinceRaise := ⟨rfl, rfl, rfl⟩

/-- R95: the back-off after a raise. -/
def Control.raisedBackoff (c : Control) (r : ZoneRec) (t : Int) : Int :=
  min r.maxBackoff (c.heldBackoff r + if r.surge < t then r.surgeStep else r.climbStep)

/-- R95: D after an update that makes no raise. -/
def Control.countedUpdates (c : Control) : Nat := min 65535 (c.sinceRaise + 1)

theorem update_hot {r : ZoneRec} {t : Int} (h : r.critical ≤ t) (c : Control) :
    c.update r t = ⟨.critical, r.maxBackoff, 0, false⟩ := by
  unfold Control.update Control.law
  rw [if_pos h]

/-- R91: out of CRITICAL at settle high and below. -/
theorem update_of_critical {c : Control} {r : ZoneRec} {t : Int} (h : t < r.critical) (hs : c.state = .critical) :
    c.update r t = if t ≤ r.settleHigh then ⟨.steady, c.heldBackoff r, c.countedUpdates, false⟩
      else ⟨.critical, r.maxBackoff, 0, false⟩ := by
  simp only [Control.update, Control.law, if_neg (not_le.2 h), clamped_fields, hs]
  split_ifs <;> rfl

/-- R92: out of STEADY above rise, or below fall once the dwell is over. -/
theorem update_of_steady {c : Control} {r : ZoneRec} {t : Int} (h : t < r.critical) (hs : c.state = .steady) :
    c.update r t = if r.rise < t then ⟨.climb, c.raisedBackoff r t, 0, false⟩
      else if t < r.fall ∧ 0 < c.heldBackoff r ∧ r.dwell ≤ c.sinceRaise then
        ⟨.ease, max 0 (c.heldBackoff r - r.easeStep), c.countedUpdates, false⟩
      else ⟨.steady, c.heldBackoff r, c.countedUpdates, false⟩ := by
  simp only [Control.update, Control.law, if_neg (not_le.2 h), clamped_fields, hs]
  split_ifs
  · rfl
  · rfl
  · exact hs ▸ rfl

/-- R93: out of CLIMB at settle high and below. -/
theorem update_of_climb {c : Control} {r : ZoneRec} {t : Int} (h : t < r.critical) (hs : c.state = .climb) :
    c.update r t = if t ≤ r.settleHigh then ⟨.steady, c.heldBackoff r, c.countedUpdates, false⟩
      else ⟨.climb, c.raisedBackoff r t, 0, false⟩ := by
  simp only [Control.update, Control.law, if_neg (not_le.2 h), clamped_fields, hs]
  split_ifs
  · rfl
  · exact hs ▸ rfl

/-- R94: out of EASE above rise, at settle low and above, or with no back-off left. -/
theorem update_of_ease {c : Control} {r : ZoneRec} {t : Int} (h : t < r.critical) (hs : c.state = .ease) :
    c.update r t = if r.rise < t then ⟨.climb, c.raisedBackoff r t, 0, false⟩
      else if r.settleLow ≤ t ∨ c.heldBackoff r = 0 then ⟨.steady, c.heldBackoff r, c.countedUpdates, false⟩
      else ⟨.ease, max 0 (c.heldBackoff r - r.easeStep), c.countedUpdates, false⟩ := by
  simp only [Control.update, Control.law, if_neg (not_le.2 h), clamped_fields, hs]
  split_ifs
  · rfl
  · rfl
  · exact hs ▸ rfl

/-! ### A run of one controller (R90, R96, R97) -/

theorem runController_control (s : State) (z : Fin 4) : (s.runController z).control.get z =
    (s.control.get z).update ((s.bankFor .current).zone z) (s.heat.estimate.get z) :=
  Four.get_set_self _ _ _

/-- R97: a run computes every path's thermal back-off anew, and changes nothing else of a path. -/
theorem runController_path (s : State) (z p : Fin 4) : (s.runController z).path.get p =
    { s.path.get p with thermal := thermalBackoff (s.bankFor .current) (s.runController z).control p } :=
  Four.get_mapIdx _ _ _

/-- R96: an update that leaves the controller's state sets no flag, one that changes it sets TIER. -/
theorem runController_events (s : State) (z : Fin 4) : (s.runController z).events =
    s.events.raiseIf (((s.runController z).control.get z).state != (s.control.get z).state) .tier := by
  rw [runController_control]
  rfl

/-! ### The controllers of a frame turn (R90, R98, log 6) -/

theorem caughtUp_beforeTurn (s : State) (k : Clock) (z : Fin 4) : (s.beforeTurn k).caughtUp z = s.caughtUp z := by
  simp only [State.caughtUp, State.bankFor, beforeTurn_frame]

theorem turnBase_bank (s : State) (turn : Turn) (o : TurnOrder) : (s.turnBase turn o).bankFor .current = s.bankBegun := by
  simp only [State.bankFor, turnBase_frame, State.bankBegun]

/-- R72, R77: with a bank in force for the frame begun every zone's controller is presented an estimate, after it has taken
one left from the frame before. -/
theorem turnBase_presented {s : State} (ha : s.tables.active ≠ none ∨ s.tables.firstSwitch = true) (turn : Turn) (o : TurnOrder)
    (z : Fin 4) : (s.turnBase turn o).control.get z = { s.caughtUp z with presented := true } := by
  rw [turnBase_control, if_pos ((turned_isSome s).2 ha), runHeld_control]

theorem turnBase_runs {s : State} (ha : s.tables.active ≠ none ∨ s.tables.firstSwitch = true) (turn : Turn) (o : TurnOrder)
    (z : Fin 4) : (s.turnBase turn o).runs o.held z = true ↔ z ∉ o.held := by
  simp [State.runs, turnBase_presented ha]

/-- R90: a zone not held back has run once, on the estimate the turn presents and with the bank of the frame begun. -/
theorem frameTurn_updated {s : State} (ha : s.tables.active ≠ none ∨ s.tables.firstSwitch = true) (turn : Turn) (o : TurnOrder)
    {z : Fin 4} (hz : z ∉ o.held) : (s.frameTurn turn o).control.get z =
      (s.caughtUp z).update (s.bankBegun.zone z) ((s.frameTurn turn o).heat.estimate.get z) := by
  rw [(frameTurn_control s turn o).1, (runControllers_eq _ o.held).1 z, if_pos ((turnBase_runs ha turn o z).2 hz),
    turnBase_presented ha, update_presented, State.zoneRec, turnBase_bank, frameTurn_estimate]

/-- R98: a zone held back still has its estimate to take. -/
theorem frameTurn_held {s : State} (ha : s.tables.active ≠ none ∨ s.tables.firstSwitch = true) (turn : Turn) (o : TurnOrder)
    {z : Fin 4} (hz : z ∈ o.held) : (s.frameTurn turn o).control.get z = { s.caughtUp z with presented := true } := by
  rw [(frameTurn_control s turn o).1, (runControllers_eq _ o.held).1 z,
    if_neg (mt (turnBase_runs ha turn o z).1 (not_not.2 hz)), turnBase_presented ha]

/-- R96: a change of state at the turn's update sets TIER. -/
theorem frameTurn_tier {s : State} (ha : s.tables.active ≠ none ∨ s.tables.firstSwitch = true) (turn : Turn) (o : TurnOrder)
    {z : Fin 4} (hz : ((s.frameTurn turn o).control.get z).state ≠ (s.caughtUp z).state) :
    (s.frameTurn turn o).events.has .tier = true := by
  obtain ⟨hcontrol, _, _, htier⟩ := frameTurn_control s turn o
  obtain ⟨_, _, _, hset, _⟩ := runControllers_eq (s.turnBase turn o) o.held
  refine htier (hset z ?_)
  rwa [← hcontrol, turnBase_presented ha]

/-- R97: once a controller has run the thermal back-offs follow from the back-offs as the turn leaves them. -/
theorem frameTurn_thermal {s : State} (ha : s.tables.active ≠ none ∨ s.tables.firstSwitch = true) (turn : Turn) {o : TurnOrder}
    (hruns : ∃ z, z ∉ o.held) (p : Fin 4) :
    ((s.frameTurn turn o).path.get p).thermal = thermalBackoff s.bankBegun (s.frameTurn turn o).control p := by
  obtain ⟨hcontrol, _, hpath, _⟩ := frameTurn_control s turn o
  obtain ⟨_, hthermal, _⟩ := runControllers_eq (s.turnBase turn o) o.held
  obtain ⟨z, hz⟩ := hruns
  rw [hpath, hthermal ⟨z, (turnBase_runs ha turn o z).2 hz⟩, turnBase_bank, hcontrol]

/-- R90: with no bank in force for the frame begun no estimate is formed, so with none left over no controller runs. -/
theorem frameTurn_rests {s : State} (ha : s.tables.active = none) (hf : s.tables.firstSwitch = false)
    (hnone : ∀ z, (s.control.get z).presented = false) (turn : Turn) (o : TurnOrder) :
    (s.frameTurn turn o).control = s.control ∧ ∀ p, ((s.frameTurn turn o).path.get p).thermal = (s.path.get p).thermal := by
  have hheld := runHeld_of_none hnone
  have hbase : (s.turnBase turn o).control = s.control := Four.ext_get fun z => by
    rw [turnBase_control, turned_active_none ha hf, hheld]
    rfl
  have hpath : (s.turnBase turn o).path = s.path := by
    rw [(turnBase_frame s turn o).2.1, hheld]
  have hrun : (s.turnBase turn o).runControllers o.held = { s.turnBase turn o with updates := o.held } :=
    runControllers_of_none (by rwa [hbase]) _
  obtain ⟨hcontrol, _, hthermal, _⟩ := frameTurn_control s turn o
  refine ⟨by rw [hcontrol, hrun]; exact hbase, fun p => ?_⟩
  rw [hthermal, hrun]
  exact congrArg (fun v : Four PathState => (v.get p).thermal) hpath

/-- Settles O27: one update by the rule of its controller's state, a run by `runController_path` and `thermalBackoff_spec`,
a turn by `frameTurn_updated`, `frameTurn_held` and `frameTurn_rests`. -/
theorem controllersAndThermalBackoffs : Obligations.ControllersAndThermalBackoffs := by
  refine ⟨fun c r t => ?_, fun s z => ?_, fun s k turn o hr hk => ?_⟩
  · intro b d raised
    refine ⟨fun h => update_hot h c, fun h => ⟨fun hs ht => ?_, fun hs ht => ?_, fun hs ht => ?_, fun hs ht hfall hb hdwell => ?_,
      fun hs ht hno => ?_, fun hs ht => ?_, fun hs ht => ?_, fun hs ht => ?_, fun hs ht hsettled => ?_,
      fun hs ht hcool hb => ?_⟩⟩
    · exact (update_of_critical h hs).trans (if_pos ht)
    · exact (update_of_critical h hs).trans (if_neg (not_le.2 ht))
    · exact (update_of_steady h hs).trans (if_pos ht)
    · exact (update_of_steady h hs).trans ((if_neg (not_lt.2 ht)).trans (if_pos ⟨hfall, hb, hdwell⟩))
    · refine (update_of_steady h hs).trans ((if_neg (not_lt.2 ht)).trans (if_neg ?_))
      rintro ⟨hfall, hb, hdwell⟩
      exact hno.elim (not_le.2 hfall) (Or.rec (not_le.2 hb) (not_lt.2 hdwell))
    · exact (update_of_climb h hs).trans (if_pos ht)
    · exact (update_of_climb h hs).trans (if_neg (not_le.2 ht))
    · exact (update_of_ease h hs).trans (if_pos ht)
    · exact (update_of_ease h hs).trans ((if_neg (not_lt.2 ht)).trans (if_pos hsettled))
    · exact (update_of_ease h hs).trans ((if_neg (not_lt.2 ht)).trans (if_neg (not_or.2 ⟨not_le.2 hcool, hb⟩)))
  · intro t ceiled
    refine ⟨runController_control s z, runController_state s z, fun h => ?_, fun h => ?_, fun p => ?_⟩
    · rw [runController_events, bne_iff_ne.2 h]
      exact Events.has_raise_self _ _
    · rw [runController_events, bne_eq_false_iff_eq.2 h]
      rfl
    · have hpath := runController_path s z p
      have hthermal : (t.path.get p).thermal = thermalBackoff (s.bankFor .current) t.control p := congrArg PathState.thermal hpath
      obtain ⟨habove, hpos, hreached⟩ := thermalBackoff_spec (s.bankFor .current) t.control p
      rw [hthermal]
      exact ⟨habove, hpos, hreached, hpath⟩
  · intro before
    have hbefore : ∀ z, (s.beforeTurn k).caughtUp z = before z := caughtUp_beforeTurn s k
    have htables : (s.beforeTurn k).tables = s.tables := by simp only [beforeTurn_frame]
    have hcontrol : (s.beforeTurn k).control = s.control := by simp only [beforeTurn_frame]
    have hpath : (s.beforeTurn k).path = s.path := by simp only [beforeTurn_frame]
    refine ⟨_, exec_of_turn hr hk, (frameTurn_control _ _ _).2.1, fun ha => ?_, fun ha hf hnone => ?_⟩
    · rw [← htables] at ha
      refine ⟨fun z hz => ⟨?_, fun h => ?_⟩, fun z hz => ?_, fun hruns p => ?_⟩
      · rw [frameTurn_updated ha turn o hz, hbefore, bankBegun_beforeTurn]
      · exact frameTurn_tier ha turn o (hbefore z ▸ h)
      · rw [frameTurn_held ha turn o hz, hbefore]
      · rw [frameTurn_thermal ha turn hruns, bankBegun_beforeTurn]
        exact thermalBackoff_spec _ _ p
    · rw [← hcontrol, ← hpath]
      exact frameTurn_rests (htables ▸ ha) (htables ▸ hf) (hcontrol ▸ hnone) turn o

end Sys2Proof.Machine
end

section
/-! PROOFS. A step of the part: the front command, or a held update, or nothing (R98, log 2, log 6). -/

namespace Sys2Proof.Machine

theorem step_of_pending {s : State} {c : Instr} {rest : List Instr} (h : s.pending = c :: rest) :
    step s = exec c { s with pending := rest } := by
  unfold step
  rw [h]

theorem step_of_none {s : State} (h : s.pending = []) : step s = .next s.idle := by
  unfold step
  rw [h]

/-- While RESET_N is low an idle part makes no held update. -/
theorem idle_low {s : State} (h : s.pins.resetN = false) : s.idle = s := by
  rcases idle_cases s with e | ⟨_, _, hr, _⟩
  · exact e
  · rw [h] at hr
    cases hr

/-- R98: the zone whose estimate is taken next makes its update. -/
theorem idle_of_held {s : State} {z : Fin 4} (hr : s.pins.resetN = true) (h : s.nextHeld = some z) :
    s.idle = s.runController z := by
  unfold State.idle
  rw [h]
  exact if_pos hr

/-- Settles O1: the front command by `step_of_pending`, an empty queue by `idle_low`, `idle_of_none` and `idle_of_held`. -/
theorem stepExecutesTheFrontCommand : Obligations.StepExecutesTheFrontCommand := by
  refine ⟨fun c rest s h => step_of_pending h, fun s h => ?_⟩
  rw [step_of_none h]
  refine ⟨fun hidle => congrArg _ (hidle.elim idle_low idle_of_none), fun z hr hz => congrArg _ (idle_of_held hr hz)⟩

end Sys2Proof.Machine
end

section
/-! PROOFS. The ranges of timer, heat, zones and Boost Controller (R2, R3, R62, R70, R74, R78, R110), operation by operation. -/

namespace Sys2Proof.Machine

/-! ### Curves do not fall below 0 (R3, R4) -/

theorem curveUp_nonneg : ∀ {pts : List (Int × Int)}, (∀ p ∈ pts, 0 ≤ p.2) → ∀ x, 0 ≤ curveUp pts x
  | [], _, _ => le_refl 0
  | [a], h, _ => h a List.mem_cons_self
  | (p0, v0) :: (p1, v1) :: rest, h, x => by
    have h0 : 0 ≤ v0 := h (p0, v0) List.mem_cons_self
    have h1 : 0 ≤ v1 := h (p1, v1) (List.mem_cons_of_mem _ List.mem_cons_self)
    rw [curveUp]
    split
    · exact h0
    · split
      · rename_i hlow hhigh
        rcases le_total v0 v1 with hrise | hfall
        · have hslope := ceilDiv_mono (c := p1 - p0) (by omega)
            (show 0 ≤ (v1 - v0) * (x - p0) from mul_nonneg (by omega) (by omega))
          rw [ceilDiv_zero] at hslope
          omega
        · have hslope : -(v0 - v1) ≤ ceilDiv ((v1 - v0) * (x - p0)) (p1 - p0) := by
            refine neg_le_neg (Int.ediv_le_of_le_mul (by omega) ?_)
            rw [← neg_mul, neg_sub]
            exact mul_le_mul_of_nonneg_left (by omega) (by omega)
          omega
      · exact curveUp_nonneg (fun p hp => h p (List.mem_cons_of_mem _ hp)) x

theorem dissipation_nonneg (b : Bank) (r : BandRec) (code : Int) : 0 ≤ b.dissipation r code := by
  unfold Bank.dissipation evalCurve
  split
  · exact le_refl 0
  · refine curveUp_nonneg (fun p hp => ?_) code
    obtain ⟨i, _, rfl⟩ := List.mem_map.1 hp
    exact Int.natCast_nonneg _

/-! ### Entries of no negative dissipation -/

/-- No entry of the schedule would cool its path. -/
def Schedule.dissipates (c : Schedule) : Prop := ∀ e ∈ c.entries, 0 ≤ e.dissipation

theorem dissipates_sublist {c d : Schedule} (h : c.dissipates) (hs : d.entries.Sublist c.entries) : d.dissipates :=
  fun e he => h e (hs.subset he)

theorem dissipates_remove {c : Schedule} (h : c.dissipates) (gone : Entry → Bool) : (c.remove gone).dissipates :=
  dissipates_sublist h List.filter_sublist

/-- Entries changed in their places. -/
theorem dissipates_map {c : Schedule} {change : Entry → Entry} (h : ∀ e ∈ c.entries, 0 ≤ (change e).dissipation) :
    ({ c with entries := c.entries.map change } : Schedule).dissipates := by
  intro f hf
  obtain ⟨e, he, rfl⟩ := List.mem_map.1 hf
  exact h e he

theorem dissipates_commit {c : Schedule} (h : c.dissipates) (lead g : Nat) : (c.commitUpTo lead g).dissipates :=
  dissipates_map fun e he => by
    split
    · exact h e he
    · exact h e he

theorem dissipates_relabel {c : Schedule} (h : c.dissipates) : c.relabel.dissipates := dissipates_map fun e he => h e he

/-- R30: an entry lowered takes its dissipation from a curve anew. -/
theorem replaceEntry_dissipates {s : State} (h : s.sched.dissipates) (e x : Entry) (b : Bank) (code : Int) (r : Reason) (n : Nat) :
    (s.replaceEntry e (x.lowered b code r n)).sched.dissipates :=
  dissipates_map fun y hy => by
    split
    · exact dissipation_nonneg _ _ _
    · exact h y hy

theorem amendSerial_dissipates {s : State} (h : s.sched.dissipates) (n : Nat) (code : Int) :
    (s.amendSerial n code).sched.dissipates := by
  unfold State.amendSerial
  split
  · exact replaceEntry_dissipates h _ _ _ _ _ _
  · exact h

theorem commitPlan_dissipates (plan : List (Nat × Int)) {s : State} (h : s.sched.dissipates) :
    (s.commitPlan plan).sched.dissipates := by
  induction plan generalizing s with
  | nil => exact h
  | cons a rest ih => exact ih (amendSerial_dissipates h a.1 a.2)

theorem admission_dissipates {s : State} (h : s.sched.dissipates) (o : Order) : (s.admission o).1.sched.dissipates := by
  have hd : (s.demanded o).sched = s.sched := (demanded_frame s o).2.1
  have hplan := commitPlan_dissipates ((s.demanded o).fit (s.workingRecord o)).plan (hd ▸ h)
  intro e he
  rcases List.mem_append.1 he with he | he
  · exact hplan e he
  · rw [List.mem_singleton.1 he]
    exact dissipation_nonneg _ _ _

theorem bookBurst_dissipates {s : State} (h : s.sched.dissipates) (p : Packet) (o : Order) :
    (s.bookBurst p o).1.sched.dissipates := by
  have hfreed : (s.supersede o).sched.dissipates := dissipates_sublist h (supersede_sched s o).1
  unfold State.bookBurst
  split
  · exact h
  · dsimp only
    split
    · exact hfreed
    · exact admission_dissipates hfreed o

theorem takeBurst_dissipates {s : State} (h : s.sched.dissipates) (p : Packet) (straps : BitVec 2) :
    (s.takeBurst p straps).1.sched.dissipates := by
  unfold State.takeBurst
  split
  · exact h
  · dsimp only
    split
    · exact bookBurst_dissipates h p _
    · exact bookBurst_dissipates h p _
    · exact h

theorem takeRevise_dissipates {s : State} (h : s.sched.dissipates) (p : Packet) (straps : BitVec 2) :
    (s.takeRevise p straps).1.sched.dissipates := by
  unfold State.takeRevise
  dsimp only
  split
  · exact h
  · split
    · exact h
    · rename_i e _
      split
      · exact admission_dissipates (s := s.freeEntry e) (dissipates_remove h _) _
      · unfold State.lowerCommitted
        split
        · exact replaceEntry_dissipates h _ _ _ _ _ _
        · exact h

theorem takeWithdraw_dissipates {s : State} (h : s.sched.dissipates) (p : Packet) : (s.takeWithdraw p).sched.dissipates := by
  unfold State.takeWithdraw
  split
  · split
    · exact dissipates_remove h _
    · exact h
  · exact h

theorem makeRequested_dissipates {s : State} (h : s.sched.dissipates) (k : Nat) : (s.makeRequested k).sched.dissipates := by
  unfold State.makeRequested
  split
  · exact h
  · split
    · exact h
    · dsimp only
      split
      · exact h
      · split
        · exact replaceEntry_dissipates h _ _ _ _ _ _
        · exact h

theorem grainStep_dissipates {s : State} (h : s.sched.dissipates) : s.grainStep.sched.dissipates := by
  by_cases hg : s.timer.grain < 79
  · rw [(grainStep_work hg).1, grainWork_sched]
    exact dissipates_remove (dissipates_commit h _ _) _
  · unfold State.grainStep
    rwa [if_neg hg]

theorem frameTurn_dissipates {s : State} (h : s.sched.dissipates) (turn : Turn) (o : TurnOrder) :
    (s.frameTurn turn o).sched.dissipates := by
  rw [frameTurn_sched]
  exact dissipates_commit (dissipates_relabel (dissipates_remove h _)) _ _

/-! ### The Frame Timer (R110) -/

theorem windowEnd_timer_sound {s : State} (h : s.timer.sound) : s.windowEnd.timer.sound := by
  obtain ⟨hframe, hgrain, _, _, _⟩ := h
  have hmissed : min 255 (s.timer.missed + 1) ≤ 255 := Nat.min_le_left _ _
  rw [windowEnd_timer]
  split <;> exact ⟨hframe, hgrain, hmissed, Nat.zero_le _, fun hs => by cases hs⟩

theorem grainStep_timer_sound {s : State} (h : s.timer.sound) : s.grainStep.timer.sound := by
  by_cases hg : s.timer.grain < 79
  · obtain ⟨hframe, _, hmissed, hrun, hsynced⟩ := h
    have hwork : (s.grainWork (s.timer.grain + 1)).timer.sound := by
      rw [grainWork_timer]
      exact ⟨hframe, Nat.succ_lt_succ hg, hmissed, hrun, hsynced⟩
    rw [grainStep_cases hg]
    split
    · exact windowEnd_timer_sound hwork
    · exact hwork
  · unfold State.grainStep
    rwa [if_neg hg]

/-- R112, R115: the timer's own change at a turn, whose mark carries a frame number. -/
theorem turned_sound {t : FrameTimer} (h : t.sound) {turn : Turn} (hm : ∀ m, turn = .mark m → m < 256) : (t.turned turn).sound := by
  obtain ⟨_, _, hmissed, hrun, _⟩ := h
  have hnext : nextFrame t.frame < 256 := Nat.mod_lt _ (by decide)
  have hzero : 0 < 80 := by decide
  cases turn with
  | mark m => exact ⟨hm m rfl, hzero, Nat.zero_le _, Nat.min_le_left _ _, fun _ => rfl⟩
  | timer =>
    unfold FrameTimer.turned
    dsimp only
    split
    · exact ⟨hnext, hzero, hmissed, hrun, fun hs => by cases hs⟩
    · exact ⟨hnext, hzero, Nat.min_le_left _ _, Nat.zero_le _, fun hs => by cases hs⟩
    · rename_i hawaiting
      exact ⟨hnext, hzero, hmissed, hrun, fun hs => by rw [hawaiting] at hs; cases hs⟩

theorem frameTurn_timer_sound {s : State} (h : s.timer.sound) {turn : Turn} (hm : ∀ m, turn = .mark m → m < 256) (o : TurnOrder) :
    (s.frameTurn turn o).timer.sound := by
  obtain ⟨hframe, hgrain, hmissed, hrun, hsynced⟩ := turned_sound h hm
  rw [frameTurn_timer, timerBegun_eq, timerTurned_eq]
  refine ⟨hframe, hgrain, hmissed, ?_, hsynced⟩
  dsimp only
  split
  · exact Nat.zero_le _
  · exact hrun

theorem confirm_timer_sound {s : State} (h : s.timer.sound) {m : Nat} (hm : m < 256) : (s.confirm m).timer.sound := by
  obtain ⟨_, hgrain, _, _, _⟩ := h
  show (FrameTimer.testExit _ _).sound
  rw [testExit_eq]
  exact ⟨hm, hgrain, Nat.zero_le _, Nat.min_le_left _ _, fun _ => rfl⟩

/-! ### The Heat Model (R2, R70, R74) -/

theorem clampTo_heat (x : Int) : inHeatRange (clampTo 0 heatMax x) := ⟨le_clampTo _ _ _, clampTo_le (by decide)⟩

/-- A heat value raised by what is not negative, saturating. -/
theorem min_heat {x : Int} (h : 0 ≤ x) : inHeatRange (min heatMax x) := ⟨le_min (by decide) h, min_le_left _ _⟩

theorem charge_sound {h : Heat} (hs : h.sound) (p : Fin 4) {amount : Int} (ha : 0 ≤ amount) : (h.charge p amount).sound := by
  intro i
  obtain ⟨hacc, haccount⟩ := hs i
  refine ⟨?_, haccount⟩
  show inHeatRange ((h.acc.set p _).get i)
  rw [Four.get_set]
  split
  · exact min_heat (add_nonneg (hs p).1.1 ha)
  · exact hacc

/-- R32: the charges of entries that close. -/
theorem charges_sound {es : List Entry} (he : ∀ e ∈ es, 0 ≤ e.dissipation) {h : Heat} (hs : h.sound) :
    (es.foldl (fun h e => h.charge e.path e.heat) h).sound := by
  induction es generalizing h with
  | nil => exact hs
  | cons e es ih =>
    have hheat : 0 ≤ e.heat := mul_nonneg (he e List.mem_cons_self) (Int.natCast_nonneg _)
    exact ih (fun x hx => he x (List.mem_cons_of_mem _ hx)) (charge_sound hs e.path hheat)

theorem schedule_charge_sound {c : Schedule} (hc : c.dissipates) {h : Heat} (hs : h.sound) (closes : Entry → Bool) :
    (c.charge closes h).sound := charges_sound (fun e he => hc e (List.mem_of_mem_filter he)) hs

theorem close_sound {h : Heat} (hs : h.sound) (ended : Option Bank) : (h.close ended).sound := by
  cases ended with
  | none => exact hs
  | some b =>
    intro i
    obtain ⟨hacc, haccount⟩ := close_some h b i
    rw [hacc, haccount]
    exact ⟨⟨le_refl 0, by decide⟩, clampTo_heat _⟩

/-- An account replaced by a heat value. -/
theorem account_sound {h : Heat} (hs : h.sound) (z : Fin 4) {x : Int} (hx : inHeatRange x) (seeded : Four Bool) :
    ({ h with account := h.account.set z x, seeded := seeded } : Heat).sound := by
  intro i
  obtain ⟨hacc, haccount⟩ := hs i
  refine ⟨hacc, ?_⟩
  show inHeatRange ((h.account.set z x).get i)
  rw [Four.get_set]
  split
  · exact hx
  · exact haccount

theorem seed_sound {h : Heat} (hs : h.sound) (b : Bank) (y z : Fin 4) (sensed : Int) : (h.seed (b.zone y) z sensed).sound :=
  account_sound hs z (min_heat (mul_nonneg (le_max_left _ _) (Int.natCast_nonneg _))) _

theorem rebase_sound {h : Heat} (hs : h.sound) (r : ZoneRec) (z : Fin 4) (sensed : Int) : (h.rebase r z sensed).sound := by
  unfold Heat.rebase
  split
  · exact account_sound hs z (clampTo_heat _) _
  · exact hs

theorem takeTemp_heat_sound {s : State} (h : s.heat.sound) (z : Nat) (t : Int) : (s.takeTemp z t).heat.sound := by
  unfold State.takeTemp
  split
  · exact h
  · dsimp only
    split
    · exact h
    · split
      · exact rebase_sound h _ _ _
      · exact seed_sound h _ _ _ _

theorem refuseBurst_heat_sound {s : State} (h : s.heat.sound) (p : Packet) (f : Flag) : (s.refuseBurst p f).1.heat.sound :=
  charge_sound h _ (mul_nonneg (dissipation_nonneg _ _ _) (Int.natCast_nonneg _))

theorem bookBurst_heat_sound {s : State} (h : s.heat.sound) (p : Packet) (o : Order) : (s.bookBurst p o).1.heat.sound := by
  have hfreed : (s.supersede o).heat = s.heat := by simp
  unfold State.bookBurst
  split
  · exact refuseBurst_heat_sound h _ _
  · dsimp only
    split
    · exact refuseBurst_heat_sound (hfreed ▸ h) _ _
    · simpa using h

theorem takeBurst_heat_sound {s : State} (h : s.heat.sound) (p : Packet) (straps : BitVec 2) :
    (s.takeBurst p straps).1.heat.sound := by
  unfold State.takeBurst
  split
  · exact h
  · dsimp only
    split
    · exact bookBurst_heat_sound h _ _
    · exact bookBurst_heat_sound h _ _
    · exact refuseBurst_heat_sound h _ _

theorem grainStep_heat_sound {s : State} (h : s.heat.sound) (hd : s.sched.dissipates) : s.grainStep.heat.sound := by
  by_cases hg : s.timer.grain < 79
  · rw [(grainStep_work hg).2.1, grainWork_heat]
    exact schedule_charge_sound hd h _
  · unfold State.grainStep
    rwa [if_neg hg]

theorem settleSeeding_heat_sound {s : State} (h : s.heat.sound) : s.settleSeeding.heat.sound := by
  unfold State.settleSeeding
  dsimp only
  generalize s.heat = heat at h ⊢
  generalize Four.indices = zs
  induction zs generalizing heat with
  | nil => exact h
  | cons z zs ih =>
    rw [List.foldl_cons]
    split
    · exact ih _ (seed_sound h _ _ _ _)
    · exact ih _ h

theorem senseTurn_heat_sound {s : State} (h : s.heat.sound) (first : Bool) : (s.senseTurn first).heat.sound := by
  unfold State.senseTurn
  split
  · exact h
  · cases first
    · exact h
    · exact settleSeeding_heat_sound h

theorem frameTurn_heat_sound {s : State} (h : s.heat.sound) (hd : s.sched.dissipates) (turn : Turn) (o : TurnOrder) :
    (s.frameTurn turn o).heat.sound := by
  obtain ⟨est, hbase, _⟩ := turnBase_heat s turn o
  have hturned : (s.turnBase turn o).heat.sound := by
    rw [hbase]
    exact close_sound (schedule_charge_sound hd h _) _
  unfold State.frameTurn
  simp only [askQueue_frame]
  rw [turnWork_eq]
  exact senseTurn_heat_sound (by simpa using hturned) _

/-! ### The Sense Tracker (R78 to R83) -/

theorem tick_sound {y : Sense} (h : y.sound) : y.tick.sound := by
  obtain ⟨hsensed, hage, hspacing, hfresh⟩ := h
  refine ⟨by rwa [Sense.tick_sensed], ?_, ?_, fun hf => ?_⟩
  · unfold Sense.tick
    split <;> exact hage
  · unfold Sense.tick
    split <;> exact hspacing
  · have hwas : y.fresh = .fresh := by
      rw [Sense.tick_fresh] at hf
      split at hf
      · cases hf
      · exact hf
    obtain ⟨hpoll, hdue⟩ := hfresh hwas
    simp [Sense.tick, Sense.expires, hpoll, hdue]

theorem aged_sound {y : Sense} (h : y.sound) : y.aged.sound := by
  obtain ⟨hsensed, _, _, hfresh⟩ := h
  exact ⟨hsensed, Nat.min_le_left _ _, Nat.min_le_left _ _, hfresh⟩

/-- R80, R81: a zone that is FRESH after its turn was so before, and no poll falls due for it. -/
theorem turn_sound {y : Sense} (h : y.sound) (stale : Nat) (first : Bool) : (y.turn stale first).sound := by
  obtain ⟨hsensed, hage, hspacing, hfresh⟩ := aged_sound h
  by_cases hgoes : y.aged.fresh = .fresh ∧ stale < y.aged.age
  · rw [Sense.turn, Sense.staled, if_pos hgoes]
    exact ⟨hsensed, hage, hspacing, fun hf => by cases hf⟩
  · rw [Sense.turn, Sense.staled, if_neg hgoes]
    refine ⟨hsensed, hage, hspacing, fun hf => ?_⟩
    obtain ⟨hpoll, hdue⟩ := hfresh hf
    have hf' : y.aged.fresh = .fresh := hf
    exact ⟨hpoll, by simp [hdue, Sense.pollFalls, hf']⟩

theorem reported_sound {y : Sense} (h : y.sound) (temp : Int) : (y.reported (clampTo (-160) 600 temp)).sound := by
  obtain ⟨_, _, hspacing, _⟩ := h
  exact ⟨⟨le_clampTo _ _ _, clampTo_le (by decide)⟩, Nat.zero_le _, hspacing, fun _ => ⟨rfl, rfl⟩⟩

/-- R82: a poll is queued only for a zone for which one is due, which is not FRESH. -/
theorem polled_sound {y : Sense} (h : y.sound) (hdue : y.pollDue = true) (wait : Nat) : (y.polled wait).sound := by
  obtain ⟨hsensed, hage, _, hfresh⟩ := h
  refine ⟨hsensed, hage, Nat.zero_le _, fun hf => ?_⟩
  rw [(hfresh hf).2] at hdue
  cases hdue

theorem softReset_zone_sound {y : Sense} (h : y.sound) (governed : Bool) : (y.softReset governed).sound := by
  obtain ⟨hsensed, hage, hspacing, _⟩ := h
  refine ⟨hsensed, hage, hspacing, fun hf => ⟨rfl, ?_⟩⟩
  have hf' : y.fresh = .fresh := hf
  simp [Sense.softReset, hf']

/-- R78: every zone's record lies in its ranges. -/
def State.senses (s : State) : Prop := ∀ z, (s.sense.get z).sound

/-- One zone's record replaced. -/
theorem set_senses {s : State} (h : s.senses) {z : Fin 4} {y : Sense} (hy : y.sound) (i : Fin 4) : ((s.sense.set z y).get i).sound := by
  rw [Four.get_set]
  split
  · exact hy
  · exact h i

theorem takeTemp_senses {s : State} (h : s.senses) (z : Nat) (t : Int) : (s.takeTemp z t).senses := by
  unfold State.takeTemp
  split
  · exact h
  · exact set_senses h (reported_sound (h _) t)

theorem softReset_senses {s : State} (h : s.senses) (n : Nat) (p : Packet) : (s.softReset n p).senses := by
  intro z
  have hzone : (s.softReset n p).sense.get z = (s.sense.get z).softReset (s.timer.mode != .unset) := by simp [State.softReset]
  rw [hzone]
  exact softReset_zone_sound (h z) _

theorem queuePolls_senses {s : State} (h : s.senses) : s.queuePolls.senses := by
  have one : ∀ {u : State} z, u.senses → (u.queuePoll z).senses := by
    intro u z hu
    unfold State.queuePoll
    split
    · rename_i hdue
      exact set_senses hu (polled_sound (hu z) hdue.1 _)
    · exact hu
  unfold State.queuePolls
  split
  · exact h
  · clear * - one h
    generalize Four.indices = zs
    induction zs generalizing s with
    | nil => exact h
    | cons z zs ih => exact ih (one z h)

theorem grainStep_senses {s : State} (h : s.senses) : s.grainStep.senses := by
  by_cases hg : s.timer.grain < 79
  · intro z
    rw [grainStep_sense hg]
    exact tick_sound (h z)
  · unfold State.grainStep
    rwa [if_neg hg]

theorem frameTurn_senses {s : State} (h : s.senses) (turn : Turn) (o : TurnOrder) : (s.frameTurn turn o).senses := by
  have hwork : (s.turnWork turn o).senses := by
    intro z
    rw [turnWork_sense]
    split
    · exact aged_sound (tick_sound (h z))
    · exact turn_sound (tick_sound (h z)) _ _
  obtain ⟨u, hsense, _, _, _, hasked, _, _⟩ := askQueue_polls (s.turnWork turn o) o.queue (s.entersSafe turn)
  have hu : u.senses := by
    unfold State.senses
    rwa [hsense]
  unfold State.senses State.frameTurn
  rw [hasked]
  exact queuePolls_senses hu

end Sys2Proof.Machine
end

section
/-! PROOFS. The Boost Controller's standing and ranges (R62 to R69), operation by operation. -/

namespace Sys2Proof.Machine

/-- The ranges of the wait timer and the counts, and where a release may be due (R62, R68). -/
structure Boost.counts (b : Boost) : Prop where
  wait : ∀ n, b.wait = some n → n ≤ 255
  quiet : b.quiet ≤ 1000
  cooldown : b.cooldown ≤ 1000
  releaseDue : b.releaseDue = true → b.state = .off ∨ b.state = .failed

/-- What the limits in force give the Boost Controller (R126). -/
structure Limits.boosts (l : Limits) : Prop where
  wait : l.boostWait ≤ 255
  release : l.boostRelease ≤ 1000
  cooldown : l.boostCooldown ≤ 1000

theorem Bank.governs.boosts {b : Bank} (h : b.governs) : b.limits.boosts := ⟨h.boostWait, h.boostRelease, h.boostCooldown⟩

/-- R62: outside REQUESTED no timer runs. -/
theorem wait_none {b : Boost} (h : b.sound) (hs : b.state ≠ .requested) : b.wait = none := by
  rw [← Option.not_isSome_iff_eq_none, ← h.2]
  exact hs

/-! ### The wait timer (R66) -/

theorem boost_tick_sound {b : Boost} (h : b.sound) (cooldown : Nat) : (b.tick cooldown).sound := by
  obtain ⟨hdue, hwait⟩ := h
  unfold Boost.tick
  split
  · rename_i hexpires
    refine ⟨fun hd => ?_, by simp⟩
    have hoff : b.state = .off := hdue hd
    simp [Boost.expires, hoff] at hexpires
  · split
    · exact ⟨hdue, by simpa using hwait⟩
    · exact ⟨hdue, hwait⟩

theorem boost_tick_counts {b : Boost} (h : b.counts) {cooldown : Nat} (hc : cooldown ≤ 1000) : (b.tick cooldown).counts := by
  unfold Boost.tick
  split
  · exact { h with wait := fun n hn => (by cases hn), cooldown := hc, releaseDue := fun _ => Or.inr rfl }
  · split
    · refine { h with wait := fun n hn => ?_ }
      obtain ⟨m, hm, rfl⟩ := Option.map_eq_some_iff.1 hn
      exact (Nat.sub_le m 1).trans (h.wait m hm)
    · exact h

theorem grainStep_boost_sound {s : State} (h : s.boost.sound) : s.grainStep.boost.sound := by
  by_cases hg : s.timer.grain < 79
  · rw [grainStep_boost hg]
    exact boost_tick_sound h _
  · unfold State.grainStep
    rwa [if_neg hg]

theorem grainStep_boost_counts {s : State} (hl : s.limits.boosts) (h : s.boost.counts) : s.grainStep.boost.counts := by
  by_cases hg : s.timer.grain < 79
  · rw [grainStep_boost hg]
    exact boost_tick_counts h hl.cooldown
  · unfold State.grainStep
    rwa [if_neg hg]

/-! ### A frame turn (R67, R68) -/

theorem boost_turn_sound {b : Boost} (h : b.sound) (hs : b.state ≠ .requested) (release : Nat) : (b.turn release).sound := by
  have hwait := wait_none h hs
  obtain ⟨hdue, _⟩ := h
  unfold Boost.turn Boost.countQuiet
  dsimp only
  split
  · split <;> exact ⟨hdue, by simp [hwait, hs]⟩
  · split
    · exact ⟨fun _ => rfl, by simp [hwait]⟩
    · exact ⟨hdue, by simp [hwait, hs]⟩
  · exact ⟨hdue, by simp [hwait, hs]⟩
  · contradiction

theorem boost_turn_counts {b : Boost} (h : b.counts) {release : Nat} (hr : release ≤ 1000) : (b.turn release).counts := by
  obtain ⟨hwait, hquiet, hcool, hrelease⟩ := h
  unfold Boost.turn Boost.countQuiet
  dsimp only
  split
  · split
    · exact ⟨hwait, Nat.zero_le _, hcool, hrelease⟩
    · exact ⟨hwait, (Nat.min_le_left _ _).trans hr, hcool, hrelease⟩
  · split
    · exact ⟨hwait, hquiet, Nat.zero_le _, fun _ => Or.inl rfl⟩
    · exact ⟨hwait, hquiet, (Nat.sub_le _ _).trans hcool, hrelease⟩
  · exact ⟨hwait, hquiet, hcool, hrelease⟩
  · exact ⟨hwait, hquiet, hcool, hrelease⟩

theorem boostCount_sound {s : State} (h : s.boost.sound) : s.boostCount.boost.sound := by
  unfold State.boostCount
  split
  · exact boost_tick_sound h _
  · rename_i hs
    exact boost_turn_sound h hs _

theorem boostCount_counts {s : State} (hl : s.limits.boosts) (h : s.boost.counts) : s.boostCount.boost.counts := by
  unfold State.boostCount
  split
  · exact { boost_tick_counts h hl.cooldown with }
  · exact boost_turn_counts h hl.release

/-- R67: a release due from the quiet count finds the controller READY, after the count too. -/
theorem quietReleaseDue_ready {s : State} (h : s.quietReleaseDue = true) : s.boostCount.boost.state = .ready := by
  simp only [State.quietReleaseDue, Boost.quietDue, Bool.and_eq_true, beq_iff_eq] at h
  exact h.2.1.1

theorem attemptRelease_sound {s : State} (h : s.boost.sound) {quiet : Bool} (hq : quiet = true → s.boost.state = .ready) :
    (s.attemptRelease quiet).boost.sound := by
  unfold State.attemptRelease
  split
  · cases quiet with
    | false => exact h
    | true => exact ⟨fun _ => rfl, by simp [Boost.released, wait_none h (by simp [hq rfl])]⟩
  · exact h

theorem attemptRelease_counts {s : State} (h : s.boost.counts) (quiet : Bool) : (s.attemptRelease quiet).boost.counts := by
  unfold State.attemptRelease
  split
  · refine { h with quiet := ?_, releaseDue := fun hd => (by cases hd) }
    show (if quiet then 0 else s.boost.quiet) ≤ 1000
    split
    · exact Nat.zero_le _
    · exact h.quiet
  · exact h

theorem attemptRequest_sound {s : State} (h : s.boost.sound) (blocked : Bool) : (s.attemptRequest blocked).boost.sound := by
  unfold State.attemptRequest
  split
  · exact ⟨fun hd => (by cases hd), by simp [Boost.requested]⟩
  · exact h

/-- R68: a request is not attempted while a release is due. -/
theorem attemptRequest_counts {s : State} (hl : s.limits.boosts) (h : s.boost.counts) (blocked : Bool) :
    (s.attemptRequest blocked).boost.counts := by
  unfold State.attemptRequest
  split
  · rename_i hc
    have hnone : s.boost.releaseDue = false := by
      simp only [Bool.and_eq_true, Bool.not_eq_true'] at hc
      exact hc.1.2
    refine { h with wait := fun n hn => ?_, releaseDue := fun hd => ?_ }
    · cases hn
      exact hl.wait
    · have hd' : s.boost.releaseDue = true := hd
      rw [hnone] at hd'
      cases hd'
  · exact h

theorem boostTurn_sound {s : State} (h : s.boost.sound) : s.boostTurn.boost.sound :=
  attemptRequest_sound (attemptRelease_sound (boostCount_sound h) quietReleaseDue_ready) _

theorem boostTurn_counts {s : State} (hl : s.limits.boosts) (h : s.boost.counts) : s.boostTurn.boost.counts := by
  have hlimits : (s.boostCount.attemptRelease s.quietReleaseDue).limits = s.limits := by simp [State.limits, State.bankFor]
  exact attemptRequest_counts (hlimits ▸ hl) (attemptRelease_counts (boostCount_counts hl h) _) _

theorem frameTurn_boost_sound {s : State} (h : s.boost.sound) (turn : Turn) (o : TurnOrder) : (s.frameTurn turn o).boost.sound := by
  obtain ⟨u, hu, _, hboost, _⟩ := frameTurn_boost s turn o
  rw [hboost]
  exact boostTurn_sound (hu ▸ h)

theorem frameTurn_boost_counts {s : State} (hl : s.bankBegun.limits.boosts) (h : s.boost.counts) (turn : Turn) (o : TurnOrder) :
    (s.frameTurn turn o).boost.counts := by
  obtain ⟨u, hu, hlimits, hboost, _⟩ := frameTurn_boost s turn o
  rw [hboost]
  exact boostTurn_counts (hlimits ▸ hl) (hu ▸ h)

/-! ### Demands, grants, a readiness, SOFT-RESET (R63 to R65, R69) -/

theorem boostDemand_sound {s : State} (h : s.boost.sound) : s.boostDemand.boost.sound := by
  unfold State.boostDemand
  split
  · rename_i hoff
    split
    · refine ⟨fun hd => ?_, by simp [Boost.requested]⟩
      have hd' : s.boost.requestDue = true := hd
      rw [hoff.2] at hd'
      cases hd'
    · exact ⟨fun _ => hoff.1, h.2⟩
  · exact h

theorem boostDemand_counts {s : State} (hl : s.limits.boosts) (h : s.boost.counts) : s.boostDemand.boost.counts := by
  unfold State.boostDemand
  split
  · split
    · rename_i hfree
      refine { h with wait := fun n hn => ?_, releaseDue := fun hd => ?_ }
      · cases hn
        exact hl.wait
      · have hd' : s.boost.releaseDue = true := hd
        rw [hfree.1] at hd'
        cases hd'
    · exact { h with }
  · exact h

theorem noteGrant_sound {b : Boost} (h : b.sound) (above : Bool) : (b.noteGrant above).sound := by
  unfold Boost.noteGrant
  split <;> exact h

theorem noteGrant_counts {b : Boost} (h : b.counts) (above : Bool) : (b.noteGrant above).counts := by
  unfold Boost.noteGrant
  split
  · exact { h with quiet := Nat.zero_le _ }
  · exact h

/-- R63, R64: of an admission the boost demand and the note of its grant concern the Boost Controller. -/
theorem admission_boost (s : State) (o : Order) : ∃ above, (s.admission o).1.boost = (s.demanded o).boost.noteGrant above :=
  ⟨_, congrArg (fun b : Boost => b.noteGrant _) (commitPlan_frame _ _).2.2.1⟩

theorem admission_boost_sound {s : State} (h : s.boost.sound) (o : Order) : (s.admission o).1.boost.sound := by
  obtain ⟨above, hboost⟩ := admission_boost s o
  rw [hboost]
  refine noteGrant_sound ?_ above
  unfold State.demanded
  split
  · exact boostDemand_sound h
  · exact h

theorem admission_boost_counts {s : State} (hl : s.limits.boosts) (h : s.boost.counts) (o : Order) :
    (s.admission o).1.boost.counts := by
  obtain ⟨above, hboost⟩ := admission_boost s o
  rw [hboost]
  refine noteGrant_counts ?_ above
  unfold State.demanded
  split
  · exact boostDemand_counts hl h
  · exact h

/-- What an order makes of the Boost Controller is what an admission makes of it, or nothing. -/
theorem takeBurst_boost {P : Boost → Prop} {s : State} (h : P s.boost)
    (ha : ∀ (u : State) o, u.boost = s.boost → u.tables = s.tables → P (u.admission o).1.boost) (p : Packet) (straps : BitVec 2) :
    P (s.takeBurst p straps).1.boost := by
  have hbook : ∀ o, P (s.bookBurst p o).1.boost := by
    intro o
    unfold State.bookBurst
    split
    · simpa using h
    · dsimp only
      split
      · simpa using h
      · exact ha (s.supersede o) o (by simp) (by simp)
  unfold State.takeBurst
  split
  · exact h
  · dsimp only
    split
    · exact hbook _
    · exact hbook _
    · simpa using h

theorem takeRevise_boost {P : Boost → Prop} {s : State} (h : P s.boost)
    (ha : ∀ (u : State) o, u.boost = s.boost → u.tables = s.tables → P (u.admission o).1.boost) (p : Packet) (straps : BitVec 2) :
    P (s.takeRevise p straps).1.boost := by
  unfold State.takeRevise
  dsimp only
  split
  · exact h
  · split
    · exact h
    · rename_i e _
      split
      · exact ha (s.freeEntry e) _ rfl rfl
      · simpa using h

theorem limits_of_tables {s t : State} (h : t.tables = s.tables) : t.limits = s.limits := by
  simp only [State.limits, State.bankFor, h]

theorem releaseNow_sound {s : State} (h : s.boost.sound) (left : Bool) : (s.releaseNow left).boost.sound := by
  unfold State.releaseNow
  split <;> exact h

theorem releaseNow_counts {s : State} (h : s.boost.counts) (hs : s.boost.state = .off ∨ s.boost.state = .failed) (left : Bool) :
    (s.releaseNow left).boost.counts := by
  unfold State.releaseNow
  split <;> exact { h with releaseDue := fun _ => hs }

theorem takeReady_sound {s : State} (h : s.boost.sound) : s.takeReady.boost.sound := by
  unfold State.takeReady
  split
  · exact h
  · split
    · rename_i hs
      refine ⟨fun hd => ?_, by simp⟩
      have hoff := h.1 hd
      rw [hs] at hoff
      cases hoff
    · exact h
    · exact releaseNow_sound h _
    · exact releaseNow_sound h _

theorem takeReady_counts {s : State} (h : s.boost.counts) : s.takeReady.boost.counts := by
  unfold State.takeReady
  split
  · exact h
  · split
    · rename_i hs
      refine { h with wait := fun n hn => (by cases hn), quiet := Nat.zero_le _, releaseDue := fun hd => ?_ }
      have hcalm := h.releaseDue hd
      rw [hs] at hcalm
      simp at hcalm
    · exact h
    · exact releaseNow_counts h (Or.inl (by assumption)) _
    · exact releaseNow_counts h (Or.inr (by assumption)) _

theorem softReset_boost (s : State) (n : Nat) (p : Packet) :
    (s.softReset n p).boost = ({ s with link := s.link.softReset } : State).boostSoftReset.boost := rfl

theorem softReset_boost_sound (s : State) (n : Nat) (p : Packet) : (s.softReset n p).boost.sound := by
  rw [softReset_boost]
  unfold State.boostSoftReset
  dsimp only
  split
  · exact releaseNow_sound ⟨fun _ => rfl, by simp⟩ _
  · exact ⟨fun _ => rfl, by simp⟩

theorem softReset_boost_counts (s : State) (n : Nat) (p : Packet) : (s.softReset n p).boost.counts := by
  have hoff : ∀ releaseDue, (⟨.off, none, 0, 0, false, false, releaseDue⟩ : Boost).counts := fun _ =>
    ⟨fun n hn => (by cases hn), Nat.zero_le _, Nat.zero_le _, fun _ => Or.inl rfl⟩
  rw [softReset_boost]
  unfold State.boostSoftReset
  dsimp only
  split
  · exact releaseNow_counts (hoff _) (Or.inl rfl) _
  · exact hoff _

end Sys2Proof.Machine
end

section
/-! PROOFS. Laws 6 and 9 as invariants: the ranges of timer, heat, zones, Boost Controller, S, estimates and paths, command by
command. -/

namespace Sys2Proof.Machine

/-! ### S (R44, R46) -/

/-- A current as S may be (R44). -/
def inCurrentRange (x : Int) : Prop := 0 ≤ x ∧ x ≤ 8191

theorem supplyCeiling_range {s : State} (ht : s.tables.sound) : inCurrentRange s.supplyCeiling := by
  have hg := bankFor_governs ht .current
  unfold State.supplyCeiling
  split
  · exact ⟨le_refl 0, by decide⟩
  · split
    · exact hg.supplyFloor
    · split
      · exact hg.supplyFloor
      · exact hg.supplyCurve _

theorem frameTurn_ceiling_range {s : State} (ht : s.tables.sound) (turn : Turn) (o : TurnOrder) :
    inCurrentRange (s.frameTurn turn o).supply.ceiling := by
  have hg := bankBegun_governs ht
  rw [frameTurn_supply]
  dsimp only
  split
  · exact ⟨le_refl 0, by decide⟩
  · split
    · exact hg.supplyFloor
    · exact hg.supplyCurve _

/-! ### Estimates (R74 to R77) -/

/-- A temperature code as an estimate may be (R74). -/
def inTempRange (x : Int) : Prop := -160 ≤ x ∧ x ≤ 600

theorem estimate_range {b : Bank} (hg : b.governs) (z : Fin 4) (account : Int) {y : Sense} (hy : y.sound) :
    inTempRange ((b.zone z).estimate account y) := by
  have hmodel : inTempRange ((b.zone z).model account) := ⟨le_clampTo _ _ _, clampTo_le (by decide)⟩
  have hmargin : 0 ≤ (b.zone z).blindMargin := Int.natCast_nonneg _
  obtain ⟨hsensed, _⟩ := hy
  unfold inTempRange at hmodel ⊢
  unfold ZoneRec.estimate
  split
  · omega
  · omega
  · omega
  · exact hg.seed z

theorem frameTurn_estimate_range {s : State} (ht : s.tables.sound) (hs : s.senses)
    (h : ∀ z, inTempRange (s.heat.estimate.get z)) (turn : Turn) (o : TurnOrder) (z : Fin 4) :
    inTempRange ((s.frameTurn turn o).heat.estimate.get z) := by
  by_cases hbank : s.tables.active ≠ none ∨ s.tables.firstSwitch = true
  · rw [frameTurn_estimates hbank]
    refine estimate_range (bankBegun_governs ht) z _ ?_
    unfold Sense.atClose
    split
    · exact tick_sound (hs z)
    · exact hs z
  · simp only [not_or, not_not, Bool.not_eq_true] at hbank
    rw [frameTurn_estimate_unset hbank.1 hbank.2]
    exact h z

theorem charges_estimate (es : List Entry) (h : Heat) :
    (es.foldl (fun h e => h.charge e.path e.heat) h).estimate = h.estimate := by
  induction es generalizing h with
  | nil => rfl
  | cons e es ih => exact ih (h.charge e.path e.heat)

theorem grainStep_estimate (s : State) : s.grainStep.heat.estimate = s.heat.estimate := by
  by_cases hg : s.timer.grain < 79
  · rw [(grainStep_work hg).2.1, grainWork_heat]
    exact charges_estimate _ _
  · unfold State.grainStep
    rw [if_neg hg]

theorem takeTemp_estimate (s : State) (z : Nat) (t : Int) : (s.takeTemp z t).heat.estimate = s.heat.estimate := by
  unfold State.takeTemp Heat.rebase
  split
  · rfl
  · dsimp only
    (repeat' split) <;> rfl

theorem takeBurst_estimate (s : State) (p : Packet) (straps : BitVec 2) :
    (s.takeBurst p straps).1.heat.estimate = s.heat.estimate := by
  have hrefuse : ∀ (u : State) f, (u.refuseBurst p f).1.heat.estimate = u.heat.estimate := fun _ _ => rfl
  unfold State.takeBurst State.bookBurst
  dsimp only
  (repeat' split) <;> simp [hrefuse]

/-! ### Paths (R99 to R107) -/

/-- Trip back-off, bar frames left and cap lie in their ranges (R99). -/
structure PathState.inRange (x : PathState) : Prop where
  trip : 0 ≤ x.trip ∧ x.trip ≤ 255
  barLeft : x.barLeft ≤ 1000
  cap : ∀ c, x.cap = some c → minCode ≤ c ∧ c ≤ maxCode

/-- R101 to R103. -/
theorem tripped_inRange {x : PathState} (h : x.inRange) {b : Bank} (hg : b.governs) : (x.tripped b.limits).inRange := by
  unfold PathState.tripped
  split
  · exact { h with trip := hg.tripStep }
  · exact { h with trip := hg.tripStep, barLeft := hg.barFrames }
  · exact { h with trip := hg.tripStep, barLeft := hg.barFrames }

theorem barEnded_inRange {x : PathState} (h : x.inRange) {b : Bank} (hg : b.governs) : (x.barEnded b.limits).inRange :=
  { h with trip := hg.tripStep, barLeft := Nat.zero_le _ }

/-- R104: a trip back-off decays to no less than 0. -/
theorem pathTurn_inRange {x : PathState} (h : x.inRange) {b : Bank} (hg : b.governs) : (x.turn b.limits).inRange := by
  have hdecay := hg.tripDecay
  have htrip := h.trip
  unfold PathState.turn
  split
  · exact h
  · exact { h with trip := ⟨le_max_left _ _, max_le (by decide) (by omega)⟩ }
  · split
    · exact barEnded_inRange h hg
    · exact { h with barLeft := (Nat.sub_le _ _).trans h.barLeft }

/-- Every path lies in its ranges. -/
def State.pathsRanged (s : State) : Prop := ∀ p, (s.path.get p).inRange

theorem set_pathsRanged {s : State} (h : s.pathsRanged) {i : Fin 4} {x : PathState} (hx : x.inRange) (p : Fin 4) :
    ((s.path.set i x).get p).inRange := by
  rw [Four.get_set]
  split
  · exact hx
  · exact h p

theorem takeTrip_pathsRanged {s : State} (ht : s.tables.sound) (h : s.pathsRanged) (n : Nat) : (s.takeTrip n).pathsRanged := by
  intro p
  unfold State.takeTrip
  split
  · exact h p
  · dsimp only
    split
    · exact h p
    · simp only [takeRequestOpt_frame]
      exact set_pathsRanged h (tripped_inRange (h _) (bankFor_governs ht .current)) p

theorem grainStep_pathsRanged {s : State} (h : s.pathsRanged) : s.grainStep.pathsRanged := by
  intro p
  by_cases hg : s.timer.grain < 79
  · rw [(grainStep_work hg).2.2.2, grainWork_path]
    exact { h p with }
  · unfold State.grainStep
    rw [if_neg hg]
    exact h p

theorem frameTurn_pathsRanged {s : State} (ht : s.tables.sound) (h : s.pathsRanged) (turn : Turn) (o : TurnOrder) :
    (s.frameTurn turn o).pathsRanged := by
  intro p
  obtain ⟨th, hpath⟩ := frameTurn_path s turn o p
  have hthermal : ({ s.path.get p with thermal := th } : PathState).inRange := { h p with }
  rw [hpath]
  split
  · exact hthermal
  · exact pathTurn_inRange hthermal (bankBegun_governs ht)

theorem runController_pathsRanged {s : State} (h : s.pathsRanged) (z : Fin 4) : (s.runController z).pathsRanged := by
  intro p
  rw [runController_path]
  exact { h p with }

theorem softReset_pathsRanged {s : State} (h : s.pathsRanged) (n : Nat) (q : Packet) : (s.softReset n q).pathsRanged := by
  intro p
  have hpath : (s.softReset n q).path.get p = (s.path.get p).softReset := by simp [State.softReset]
  rw [hpath]
  have hzero : (0 : Int) ≤ 255 := by decide
  exact { h p with trip := ⟨le_refl 0, hzero⟩, barLeft := Nat.zero_le _, cap := fun c hc => (by cases hc) }

/-! ### The ranges that hold with any banks -/

/-- The ranges of timer, heat and zones and the standing of the Boost Controller, which need nothing of the banks. -/
structure State.bounded (s : State) : Prop where
  timer : s.timer.sound
  heat : s.heat.sound
  senses : s.senses
  boost : s.boost.sound
  entries : s.sched.dissipates

/-- A change from a bounded state to one that is bounded again; a block that is not named has not changed. -/
structure State.staysBounded (s t : State) : Prop where
  timer : s.bounded → t.timer.sound := by intro h; simpa using h.timer
  heat : s.bounded → t.heat.sound := by intro h; simpa using h.heat
  senses : s.bounded → t.senses := by intro h; simpa [State.senses] using h.senses
  boost : s.bounded → t.boost.sound := by intro h; simpa using h.boost
  entries : s.bounded → t.sched.dissipates := by intro h; simpa using h.entries

theorem State.bounded.to {s t : State} (h : s.bounded) (k : s.staysBounded t) : t.bounded :=
  ⟨k.timer h, k.heat h, k.senses h, k.boost h, k.entries h⟩

theorem reset_bounded : State.reset.bounded where
  timer := ⟨by decide, by decide, by decide, by decide, fun h => by cases h⟩
  heat := by
    unfold Heat.sound inHeatRange
    decide
  senses := by
    unfold State.senses Sense.sound
    decide
  boost := ⟨by decide, by decide⟩
  entries := fun e he => by cases he

/-- Laws 6 and 9 as an invariant of every command: accounts saturate, readings are clamped, a mark's number is one of a frame, a
timer runs in REQUESTED alone. -/
theorem bounded_kept : Kept State.bounded where
  grain := fun s h => h.to
    { timer := fun h => grainStep_timer_sound h.timer
      heat := fun h => grainStep_heat_sound h.heat h.entries
      senses := fun h => grainStep_senses h.senses
      boost := fun h => grainStep_boost_sound h.boost
      entries := fun h => grainStep_dissipates h.entries }
  turn := fun s turn o hm h => h.to
    { timer := fun h => frameTurn_timer_sound h.timer hm o
      heat := fun h => frameTurn_heat_sound h.heat h.entries turn o
      senses := fun h => frameTurn_senses h.senses turn o
      boost := fun h => frameTurn_boost_sound h.boost turn o
      entries := fun h => frameTurn_dissipates h.entries turn o }
  confirm := fun s m hm h => h.to { timer := fun h => confirm_timer_sound h.timer hm }
  events := fun s e h => h.to {}
  enter := fun s port p ready _ h => h.to {}
  queueCommand := fun s p h => h.to {}
  takeTemp := fun s z t h => h.to
    { heat := fun h => takeTemp_heat_sound h.heat z t
      senses := fun h => takeTemp_senses h.senses z t }
  takeReady := fun s h => h.to { boost := fun h => takeReady_sound h.boost }
  takeSupply := fun s mv h => h.to {}
  takeTrip := fun s p h => h.to {}
  pins := fun s pins h => h.to {}
  takeBurst := fun s p straps h => h.to
    { heat := fun h => takeBurst_heat_sound h.heat p straps
      boost := fun h => takeBurst_boost h.boost (fun u o hu _ => admission_boost_sound (hu ▸ h.boost) o) p straps
      entries := fun h => takeBurst_dissipates h.entries p straps }
  takeRevise := fun s p straps h => h.to
    { boost := fun h => takeRevise_boost h.boost (fun u o hu _ => admission_boost_sound (hu ▸ h.boost) o) p straps
      entries := fun h => takeRevise_dissipates h.entries p straps }
  takeWithdraw := fun s p h => h.to { entries := fun h => takeWithdraw_dissipates h.entries p }
  finishOrder := fun s f _ h => h.to {}
  makeRequested := fun s k h => h.to { entries := fun h => makeRequested_dissipates h.entries k }
  takeCommand := fun s h => h.to {}
  answer := fun s p w _ h => h.to {}
  advance := fun s n h => h.to {}
  setCap := fun s i c _ h => h.to {}
  barEnd := fun s i _ h => h.to {}
  writeTable := fun s b a ws h _ _ _ _ => h.to {}
  launch := fun s b h _ _ => h.to {}
  cancel := fun s h _ => h.to {}
  startCopy := fun s a tag h _ _ _ => h.to {}
  finishCopy := fun s h => h.to {}
  softReset := fun s n p h => h.to
    { senses := fun h => softReset_senses h.senses n p
      boost := fun _ => softReset_boost_sound s n p }
  grantDown := fun s h => h.to {}
  grantUp := fun s c h => h.to {}
  update := fun s z _ h => h.to {}

/-! ### The ranges that hold with sound banks -/

/-- `State.ranged`, with the soundness it rests on and a name for what it says of each block. -/
structure State.regulated (s : State) : Prop where
  tables : s.tables.sound
  senses : s.senses
  boost : s.boost.sound
  ceiling : inCurrentRange s.supply.ceiling
  estimate : ∀ z, inTempRange (s.heat.estimate.get z)
  counts : s.boost.counts
  path : s.pathsRanged

theorem regulated_of_ranged {s : State} (ht : s.tables.sound) (hs : s.senses) (hb : s.boost.sound) (h : s.ranged) : s.regulated := by
  obtain ⟨hceiling, hestimate, ⟨hwait, hquiet, hcool, hrelease⟩, hpath⟩ := h
  exact ⟨ht, hs, hb, hceiling, hestimate, ⟨hwait, hquiet, hcool, hrelease⟩,
    fun p => ⟨(hpath p).1, (hpath p).2.1, (hpath p).2.2⟩⟩

theorem State.regulated.ranged {s : State} (h : s.regulated) : s.ranged :=
  ⟨h.ceiling, h.estimate, ⟨h.counts.wait, h.counts.quiet, h.counts.cooldown, h.counts.releaseDue⟩,
    fun p => ⟨(h.path p).trip, (h.path p).barLeft, (h.path p).cap⟩⟩

/-- A change from a regulated state to one that is regulated again; a block that is not named has not changed. -/
structure State.staysRegulated (s t : State) : Prop where
  tables : s.regulated → t.tables.sound := by intro h; simpa using h.tables
  senses : s.regulated → t.senses := by intro h; simpa [State.senses] using h.senses
  boost : s.regulated → t.boost.sound := by intro h; simpa using h.boost
  ceiling : s.regulated → inCurrentRange t.supply.ceiling := by intro h; simpa using h.ceiling
  estimate : s.regulated → ∀ z, inTempRange (t.heat.estimate.get z) := by intro h; simpa using h.estimate
  counts : s.regulated → t.boost.counts := by intro h; simpa using h.counts
  path : s.regulated → t.pathsRanged := by intro h; simpa [State.pathsRanged] using h.path

theorem State.regulated.to {s t : State} (h : s.regulated) (k : s.staysRegulated t) : t.regulated :=
  ⟨k.tables h, k.senses h, k.boost h, k.ceiling h, k.estimate h, k.counts h, k.path h⟩

theorem State.regulated.boosts {s : State} (h : s.regulated) : s.limits.boosts := (bankFor_governs h.tables .current).boosts

/-- What an admission made in a state with the tables and the Boost Controller of a regulated one makes of the latter. -/
theorem State.regulated.admits {s : State} (h : s.regulated) (u : State) (o : Order) (hb : u.boost = s.boost)
    (ht : u.tables = s.tables) : (u.admission o).1.boost.counts :=
  admission_boost_counts (limits_of_tables ht ▸ h.boosts) (hb ▸ h.counts) o

theorem reset_regulated : State.reset.regulated where
  tables := reset_carried.tables
  senses := reset_bounded.senses
  boost := reset_bounded.boost
  ceiling := ⟨by decide, by decide⟩
  estimate := by
    unfold inTempRange
    decide
  counts := ⟨fun n hn => (by cases hn), by decide, by decide, fun h => (by cases h)⟩
  path := fun p => by
    have hp : State.reset.path.get p = ⟨.clear, 0, 0, none, 0⟩ := Four.get_fill _ p
    rw [hp]
    exact ⟨⟨le_refl 0, by decide⟩, Nat.zero_le _, fun c hc => (by cases hc)⟩

/-- Law 6 for S and the estimates, and the ranges of R62 and R99, as an invariant of every command: what is taken from a bank
comes from one that has passed validation. -/
theorem regulated_kept : Kept State.regulated :=
  have k := soundTables_kept.kept
  { grain := fun s h => h.to
      { senses := fun h => grainStep_senses h.senses
        boost := fun h => grainStep_boost_sound h.boost
        ceiling := fun h => by rw [Headroom.sameReport_ceiling (grainStep_report s)]; exact h.ceiling
        estimate := fun h => by rw [grainStep_estimate]; exact h.estimate
        counts := fun h => grainStep_boost_counts h.boosts h.counts
        path := fun h => grainStep_pathsRanged h.path }
    turn := fun s turn o hm h => h.to
      { tables := fun h => k.turn s turn o hm h.tables
        senses := fun h => frameTurn_senses h.senses turn o
        boost := fun h => frameTurn_boost_sound h.boost turn o
        ceiling := fun h => frameTurn_ceiling_range h.tables turn o
        estimate := fun h => frameTurn_estimate_range h.tables h.senses h.estimate turn o
        counts := fun h => frameTurn_boost_counts (bankBegun_governs h.tables).boosts h.counts turn o
        path := fun h => frameTurn_pathsRanged h.tables h.path turn o }
    confirm := fun s m _ h => h.to {}
    events := fun s e h => h.to {}
    enter := fun s port p ready _ h => h.to {}
    queueCommand := fun s p h => h.to {}
    takeTemp := fun s z t h => h.to
      { senses := fun h => takeTemp_senses h.senses z t
        estimate := fun h => by rw [takeTemp_estimate]; exact h.estimate }
    takeReady := fun s h => h.to
      { boost := fun h => takeReady_sound h.boost
        counts := fun h => takeReady_counts h.counts }
    takeSupply := fun s mv h => h.to { ceiling := fun h => supplyCeiling_range h.tables }
    takeTrip := fun s p h => h.to
      { ceiling := fun h => by rw [Headroom.sameReport_ceiling (takeTrip_report s p)]; exact h.ceiling
        path := fun h => takeTrip_pathsRanged h.tables h.path p }
    pins := fun s pins h => h.to {}
    takeBurst := fun s p straps h => h.to
      { boost := fun h => takeBurst_boost h.boost (fun u o hu _ => admission_boost_sound (hu ▸ h.boost) o) p straps
        ceiling := fun h => by rw [Headroom.sameReport_ceiling (takeBurst_report s p straps)]; exact h.ceiling
        estimate := fun h => by rw [takeBurst_estimate]; exact h.estimate
        counts := fun h => takeBurst_boost h.counts h.admits p straps }
    takeRevise := fun s p straps h => h.to
      { boost := fun h => takeRevise_boost h.boost (fun u o hu _ => admission_boost_sound (hu ▸ h.boost) o) p straps
        ceiling := fun h => by rw [Headroom.sameReport_ceiling (takeRevise_report s p straps)]; exact h.ceiling
        counts := fun h => takeRevise_boost h.counts h.admits p straps }
    takeWithdraw := fun s p h => h.to
      { ceiling := fun h => by rw [Headroom.sameReport_ceiling (takeWithdraw_report s p)]; exact h.ceiling }
    finishOrder := fun s f _ h => h.to {}
    makeRequested := fun s n h => h.to
      { ceiling := fun h => by rw [Headroom.sameReport_ceiling (makeRequested_report s n)]; exact h.ceiling }
    takeCommand := fun s h => h.to {}
    answer := fun s p w _ h => h.to {}
    advance := fun s n h => h.to { tables := fun h => k.advance s n h.tables }
    setCap := fun s i c hc h => h.to { path := fun h => set_pathsRanged h.path { h.path i with cap := hc } }
    barEnd := fun s i _ h => h.to
      { path := fun h => set_pathsRanged h.path (barEnded_inRange (h.path i) (bankFor_governs h.tables .current)) }
    writeTable := fun s b a ws h active pending copy fits => h.to
      { tables := fun h => k.writeTable s b a ws h.tables active pending copy fits }
    launch := fun s b h free passes => h.to { tables := fun h => k.launch s b h.tables free passes }
    cancel := fun s h early => h.to { tables := fun h => k.cancel s h.tables early }
    startCopy := fun s a tag h active pending copy => h.to
      { tables := fun h => k.startCopy s a tag h.tables active pending copy }
    finishCopy := fun s h => h.to { tables := fun h => k.finishCopy s h.tables }
    softReset := fun s n p h => h.to
      { tables := fun h => k.softReset s n p h.tables
        senses := fun h => softReset_senses h.senses n p
        boost := fun _ => softReset_boost_sound s n p
        counts := fun _ => softReset_boost_counts s n p
        path := fun h => softReset_pathsRanged h.path n p }
    grantDown := fun s h => h.to {}
    grantUp := fun s c h => h.to {}
    update := fun s z _ h => h.to { path := fun h => runController_pathsRanged h.path z } }

/-- Settles O57, by `bounded_kept` and `regulated_kept`. -/
theorem everyStepKeepsTheRanges : Obligations.EveryStepKeepsTheRanges := by
  refine ⟨fun s t htimer hheat hsense hboost hentries hstep => ?_, fun s t htables hsense hboost hranged hstep => ?_⟩
  · have hreset : ∀ (s : State) level, (s.atReset level).bounded := fun s level =>
      ⟨reset_bounded.timer, reset_bounded.heat, reset_bounded.senses, reset_bounded.boost, reset_bounded.entries⟩
    obtain ⟨ktimer, kheat, ksense, kboost, kentries⟩ :=
      bounded_kept.step hreset (fun s q h => h.to {}) ⟨htimer, hheat, hsense, hboost, hentries⟩ hstep
    exact ⟨ktimer, kheat, ksense, kboost, kentries⟩
  · have hreset : ∀ (s : State) level, (s.atReset level).regulated := fun s level =>
      ⟨reset_regulated.tables, reset_regulated.senses, reset_regulated.boost, reset_regulated.ceiling, reset_regulated.estimate,
        reset_regulated.counts, reset_regulated.path⟩
    exact (regulated_kept.step hreset (fun s q h => h.to {}) (regulated_of_ranged htables hsense hboost hranged) hstep).ranged

end Sys2Proof.Machine
end

section
/-! PROOFS. Reset: its values block by block, the invariants it meets, and what it leaves of the queue of waiting commands. -/

namespace Sys2Proof.Machine

/-! ### The values of hardware reset (R110, R160) -/

/-- Every row of the map of hardware reset is 0 (R47). -/
theorem reset_row (g : Nat) : rowOf State.reset.supply.map g = 0 := by
  show (List.replicate 160 (0 : Int)).getD g 0 = 0
  rw [List.getD_eq_getElem?_getD, List.getElem?_replicate]
  split <;> rfl

theorem reset_path (p : Fin 4) : State.reset.path.get p = ⟨.clear, 0, 0, none, 0⟩ := Four.get_fill _ p

theorem reset_sense (z : Fin 4) : State.reset.sense.get z = ⟨.seeding, -160, 255, none, false, 0⟩ := Four.get_fill _ z

theorem reset_heat (i : Fin 4) : State.reset.heat.acc.get i = 0 ∧ State.reset.heat.account.get i = 0 ∧
    State.reset.heat.seeded.get i = false :=
  ⟨Four.get_fill _ i, Four.get_fill _ i, Four.get_fill _ i⟩

theorem reset_control (z : Fin 4) : (State.reset.control.get z).state = .steady ∧ (State.reset.control.get z).backoff = 0 ∧
    (State.reset.control.get z).sinceRaise = 0 := by
  have hz : State.reset.control.get z = State.reset.control.get 0 := (Four.get_fill _ z).trans (Four.get_fill _ 0).symm
  rw [hz]
  exact ⟨rfl, rfl, rfl⟩

/-- RESET_N going low, while it was high. -/
theorem exec_resetNAssert_high {s : State} (h : s.pins.resetN = true) : exec .resetNAssert s = .next (s.atReset false) := by
  show Host.Outcome.next (if s.pins.resetN then s.atReset false else s) = _
  rw [if_pos h]

theorem exec_resetNAssert_low {s : State} (h : s.pins.resetN = false) : exec .resetNAssert s = .next s := by
  show Host.Outcome.next (if s.pins.resetN then s.atReset false else s) = _
  rw [if_neg (by simp [h])]

/-- RESET_N going high, while it was low. -/
theorem exec_resetNRelease_low {s : State} (h : s.pins.resetN = false) : exec .resetNRelease s = .next (s.atReset true) := by
  show Host.Outcome.next (if s.pins.resetN then s else s.atReset true) = _
  rw [if_neg (by simp [h])]

theorem exec_resetNRelease_high {s : State} (h : s.pins.resetN = true) : exec .resetNRelease s = .next s := by
  show Host.Outcome.next (if s.pins.resetN then s else s.atReset true) = _
  rw [if_pos h]

/-- Settles O3: RESET_N's two edges answer `atReset`, which is the reset state but for the pins and the queue of waiting
commands; the values of the reset state are read off block by block. -/
theorem hardwareResetLoadsTheResetValues : Obligations.HardwareResetLoadsTheResetValues := by
  refine ⟨⟨fun s h => ?_, fun s h => ?_⟩, ?_⟩
  · exact ⟨s.atReset false, exec_resetNAssert_high h, rfl, rfl, rfl, rfl⟩
  · exact ⟨s.atReset true, exec_resetNRelease_low h, rfl, rfl, rfl, rfl⟩
  · exact ⟨rfl, rfl, ⟨rfl, rfl, rfl, rfl⟩, ⟨List.length_replicate, reset_row⟩, rfl, rfl, reset_heat, reset_sense, reset_control,
      reset_path, fun _ => ⟨rfl, rfl⟩, ⟨rfl, rfl, rfl, rfl, rfl, rfl⟩, ⟨rfl, rfl, rfl⟩, ⟨rfl, rfl, rfl⟩,
      ⟨rfl, rfl, rfl, rfl, rfl, rfl, rfl⟩, rfl, rfl⟩

/-! ### The invariants at reset -/

theorem reset_queuesBounded : State.reset.queuesBounded := by
  unfold State.queuesBounded
  decide

theorem reset_link_sound : State.reset.link.sound := by
  unfold Link.sound holdFits
  decide

theorem reset_quietInUnset : State.reset.quietInUnset := fun h => (quiet_iff _).2 (reset_calm.quiet h)

/-- Settles O60: each invariant holds of the reset values, most of them as the start of the induction that keeps it. -/
theorem resetStateMeetsEveryInvariant : Obligations.ResetStateMeetsEveryInvariant := by
  obtain ⟨hsched, hsupply⟩ := reset_apart
  obtain ⟨hpriced, hmap⟩ := reset_carried.stocked
  exact ⟨reset_queuesBounded, reset_link_sound, reset_carried.tables, reset_calm.mode, hsched, hsupply, reset_bounded.timer,
    reset_bounded.heat, reset_bounded.senses, reset_bounded.boost, reset_tempered.backoffs, reset_quietInUnset,
    reset_bounded.entries, hpriced, hmap, reset_regulated.ranged⟩

/-! ### The queue of waiting commands -/

/-- No part of the machine's work adds a waiting command or takes one; `step` alone takes the front one (log 2). -/
theorem pending_kept (q : List Instr) : Kept fun s => s.pending = q where
  grain := fun s h => by simpa using h
  turn := fun s turn o _ h => by simpa using h
  confirm := fun s m _ h => h
  events := fun s e h => h
  enter := fun s port p ready _ h => h
  queueCommand := fun s p h => by simpa using h
  takeTemp := fun s z t h => by simpa using h
  takeReady := fun s h => by simpa using h
  takeSupply := fun s mv h => by simpa using h
  takeTrip := fun s p h => by simpa using h
  pins := fun s pins h => h
  takeBurst := fun s p straps h => by simpa using h
  takeRevise := fun s p straps h => by simpa using h
  takeWithdraw := fun s p h => by simpa using h
  finishOrder := fun s f _ h => h
  makeRequested := fun s k h => by simpa using h
  takeCommand := fun s h => by simpa using h
  answer := fun s p w _ h => by simpa using h
  advance := fun s n h => h
  setCap := fun s i c _ h => h
  barEnd := fun s i _ h => h
  writeTable := fun s b a ws h _ _ _ _ => h
  launch := fun s b h _ _ => h
  cancel := fun s h _ => h
  startCopy := fun s a tag h _ _ _ => h
  finishCopy := fun s h => by simpa using h
  softReset := fun s n p h => by simpa using h
  grantDown := fun s h => h
  grantUp := fun s c h => by simpa using h
  update := fun s z _ h => by simpa using h

theorem effect_pending (c : Instr) (s : State) : (effect c s).pending = s.pending := (pending_kept s.pending).effect c rfl

/-- What a command does to the part, RESET_N's two edges aside: its effect while RESET_N is high, nothing while it is low. -/
theorem exec_answers {c : Instr} (ha : c ≠ .resetNAssert) (hr : c ≠ .resetNRelease) (s : State) :
    exec c s = .next (if s.pins.resetN then effect c s else s) := by
  rw [exec_eq_effect ha hr]
  cases h : s.pins.resetN with
  | true => exact live_high h _
  | false => exact live_low h _

theorem exec_answers_next (c : Instr) (s : State) : ∃ t, exec c s = .next t ∧ t.pending = s.pending := by
  by_cases ha : c = .resetNAssert
  · subst ha
    cases h : s.pins.resetN with
    | true => exact ⟨_, exec_resetNAssert_high h, rfl⟩
    | false => exact ⟨_, exec_resetNAssert_low h, rfl⟩
  by_cases hr : c = .resetNRelease
  · subst hr
    cases h : s.pins.resetN with
    | true => exact ⟨_, exec_resetNRelease_high h, rfl⟩
    | false => exact ⟨_, exec_resetNRelease_low h, rfl⟩
  refine ⟨_, exec_answers ha hr s, ?_⟩
  split
  · exact effect_pending c s
  · rfl

theorem exec_low {c : Instr} {s : State} (h : s.pins.resetN = false) (hr : c ≠ .resetNRelease) : exec c s = .next s := by
  by_cases ha : c = .resetNAssert
  · subst ha
    exact exec_resetNAssert_low h
  · rw [exec_answers ha hr, if_neg (by simp [h])]

/-- Settles O2: RESET_N's edges apart, a command answers its effect or, while RESET_N is low, the state as it is; no effect
touches the queue of waiting commands. -/
theorem everyCommandAnswersANextState : Obligations.EveryCommandAnswersANextState :=
  ⟨exec_answers_next, fun _ _ h hr => exec_low h hr, fun _ h => exec_resetNRelease_high h⟩

/-! ### Marks that turn no frame -/

/-- Settles O15: before grain tol of a frame that is SYNCED the mark joins the Pass Buffer and the Frame Timer raises SLIP. -/
theorem duplicateMarkIsIgnored : Obligations.DuplicateMarkIsIgnored := by
  intro s p o hr hw hk hd hs hg
  rw [exec_frameMark_taken hr hw hk hd]
  exact congrArg _ (takeMark_duplicate (s := { s with link := s.link.enterDown p true }) hg hs _ o)

theorem confirm_eq (s : State) (m : Nat) : s.confirm m = { s with
    timer := { s.timer with
      frame := m
      state := .synced
      missed := 0
      run := min 255 (s.timer.run + 1)
      mode := if s.timer.mode = .safe ∧ s.limits.safeExit ≤ min 255 (s.timer.run + 1) then .governing else s.timer.mode }
    events := s.events.raiseIf (m != s.timer.frame) .slip } := by
  unfold State.confirm
  rw [testExit_eq]
  rfl

/-- Settles O16: before grain tol of a frame not SYNCED the mark joins the Pass Buffer and confirms the timer's frame. -/
theorem markConfirmsTheTimersFrame : Obligations.MarkConfirmsTheTimersFrame := by
  intro s p o hr hw hk hd hs hg
  have hconfirm := takeMark_confirm (s := { s with link := s.link.enterDown p true }) hg hs ((p.word 0).toNat % 256) o
  rw [exec_frameMark_taken hr hw hk hd, hconfirm, confirm_eq]
  rfl

end Sys2Proof.Machine
end

section
/-! PROOFS. The grain event (R111, R112): the grain's work block by block, and the end of the AWAITING window. -/

namespace Sys2Proof.Machine

/-! ### Timers that fall without running out (R66, R83) -/

theorem Sense.tick_of_none {x : Sense} (h : x.poll = none) : x.tick = x := by
  obtain ⟨freshness, sensed, age, poll, due, spacing⟩ := x
  subst h
  rfl

theorem Sense.tick_of_some {x : Sense} {n : Nat} (h : x.poll = some (n + 2)) : x.tick = { x with poll := some (n + 1) } := by
  obtain ⟨freshness, sensed, age, poll, due, spacing⟩ := x
  subst h
  simp [Sense.tick, Sense.expires]

theorem Boost.tick_of_idle {b : Boost} (h : b.state ≠ .requested) (cooldown : Nat) : b.tick cooldown = b := by
  have hno : b.expires = false := by simp [Boost.expires, h]
  rw [Boost.tick, hno, if_neg Bool.false_ne_true, if_neg h]

theorem Boost.tick_of_some {b : Boost} {n : Nat} (h : b.state = .requested) (hw : b.wait = some (n + 2)) (cooldown : Nat) :
    b.tick cooldown = { b with wait := some (n + 1) } := by
  have hno : b.expires = false := by simp [Boost.expires, hw]
  rw [Boost.tick, hno, if_neg Bool.false_ne_true, if_pos h, hw]
  rfl

/-! ### What every grain event does -/

theorem takesHeld_congr {s t u : State} (h : s.takesHeld t) (hcontrol : u.control = t.control) (hpath : u.path = t.path)
    (hupdates : u.updates = t.updates) : s.takesHeld u := by
  unfold State.takesHeld at *
  rw [hcontrol, hpath, hupdates]
  exact h

theorem grainSets_congr (s : State) {t u : State} (h : u.control = t.control) : s.grainSets u = s.grainSets t := by
  funext f
  simp only [State.grainSets, h]

theorem safeRequest_updates (s : State) (entered : Bool) : (s.safeRequest entered).updates = s.updates := by
  cases entered with
  | true => exact takeRequest_updates s _
  | false => rfl

theorem windowEnd_updates (s : State) : s.windowEnd.updates = s.updates := safeRequest_updates _ _

/-- A grain event that does not end the AWAITING window is the grain's work. -/
theorem grainStep_open {s : State} (hg : s.timer.grain < 79) (h : s.windowDue = false) :
    s.grainStep = s.grainWork (s.timer.grain + 1) := by
  rw [grainStep_cases hg, grainWork_endsWindow, h]
  rfl

/-- The grain event that ends the AWAITING window is the grain's work and then the window's end. -/
theorem grainStep_window {s : State} (hg : s.timer.grain < 79) (h : s.windowDue = true) :
    s.grainStep = (s.grainWork (s.timer.grain + 1)).windowEnd := by
  rw [grainStep_cases hg, grainWork_endsWindow, h]
  rfl

/-- A poll timer falls, where it does not run out. -/
theorem grainStep_polls {s : State} (hg : s.timer.grain < 79) (z : Fin 4) :
    ((s.sense.get z).poll = none → s.grainStep.sense.get z = s.sense.get z) ∧
      ∀ n, (s.sense.get z).poll = some (n + 2) → s.grainStep.sense.get z = { s.sense.get z with poll := some (n + 1) } := by
  rw [grainStep_sense hg]
  exact ⟨Sense.tick_of_none, fun n => Sense.tick_of_some⟩

/-- The Boost Controller's timer falls, where it runs and does not run out. -/
theorem grainStep_wait {s : State} (hg : s.timer.grain < 79) :
    (s.boost.state ≠ .requested → s.grainStep.boost = s.boost) ∧
      ∀ n, s.boost.state = .requested → s.boost.wait = some (n + 2) →
        s.grainStep.boost = { s.boost with wait := some (n + 1) } := by
  rw [grainStep_boost hg]
  exact ⟨fun h => Boost.tick_of_idle h _, fun n h hw => Boost.tick_of_some h hw _⟩

theorem grainStep_path {s : State} (hg : s.timer.grain < 79) (i : Fin 4) :
    s.grainStep.path.get i = { s.path.get i with thermal := (s.grainStep.path.get i).thermal } := by
  obtain ⟨_, _, _, hpath⟩ := grainStep_work hg
  rw [hpath]
  exact grainWork_path s _ i

theorem grainStep_takesHeld {s : State} (hg : s.timer.grain < 79) : s.takesHeld s.grainStep := by
  obtain ⟨_, _, hcontrol, hpath⟩ := grainStep_work hg
  refine takesHeld_congr (grainWork_takesHeld s (s.timer.grain + 1)) hcontrol hpath ?_
  rw [grainStep_cases hg]
  split
  · exact windowEnd_updates _
  · rfl

theorem windowDue_iff (s : State) : s.windowDue = true ↔ s.timer.state = .awaiting ∧ s.timer.grain + 1 = s.tolerance := by
  simp [State.windowDue]

/-- At grain 79 there is no grain event (R111). -/
theorem grainStep_of_last {s : State} (h : s.timer.grain = 79) : s.grainStep = s := by
  unfold State.grainStep
  exact if_neg (by omega)

/-- Below grain 79 the timer turns no frame (R112). -/
theorem timerStep_of_lower {s : State} (h : s.timer.grain < 79) (o : TurnOrder) : s.timerStep o = s := by
  unfold State.timerStep
  exact if_neg (by omega)

theorem live_of_eq {s : State} {f : State → State} (h : f s = s) : s.live f = .next s := by
  cases hr : s.pins.resetN with
  | true => rw [live_high hr, h]
  | false => exact live_low hr f

/-- Settles O12: a grain event that leaves the window open is the grain's work, read off block by block. -/
theorem grainEventCommitsAndClosesEntries : Obligations.GrainEventCommitsAndClosesEntries := by
  refine ⟨fun s hr hg hopen => ?_, fun s => ⟨rfl, windowDue_iff s⟩, fun s => ⟨fun h => ?_, fun o h => ?_⟩⟩
  · have hwork := grainStep_open hg hopen
    obtain ⟨hpins, hlink, htables, hengine, _⟩ := grainStep_frame s
    obtain ⟨hsched, hheat, hcontrol, _⟩ := grainStep_work hg
    obtain ⟨hidle, hfalls⟩ := grainStep_wait hg
    refine ⟨s.grainStep, exec_commandOf hr .grain, ?_, ?_, hheat.trans (grainWork_heat s _), ?_, htables, hlink, hengine, hpins,
      grainStep_polls hg, hidle, hfalls, grainStep_path hg, grainStep_takesHeld hg, ?_⟩
    · rw [hwork]; exact grainWork_timer s _
    · rw [hsched]; exact grainWork_entries s _
    · rw [hwork]; exact grainWork_supply s _
    · rw [hwork]; exact grainWork_sets s _
  · exact live_of_eq (grainStep_of_last h)
  · exact live_of_eq (timerStep_of_lower h o)

/-! ### The end of the AWAITING window (R112, R117) -/

theorem windowEntersSafe_iff (s : State) : s.windowEntersSafe = true ↔
    s.timer.mode = .governing ∧ s.limits.holdoverLimit ≤ min 255 (s.timer.missed + 1) := by
  simp [State.windowEntersSafe, FrameTimer.overLimit, FrameTimer.missing]

theorem grainWork_windowEntersSafe (s : State) (g : Nat) : (s.grainWork g).windowEntersSafe = s.windowEntersSafe := by
  have htables : (s.grainWork g).tables = s.tables := by simp
  have hlimits : (s.grainWork g).limits = s.limits := by simp only [State.limits, State.bankFor, htables]
  simp only [State.windowEntersSafe, hlimits, grainWork_timer]
  rfl

/-- The counts after the window's end; SAFE entry concerns the mode alone, the run count being 0 already. -/
theorem windowEnd_timer_eq (s : State) : s.windowEnd.timer = { s.timer with
    state := .holdover
    missed := min 255 (s.timer.missed + 1)
    run := 0
    mode := if s.windowEntersSafe then .safe else s.timer.mode } := by
  rw [windowEnd_timer]
  split <;> rfl

/-- The state in which the window's end hands its SAFE request on. -/
def State.windowClosed (s : State) : State :=
  { s with
    timer := if s.windowEntersSafe then s.timer.missing.enterSafe else s.timer.missing
    events := (s.events.raise .frameLost).raiseIf s.windowEntersSafe .safe }

theorem windowEnd_eq (s : State) : s.windowEnd = s.windowClosed.safeRequest s.windowEntersSafe := rfl

/-- At SAFE entry the SAFE request is handed on in the state the window's end leaves (R60, log 7). -/
theorem windowEnd_request {s : State} (h : s.windowEntersSafe = true) :
    s.windowEnd.supply = (State.takeRequest { s.windowEnd with supply := s.supply } .safe).supply := by
  have hrequest : s.windowEnd.supply = (s.windowClosed.takeRequest .safe).supply := by
    rw [windowEnd_eq, h]
    rfl
  have htimer : s.windowEnd.timer = s.windowClosed.timer := windowEnd_timer s
  obtain ⟨_, hlink, hsched, _, _, _, _, _, htables, _⟩ := windowEnd_frame s
  rw [hrequest]
  exact takeRequest_safe_congr hsched.symm (congrArg _ htimer.symm) htables.symm (by rw [hlink]; rfl) rfl

theorem windowEnd_supply_open {s : State} (h : s.windowEntersSafe = false) : s.windowEnd.supply = s.supply := by
  rw [windowEnd_eq, h]
  rfl

theorem windowEnd_map (s : State) : s.windowEnd.supply.map = s.supply.map := by
  rw [windowEnd_eq, safeRequest_supply]
  rfl

/-- The flags of the grain event that ends the window: those of every grain event, FRAME_LOST, and SAFE at SAFE entry. -/
theorem grainStep_window_sets {s : State} (hg : s.timer.grain < 79) (h : s.windowDue = true) :
    s.events.sets (fun f => s.grainSets s.grainStep f ∨ f = .frameLost ∨
      (f = .safe ∧ s.timer.mode = .governing ∧ s.limits.holdoverLimit ≤ min 255 (s.timer.missed + 1))) s.grainStep.events := by
  obtain ⟨_, _, hcontrol, _⟩ := grainStep_work hg
  have hall := Events.sets_trans (grainWork_sets s (s.timer.grain + 1)) (windowEnd_sets _)
  rw [← grainStep_window hg h] at hall
  refine Events.sets_congr hall fun f => ?_
  rw [grainSets_congr s hcontrol, grainWork_windowEntersSafe, windowEntersSafe_iff]

/-- Settles O13: the grain event for grain tol in AWAITING is the grain's work followed by the window's end, which enters SAFE
exactly in GOVERNING at the holdover limit. -/
theorem awaitingWindowEndsWithoutAMark : Obligations.AwaitingWindowEndsWithoutAMark := by
  intro s hr hstate hg htol
  have hdue : s.windowDue = true := (windowDue_iff s).2 ⟨hstate, htol⟩
  have hend := grainStep_window hg hdue
  have hlocal : s.grainStep.timer = _ := hend ▸ windowEnd_timer_eq _
  rw [grainWork_windowEntersSafe, grainWork_timer] at hlocal
  have hsupply : (s.grainWork (s.timer.grain + 1)).supply = s.supply := grainWork_supply s _
  have hsets := grainStep_window_sets hg hdue
  obtain ⟨hpins, hlink, htables, hengine, _⟩ := grainStep_frame s
  obtain ⟨hsched, hheat, _, _⟩ := grainStep_work hg
  obtain ⟨hidle, hfalls⟩ := grainStep_wait hg
  have hevent : exec .awaitingWindowEnd s = .next s.grainStep :=
    (live_high hr fun s => if s.windowDue then s.grainStep else s).trans (congrArg _ (if_pos hdue))
  refine ⟨s.grainStep, hevent, exec_commandOf hr .grain, by rw [hlocal], by rw [hlocal], by rw [hlocal], by rw [hlocal],
    by rw [hlocal], Events.has_of_sets hsets (Or.inr (Or.inl rfl)), fun hmode hlimit => ?_, fun hno => ?_, hlink, ?_, htables,
    hengine, hpins, ?_, hheat.trans (grainWork_heat s _), grainStep_polls hg, hidle, hfalls, grainStep_path hg,
    grainStep_takesHeld hg, hsets⟩
  · have henters := (windowEntersSafe_iff s).2 ⟨hmode, hlimit⟩
    refine ⟨by rw [hlocal, if_pos henters], Events.has_of_sets hsets (Or.inr (Or.inr ⟨rfl, hmode, hlimit⟩)), ?_⟩
    rw [hend, ← hsupply]
    exact windowEnd_request ((grainWork_windowEntersSafe s _).trans henters)
  · have hstays : s.windowEntersSafe = false := by
      refine Bool.eq_false_iff.2 fun h => ?_
      obtain ⟨hmode, hlimit⟩ := (windowEntersSafe_iff s).1 h
      exact hno.elim (fun hne => hne hmode) fun hlt => absurd hlt (not_lt.2 hlimit)
    refine ⟨by rw [hlocal, hstays]; rfl, ?_⟩
    rw [hend, windowEnd_supply_open ((grainWork_windowEntersSafe s _).trans hstays), hsupply]
  · rw [hend, windowEnd_map, hsupply]
  · rw [hsched]
    exact grainWork_entries s _

end Sys2Proof.Machine
end

section
/-! PROOFS. The frame turn of the timer and of a mark (R112 to R118): the Frame Timer after it, and the SAFE request it hands on. -/

namespace Sys2Proof.Machine

/-! ### The Frame Timer at a turn -/

theorem FrameTimer.turned_synced {t : FrameTimer} (h : t.state = .synced) :
    t.turned .timer = { t with frame := nextFrame t.frame, grain := 0, state := .awaiting } := by
  simp [FrameTimer.turned, h]

theorem FrameTimer.turned_holdover {t : FrameTimer} (h : t.state = .holdover) : t.turned .timer =
    { t with frame := nextFrame t.frame, grain := 0, state := .holdover, missed := min 255 (t.missed + 1), run := 0 } := by
  simp [FrameTimer.turned, FrameTimer.missing, h]

theorem FrameTimer.turned_timer_begins (t : FrameTimer) :
    (t.turned .timer).frame = (t.frame + 1) % 256 ∧ (t.turned .timer).grain = 0 := by
  unfold FrameTimer.turned
  cases t.state <;> exact ⟨rfl, rfl⟩

theorem modeBegun_first {s : State} (h : s.tables.firstSwitch = true) : s.modeBegun = .governing := if_pos h

theorem modeBegun_other {s : State} (h : s.tables.firstSwitch = false) : s.modeBegun = s.timer.mode :=
  if_neg (by simp [h])

/-- SAFE is entered where a first switch or a lost frame meets the holdover limit in GOVERNING (R112, R117). -/
theorem entersSafe_limit (s : State) (turn : Turn) : s.entersSafe turn = true ↔
    (s.tables.firstSwitch = true ∨ s.timer.loses turn = true) ∧ s.modeBegun = .governing ∧
      s.bankBegun.limits.holdoverLimit ≤ (s.timer.turned turn).missed := by
  simp only [State.entersSafe, FrameTimer.overLimit, timerTurned_eq, limitsBegun_eq, Bool.and_eq_true, Bool.or_eq_true,
    beq_iff_eq, decide_eq_true_eq]

theorem timerBegun_timer (s : State) : s.timerBegun .timer = { s.timer.turned .timer with
    run := if s.entersSafe .timer then 0 else (s.timer.turned .timer).run
    mode := if s.entersSafe .timer then .safe else s.modeBegun } := by
  rw [timerBegun_eq, timerTurned_eq]
  simp

theorem timerBegun_mark (s : State) (m : Nat) : s.timerBegun (.mark m) =
    { frame := m
      grain := 0
      state := .synced
      missed := 0
      run := if s.entersSafe (.mark m) then 0 else min 255 (s.timer.run + 1)
      mode := if s.entersSafe (.mark m) then .safe
        else if s.modeBegun = .safe ∧ s.bankBegun.limits.safeExit ≤ min 255 (s.timer.run + 1) then .governing
        else s.modeBegun } := by
  rw [timerBegun_eq, timerTurned_eq]
  simp [FrameTimer.turned, FrameTimer.synced]

/-- A mark's turn enters SAFE at a first switch alone, the missed count being 0 (R115, R117). -/
theorem entersSafe_mark (s : State) (m : Nat) : s.entersSafe (.mark m) = true ↔
    s.tables.firstSwitch = true ∧ s.bankBegun.limits.holdoverLimit = 0 := by
  rw [entersSafe_limit]
  constructor
  · rintro ⟨hfirst | hloses, _, hlimit⟩
    · exact ⟨hfirst, Nat.le_zero.1 hlimit⟩
    · cases hloses
  · rintro ⟨hfirst, hlimit⟩
    exact ⟨Or.inl hfirst, modeBegun_first hfirst, hlimit.le⟩

/-! ### The turn of an indication -/

/-- What a turn of any indication leaves of the part, the link's Originated Queue apart. -/
theorem indication_keeps (s : State) (k : Clock) (turn : Turn) (o : TurnOrder) :
    let t := (s.beforeTurn k).frameTurn turn o
    t.pins = s.pins ∧ t.engine = s.engine ∧ t.link = { (s.beforeTurn k).link with orig := t.link.orig } ∧
      (s.tables.pending = none → t.tables = s.tables) ∧ ∀ z, (t.sense.get z).sensed = (s.sense.get z).sensed := by
  obtain ⟨hpins, hengine, _⟩ := frameTurn_frame (s.beforeTurn k) turn o
  refine ⟨hpins.trans (beforeTurn_pins s k), hengine.trans (by simp), frameTurn_link _ _ _, fun hnone => ?_, fun z => ?_⟩
  · rw [frameTurn_tables]
    simp only [beforeTurn_frame]
    exact turned_none hnone
  · rw [frameTurn_sensed]
    simp only [beforeTurn_frame]

theorem indication_timer (s : State) (k : Clock) (turn : Turn) (o : TurnOrder) :
    ((s.beforeTurn k).frameTurn turn o).timer = s.timerBegun turn := by
  rw [frameTurn_timer]
  simp only [beforeTurn_begun]

theorem turnSets_beforeTurn (s : State) (k : Clock) (turn : Turn) (t : State) (f : Flag) :
    (s.beforeTurn k).turnSets turn t f ↔ s.turnSets turn t f := by
  simp only [State.turnSets, State.boostRunsOut, State.pollRunsOut, caughtUp_beforeTurn, modeBegun_beforeTurn, beforeTurn_begun,
    beforeTurn_frame]

theorem indication_sets (s : State) (k : Clock) (turn : Turn) (o : TurnOrder) :
    s.events.sets (s.turnSets turn ((s.beforeTurn k).frameTurn turn o)) ((s.beforeTurn k).frameTurn turn o).events := by
  have hsets := frameTurn_turnSets (s.beforeTurn k) turn o
  have hevents : (s.beforeTurn k).events = s.events := by simp only [beforeTurn_frame]
  rw [hevents] at hsets
  exact Events.sets_congr hsets fun f => turnSets_beforeTurn s k turn _ f

/-! ### The SAFE request of a turn (R60, R156, log 5, log 7) -/

/-- Asked before both other users, the SAFE request meets the queue as the turn found it. -/
theorem ahead_nil {q : QueueOrder} (hq : q = .safePollBoost ∨ q = .safeBoostPoll) {ahead : List Draft}
    (hkinds : ∀ d ∈ ahead, (d.kind = 6 → pollsBeforeSafe q) ∧ (d.kind ≠ 6 → ¬ safeAhead q)) : ahead = [] := by
  refine List.eq_nil_iff_forall_not_mem.2 fun d hd => ?_
  obtain ⟨hpoll, hother⟩ := hkinds d hd
  by_cases hk : d.kind = 6
  · have := hpoll hk
    rcases hq with rfl | rfl <;> simp [pollsBeforeSafe] at this
  · exact hother hk (Or.inr hq)

theorem turnWork_requests (s : State) (turn : Turn) (o : TurnOrder) :
    (s.turnWork turn o).supply.requests = s.supply.requests := by
  rw [turnWork_supply]

/-- At a turn that enters SAFE one request is handed on, where its turn among the three users comes. -/
theorem frameTurn_request {s : State} {turn : Turn} (h : s.entersSafe turn = true) (o : TurnOrder) :
    let t := s.frameTurn turn o
    ∃ n, s.link.orig.length ≤ n ∧ n ≤ t.link.orig.length ∧
      (o.queue = .safePollBoost ∨ o.queue = .safeBoostPoll → n = s.link.orig.length) ∧
      (∀ d ∈ (t.link.orig.take n).drop s.link.orig.length,
        (d.kind = 6 → pollsBeforeSafe o.queue) ∧ (d.kind ≠ 6 → ¬ safeAhead o.queue)) ∧
      (∀ d ∈ t.link.orig.drop n, (d.kind = 6 → ¬ pollsBeforeSafe o.queue) ∧ (d.kind ≠ 6 → safeAhead o.queue)) ∧
      t.supply = (State.takeRequest { t with
        supply := { t.supply with requests := s.supply.requests }
        link := { t.link with orig := t.link.orig.take n } } .safe).supply := by
  intro t
  obtain ⟨u, ahead, after, hsched, htimer, htables, hsupply, horig, hqueue, hrequest, hahead, hafter⟩ :=
    askQueue_request (s.turnWork turn o) o.queue (s.entersSafe turn)
  obtain ⟨hlink, _⟩ := turnWork_queue s turn o
  rw [hlink] at horig hqueue
  have hdone : t.link.orig = s.link.orig ++ ahead ++ after := hqueue
  have hlength : (s.link.orig ++ ahead).length = s.link.orig.length + ahead.length := List.length_append
  have htake : t.link.orig.take (s.link.orig.length + ahead.length) = s.link.orig ++ ahead := by
    rw [hdone, ← hlength, List.take_left]
  have hdrop : t.link.orig.drop (s.link.orig.length + ahead.length) = after := by
    rw [hdone, ← hlength, List.drop_left]
  refine ⟨s.link.orig.length + ahead.length, Nat.le_add_right _ _, ?_, fun hq => ?_, ?_, ?_, ?_⟩
  · rw [hdone, List.length_append, hlength]
    exact Nat.le_add_right _ _
  · rw [ahead_nil hq hahead]
    rfl
  · rw [htake, List.drop_left]
    exact hahead
  · rw [hdrop]
    exact hafter
  · have hshape : t.supply = { (s.turnWork turn o).supply with requests := t.supply.requests } := askQueue_supply _ _ _
    have hbefore : { t.supply with requests := s.supply.requests } = u.supply := by
      rw [hsupply, hshape, ← turnWork_requests s turn o]
    have hsame : t.sched = (s.turnWork turn o).sched ∧ t.timer = (s.turnWork turn o).timer ∧
        t.tables = (s.turnWork turn o).tables := by
      simp [t, State.frameTurn]
    obtain ⟨hsched', htimer', htables'⟩ := hsame
    have hasked : t.supply = (u.takeRequest .safe).supply := by
      rw [show t.supply = _ from hrequest, h]
      rfl
    refine hasked.trans (takeRequest_safe_congr (hsched.trans hsched'.symm) (congrArg _ (htimer.trans htimer'.symm))
      (htables.trans htables'.symm) ?_ hbefore.symm)
    rw [horig]
    exact (congrArg _ htake).symm

/-- At every other turn no request is handed on. -/
theorem frameTurn_requests_stay {s : State} {turn : Turn} (h : s.entersSafe turn = false) (o : TurnOrder) :
    (s.frameTurn turn o).supply.requests = s.supply.requests := by
  obtain ⟨u, _, _, _, _, _, hsupply, _, _, hrequest, _⟩ :=
    askQueue_request (s.turnWork turn o) o.queue (s.entersSafe turn)
  have hasked : (s.frameTurn turn o).supply = u.supply := by
    rw [show (s.frameTurn turn o).supply = _ from hrequest, h]
    rfl
  rw [hasked, hsupply, turnWork_requests]

/-! ### The timer's turn (R112) -/

theorem frameTurn_timer_timer (s : State) (o : TurnOrder) : (s.frameTurn .timer o).timer = { s.timer.turned .timer with
    run := if s.entersSafe .timer then 0 else (s.timer.turned .timer).run
    mode := if s.entersSafe .timer then .safe else s.modeBegun } :=
  (frameTurn_timer s .timer o).trans (timerBegun_timer s)

/-- From SYNCED the next frame awaits its mark, with the counts as they stand. -/
theorem timerTurn_synced {s : State} (hstate : s.timer.state = .synced) (o : TurnOrder) :
    let t := s.frameTurn .timer o
    t.timer.state = .awaiting ∧ t.timer.missed = s.timer.missed ∧
      (s.tables.firstSwitch = false → t.timer.run = s.timer.run ∧ t.timer.mode = s.timer.mode) := by
  intro t
  rw [show t.timer = _ from frameTurn_timer_timer s o, FrameTimer.turned_synced hstate]
  refine ⟨rfl, rfl, fun hfirst => ?_⟩
  have hstays : s.entersSafe .timer = false := Bool.eq_false_iff.2 fun h => by
    simp [entersSafe_limit, hfirst, FrameTimer.loses, hstate] at h
  simp only [hstays, modeBegun_other hfirst]
  exact ⟨rfl, rfl⟩

/-- In HOLDOVER SAFE is entered in GOVERNING at the holdover limit. -/
theorem entersSafe_holdover {s : State} (hstate : s.timer.state = .holdover) : s.entersSafe .timer = true ↔
    s.modeBegun = .governing ∧ s.bankBegun.limits.holdoverLimit ≤ min 255 (s.timer.missed + 1) := by
  have hloses : s.timer.loses .timer = true := by simp [FrameTimer.loses, hstate]
  rw [entersSafe_limit, FrameTimer.turned_holdover hstate]
  exact and_iff_right (Or.inr hloses)

/-- In HOLDOVER another frame is lost. -/
theorem timerTurn_holdover {s : State} (hstate : s.timer.state = .holdover) (o : TurnOrder) :
    let t := s.frameTurn .timer o
    t.timer.state = .holdover ∧ t.timer.missed = min 255 (s.timer.missed + 1) ∧ t.timer.run = 0 ∧
      t.events.has .frameLost = true ∧
      (s.modeBegun = .governing → s.bankBegun.limits.holdoverLimit ≤ min 255 (s.timer.missed + 1) →
        t.timer.mode = .safe ∧ t.events.has .safe = true) ∧
      (s.modeBegun ≠ .governing ∨ min 255 (s.timer.missed + 1) < s.bankBegun.limits.holdoverLimit →
        t.timer.mode = s.modeBegun) := by
  intro t
  have hloses : s.timer.loses .timer = true := by simp [FrameTimer.loses, hstate]
  obtain ⟨hlost, _, hsafe⟩ := frameTurn_sets s .timer o
  rw [show t.timer = _ from frameTurn_timer_timer s o, FrameTimer.turned_holdover hstate]
  refine ⟨rfl, rfl, ite_self 0, hlost hloses, fun hmode hlimit => ?_, fun hno => ?_⟩
  · have henters := (entersSafe_holdover hstate).2 ⟨hmode, hlimit⟩
    exact ⟨if_pos henters, hsafe henters⟩
  · refine if_neg fun henters => ?_
    obtain ⟨hmode, hlimit⟩ := (entersSafe_holdover hstate).1 henters
    exact hno.elim (fun hne => hne hmode) fun hlt => absurd hlt (not_lt.2 hlimit)

/-! ### SAFE entry at the turn of an indication -/

theorem indication_entersSafe (s : State) (k : Clock) (turn : Turn) (o : TurnOrder) : (s.beforeTurn k).entersSafe turn = true ↔
    ((s.beforeTurn k).frameTurn turn o).timer.mode = .safe ∧ s.modeBegun ≠ .safe := by
  rw [entersSafe_iff, frameTurn_timer, modeBegun_beforeTurn]

/-- Settles O14: the timer's turn by the state it finds, SYNCED or HOLDOVER; at the turn of any indication the SAFE request by
`frameTurn_request`. -/
theorem timerTurnsTheFrame : Obligations.TimerTurnsTheFrame := by
  refine ⟨fun s o hr hg => ?_, fun s k turn o hr hk => ?_⟩
  · obtain ⟨hframe, hgrain⟩ := s.timer.turned_timer_begins
    rw [← congrArg FrameTimer.frame (frameTurn_timer_timer s o)] at hframe
    rw [← congrArg FrameTimer.grain (frameTurn_timer_timer s o)] at hgrain
    exact ⟨s.frameTurn .timer o, exec_of_turn hr (turnOf_timer hg o), indication_keeps s (.timer o) .timer o, hframe, hgrain,
      fun hstate => timerTurn_synced hstate o, fun hstate => timerTurn_holdover hstate o⟩
  · have henters := indication_entersSafe s k turn o
    have horig : (s.beforeTurn k).link.orig = s.link.orig := by simp only [beforeTurn_frame]
    have hsupply : (s.beforeTurn k).supply = s.supply := by simp only [beforeTurn_frame]
    refine ⟨_, exec_of_turn hr hk, fun hmode hbegun => ?_, fun hno => ?_, indication_sets s k turn o⟩
    · have hsafe := henters.2 ⟨hmode, hbegun⟩
      obtain ⟨_, _, hflag⟩ := frameTurn_sets (s.beforeTurn k) turn o
      have hrun : ((s.beforeTurn k).frameTurn turn o).timer.run = 0 := by
        rw [frameTurn_timer, timerBegun_eq, hsafe]
        rfl
      have hrequest := frameTurn_request hsafe o
      rw [horig, hsupply] at hrequest
      exact ⟨hflag hsafe, hrun, hrequest⟩
    · have hstays : (s.beforeTurn k).entersSafe turn = false := Bool.eq_false_iff.2 fun hsafe =>
        hno.elim (fun hne => hne (henters.1 hsafe).1) (henters.1 hsafe).2
      rw [frameTurn_requests_stay hstays, hsupply]

/-! ### A mark that turns the frame (R113, R115, R118) -/

/-- Settles O17: the mark joins the Pass Buffer and turns the frame; `timerBegun_mark` gives the Frame Timer after it. -/
theorem markTurnsTheFrame : Obligations.MarkTurnsTheFrame := by
  intro s p o hr hw hk hd hg m
  have htimer := (indication_timer s (.mark p o) (.mark m) o).trans (timerBegun_mark s m)
  have hslip : ((s.beforeTurn (.mark p o)).frameTurn (.mark m) o).events.has .slip =
      (s.events.has .slip || s.timer.slips s.tolerance (.mark m)) := by
    rw [frameTurn_slip]
    simp only [beforeTurn_begun, beforeTurn_frame]
  refine ⟨_, exec_of_turn hr (turnOf_mark hw hk hd hg o), indication_keeps s (.mark p o) (.mark m) o, by rw [htimer], by rw [htimer],
    by rw [htimer], by rw [htimer], fun hcause => ?_, fun hlate hnext hclear => ?_, fun hfirst => ?_, fun hfirst => ?_,
    indication_sets s (.mark p o) (.mark m) o⟩
  · rw [hslip, (slips_mark _ _ _).2 hcause, Bool.or_true]
  · have hno : s.timer.slips s.tolerance (.mark m) = false := Bool.eq_false_iff.2 fun h =>
      ((slips_mark _ _ _).1 h).elim (fun hearly => absurd hearly (not_lt.2 hlate)) fun hne => hne hnext
    rw [hslip, hclear, hno]
    rfl
  · have hstays : s.entersSafe (.mark m) = false := Bool.eq_false_iff.2 fun h => by
      simp [entersSafe_mark, hfirst] at h
    rw [htimer, hstays, modeBegun_other hfirst]
    refine ⟨rfl, fun hmode => ?_, fun hmode => ?_, fun hmode => ?_⟩ <;> simp [hmode]
  · refine ⟨fun hlimit => ?_, fun hlimit => ?_⟩
    · have hstays : s.entersSafe (.mark m) = false := Bool.eq_false_iff.2 fun h =>
        absurd ((entersSafe_mark s m).1 h).2 hlimit.ne'
      rw [htimer, hstays, modeBegun_first hfirst]
      exact ⟨rfl, rfl⟩
    · rw [htimer, (entersSafe_mark s m).2 ⟨hfirst, hlimit⟩]
      exact ⟨rfl, rfl⟩

end Sys2Proof.Machine
end

section
/-! PROOFS. Laws 7 and 8 (R123, R130, R133 to R143): what one command makes of the tables, the governing banks along it, and the
tables sound after every step. -/

namespace Sys2Proof.Machine

/-! ### One change of the Table Store -/

/-- Law 7: no change a command makes writes to a governing bank. -/
theorem TableStep.governing_bank {t u : Tables} (h : TableStep t u) (hs : t.sound) {b : BankId}
    (hb : t.active = some b ∨ t.pending.map Prod.fst = some b) : u.bank b = t.bank b := by
  cases h with
  | advance n => exact Tables.advance_bank hs n b hb
  | write c a ws active pending copy fits =>
    have hne : b ≠ c := by
      rintro rfl
      rcases hb with hb | hb
      · exact active hb
      · simp [Tables.isPending, hb] at pending
    rw [Tables.bank_setMark, Tables.bank_setBank_other t _ hne]
  | launch c free passes => exact Tables.bank_setMark t c b true
  | cancel early => cases b <;> rfl
  | startCopy a tag active pending copy => exact Tables.bank_setMark t a.other b false
  | copyDone c copy => exact Tables.bank_setBank_other t _ (Tables.dest_ne hs copy b hb)
  | copyEnd c copy =>
    exact (Tables.bank_setMark _ c.dest b true).trans (Tables.bank_setBank_other t _ (Tables.dest_ne hs copy b hb))
  | softReset n =>
    have hbank : (t.softReset n).bank b = (t.advance n).bank b := by
      unfold Tables.softReset
      dsimp only
      split <;> cases b <;> rfl
    exact hbank.trans (Tables.advance_bank hs n b hb)

/-- R138: a bank becomes active at a frame turn alone. -/
theorem TableStep.active {t u : Tables} (h : TableStep t u) : u.active = t.active := by
  cases h with
  | advance n => exact Tables.advance_active t n
  | softReset n => exact Tables.softReset_active t n
  | write | launch | cancel | startCopy | copyDone | copyEnd =>
    simp [Tables.accept, Tables.cancel, Tables.startCopy, Tables.copyDone, Tables.copyEnd]

/-! ### The tables at a frame turn (R137, R138) -/

theorem turned_bank (t : Tables) (b : BankId) : t.turned.bank b = t.bank b := by
  unfold Tables.turned
  split
  · split <;> cases b <;> rfl
  · rfl

/-- R137: at its last turn a pending switch takes effect. -/
theorem turned_due {t : Tables} {b : BankId} {n : Nat} (h : t.pending = some (b, n)) (hn : n ≤ 1) :
    t.turned = { t with active := some b, pending := none, launch := .switched } := by
  simp [Tables.turned, h, hn]

/-- R137: before its last turn a pending switch is counted down. -/
theorem turned_waits {t : Tables} {b : BankId} {n : Nat} (h : t.pending = some (b, n)) (hn : 1 < n) :
    t.turned = { t with pending := some (b, n - 1) } := by
  simp [Tables.turned, h, not_le.2 hn]

/-- A turn without a switch at its last turn leaves the active bank. -/
theorem turned_active {t : Tables} (h : ∀ b n, t.pending = some (b, n) → 1 < n) : t.turned.active = t.active := by
  cases hp : t.pending with
  | none => rw [turned_none hp]
  | some x => rw [turned_waits hp (h _ _ hp)]

/-- A bank that a turn makes active was pending at its last turn. -/
theorem turned_switches {t : Tables} (hs : t.sound) {b : BankId} (hb : t.turned.active = some b) (hne : t.active ≠ some b) :
    t.pending = some (b, 1) ∧ t.turned.launch = .switched := by
  by_cases h : ∀ c n, t.pending = some (c, n) → 1 < n
  · exact absurd (turned_active h ▸ hb) hne
  · push Not at h
    obtain ⟨c, n, hp, hn⟩ := h
    obtain ⟨_, _, hrange, _⟩ := hs.2.2.2.2.1 c n hp
    rw [turned_due hp hn] at hb ⊢
    obtain rfl : c = b := Option.some.inj hb
    obtain rfl : n = 1 := by omega
    exact ⟨hp, rfl⟩

/-! ### What a command makes of the tables -/

/-- A command leaves the tables, makes one change of the Table Store, or turns the frame. -/
inductive State.movesTables (s t : State) : Prop
  | stay (tables : t.tables = s.tables)
  | store (change : TableStep s.tables t.tables)
  | turn (tables : t.tables = s.tables.turned) (grain : t.timer.grain = 0)

theorem frameTurn_movesTables {s u : State} (h : u.tables = s.tables) (turn : Turn) (o : TurnOrder) :
    s.movesTables (u.frameTurn turn o) :=
  .turn (by rw [frameTurn_tables, h]) (frameTurn_grain u turn o)

theorem takeMark_movesTables {s u : State} (h : u.tables = s.tables) (m : Nat) (o : TurnOrder) :
    s.movesTables (u.takeMark m o) := by
  unfold State.takeMark
  split
  · split
    · exact .stay h
    · exact .stay h
  · exact frameTurn_movesTables h _ o

/-- A packet passed on moves the tables as the block that takes it does. -/
theorem pass_movesTables (s : State) (port : Port) (p : Packet) (ready : Bool) {taken : State → State}
    (ht : ∀ u : State, u.tables = s.tables → s.movesTables (taken u)) : s.movesTables (s.pass port p ready taken) := by
  cases hfull : s.link.full port with
  | true =>
    rw [pass_full hfull]
    exact .stay rfl
  | false =>
    rw [pass_room hfull]
    exact ht _ rfl

theorem arrive_movesTables (s : State) (port : Port) (p : Packet) (o : TurnOrder) : s.movesTables (s.arrive port p o) := by
  unfold State.arrive
  cases classify port p with
  | malformedDrop | misdirected => exact .stay rfl
  | command => exact .stay (by simp)
  | tempConsumed => exact .stay (by simp)
  | readyConsumed => exact .stay (by simp)
  | mark => exact pass_movesTables s port p true fun u hu => takeMark_movesTables hu _ o
  | malformedPass => exact pass_movesTables s port p true fun u hu => .stay hu
  | order => exact pass_movesTables s port p false fun u hu => .stay hu
  | pass => exact pass_movesTables s port p true fun u hu => .stay hu
  | tempPassed | supplyPassed | tripPassed => exact pass_movesTables s port p true fun u hu => .stay (by simpa using hu)

theorem timerStep_movesTables (s : State) (o : TurnOrder) : s.movesTables (s.timerStep o) := by
  unfold State.timerStep
  split
  · exact frameTurn_movesTables rfl .timer o
  · exact .stay rfl

theorem tickWhen_movesTables (s : State) (k : Clock) (happens : State → State → Bool) :
    s.movesTables (s.tickWhen k happens) := by
  unfold State.tickWhen
  split
  · cases k with
    | grain => exact .stay (by simp [State.tick])
    | timer o => exact timerStep_movesTables s o
    | mark p o => exact arrive_movesTables s .modem p o
  · exact .stay rfl

/-- R135: the words are written where none of the grounds to refuse holds. -/
theorem writeTable_movesTables (s : State) (p : Packet) : s.movesTables (s.writeTable p) := by
  unfold State.writeTable
  dsimp only
  split
  · exact .stay (by simp)
  · rename_i b _
    split
    · exact .stay (by simp)
    · rename_i hfits
      split
      · exact .stay (by simp)
      · rename_i hactive
        split
        · exact .stay (by simp)
        · rename_i hpending
          split
          · exact .stay (by simp)
          · rename_i hcopy
            exact .store (.write b _ _ hactive (by simpa using hpending) (by simpa using hcopy) (not_lt.1 hfits))

theorem launch_movesTables (s : State) (p : Packet) : s.movesTables (s.launch p) := by
  unfold State.launch
  split
  · exact .stay (by simp)
  · rename_i b _
    split
    · exact .stay (by simp)
    · rename_i hfree
      split
      · exact .stay (by simp)
      · rename_i hpasses
        exact .store (.launch b (by simpa using hfree) hpasses)

theorem recall_movesTables (s : State) (p : Packet) : s.movesTables (s.recall p) := by
  unfold State.recall
  split
  · rename_i hearly
    exact .store (.cancel hearly)
  · refine .stay ?_
    (repeat' split) <;> simp

theorem startCopy_movesTables (s : State) (p : Packet) : s.movesTables (s.startCopy p) := by
  unfold State.startCopy
  split
  · exact .stay (by simp)
  · rename_i a hactive
    split
    · exact .stay (by simp)
    · rename_i hpending
      split
      · exact .stay (by simp)
      · rename_i hcopy
        exact .store (.startCopy a p.aux hactive (by simpa using hpending) (by simpa using hcopy))

theorem finishCopy_movesTables (s : State) : s.movesTables s.finishCopy := by
  unfold State.finishCopy
  split
  · exact .stay rfl
  · rename_i c hc
    split
    · exact .store (.copyEnd c hc)
    · exact .store (.copyDone c hc)

theorem runSoftReset_movesTables (s : State) (copied : Nat) : s.movesTables (s.runSoftReset copied) := by
  unfold State.runSoftReset
  split
  · split
    · split
      · exact .store (by rw [softReset_tables]; exact .softReset copied)
      · refine .stay ?_
        split <;> simp
    · exact .stay rfl
  · exact .stay rfl

/-- A command executed moves the tables as its effect does; a refusal leaves them. -/
theorem execute_movesTables (s : State) (code : Nat) {eff : State → Packet → State} (he : ∀ p, s.movesTables (eff s p)) :
    s.movesTables (s.execute code eff) := by
  rcases execute_cases s code eff with h | ⟨p, _, _, _, h | h⟩ <;> rw [h]
  · exact .stay rfl
  · exact .stay (by simp)
  · exact he p

theorem execute_leavesTables (s : State) (code : Nat) {eff : State → Packet → State} (he : ∀ p, (eff s p).tables = s.tables) :
    s.movesTables (s.execute code eff) :=
  execute_movesTables s code fun p => .stay (he p)

/-- R134, R142: reading finds a running copy as far as it has come. -/
theorem readTable_movesTables (s : State) (copied : Nat) (p : Packet) :
    s.movesTables (State.readTable { s with tables := s.tables.advance copied } p) :=
  .store (by rw [(readTable_frame _ p).2.2.2.2.2.2.2.2.2.2.1]; exact .advance copied)

theorem effect_movesTables (c : Instr) (s : State) : s.movesTables (effect c s) := by
  cases c with
  | resetNAssert | resetNRelease => exact .stay rfl
  | grainEvent => exact .stay (by simp [effect])
  | awaitingWindowEnd =>
    refine .stay ?_
    show (if s.windowDue then s.grainStep else s).tables = s.tables
    split <;> simp
  | timerFrameTurn o => exact timerStep_movesTables s o
  | bankSwitch k | supplyStale k | tripClear _ k | barExpiry _ k | zoneStale _ k | pollExpiry _ k | boostQuietRelease k
  | boostCooldownEnd k | boostWaitExpiry k => exact tickWhen_movesTables s k _
  | frameMark p o => exact arrive_movesTables s .modem p o
  | tempReport p | supplyReport p | tripReport p | boostReady p => exact arrive_movesTables s .frontEnd p .plain
  | passPacketArrival port p | malformedPacket port p | misdirectedPacket port p => exact arrive_movesTables s port p .plain
  | govCommandArrival p => exact arrive_movesTables s .modem p .plain
  | burst straps | revise straps | amendReceived straps =>
    exact .stay (takeOrder_frame State.tables _ straps _ (fun _ => rfl) (by simp) (by simp) s)
  | withdraw | requestedAmendment _ | commandTake | unknownCommand => exact .stay (by simp [effect])
  | readStatus | readEvents | setMask | readZone | readPath | readSchedule | setCap | clearBar =>
    dsimp only [effect]
    exact execute_leavesTables s _ fun p => by simp
  | readTable copied =>
    dsimp only [effect]
    exact execute_movesTables s _ fun p => readTable_movesTables s copied p
  | writeTable => exact execute_movesTables s _ (writeTable_movesTables s)
  | launch => exact execute_movesTables s _ (launch_movesTables s)
  | recallLaunch => exact execute_movesTables s _ (recall_movesTables s)
  | copy => exact execute_movesTables s _ (startCopy_movesTables s)
  | copyComplete => exact finishCopy_movesTables s
  | softReset copied => exact runSoftReset_movesTables s copied
  | downstreamGrant _ => exact .stay rfl
  | upstreamGrant hold => cases hold <;> exact .stay (by simp [effect])

/-- Every command but hardware reset, whether RESET_N is high or low. -/
theorem exec_movesTables {c : Instr} {s t : State} (ha : c ≠ .resetNAssert) (hr : c ≠ .resetNRelease) (h : exec c s = .next t) :
    s.movesTables t := by
  rcases exec_cases h with rfl | ⟨hreset, _⟩ | ⟨_, _, _, rfl⟩
  · exact .stay rfl
  · exact absurd hreset (not_or.2 ⟨ha, hr⟩)
  · exact effect_movesTables c s

/-! ### The governing banks along a command -/

theorem State.movesTables.governing_bank {s t : State} (h : s.movesTables t) (hs : s.tables.sound) {b : BankId}
    (hb : s.tables.active = some b ∨ s.tables.pending.map Prod.fst = some b) : t.tables.bank b = s.tables.bank b := by
  cases h with
  | stay tables => rw [tables]
  | store change => exact change.governing_bank hs hb
  | turn tables _ => rw [tables, turned_bank]

theorem State.movesTables.activates {s t : State} (h : s.movesTables t) (hs : s.tables.sound) {b : BankId}
    (hb : t.tables.active = some b) (hne : s.tables.active ≠ some b) :
    s.tables.pending = some (b, 1) ∧ t.timer.grain = 0 ∧ t.tables.launch = .switched := by
  cases h with
  | stay tables => exact absurd (tables ▸ hb) hne
  | store change => exact absurd (change.active ▸ hb) hne
  | turn tables grain =>
    rw [tables] at hb ⊢
    obtain ⟨hpending, hlaunch⟩ := turned_switches hs hb hne
    exact ⟨hpending, grain, hlaunch⟩

/-- R130: only a frame turn changes a bank in force, and the frame it begins has the bank that was in force for it. -/
theorem State.movesTables.inForce {s t : State} (h : s.movesTables t) (hs : s.tables.sound) :
    (t.tables.inForce .current = s.tables.inForce .current ∧ t.tables.inForce .next = s.tables.inForce .next) ∨
      (t.timer.grain = 0 ∧ t.tables.inForce .current = s.tables.inForce .next) := by
  cases h with
  | stay tables => exact Or.inl (by rw [tables]; exact ⟨rfl, rfl⟩)
  | store change => exact Or.inl ⟨change.inForce hs .current, change.inForce hs .next⟩
  | turn tables grain => exact Or.inr ⟨grain, by rw [tables]; exact turned_inForce hs⟩

/-- R133, R136: a bank that awaits its switch has passed validation. -/
theorem pending_valid {t : Tables} (hs : t.sound) {b : BankId} {n : Nat} (h : t.pending = some (b, n)) : (t.bank b).valid := by
  obtain ⟨_, _, hvalid, _, hpending, _⟩ := hs
  exact hvalid b (hpending b n h).1

theorem inForce_next_due {t : Tables} {b : BankId} (h : t.pending = some (b, 1)) : t.inForce .next = some (t.bank b) := by
  simp [Tables.inForce, h]

theorem inForce_next_stays {t : Tables} (h : ∀ b, t.pending ≠ some (b, 1)) : t.inForce .next = t.active.map t.bank := by
  unfold Tables.inForce
  dsimp only
  split
  · rename_i b hb
    exact absurd hb (h b)
  · rfl

/-- Settles O52: `exec_movesTables`, and what each kind of move makes of the governing banks; hardware reset leaves no bank
active. -/
theorem governingBanksAreValidAndNotWritten : Obligations.GoverningBanksAreValidAndNotWritten := by
  refine ⟨fun c s t hs ha hr h b hb => (exec_movesTables ha hr h).governing_bank hs hb, fun c s t b hs h hb hne => ?_,
    fun t => ⟨rfl, fun b => inForce_next_due, inForce_next_stays⟩,
    fun c s t hs ha hr h => (exec_movesTables ha hr h).inForce hs⟩
  have hmoves : s.movesTables t := by
    rcases exec_cases h with rfl | ⟨_, level, rfl⟩ | ⟨_, _, _, rfl⟩
    · exact .stay rfl
    · cases hb
    · exact effect_movesTables c s
  obtain ⟨hpending, hgrain, hlaunch⟩ := hmoves.activates hs hb hne
  exact ⟨hpending, pending_valid hs hpending, hgrain, hlaunch⟩

/-! ### The invariant -/

/-- A step that neither enters nor leaves UNSET and leaves the active bank. -/
theorem State.modeFollowsBank.leave {s t : State} (h : s.modeFollowsBank)
    (mode : t.timer.mode = .unset ↔ s.timer.mode = .unset := by simp)
    (active : t.tables.active = s.tables.active := by simp) : t.modeFollowsBank := by
  unfold State.modeFollowsBank
  rw [mode, active]
  exact h

/-- R117, R138: the first switch alone ends UNSET, at the turn that makes a bank active. -/
theorem modeFollowsBank_kept : Kept State.modeFollowsBank where
  grain := fun s h => h.leave (grainStep_unset s)
  turn := fun s turn o _ h => by
    unfold State.modeFollowsBank
    rw [frameTurn_unset, frameTurn_tables]
    exact modeBegun_unset h
  confirm := fun s m _ h => h.leave (confirm_unset s m)
  events := fun s e h => h.leave
  enter := fun s port p ready _ h => h.leave
  queueCommand := fun s p h => h.leave
  takeTemp := fun s z t h => h.leave
  takeReady := fun s h => h.leave
  takeSupply := fun s mv h => h.leave
  takeTrip := fun s p h => h.leave
  pins := fun s pins h => h.leave
  takeBurst := fun s p straps h => h.leave
  takeRevise := fun s p straps h => h.leave
  takeWithdraw := fun s p h => h.leave
  finishOrder := fun s f _ h => h.leave
  makeRequested := fun s k h => h.leave
  takeCommand := fun s h => h.leave
  answer := fun s p w _ h => h.leave
  advance := fun s n h => h.leave Iff.rfl (TableStep.advance n).active
  setCap := fun s i c _ h => h.leave
  barEnd := fun s i _ h => h.leave
  writeTable := fun s b a ws h active pending copy fits => h.leave Iff.rfl (TableStep.write b a ws active pending copy fits).active
  launch := fun s b h free passes => h.leave Iff.rfl (TableStep.launch b free passes).active
  cancel := fun s h early => h.leave Iff.rfl (TableStep.cancel early).active
  startCopy := fun s a tag h active pending copy => h.leave Iff.rfl (TableStep.startCopy a tag active pending copy).active
  finishCopy := fun s h => h.leave (by simp) (finishCopy_active s)
  softReset := fun s n p h => h.leave (by simp) (by rw [softReset_tables]; exact Tables.softReset_active _ n)
  grantDown := fun s h => h.leave
  grantUp := fun s c h => h.leave
  update := fun s z _ h => h.leave

/-- Settles O55: `soundTables_kept` and `modeFollowsBank_kept`; the reset values meet both. -/
theorem everyStepKeepsTheTablesSound : Obligations.EveryStepKeepsTheTablesSound := by
  intro s t htables hmode hstep
  exact ⟨soundTables_kept.step reset_carried.tables htables hstep,
    modeFollowsBank_kept.step (fun s level => (atReset_calm s level).mode) (fun s q h => h.leave) hmode hstep⟩

end Sys2Proof.Machine
end

section
/-! PROOFS. A pending switch at a frame turn (R117, R130, R137, R138): the count, the bank made active, the mode at the first
switch. -/

namespace Sys2Proof.Machine

/-! ### The names the statements use -/

theorem firstSwitch_iff (t : Tables) :
    t.firstSwitch = true ↔ t.active = none ∧ ∃ b n, t.pending = some (b, n) ∧ n ≤ 1 := by
  unfold Tables.firstSwitch
  rw [Bool.and_eq_true, switches_iff, Option.isNone_iff_eq_none, and_comm]

/-- R130, R138: the frame a switch begins has the bank switched in. -/
theorem bankBegun_due {s : State} {b : BankId} {n : Nat} (h : s.tables.pending = some (b, n)) (hn : n ≤ 1) :
    s.bankBegun = s.tables.bank b := by
  have hactive : s.tables.turned.active = some b := by rw [turned_due h hn]
  simp [State.bankBegun, Tables.inForce, hactive, turned_bank]

/-- R130: a frame begun without a switch has the active bank. -/
theorem bankBegun_active {s : State} (h : ∀ b n, s.tables.pending = some (b, n) → 1 < n) {a : BankId}
    (ha : s.tables.active = some a) : s.bankBegun = s.tables.bank a := by
  have hactive : s.tables.turned.active = some a := (turned_active h).trans ha
  simp [State.bankBegun, Tables.inForce, hactive, turned_bank]

/-! ### The turn -/

/-- R117: the first switch ends UNSET, for SAFE where the missed count has reached the holdover limit of the bank switched in. -/
theorem timerBegun_first {s : State} (h : s.tables.firstSwitch = true) (turn : Turn) : (s.timerBegun turn).mode =
    if s.bankBegun.limits.holdoverLimit ≤ (s.timerBegun turn).missed then .safe else .governing := by
  have hmode := modeBegun_first h
  have hsafe : s.entersSafe turn = true ↔ s.bankBegun.limits.holdoverLimit ≤ (s.timer.turned turn).missed := by
    rw [entersSafe_limit]
    simp [h, hmode]
  rw [timerBegun_eq, timerTurned_eq]
  simp [hsafe, hmode]

/-- R138: what a switch makes of the tables and the events, at the turn of whatever indication. -/
theorem indication_switches {s : State} {b : BankId} (h : s.tables.pending = some (b, 1)) (k : Clock) (turn : Turn)
    (o : TurnOrder) :
    let t := (s.beforeTurn k).frameTurn turn o
    t.tables = { s.tables with active := some b, pending := none, launch := .switched } ∧ t.events.has .launched = true := by
  have htables : (s.beforeTurn k).tables = s.tables := by simp only [beforeTurn_frame]
  refine ⟨?_, (frameTurn_sets _ turn o).2.1 ?_⟩
  · rw [frameTurn_tables, htables, turned_due h le_rfl]
  · rw [htables]
    exact (switches_iff _).2 ⟨b, 1, h, le_rfl⟩

/-- Settles O22: the tables by `turned_waits` and `indication_switches`, the mode by `timerBegun_first`. -/
theorem pendingSwitchCountsDownAndSwitches : Obligations.PendingSwitchCountsDownAndSwitches := by
  refine ⟨fun s => ⟨firstSwitch_iff s.tables, rfl, fun b n => bankBegun_due, fun h a => bankBegun_active h⟩, ?_⟩
  intro s k turn o b hr hk
  refine ⟨fun h => ⟨_, exec_of_turn hr hk, ?_⟩, fun h => ?_⟩
  · rw [frameTurn_tables]
    simp only [beforeTurn_frame]
    exact turned_waits h (by decide)
  · obtain ⟨htables, hflag⟩ := indication_switches h k turn o
    have hswitched : switched s ((s.beforeTurn k).frameTurn turn o) = true := by
      simp [switched, (switches_iff _).2 ⟨b, 1, h, le_rfl⟩, htables]
    refine ⟨_, live_tickWhen_of_turn hr hk hswitched, exec_of_turn hr hk, htables, hflag, fun hnone => ?_⟩
    have hfirst := (firstSwitch_iff s.tables).2 ⟨hnone, b, 1, h, le_rfl⟩
    rw [indication_timer, ← bankBegun_due h le_rfl]
    exact timerBegun_first hfirst turn

end Sys2Proof.Machine
end

section
/-! PROOFS. READ-TABLE, WRITE-TABLE and COPY (R134, R135, R141 to R143, R168): the words a bank is read and written by, and the
image a copy makes. -/

namespace Sys2Proof.Machine

theorem bankOf_iff {n : Nat} {b : BankId} : bankOf? n = some b ↔ n = b.number := by
  refine ⟨fun h => ?_, fun h => h ▸ bankOf_number b⟩
  unfold bankOf? at h
  split at h
  · cases h; assumption
  · split at h
    · cases h; assumption
    · cases h

theorem number_lt (b : BankId) : b.number < 2 := by cases b <;> decide

theorem exists_bank {n : Nat} (h : n < 2) : ∃ b : BankId, n = b.number := by
  rcases (by omega : n = 0 ∨ n = 1) with rfl | rfl
  · exact ⟨.bank0, rfl⟩
  · exact ⟨.bank1, rfl⟩

/-! ### READ-TABLE (R134, R142) -/

theorem advance_none {t : Tables} (h : t.copy = none) (copied : Nat) : t.advance copied = t := by
  simp [Tables.advance, h]

/-- R142: a running copy seen when it has copied some words. Only its destination has changed, below the progress. -/
theorem advance_copying {t : Tables} {c : CopyRun} (h : t.copy = some c) (copied : Nat) :
    (t.advance copied).bank c.source = t.bank c.source ∧
      ∃ n, c.progress ≤ n ∧ (n = c.progress ∨ n ≤ copied) ∧ (t.advance copied).copy = some { c with progress := n } ∧
        ∀ a, ((t.advance copied).bank c.dest).read a = if a < n then (t.bank c.source).read a else (t.bank c.dest).read a := by
  let n := max c.progress (min copied (bankSize - 1))
  have hbank : ∀ b, (t.advance copied).bank b = (t.setBank c.dest ((t.bank c.source).splice (t.bank c.dest) n)).bank b := by
    intro b
    unfold Tables.advance
    rw [h]
    cases b <;> rfl
  refine ⟨?_, n, le_max_left _ _, by omega, by simp [Tables.advance, h, n], fun a => ?_⟩
  · rw [hbank]
    exact Tables.bank_setBank_other t _ (BankId.other_ne c.dest)
  · rw [hbank, Tables.bank_setBank_self, Bank.read_splice]

theorem readMany_spec (b : Bank) (a n : Nat) :
    (b.readMany a n).length = n ∧ ∀ i, i < n → (b.readMany a n)[i]? = some (b.read (a + i)) := by
  refine ⟨by simp [Bank.readMany], fun i hi => ?_⟩
  simp [Bank.readMany, hi]

theorem readTable_done {s : State} {p : Packet} {b : BankId} (hp : p.parameter = b.number)
    (h : 1 ≤ (p.word 2).toNat ∧ (p.word 2).toNat ≤ 12 ∧ (p.word 1).toNat + (p.word 2).toNat ≤ 4096) :
    s.readTable p = s.answer p ((s.tables.bank b).readMany (p.word 1).toNat (p.word 2).toNat) := by
  unfold State.readTable
  rw [hp, bankOf_number]
  exact if_pos h

theorem readTable_range {s : State} {p : Packet}
    (h : 2 ≤ p.parameter ∨ (p.word 2).toNat = 0 ∨ 12 < (p.word 2).toNat ∨ 4096 < (p.word 1).toNat + (p.word 2).toNat) :
    s.readTable p = s.refuse p Status.range := by
  unfold State.readTable
  split
  · rfl
  · rename_i b hb
    have hnumber : p.parameter < 2 := (bankOf_iff.1 hb).trans_lt (number_lt b)
    exact if_neg fun hin => by
      simp only [bankSize] at hin
      omega

/-- R168: the words of a READ-TABLE refused, as many as it asked for where that is 1. -/
theorem readTable_refusal {p : Packet} (hc : p.commandCode = 0x10) :
    refusalWords p Status.range = if (p.word 2).toNat = 1 then [0x1004, 0x1004] else [0x1004] := by
  have hone : p.word 2 = 1 ↔ (p.word 2).toNat = 1 := BitVec.toNat_inj.symm
  have hcode : p.commandCode = Code.readTable := hc
  have hword : statusWord Code.readTable Status.range = 0x1004 := by decide
  unfold refusalWords
  dsimp only
  rw [hcode, hword]
  exact if_congr ((and_iff_right rfl).trans hone) rfl rfl

/-- R134: whatever a READ-TABLE asks for, it is answered and changes nothing else. -/
theorem readTable_answers (s : State) {p : Packet} (hc : p.commandCode = 0x10) :
    ∃ words, s.readTable p = s.answer p words ∧
      (∀ b : BankId, p.parameter = b.number → 1 ≤ (p.word 2).toNat → (p.word 2).toNat ≤ 12 →
        (p.word 1).toNat + (p.word 2).toNat ≤ 4096 →
        words = (s.tables.bank b).readMany (p.word 1).toNat (p.word 2).toNat) ∧
      (2 ≤ p.parameter ∨ (p.word 2).toNat = 0 ∨ 12 < (p.word 2).toNat ∨ 4096 < (p.word 1).toNat + (p.word 2).toNat →
        words = if (p.word 2).toNat = 1 then [0x1004, 0x1004] else [0x1004]) := by
  by_cases hrange : 2 ≤ p.parameter ∨ (p.word 2).toNat = 0 ∨ 12 < (p.word 2).toNat ∨
      4096 < (p.word 1).toNat + (p.word 2).toNat
  · refine ⟨_, readTable_range hrange, fun b hp h1 h2 h3 => ?_, fun _ => readTable_refusal hc⟩
    have hnumber : p.parameter < 2 := hp.trans_lt (number_lt b)
    omega
  · obtain ⟨b, hb⟩ := exists_bank (n := p.parameter) (by omega)
    refine ⟨_, readTable_done hb (by omega), fun c hp _ _ _ => ?_, fun h => absurd h hrange⟩
    obtain rfl : b = c := Option.some.inj ((bankOf_iff.2 hb).symm.trans (bankOf_iff.2 hp))
    rfl

/-- Settles O43: the tables by `advance_copying`, the words by `readTable_answers`. -/
theorem readTableReturnsTheWords : Obligations.ReadTableReturnsTheWords := by
  refine ⟨⟨rfl, rfl, rfl, rfl, fun c => rfl, fun t => ⟨rfl, rfl, rfl, rfl⟩⟩, ?_⟩
  intro s p copied hr hc hl hw hcode hlen offset count
  have hexec : exec (.readTable copied) s = .next (State.readTable { s with tables := s.tables.advance copied } p) :=
    exec_command (eff := fun s p => State.readTable { s with tables := s.tables.advance copied } p) hr hc hl hw rfl hcode rfl
      (le_of_eq hlen.symm) (le_of_eq hlen)
  obtain ⟨words, hanswer, hdone, hrange⟩ := readTable_answers { s with tables := s.tables.advance copied } hcode
  rw [hanswer] at hexec
  refine ⟨_, words, hexec, rfl, fun hnone => advance_none hnone copied, fun c hcopy => advance_copying hcopy copied,
    fun b hp h1 h2 h3 => ?_, hrange⟩
  rw [hdone b hp h1 h2 h3]
  exact readMany_spec _ offset count

/-! ### WRITE-TABLE (R135) -/

theorem isPending_iff (t : Tables) (b : BankId) : t.isPending b = true ↔ t.pending.map Prod.fst = some b := by
  simp [Tables.isPending]

theorem writeTable_range {s : State} {p : Packet} (hc : p.commandCode = 0x11)
    (h : 2 ≤ p.parameter ∨ 4096 < (p.word 1).toNat + (p.payload.length - 2)) :
    s.writeTable p = s.answerStatus p Status.range := by
  rw [← refuse_eq (by rw [hc]; decide)]
  unfold State.writeTable
  dsimp only
  split
  · rfl
  · rename_i b hb
    have hnumber : p.parameter < 2 := (bankOf_iff.1 hb).trans_lt (number_lt b)
    exact if_pos (by simp only [bankSize, List.length_drop]; omega)

/-- The grounds to refuse a WRITE-TABLE whose words fit, in their order. -/
theorem writeTable_fits {s : State} {p : Packet} {b : BankId} (hp : p.parameter = b.number)
    (h : (p.word 1).toNat + (p.payload.length - 2) ≤ 4096) :
    s.writeTable p =
      if s.tables.active = some b then (s.answerStatus p Status.discarded).raise .writeDiscard
      else if s.tables.pending.map Prod.fst = some b then s.answerStatus p Status.pending
      else if s.tables.copy ≠ none then s.answerStatus p Status.busy
      else { s.answerStatus p Status.done with
        tables := (s.tables.setBank b ((s.tables.bank b).writeAll (p.word 1).toNat (p.payload.drop 2))).setMark b false } := by
  unfold State.writeTable
  rw [hp, bankOf_number]
  dsimp only
  rw [if_neg (by simp only [bankSize, List.length_drop]; omega)]
  simp only [isPending_iff, Option.isSome_iff_ne_none]

/-- The word at place `i` of those a WRITE-TABLE carries. -/
theorem word_of_drop (p : Packet) (i : Nat) : (p.payload.drop 2).getD i 0 = p.word (i + 2) := by
  simp [Packet.word, List.getD_eq_getElem?_getD, Nat.add_comm]

/-- R135: a write changes the words of its span in one bank and clears that bank's mark. -/
theorem write_spec (t : Tables) (b : BankId) (m : Bank) :
    let u := (t.setBank b m).setMark b false
    u.bank b = m ∧ u.mark b = false ∧ u.bank b.other = t.bank b.other ∧ u.mark b.other = t.mark b.other ∧
      u.active = t.active ∧ u.pending = t.pending ∧ u.launch = t.launch ∧ u.copy = t.copy := by
  cases b <;> exact ⟨rfl, rfl, rfl, rfl, rfl, rfl, rfl, rfl⟩

/-- Settles O44: each ground of R135 by `writeTable_range` and `writeTable_fits`, the write by `write_spec` and
`Bank.read_writeAll`. -/
theorem writeTableWritesWholeOrNotAtAll : Obligations.WriteTableWritesWholeOrNotAtAll := by
  intro s p hr hc hl hw hcode hlo hhi offset n answer
  have hstatus : ∀ status, s.answerStatus p status = answer (statusWord p.commandCode status) := fun _ => rfl
  have hexec : exec .writeTable s = .next (s.writeTable p) := exec_command hr hc hl hw rfl hcode rfl hlo hhi
  rw [hexec]
  refine ⟨fun h => ?_, fun b hp hfits => ?_⟩
  · rw [writeTable_range hcode h, hstatus, hcode]; rfl
  · rw [writeTable_fits hp hfits]
    refine ⟨fun hactive => ?_, fun hactive => ⟨fun hpending => ?_, fun hpending => ⟨fun hcopy => ?_, fun hcopy hwf => ?_⟩⟩⟩
    · rw [if_pos hactive, hstatus, hcode]; rfl
    · rw [if_neg hactive, if_pos hpending, hstatus, hcode]; rfl
    · rw [if_neg hactive, if_neg hpending, if_pos hcopy, hstatus, hcode]; rfl
    · rw [if_neg hactive, if_neg hpending, if_neg (not_not.2 hcopy), hstatus, hcode]
      obtain ⟨hbank, hmark, hother, hothermark, hkept, hswitch, hlaunch, hrun⟩ :=
        write_spec s.tables b ((s.tables.bank b).writeAll offset (p.payload.drop 2))
      refine ⟨_, rfl, rfl, fun a => ?_, hmark, hother, hothermark, hkept, hswitch, hlaunch, hrun.trans hcopy⟩
      have hlength : (p.payload.drop 2).length = n := List.length_drop
      rw [hbank, Bank.read_writeAll hwf (hlength ▸ hfits), word_of_drop, hlength]

/-! ### COPY (R141) and its completion (R143) -/

theorem startCopy_noBank {s : State} (h : s.tables.active = none) (p : Packet) :
    s.startCopy p = s.answerStatus p Status.noBank := by
  unfold State.startCopy
  rw [h]

/-- The grounds to refuse a COPY of the active bank, in their order. -/
theorem startCopy_active {s : State} {a : BankId} (h : s.tables.active = some a) (p : Packet) :
    s.startCopy p =
      if s.tables.pending ≠ none then s.answerStatus p Status.pending
      else if s.tables.copy ≠ none then s.answerStatus p Status.busy
      else { s with tables := s.tables.startCopy a p.aux, engine := { s.engine with current := none } } := by
  unfold State.startCopy
  rw [h]
  simp only [Option.isSome_iff_ne_none]

/-- R141: a copy started has copied nothing; its destination has lost its mark. -/
theorem copyStarted_spec (t : Tables) (a : BankId) (tag : Nat) :
    let u := t.startCopy a tag
    u.copy = some ⟨a.other, 0, tag⟩ ∧ u.mark a.other = false ∧ u.mark a = t.mark a ∧ u.bank0 = t.bank0 ∧ u.bank1 = t.bank1 ∧
      u.active = t.active ∧ u.pending = t.pending := by
  cases a <;> exact ⟨rfl, rfl, rfl, rfl, rfl, rfl, rfl⟩

/-- R143: with its last word copied the destination is the source's image; the copy waits for its reply's place. -/
theorem copyDone_spec (t : Tables) (c : CopyRun) :
    let u := t.copyDone c
    u.bank c.dest = t.bank c.source ∧ u.bank c.source = t.bank c.source ∧ u.mark c.source = t.mark c.source ∧
      u.active = t.active ∧ u.pending = t.pending ∧ u.mark c.dest = t.mark c.dest ∧
      u.copy = some { c with progress := 4096 } := by
  obtain ⟨dest, progress, tag⟩ := c
  cases dest <;> exact ⟨rfl, rfl, rfl, rfl, rfl, rfl, rfl⟩

/-- R143: a copy that completes leaves the image marked. -/
theorem copyEnd_spec (t : Tables) (c : CopyRun) :
    let u := t.copyEnd c
    u.bank c.dest = t.bank c.source ∧ u.bank c.source = t.bank c.source ∧ u.mark c.source = t.mark c.source ∧
      u.active = t.active ∧ u.pending = t.pending ∧ u.copy = none ∧ u.mark c.dest = true := by
  obtain ⟨dest, progress, tag⟩ := c
  cases dest <;> exact ⟨rfl, rfl, rfl, rfl, rfl, rfl, rfl⟩

theorem finishCopy_room {s : State} {c : CopyRun} (h : s.tables.copy = some c) (hl : s.engine.replies.length < 8) :
    s.finishCopy = { s with
      tables := s.tables.copyEnd c
      engine := { s.engine with replies := s.engine.replies ++ [⟨0, 14, c.tag, [0x1400]⟩] } } := by
  unfold State.finishCopy
  rw [h]
  exact if_pos hl

theorem finishCopy_full {s : State} {c : CopyRun} (h : s.tables.copy = some c) (hl : 8 ≤ s.engine.replies.length) :
    s.finishCopy = { s with tables := s.tables.copyDone c } := by
  unfold State.finishCopy
  rw [h]
  exact if_neg (not_lt.2 hl)

/-- Settles O46: the start by `startCopy_active` and `copyStarted_spec`, the completion by `copyEnd_spec` and `copyDone_spec`. -/
theorem copyImagesTheActiveBank : Obligations.CopyImagesTheActiveBank := by
  refine ⟨?_, fun s c hr hcopy => ?_⟩
  · intro s p hr hc hl hw hcode hlen answer
    have hstatus : ∀ status, s.answerStatus p status = answer (statusWord p.commandCode status) := fun _ => rfl
    have hexec : exec .copy s = .next (s.startCopy p) :=
      exec_command hr hc hl hw rfl hcode rfl (le_of_eq hlen.symm) (le_of_eq hlen)
    rw [hexec]
    refine ⟨fun hnone => ?_, fun a ha => ?_⟩
    · rw [startCopy_noBank hnone, hstatus, hcode]; rfl
    · rw [startCopy_active ha]
      refine ⟨fun hpending => ?_, fun hpending => ⟨fun hcopy => ?_, fun hcopy => ?_⟩⟩
      · rw [if_pos hpending, hstatus, hcode]; rfl
      · rw [if_neg (not_not.2 hpending), if_pos hcopy, hstatus, hcode]; rfl
      · rw [if_neg (not_not.2 hpending), if_neg (not_not.2 hcopy)]
        obtain ⟨hrun, hdest, hsource, hbank0, hbank1, hactive, hswitch⟩ := copyStarted_spec s.tables a p.aux
        exact ⟨_, rfl, rfl, hrun, hdest, hsource, hbank0, hbank1, hactive.trans ha, hswitch.trans hpending⟩
  · have hexec : exec .copyComplete s = .next s.finishCopy := live_high hr State.finishCopy
    refine ⟨_, hexec, ?_⟩
    rcases Nat.lt_or_ge s.engine.replies.length 8 with hroom | hfull
    · obtain ⟨hdest, hsource, hmark, hactive, hpending, hrun, hmarked⟩ := copyEnd_spec s.tables c
      rw [finishCopy_room hcopy hroom]
      exact ⟨rfl, hdest, hsource, hmark, hactive, hpending, fun _ => ⟨hrun, hmarked, rfl⟩,
        fun h => absurd hroom (not_lt.2 h)⟩
    · obtain ⟨hdest, hsource, hmark, hactive, hpending, hunmarked, hrun⟩ := copyDone_spec s.tables c
      rw [finishCopy_full hcopy hfull]
      exact ⟨rfl, hdest, hsource, hmark, hactive, hpending, fun h => absurd h (not_lt.2 hfull),
        fun _ => ⟨rfl, hunmarked, hrun⟩⟩

end Sys2Proof.Machine
end

section
/-! PROOFS. Packets: where the fields of a header and of an order lie, an order rewritten in its place, a packet of the
governor's own (R20, R152, R153, R157, section 8.7). -/

namespace Sys2Proof.Machine

/-! ### Fields of a word (section 8.7) -/

/-- A field that ends at bit 15 is all of the word above its lowest bit. -/
theorem wordBits_top (w : Word) {lo : Nat} (h : lo ≤ 16) : wordBits w 15 lo = w.toNat / 2 ^ lo := by
  refine Nat.mod_eq_of_lt (Nat.div_lt_of_lt_mul ?_)
  rw [← pow_add, show lo + (15 + 1 - lo) = 16 by omega]
  exact w.isLt

/-- A field that begins at bit 0 is the word's rest. -/
theorem wordBits_bottom (w : Word) (hi : Nat) : wordBits w hi 0 = w.toNat % 2 ^ (hi + 1) := by
  rw [wordBits, pow_zero, Nat.div_one, Nat.sub_zero]

theorem header_fields (p : Packet) : p.unit = wordBits p.header 15 12 ∧ p.kind = wordBits p.header 11 8 ∧
    p.lengthField = wordBits p.header 7 4 ∧ p.aux = wordBits p.header 3 0 :=
  ⟨(wordBits_top p.header (lo := 12) (by decide)).symm, rfl, rfl, (wordBits_bottom p.header 3).symm⟩

theorem orderWord_fields (p : Packet) : p.orderTag = wordBits (p.word 0) 15 8 ∧
    p.orderPath.val = wordBits (p.word 0) 7 6 ∧ p.orderClass = wordBits (p.word 0) 5 4 :=
  ⟨(wordBits_top (p.word 0) (lo := 8) (by decide)).symm, rfl, rfl⟩

theorem bandWord_fields (p : Packet) : p.orderBand = wordBits (p.word 1) 15 11 ∧
    p.orderMod = wordBits (p.word 1) 10 8 ∧ p.orderFrame = wordBits (p.word 1) 7 0 :=
  ⟨(wordBits_top (p.word 1) (lo := 11) (by decide)).symm, rfl, (wordBits_bottom (p.word 1) 7).symm⟩

theorem spanWord_fields (p : Packet) :
    p.orderStart = wordBits (p.word 2) 15 8 ∧ p.orderLength = wordBits (p.word 2) 7 0 :=
  ⟨(wordBits_top (p.word 2) (lo := 8) (by decide)).symm, (wordBits_bottom (p.word 2) 7).symm⟩

/-! ### A power field rewritten (R153) -/

/-- The sum of a payload follows the one word that is set. -/
theorem foldr_add_set (ws : List Word) {i : Nat} (h : i < ws.length) (w : Word) :
    (ws.set i w).foldr (· + ·) 0 = ws.foldr (· + ·) 0 - ws.getD i 0 + w := by
  have hset := List.sum_set' ws i w
  rw [dif_pos h] at hset
  rw [List.getD_eq_getElem _ _ h]
  show (ws.set i w).sum = ws.sum - ws[i] + w
  rw [hset]
  ring

theorem setPower_sum {p : Packet} (h : p.powerIndex < p.payload.length) (code : Int) : (p.setPower code).sum = p.sum := by
  show p.header + (p.payload.set p.powerIndex (codeWord code)).foldr (· + ·) 0 +
    (p.check + p.payload.getD p.powerIndex 0 - codeWord code) = p.header + p.payload.foldr (· + ·) 0 + p.check
  rw [foldr_add_set _ h]
  ring

theorem setPower_word_power {p : Packet} (h : p.powerIndex < p.payload.length) (code : Int) :
    (p.setPower code).word p.powerIndex = codeWord code := by
  simp [Packet.word, Packet.setPower, h]

theorem setPower_word_other (p : Packet) (code : Int) {i : Nat} (h : i ≠ p.powerIndex) :
    (p.setPower code).word i = p.word i := by
  simp only [Packet.word, Packet.setPower, List.getD_eq_getElem?_getD, List.getElem?_set_ne h.symm]

/-- The code that arrived leaves the packet as it is. -/
theorem setPower_power {p : Packet} (h : p.powerIndex < p.payload.length) : p.setPower p.power = p := by
  have hcode : codeWord p.power = p.word p.powerIndex := BitVec.ofInt_toInt
  have hword : p.word p.powerIndex = p.payload[p.powerIndex] := List.getD_eq_getElem _ _ h
  have hpayload : p.payload.set p.powerIndex (p.word p.powerIndex) = p.payload := by
    rw [hword, List.set_getElem_self]
  rw [Packet.setPower, hcode, hpayload, add_sub_cancel_right]

/-! ### A packet of the governor's own (R157) -/

theorem header_toNat {d : Draft} (hu : d.unit < 16) (hk : d.kind < 16) (ha : d.aux < 16) (hl : d.payload.length < 16) :
    d.header.toNat = d.unit * 4096 + d.kind * 256 + d.payload.length * 16 + d.aux :=
  Nat.mod_eq_of_lt (by omega)

theorem seal_sum (d : Draft) : d.seal.sum = 0 := add_neg_cancel _

theorem seal_fields {d : Draft} (hu : d.unit < 16) (hk : d.kind < 16) (ha : d.aux < 16) (hl : d.payload.length < 16) :
    d.seal.unit = d.unit ∧ d.seal.kind = d.kind ∧ d.seal.aux = d.aux ∧ d.seal.lengthField = d.payload.length := by
  have hheader := header_toNat hu hk ha hl
  simp only [Packet.unit, Packet.kind, Packet.aux, Packet.lengthField, Draft.seal, hheader]
  omega

/-! ### An order in its place of the Pass Buffer (R20, R152) -/

/-- A buffer's packets are all ready, or one of them is the first that is not. -/
theorem ready_or_first (l : List PassEntry) : (∀ x ∈ l, x.ready = true) ∨
    ∃ before e after, l = before ++ e :: after ∧ (∀ x ∈ before, x.ready = true) ∧ e.ready = false := by
  cases h : l.find? fun e => !e.ready with
  | none => exact Or.inl (by simpa using h)
  | some e =>
    obtain ⟨he, before, after, hl, hb⟩ := List.find?_eq_some_iff_append.1 h
    exact Or.inr ⟨before, e, after, hl, by simpa using hb, by simpa using he⟩

theorem finishFirst_ready {l : List PassEntry} (h : ∀ x ∈ l, x.ready = true) (f : Packet → Packet) :
    finishFirst f l = l := by
  induction l with
  | nil => rfl
  | cons x rest ih =>
    rw [finishFirst, if_pos (h x List.mem_cons_self), ih fun y hy => h y (List.mem_cons_of_mem x hy)]

theorem finishFirst_first {before after : List PassEntry} {e : PassEntry} (hb : ∀ x ∈ before, x.ready = true)
    (he : e.ready = false) (f : Packet → Packet) :
    finishFirst f (before ++ e :: after) = before ++ ⟨f e.packet, true⟩ :: after := by
  induction before with
  | nil => rw [List.nil_append, List.nil_append, finishFirst, if_neg (by simp [he])]
  | cons x rest ih =>
    rw [List.cons_append, List.cons_append, finishFirst, if_pos (hb x List.mem_cons_self),
      ih fun y hy => hb y (List.mem_cons_of_mem x hy)]

theorem nextOrder_ready {l : Link} (h : ∀ x ∈ l.down, x.ready = true) : l.nextOrder = none := by
  have hnone : (l.down.find? fun e => !e.ready) = none := by simpa using h
  rw [Link.nextOrder, hnone, Option.map_none]

theorem nextOrder_first {l : Link} {before after : List PassEntry} {e : PassEntry} (hl : l.down = before ++ e :: after)
    (hb : ∀ x ∈ before, x.ready = true) (he : e.ready = false) : l.nextOrder = some e.packet := by
  have hfirst : (l.down.find? fun e => !e.ready) = some e :=
    List.find?_eq_some_iff_append.2 ⟨by simp [he], before, after, hl, by simpa using hb⟩
  rw [Link.nextOrder, hfirst, Option.map_some]

/-- Settles O37: the rewritten word by the `setPower` lemmas, the governor's packets by `seal_sum` and `seal_fields`, the
order's place by `finishFirst_first` and `nextOrder_first`, its fields by `wordBits_top` and `wordBits_bottom`. -/
theorem rewrittenAndOriginatedPacketsSumToZero : Obligations.RewrittenAndOriginatedPacketsSumToZero := by
  refine ⟨fun p code h => ?_, fun d hu hk ha hl => ⟨seal_sum d, rfl, seal_fields hu hk ha hl⟩, fun l f => ?_, fun p => ?_⟩
  · exact ⟨setPower_sum h code, rfl, List.length_set, setPower_word_power h code, fun _ => setPower_word_other p code,
      fun hcode => hcode ▸ setPower_power h⟩
  · refine ⟨fun before e after hl hb he => ?_, fun h => ?_, fun _ _ _ => nextOrder_first, nextOrder_ready⟩
    · rw [Link.finishOrder, hl, finishFirst_first hb he]
    · rw [Link.finishOrder, finishFirst_ready h]
  · exact ⟨fun _ => rfl, orderWord_fields p, bandWord_fields p, spanWord_fields p, fun h => if_pos h, fun h => if_neg h, rfl⟩

end Sys2Proof.Machine
end

section
/-! PROOFS. The two arbiters: what each grant does to its source, and which source is granted (R154, R155, R158, R159). -/

namespace Sys2Proof.Machine

/-! ### The Downstream Arbiter's sources -/

theorem passReady_of_head {l : Link} {e : PassEntry} {rest : List PassEntry} (h : l.down = e :: rest) :
    l.passReady = e.ready := by
  rw [Link.passReady, h]

/-- R152: the pass source is not ready where the buffer is empty or its head has still to be taken. -/
theorem passReady_false {l : Link} (h : l.down = [] ∨ ∃ e es, l.down = e :: es ∧ e.ready = false) :
    l.passReady = false := by
  rcases h with h | ⟨e, es, h, he⟩
  · rw [Link.passReady, h]
  · rw [passReady_of_head h, he]

theorem head_of_passReady {l : Link} (h : l.passReady = true) : ∃ e rest, l.down = e :: rest := by
  cases hdown : l.down with
  | nil =>
    rw [passReady_false (Or.inl hdown)] at h
    cases h
  | cons e rest => exact ⟨e, rest, rfl⟩

theorem grantPass_head {l : Link} {e : PassEntry} {rest : List PassEntry} (h : l.down = e :: rest) :
    l.grantPass = { l with
      down := rest
      downHold := holdAfter rest.length l.downHold
      run := 0
      feOut := some e.packet } := by
  rw [Link.grantPass, h]

theorem grantOriginated_head {l : Link} {d : Draft} {rest : List Draft} (h : l.orig = d :: rest) :
    l.grantOriginated = { l with orig := rest, run := min 2 (l.run + 1), feOut := some d.seal } := by
  rw [Link.grantOriginated, h]

/-! ### The Downstream Arbiter's order (R158) -/

theorem grantDown_run_out {l : Link} (hrun : l.run = 2) (hready : l.passReady = true) : l.grantDown = l.grantPass :=
  if_pos ⟨hrun, hready⟩

theorem grantDown_originated {l : Link} (h : ¬ (l.run = 2 ∧ l.passReady = true)) (horig : l.orig ≠ []) :
    l.grantDown = l.grantOriginated := by
  rw [Link.grantDown, if_neg h, if_pos horig]

theorem grantDown_pass {l : Link} (horig : l.orig = []) (hready : l.passReady = true) : l.grantDown = l.grantPass := by
  by_cases hrun : l.run = 2
  · exact grantDown_run_out hrun hready
  · rw [Link.grantDown, if_neg fun h => hrun h.1, if_neg (not_not.2 horig), if_pos hready]

theorem grantDown_none {l : Link} (horig : l.orig = []) (hready : l.passReady = false) : l.grantDown = l := by
  have hnot : ¬ l.passReady = true := Bool.eq_false_iff.1 hready
  rw [Link.grantDown, if_neg fun h => hnot h.2, if_neg (not_not.2 horig), if_neg hnot]

/-- What a downstream grant can do: nothing, send the Pass Buffer's head, or send the Originated Queue's. -/
theorem grantDown_cases (l : Link) : l.grantDown = l ∨
    (∃ e rest, l.down = e :: rest ∧ l.grantDown = l.grantPass) ∨
    ∃ d rest, l.orig = d :: rest ∧ l.grantDown = l.grantOriginated := by
  cases horig : l.orig with
  | nil =>
    cases hready : l.passReady with
    | false => exact Or.inl (grantDown_none horig hready)
    | true =>
      obtain ⟨e, rest, hdown⟩ := head_of_passReady hready
      exact Or.inr (Or.inl ⟨e, rest, hdown, grantDown_pass horig hready⟩)
  | cons d rest =>
    by_cases h : l.run = 2 ∧ l.passReady = true
    · obtain ⟨e, es, hdown⟩ := head_of_passReady h.2
      exact Or.inr (Or.inl ⟨e, es, hdown, grantDown_run_out h.1 h.2⟩)
    · have hsome : l.orig ≠ [] := horig ▸ List.cons_ne_nil d rest
      exact Or.inr (Or.inr ⟨d, rest, rfl, grantDown_originated h hsome⟩)

/-- R155: FE_HOLD_IN released, a grant is made. -/
theorem exec_downstreamGrant {s : State} (hr : s.pins.resetN = true) {l : Link} (h : s.link.grantDown = l) :
    exec (.downstreamGrant false) s = .next { s with pins := { s.pins with feHoldIn := false }, link := l } := by
  rw [← h]
  exact exec_effect (c := .downstreamGrant false) (by decide) (by decide) hr

/-- Settles O48: the four cases of R158 by the `grantDown` lemmas, what leaves by `grantPass_head` and
`grantOriginated_head`. -/
theorem downstreamArbiterGrantsInOrder : Obligations.DownstreamArbiterGrantsInOrder := by
  intro s hr pins pass
  refine ⟨fun e rest hdown he hrun => ?_, fun d rest horig h => ?_, fun e rest horig hdown he => ?_, fun horig h => ?_, ?_, rfl⟩
  · have hready : s.link.passReady = true := (passReady_of_head hdown).trans he
    exact exec_downstreamGrant hr ((grantDown_run_out hrun hready).trans (grantPass_head hdown))
  · have hsome : s.link.orig ≠ [] := horig ▸ List.cons_ne_nil d rest
    have hfirst : ¬ (s.link.run = 2 ∧ s.link.passReady = true) := by
      rintro ⟨hrun, hready⟩
      have hnot : s.link.passReady = false := passReady_false (h.resolve_left (not_not.2 hrun))
      exact absurd hready (Bool.eq_false_iff.1 hnot)
    exact exec_downstreamGrant hr ((grantDown_originated hfirst hsome).trans (grantOriginated_head horig))
  · have hready : s.link.passReady = true := (passReady_of_head hdown).trans he
    exact exec_downstreamGrant hr ((grantDown_pass horig hready).trans (grantPass_head hdown))
  · exact exec_downstreamGrant hr (grantDown_none horig (passReady_false h))
  · exact exec_effect (c := .downstreamGrant true) (by decide) (by decide) hr

/-! ### The Upstream Arbiter's sources -/

theorem hasUp_pass (s : State) : s.hasUp .pass = true ↔ s.link.up ≠ [] := by
  simp [State.hasUp]

theorem hasUp_reply (s : State) : s.hasUp .reply = true ↔ s.engine.replies ≠ [] := by
  simp [State.hasUp]

theorem hasUp_notice (s : State) : s.hasUp .notice = true ↔ s.events.notice ≠ none :=
  Option.isSome_iff_ne_none

theorem grantUp_pass {s : State} {p : Packet} {rest : List Packet} (h : s.link.up = p :: rest) :
    s.grantUp .pass = { s with link := { s.link with
      up := rest
      upHold := holdAfter rest.length s.link.upHold
      last := .pass
      mdOut := some p } } := by
  rw [State.grantUp, Link.grantUpPass, h]

theorem grantUp_reply {s : State} {d : Draft} {rest : List Draft} (h : s.engine.replies = d :: rest) :
    s.grantUp .reply = { s with
      link := { s.link with last := .reply, mdOut := some d.seal }
      engine := { s.engine with replies := rest } } := by
  rw [State.grantUp, h]
  rfl

theorem grantUp_notice {s : State} {w : Word} (h : s.events.notice = some w) :
    s.grantUp .notice = { s with
      link := { s.link with last := .notice, mdOut := some (Draft.notice s.events.flags w).seal }
      events := { s.events with notice := none } } := by
  rw [State.grantUp, h]
  rfl

theorem grantUpPass_empty {l : Link} (h : l.up = []) : l.grantUpPass = l := by
  rw [Link.grantUpPass, h]

/-- A source that holds nothing has nothing granted. -/
theorem grantUp_empty {s : State} {c : UpSource} (h : s.hasUp c = false) : s.grantUp c = s := by
  cases c with
  | pass =>
    have hup : s.link.up = [] := by simpa [State.hasUp] using h
    rw [State.grantUp, grantUpPass_empty hup]
  | reply =>
    have hreplies : s.engine.replies = [] := by simpa [State.hasUp] using h
    rw [State.grantUp, hreplies]
  | notice =>
    have hnotice : s.events.notice = none := by simpa [State.hasUp] using h
    rw [State.grantUp, hnotice]

/-! ### The Upstream Arbiter's cycle (R159) -/

section Cycle

variable {s : State} {a b c : UpSource}

theorem upChoice_first (hcycle : s.link.last.after = [a, b, c]) (ha : s.hasUp a = true) : s.upChoice = some a := by
  rw [State.upChoice, hcycle, List.find?_cons_of_pos ha]

theorem upChoice_second (hcycle : s.link.last.after = [a, b, c]) (ha : ¬ s.hasUp a = true) (hb : s.hasUp b = true) :
    s.upChoice = some b := by
  rw [State.upChoice, hcycle, List.find?_cons_of_neg ha, List.find?_cons_of_pos hb]

theorem upChoice_third (hcycle : s.link.last.after = [a, b, c]) (ha : ¬ s.hasUp a = true) (hb : ¬ s.hasUp b = true)
    (hc : s.hasUp c = true) : s.upChoice = some c := by
  rw [State.upChoice, hcycle, List.find?_cons_of_neg ha, List.find?_cons_of_neg hb, List.find?_cons_of_pos hc]

end Cycle

theorem upChoice_none {s : State} (h : ∀ c, ¬ s.hasUp c = true) : s.upChoice = none := by
  rw [State.upChoice, List.find?_eq_none]
  exact fun c _ => h c

theorem grantNextUp_choice {s : State} {c : UpSource} (h : s.upChoice = some c) : s.grantNextUp = s.grantUp c := by
  rw [State.grantNextUp, h]

theorem grantNextUp_none {s : State} (h : s.upChoice = none) : s.grantNextUp = s := by
  rw [State.grantNextUp, h]

/-- R155: MD_HOLD_IN released, a grant is made. -/
theorem exec_upstreamGrant {s : State} (hr : s.pins.resetN = true) : exec (.upstreamGrant false) s =
    .next { s with pins := { s.pins with mdHoldIn := false } }.grantNextUp :=
  exec_effect (c := .upstreamGrant false) (by decide) (by decide) hr

/-- Which source is chosen does not depend on the level sampled. -/
theorem exec_upstreamGrant_choice {s t : State} {c : UpSource} (hr : s.pins.resetN = true) (hc : s.upChoice = some c)
    (ht : { s with pins := { s.pins with mdHoldIn := false } }.grantUp c = t) : exec (.upstreamGrant false) s = .next t := by
  rw [exec_upstreamGrant hr, grantNextUp_choice (s := { s with pins := { s.pins with mdHoldIn := false } }) hc, ht]

/-- Settles O49: the source chosen by the `upChoice` lemmas, what it sends by the `grantUp` lemmas. -/
theorem upstreamArbiterGrantsInCycle : Obligations.UpstreamArbiterGrantsInCycle := by
  intro s hr pins none_ pass reply notice hasPass hasReply hasNotice
  have pass_of (h : hasPass) (hc : s.upChoice = some .pass) : pass := by
    obtain ⟨p, rest, hup⟩ := List.exists_cons_of_ne_nil h
    exact ⟨p, rest, hup, exec_upstreamGrant_choice hr hc (grantUp_pass hup)⟩
  have reply_of (h : hasReply) (hc : s.upChoice = some .reply) : reply := by
    obtain ⟨d, rest, hreplies⟩ := List.exists_cons_of_ne_nil h
    exact ⟨d, rest, hreplies, exec_upstreamGrant_choice hr hc (grantUp_reply hreplies)⟩
  have notice_of (h : hasNotice) (hc : s.upChoice = some .notice) : notice := by
    obtain ⟨w, hw⟩ := Option.ne_none_iff_exists'.1 h
    exact ⟨w, hw, exec_upstreamGrant_choice hr hc (grantUp_notice hw)⟩
  have passHolds (h : hasPass) : s.hasUp .pass = true := (hasUp_pass s).2 h
  have replyHolds (h : hasReply) : s.hasUp .reply = true := (hasUp_reply s).2 h
  have noticeHolds (h : hasNotice) : s.hasUp .notice = true := (hasUp_notice s).2 h
  have passEmpty (h : ¬ hasPass) : ¬ s.hasUp .pass = true := mt (hasUp_pass s).1 h
  have replyEmpty (h : ¬ hasReply) : ¬ s.hasUp .reply = true := mt (hasUp_reply s).1 h
  have noticeEmpty (h : ¬ hasNotice) : ¬ s.hasUp .notice = true := mt (hasUp_notice s).1 h
  refine ⟨fun hlast => ?_, fun hlast => ?_, fun hlast => ?_, fun h1 h2 h3 => ?_, ?_, rfl⟩
  · have hcycle : s.link.last.after = [.pass, .reply, .notice] := congrArg UpSource.after hlast
    exact ⟨fun h1 => pass_of h1 (upChoice_first hcycle (passHolds h1)),
      fun h1 h2 => reply_of h2 (upChoice_second hcycle (passEmpty h1) (replyHolds h2)),
      fun h1 h2 h3 => notice_of h3 (upChoice_third hcycle (passEmpty h1) (replyEmpty h2) (noticeHolds h3))⟩
  · have hcycle : s.link.last.after = [.reply, .notice, .pass] := congrArg UpSource.after hlast
    exact ⟨fun h1 => reply_of h1 (upChoice_first hcycle (replyHolds h1)),
      fun h1 h2 => notice_of h2 (upChoice_second hcycle (replyEmpty h1) (noticeHolds h2)),
      fun h1 h2 h3 => pass_of h3 (upChoice_third hcycle (replyEmpty h1) (noticeEmpty h2) (passHolds h3))⟩
  · have hcycle : s.link.last.after = [.notice, .pass, .reply] := congrArg UpSource.after hlast
    exact ⟨fun h1 => notice_of h1 (upChoice_first hcycle (noticeHolds h1)),
      fun h1 h2 => pass_of h2 (upChoice_second hcycle (noticeEmpty h1) (passHolds h2)),
      fun h1 h2 h3 => reply_of h3 (upChoice_third hcycle (noticeEmpty h1) (passEmpty h2) (replyHolds h3))⟩
  · have hnone : s.upChoice = none := upChoice_none fun c => match c with
      | .pass => passEmpty h1
      | .reply => replyEmpty h2
      | .notice => noticeEmpty h3
    exact (exec_upstreamGrant hr).trans (congrArg _ (grantNextUp_none hnone))
  · exact exec_effect (c := .upstreamGrant true) (by decide) (by decide) hr

end Sys2Proof.Machine
end

section
/-! PROOFS. Law 10: the bounds of the queues and buffers and the standing of the hold states, kept by each part of the machine's
work (R151, R154, R156, R158, R163). -/

namespace Sys2Proof.Machine

/-! ### The invariant -/

/-- `State.queuesBounded` and `Link.sound` together, with a name for each bound. -/
structure State.withinBounds (s : State) : Prop where
  commands : s.engine.queue.length ≤ 8
  replies : s.engine.replies.length ≤ 8
  originated : s.origUse ≤ 12
  down : s.link.down.length ≤ 16
  up : s.link.up.length ≤ 16
  downHold : holdFits s.link.down.length s.link.downHold
  upHold : holdFits s.link.up.length s.link.upHold
  run : s.link.run ≤ 2

theorem withinBounds_iff (s : State) : s.withinBounds ↔ s.queuesBounded ∧ s.link.sound where
  mp h := ⟨⟨h.commands, h.replies, h.originated, h.down, h.up⟩, h.downHold, h.upHold, h.run⟩
  mpr := by
    rintro ⟨⟨hcommands, hreplies, horiginated, hdown, hup⟩, hdownHold, hupHold, hrun⟩
    exact ⟨hcommands, hreplies, horiginated, hdown, hup, hdownHold, hupHold, hrun⟩

theorem atReset_withinBounds (s : State) (level : Bool) : (s.atReset level).withinBounds :=
  (withinBounds_iff (s.atReset level)).2 ⟨reset_queuesBounded, reset_link_sound⟩

/-! ### What leaves the bounds alone -/

/-- The Originated Queue and the claimed slots aside, the link and the engine left as they are. -/
theorem State.withinBounds.originate {s t : State} (h : s.withinBounds) (hlink : s.link.sameBut t.link)
    (hengine : t.engine = s.engine) (huse : t.origUse ≤ 12) : t.withinBounds where
  commands := hengine ▸ h.commands
  replies := hengine ▸ h.replies
  originated := huse
  down := by rw [show t.link = _ from hlink]; exact h.down
  up := by rw [show t.link = _ from hlink]; exact h.up
  downHold := by rw [show t.link = _ from hlink]; exact h.downHold
  upHold := by rw [show t.link = _ from hlink]; exact h.upHold
  run := by rw [show t.link = _ from hlink]; exact h.run

/-- The link, the engine and the requests in progress left as they are. -/
theorem State.withinBounds.leave {s t : State} (h : s.withinBounds) (hlink : t.link = s.link := by simp)
    (hengine : t.engine = s.engine := by simp) (hrequests : t.supply.requests = s.supply.requests := by simp) :
    t.withinBounds :=
  h.originate (hlink ▸ Link.sameBut_refl _) hengine ((origUse_of (congrArg Link.orig hlink) hrequests).trans_le h.originated)

/-! ### The Pass Buffers -/

/-- R154: whatever stood before, the hold state after a change of the count agrees with the count. -/
theorem holdFits_holdAfter (count : Nat) (hold : Bool) : holdFits count (holdAfter count hold) where
  left h := if_pos h
  right h := by rw [holdAfter, if_neg (by omega), if_pos h]

/-- R151: a packet enters only where there is a place. -/
theorem enter_withinBounds {s : State} (h : s.withinBounds) {port : Port} (hroom : s.link.full port = false) (p : Packet)
    (ready : Bool) : ({ s with link := s.link.enter port p ready } : State).withinBounds := by
  cases port with
  | modem =>
    have hlength : (s.link.enterDown p ready).down.length = s.link.down.length + 1 := List.length_append
    exact { h with
      down := hlength.trans_le (room_modem.1 hroom)
      downHold := hlength ▸ holdFits_holdAfter _ _ }
  | frontEnd =>
    have hlength : (s.link.enterUp p).up.length = s.link.up.length + 1 := List.length_append
    exact { h with
      up := hlength.trans_le (room_frontEnd.1 hroom)
      upHold := hlength ▸ holdFits_holdAfter _ _ }

/-- R152: an order made ready keeps its place. -/
theorem finishOrder_withinBounds {s : State} (h : s.withinBounds) (f : Packet → Packet) :
    ({ s with link := s.link.finishOrder f } : State).withinBounds := by
  have hlength : (s.link.finishOrder f).down.length = s.link.down.length := finishFirst_length f s.link.down
  exact { h with
    down := hlength.trans_le h.down
    downHold := hlength ▸ h.downHold }

/-! ### The Command Engine (R163 to R167, R175) -/

theorem queueCommand_withinBounds {s : State} (h : s.withinBounds) (p : Packet) : (s.queueCommand p).withinBounds := by
  unfold State.queueCommand
  split
  · rename_i hroom
    exact { h with commands := (List.length_append (as := s.engine.queue) (bs := [p])).trans_le hroom }
  · exact h.leave

theorem takeCommand_withinBounds {s : State} (h : s.withinBounds) : s.takeCommand.withinBounds := by
  unfold State.takeCommand
  split
  · rename_i p rest _ hqueue
    have hcommands := h.commands
    rw [hqueue, List.length_cons] at hcommands
    exact { h with commands := Nat.le_of_succ_le hcommands }
  · exact h

/-- A reply joins the Reply Queue only where there is a place. -/
theorem replies_room {s : State} (h : s.engine.replies.length < 8) (d : Draft) :
    (s.engine.replies ++ [d]).length ≤ 8 :=
  List.length_append.trans_le h

theorem answer_withinBounds {s : State} (h : s.withinBounds) (hroom : s.replyRoom = true) (p : Packet) (w : List Word) :
    (s.answer p w).withinBounds := by
  have hlength : s.engine.replies.length < 8 := of_decide_eq_true (Bool.and_eq_true_iff.1 hroom).1
  exact { h with replies := replies_room hlength _ }

theorem finishCopy_withinBounds {s : State} (h : s.withinBounds) : s.finishCopy.withinBounds := by
  unfold State.finishCopy
  split
  · exact h
  · split
    · rename_i hroom
      exact { h with replies := replies_room hroom _ }
    · exact h.leave

/-- R174, R175: both queues of the engine are emptied, POLL packets leave, a release may join. -/
theorem softReset_withinBounds {s : State} (h : s.withinBounds) (n : Nat) (p : Packet) :
    (s.softReset n p).withinBounds := by
  have hpolls : ({ s with link := s.link.softReset } : State).withinBounds :=
    { h with originated := (Nat.add_le_add_right (List.length_filter_le _ _) _).trans h.originated }
  have hboost : ({ s with link := s.link.softReset } : State).boostSoftReset.withinBounds :=
    hpolls.originate (boostSoftReset_link _) (by simp) (boostSoftReset_use hpolls.originated)
  exact { hboost with
    commands := Nat.zero_le 8
    replies := (by decide : 1 ≤ 8) }

/-! ### The arbiters -/

theorem grantDown_withinBounds {s : State} (h : s.withinBounds) :
    ({ s with link := s.link.grantDown } : State).withinBounds := by
  rcases grantDown_cases s.link with e | ⟨x, rest, hdown, e⟩ | ⟨d, rest, horig, e⟩
  · rw [e]
    exact h
  · have hlength := h.down
    rw [hdown, List.length_cons] at hlength
    rw [e, grantPass_head hdown]
    exact { h with
      down := Nat.le_of_succ_le hlength
      downHold := holdFits_holdAfter _ _
      run := Nat.zero_le 2 }
  · have hlength := h.originated
    rw [State.origUse, horig, List.length_cons] at hlength
    rw [e, grantOriginated_head horig]
    exact { h with
      originated := (Nat.add_le_add_right (Nat.le_succ _) _).trans hlength
      run := Nat.min_le_left 2 _ }

theorem grantUp_withinBounds {s : State} (h : s.withinBounds) (c : UpSource) : (s.grantUp c).withinBounds := by
  cases hc : s.hasUp c with
  | false =>
    rw [grantUp_empty hc]
    exact h
  | true =>
    cases c with
    | pass =>
      obtain ⟨p, rest, hup⟩ := List.exists_cons_of_ne_nil ((hasUp_pass s).1 hc)
      have hlength := h.up
      rw [hup, List.length_cons] at hlength
      rw [grantUp_pass hup]
      exact { h with
        up := Nat.le_of_succ_le hlength
        upHold := holdFits_holdAfter _ _ }
    | reply =>
      obtain ⟨d, rest, hreplies⟩ := List.exists_cons_of_ne_nil ((hasUp_reply s).1 hc)
      have hlength := h.replies
      rw [hreplies, List.length_cons] at hlength
      rw [grantUp_reply hreplies]
      exact { h with replies := Nat.le_of_succ_le hlength }
    | notice =>
      obtain ⟨w, hw⟩ := Option.ne_none_iff_exists'.1 ((hasUp_notice s).1 hc)
      rw [grantUp_notice hw]
      exact { h with }

/-! ### Every step -/

/-- The users of the Originated Queue keep to its free slots; every other part of the work tests for a place before it puts
anything into a queue or buffer. -/
theorem withinBounds_kept : Kept State.withinBounds where
  grain := fun s h => h.originate (by simp [Link.sameBut]) (by simp) (grainStep_use h.originated)
  turn := fun s turn o _ h => h.originate (frameTurn_link s turn o) (by simp) (frameTurn_use h.originated turn o)
  confirm := fun s m _ h => h.leave
  events := fun s e h => h.leave
  enter := fun s port p ready hroom h => enter_withinBounds h hroom p ready
  queueCommand := fun s p h => queueCommand_withinBounds h p
  takeTemp := fun s z t h => h.leave
  takeReady := fun s h => h.originate (takeReady_link s) (by simp) (takeReady_use h.originated)
  takeSupply := fun s mv h => h.leave (hrequests := rfl)
  takeTrip := fun s p h => h.originate (by simp [Link.sameBut]) (by simp) (takeTrip_requests s p h.originated)
  pins := fun s pins h => h.leave
  takeBurst := fun s p straps h =>
    h.originate (takeBurst_link s p straps) (by simp) (takeBurst_use h.originated p straps)
  takeRevise := fun s p straps h =>
    h.originate (takeRevise_link s p straps) (by simp) (takeRevise_use h.originated p straps)
  takeWithdraw := fun s p h => h.leave (hrequests := by unfold State.takeWithdraw; (repeat' split) <;> rfl)
  finishOrder := fun s f _ h => finishOrder_withinBounds h f
  makeRequested := fun s k h =>
    h.originate (makeRequested_link s k) (by simp) (makeRequested_use h.originated k)
  takeCommand := fun s h => takeCommand_withinBounds h
  answer := fun s p w hroom h => answer_withinBounds h hroom p w
  advance := fun s n h => h.leave
  setCap := fun s i c _ h => h.leave
  barEnd := fun s i _ h => h.leave
  writeTable := fun s b a ws h _ _ _ _ => h.leave
  launch := fun s b h _ _ => h.leave
  cancel := fun s h _ => h.leave
  startCopy := fun s a tag h _ _ _ => { h with }
  finishCopy := fun s h => finishCopy_withinBounds h
  softReset := fun s n p h => softReset_withinBounds h n p
  grantDown := fun s h => grantDown_withinBounds h
  grantUp := fun s c h => grantUp_withinBounds h c
  update := fun s z _ h => h.leave

/-- Settles O54: `withinBounds_kept`, and the reset values lie within the bounds. -/
theorem everyStepKeepsTheQueueBounds : Obligations.EveryStepKeepsTheQueueBounds := by
  intro s t hqueues hlink hstep
  have hs : s.withinBounds := (withinBounds_iff s).2 ⟨hqueues, hlink⟩
  exact (withinBounds_iff t).1 (withinBounds_kept.step atReset_withinBounds (fun _ _ h => h.leave) hs hstep)

end Sys2Proof.Machine
end

section
/-! PROOFS. Law 11: passing packets keep their order and, an order's power and check words apart, their words, command by
command (R148 to R153, R158, R159). -/

namespace Sys2Proof.Machine

/-! ### What may become of the Pass Buffers -/

/-- Law 11, downstream: as it is, one packet more at the tail, the head sent, or the first packet that is not ready made ready
in its place. -/
def Link.downInOrder (l l' : Link) : Prop :=
  l'.down = l.down ∨
    (∃ e, l'.down = l.down ++ [e]) ∨
    (∃ e, l.down = e :: l'.down ∧ l'.feOut = some e.packet) ∨
    ∃ before e after p, l.down = before ++ e :: after ∧ (∀ x ∈ before, x.ready = true) ∧ e.ready = false ∧
      l'.down = before ++ ⟨p, true⟩ :: after ∧ (p = e.packet ∨ ∃ code, p = e.packet.setPower code)

/-- Law 11, upstream: as it is, one packet more at the tail, or the head sent. -/
def Link.upInOrder (l l' : Link) : Prop :=
  l'.up = l.up ∨ (∃ p, l'.up = l.up ++ [p]) ∨ ∃ p, l.up = p :: l'.up ∧ l'.mdOut = some p

/-- Law 11 from one state to another. -/
def State.keepsOrder (s t : State) : Prop := s.link.downInOrder t.link ∧ s.link.upInOrder t.link

theorem keepsOrder_of_link {s t : State} (h : t.link = s.link) : s.keepsOrder t :=
  ⟨Or.inl (by rw [h]), Or.inl (by rw [h])⟩

theorem State.keepsOrder_refl (s : State) : s.keepsOrder s := keepsOrder_of_link rfl

/-- The Originated Queue is no part of Law 11. -/
theorem State.keepsOrder.before {s t u : State} (h : s.keepsOrder t) (g : t.link.sameBut u.link) : s.keepsOrder u := by
  unfold State.keepsOrder
  rw [show u.link = { t.link with orig := u.link.orig } from g]
  exact h

theorem State.keepsOrder.after {s t u : State} (h : t.keepsOrder u) (g : s.link.sameBut t.link) : s.keepsOrder u := by
  unfold State.keepsOrder at h
  rw [show t.link = { s.link with orig := t.link.orig } from g] at h
  exact h

theorem keepsOrder_of_sameBut {s t : State} (h : s.link.sameBut t.link) : s.keepsOrder t := s.keepsOrder_refl.before h

/-! ### Packets that enter, are made ready and leave -/

/-- R151: a packet enters at the tail. -/
theorem enter_keepsOrder (s : State) (port : Port) (p : Packet) (ready : Bool) :
    s.keepsOrder { s with link := s.link.enter port p ready } := by
  cases port with
  | modem => exact ⟨Or.inr (Or.inl ⟨⟨p, ready⟩, rfl⟩), Or.inl rfl⟩
  | frontEnd => exact ⟨Or.inl rfl, Or.inr (Or.inl ⟨p, rfl⟩)⟩

/-- R152, R153: an order becomes ready in its place, its packet as it was or with its power rewritten. -/
theorem finishOrder_keepsOrder (s : State) {f : Packet → Packet} (hf : ∀ p, f p = p ∨ ∃ code, f p = p.setPower code) :
    s.keepsOrder { s with link := s.link.finishOrder f } := by
  refine ⟨?_, Or.inl rfl⟩
  rcases ready_or_first s.link.down with hready | ⟨before, e, after, hdown, hbefore, he⟩
  · exact Or.inl (finishFirst_ready hready f)
  · have hfinished : (s.link.finishOrder f).down = before ++ ⟨f e.packet, true⟩ :: after := by
      rw [Link.finishOrder, hdown, finishFirst_first hbefore he]
    exact Or.inr (Or.inr (Or.inr ⟨before, e, after, f e.packet, hdown, hbefore, he, hfinished, hf e.packet⟩))

/-- R158: a downstream grant sends the head of the Pass Buffer, or leaves the buffer. -/
theorem grantDown_keepsOrder (s : State) : s.keepsOrder { s with link := s.link.grantDown } := by
  rcases grantDown_cases s.link with h | ⟨e, rest, hdown, h⟩ | ⟨d, rest, horig, h⟩
  · exact keepsOrder_of_link h
  · rw [h, grantPass_head hdown]
    exact ⟨Or.inr (Or.inr (Or.inl ⟨e, hdown, rfl⟩)), Or.inl rfl⟩
  · rw [h, grantOriginated_head horig]
    exact ⟨Or.inl rfl, Or.inl rfl⟩

/-- R159: an upstream grant sends the head of the Pass Buffer, or leaves the buffer. -/
theorem grantUp_keepsOrder (s : State) (c : UpSource) : s.keepsOrder (s.grantUp c) := by
  cases hc : s.hasUp c with
  | false =>
    rw [grantUp_empty hc]
    exact s.keepsOrder_refl
  | true =>
    cases c with
    | pass =>
      obtain ⟨p, rest, hup⟩ := List.exists_cons_of_ne_nil ((hasUp_pass s).1 hc)
      rw [grantUp_pass hup]
      exact ⟨Or.inl rfl, Or.inr (Or.inr ⟨p, hup, rfl⟩)⟩
    | reply =>
      obtain ⟨d, rest, hreplies⟩ := List.exists_cons_of_ne_nil ((hasUp_reply s).1 hc)
      rw [grantUp_reply hreplies]
      exact ⟨Or.inl rfl, Or.inl rfl⟩
    | notice =>
      obtain ⟨w, hw⟩ := Option.ne_none_iff_exists'.1 ((hasUp_notice s).1 hc)
      rw [grantUp_notice hw]
      exact ⟨Or.inl rfl, Or.inl rfl⟩

theorem grantNextUp_keepsOrder (s : State) : s.keepsOrder s.grantNextUp := by
  cases hc : s.upChoice with
  | none =>
    rw [grantNextUp_none hc]
    exact s.keepsOrder_refl
  | some c =>
    rw [grantNextUp_choice hc]
    exact grantUp_keepsOrder s c

/-! ### Arrivals and the clock -/

/-- What takes a packet that has passed leaves the Pass Buffers. -/
theorem pass_keepsOrder (s : State) (port : Port) (p : Packet) (ready : Bool) {taken : State → State}
    (ht : ∀ u : State, u.link.sameBut (taken u).link) : s.keepsOrder (s.pass port p ready taken) := by
  cases hfull : s.link.full port with
  | true =>
    rw [pass_full hfull]
    exact keepsOrder_of_link rfl
  | false =>
    rw [pass_room hfull]
    exact (enter_keepsOrder s port p ready).before (ht _)

theorem takeMark_link (s : State) (m : Nat) (o : TurnOrder) : s.link.sameBut (s.takeMark m o).link := by
  unfold State.takeMark
  split
  · split
    · rfl
    · rfl
  · exact frameTurn_link s _ o

theorem arrive_keepsOrder (s : State) (port : Port) (p : Packet) (o : TurnOrder) : s.keepsOrder (s.arrive port p o) := by
  unfold State.arrive
  cases classify port p with
  | malformedDrop | misdirected => exact keepsOrder_of_link rfl
  | malformedPass => exact pass_keepsOrder s port p true fun u => rfl
  | command => exact keepsOrder_of_link (by simp)
  | mark => exact pass_keepsOrder s port p true fun u => takeMark_link u _ o
  | order => exact pass_keepsOrder s port p false fun u => rfl
  | pass => exact pass_keepsOrder s port p true fun u => rfl
  | tempConsumed => exact keepsOrder_of_link (by simp)
  | readyConsumed => exact keepsOrder_of_sameBut (takeReady_link s)
  | tempPassed => exact pass_keepsOrder s port p true fun u => by simp [Link.sameBut]
  | supplyPassed => exact pass_keepsOrder s port p true fun u => rfl
  | tripPassed => exact pass_keepsOrder s port p true fun u => by simp [Link.sameBut]

theorem timerStep_keepsOrder (s : State) (o : TurnOrder) : s.keepsOrder (s.timerStep o) := by
  unfold State.timerStep
  split
  · exact keepsOrder_of_sameBut (frameTurn_link s .timer o)
  · exact s.keepsOrder_refl

theorem grainStep_keepsOrder (s : State) : s.keepsOrder s.grainStep := keepsOrder_of_link (by simp)

theorem tickWhen_keepsOrder (s : State) (k : Clock) (happens : State → State → Bool) : s.keepsOrder (s.tickWhen k happens) := by
  unfold State.tickWhen
  split
  · cases k with
    | grain => exact grainStep_keepsOrder s
    | timer o => exact timerStep_keepsOrder s o
    | mark p o => exact arrive_keepsOrder s .modem p o
  · exact s.keepsOrder_refl

/-! ### Orders -/

/-- An order is handled away from the Pass Buffers, and then written into its packet. -/
theorem takeOrder_keepsOrder (s : State) (kind : Nat) (straps : BitVec 2) {take : State → Packet → BitVec 2 → State × Int}
    (ht : ∀ (u : State) p, u.link.sameBut (take u p straps).1.link) : s.keepsOrder (s.takeOrder kind straps take) := by
  unfold State.takeOrder
  split
  · rename_i p _
    split
    · exact (finishOrder_keepsOrder _ fun _ => Or.inr ⟨_, rfl⟩).after
        (ht { s with pins := { s.pins with straps := straps } } p)
    · exact s.keepsOrder_refl
  · exact s.keepsOrder_refl

/-- R36: a WITHDRAW's packet is unchanged. -/
theorem withdrawNext_keepsOrder (s : State) : s.keepsOrder s.withdrawNext := by
  unfold State.withdrawNext
  split
  · rename_i p _
    split
    · have hlink : s.link.sameBut (s.takeWithdraw p).link := by simp [Link.sameBut]
      exact (finishOrder_keepsOrder (s.takeWithdraw p) (f := id) fun _ => Or.inl rfl).after hlink
    · exact s.keepsOrder_refl
  · exact s.keepsOrder_refl

/-! ### Management commands -/

theorem execute_keepsOrder (s : State) (code : Nat) {eff : State → Packet → State} (he : ∀ p, (eff s p).link = s.link) :
    s.keepsOrder (s.execute code eff) :=
  keepsOrder_of_link (execute_frame State.link s code eff (fun p => by simp) he)

/-- R174: SOFT-RESET touches the Originated Queue alone of the link's buffers. -/
theorem softReset_link (s : State) (copied : Nat) (p : Packet) : s.link.sameBut (s.softReset copied p).link := by
  have hpolls : s.link.sameBut s.link.softReset := rfl
  exact Link.sameBut_trans hpolls (boostSoftReset_link { s with link := s.link.softReset })

theorem runSoftReset_keepsOrder (s : State) (copied : Nat) : s.keepsOrder (s.runSoftReset copied) := by
  unfold State.runSoftReset
  split
  · split
    · split
      · exact keepsOrder_of_sameBut (softReset_link s copied _)
      · split
        · exact keepsOrder_of_link (by simp)
        · exact s.keepsOrder_refl
    · exact s.keepsOrder_refl
  · exact s.keepsOrder_refl

/-! ### Every command -/

/-- Law 11 as a step law, over the commands by the part of the work they make. -/
theorem effect_keepsOrder (c : Instr) (s : State) : s.keepsOrder (effect c s) := by
  cases c with
  | resetNAssert | resetNRelease => exact s.keepsOrder_refl
  | grainEvent => exact grainStep_keepsOrder s
  | awaitingWindowEnd =>
    show s.keepsOrder (if s.windowDue then s.grainStep else s)
    split
    · exact grainStep_keepsOrder s
    · exact s.keepsOrder_refl
  | timerFrameTurn o => exact timerStep_keepsOrder s o
  | bankSwitch k | supplyStale k | tripClear _ k | barExpiry _ k | zoneStale _ k | pollExpiry _ k | boostQuietRelease k
  | boostCooldownEnd k | boostWaitExpiry k => exact tickWhen_keepsOrder s k _
  | frameMark p o => exact arrive_keepsOrder s .modem p o
  | burst straps => exact takeOrder_keepsOrder s _ straps fun u p => takeBurst_link u p straps
  | revise straps | amendReceived straps => exact takeOrder_keepsOrder s _ straps fun u p => takeRevise_link u p straps
  | withdraw => exact withdrawNext_keepsOrder s
  | requestedAmendment k => exact keepsOrder_of_sameBut (makeRequested_link s k)
  | tempReport p | supplyReport p | tripReport p | boostReady p => exact arrive_keepsOrder s .frontEnd p .plain
  | passPacketArrival port p | malformedPacket port p | misdirectedPacket port p => exact arrive_keepsOrder s port p .plain
  | govCommandArrival p => exact arrive_keepsOrder s .modem p .plain
  | commandTake => exact keepsOrder_of_link (takeCommand_frame s).2.1
  | unknownCommand => exact keepsOrder_of_link (answerUnknown_frame s).2.1
  | readStatus | readEvents | setMask | readZone | readPath | readSchedule | setCap | clearBar | readTable _ | writeTable
  | launch | recallLaunch | copy => exact execute_keepsOrder s _ fun p => by simp
  | copyComplete => exact keepsOrder_of_link (finishCopy_frame s).2.1
  | softReset copied => exact runSoftReset_keepsOrder s copied
  | downstreamGrant hold =>
    cases hold with
    | false => exact (grantDown_keepsOrder s).before rfl
    | true => exact keepsOrder_of_link rfl
  | upstreamGrant hold =>
    cases hold with
    | false => exact (grantNextUp_keepsOrder { s with pins := { s.pins with mdHoldIn := false } }).after rfl
    | true => exact keepsOrder_of_link rfl

/-- Settles O50: `effect_keepsOrder`. -/
theorem passingPacketsKeepTheirOrder : Obligations.PassingPacketsKeepTheirOrder := by
  intro c s t hassert hrelease h
  rcases exec_cases h with rfl | ⟨hreset, _⟩ | ⟨_, _, _, rfl⟩
  · exact t.keepsOrder_refl
  · exact absurd hreset (not_or.2 ⟨hassert, hrelease⟩)
  · exact effect_keepsOrder c s

end Sys2Proof.Machine
end

section
/-! PROOFS. Arrivals at the two ports: passing packets and orders, malformed packets, packets to unit 15 (R146 to R151, R154,
R164). -/

namespace Sys2Proof.Machine

/-! ### Well-formedness (R147) -/

/-- The least and greatest payload lengths of section 8.1, by kind. -/
def kindTable : List (Nat × Nat) :=
  [(0, 12), (1, 1), (4, 4), (1, 1), (2, 2), (2, 2), (1, 1), (0, 0), (0, 0), (1, 12), (2, 2), (1, 1), (1, 1), (0, 0), (1, 12),
    (2, 2)]

theorem kindTable_getElem (p : Packet) : kindTable[p.kind]? = some (kindLengths p.kind) := by
  have hall : ∀ k : Fin 16, kindTable[k.val]? = some (kindLengths k.val) := by decide
  exact hall ⟨p.kind, Nat.mod_lt _ (by decide)⟩

theorem wellFormed_iff (p : Packet) : p.wellFormed = true ↔ p.sum = 0 ∧ p.lengthField = p.payload.length ∧
    (kindLengths p.kind).1 ≤ p.payload.length ∧ p.payload.length ≤ (kindLengths p.kind).2 := by
  simp only [Packet.wellFormed, Bool.and_eq_true, beq_iff_eq, decide_eq_true_eq, and_assoc]

/-! ### Classification (R146 to R149) -/

/-- A malformed packet is classified by its unit and its length, at either port. -/
theorem classify_malformed {p : Packet} (h : p.wellFormed = false) (port : Port) :
    classify port p = if p.unit = 15 ∨ 15 < p.payload.length then .malformedDrop else .malformedPass := by
  unfold classify
  exact if_neg (Bool.eq_false_iff.1 h)

theorem classify_order_iff (p : Packet) : classify .modem p = .order ↔
    p.wellFormed = true ∧ p.unit ≠ 15 ∧ (p.kind = 2 ∨ p.kind = 3 ∨ p.kind = 4 ∨ p.kind = 5) := by
  refine ⟨fun h => ?_, fun ⟨hw, hu, hk⟩ => ?_⟩
  · have hw := wellFormed_of_classify h (by decide) (by decide)
    rw [classify_modem hw] at h
    rcases classifyModem_cases p.unit p.kind with ⟨_, e⟩ | ⟨_, _, _, e⟩ | ⟨_, _, _, e⟩ | ⟨hu, hk, _⟩ | ⟨_, _, e⟩
    case inr.inr.inr.inl => exact ⟨hw, hu, hk⟩
    all_goals
      rw [e] at h
      cases h
  · rw [classify_modem hw]
    rcases classifyModem_cases p.unit p.kind with ⟨h, _⟩ | ⟨_, h, _⟩ | ⟨_, h, _⟩ | ⟨_, _, e⟩ | ⟨_, h, _⟩
    case inr.inr.inr.inl => exact e
    all_goals omega

theorem classify_pass_modem_iff (p : Packet) : classify .modem p = .pass ↔ p.wellFormed = true ∧ p.unit ≠ 15 ∧
    p.kind ≠ 1 ∧ p.kind ≠ 2 ∧ p.kind ≠ 3 ∧ p.kind ≠ 4 ∧ p.kind ≠ 5 := by
  refine ⟨fun h => ?_, fun ⟨hw, hu, hk⟩ => ?_⟩
  · have hw := wellFormed_of_classify h (by decide) (by decide)
    rw [classify_modem hw] at h
    rcases classifyModem_cases p.unit p.kind with ⟨_, e⟩ | ⟨_, _, _, e⟩ | ⟨_, _, _, e⟩ | ⟨_, _, e⟩ | ⟨hu, hk, _⟩
    case inr.inr.inr.inr => exact ⟨hw, hu, hk⟩
    all_goals
      rw [e] at h
      cases h
  · rw [classify_modem hw]
    rcases classifyModem_cases p.unit p.kind with ⟨h, _⟩ | ⟨_, h, _⟩ | ⟨_, h, _⟩ | ⟨_, h, _⟩ | ⟨_, _, e⟩
    case inr.inr.inr.inr => exact e
    all_goals omega

theorem classify_pass_frontEnd_iff (p : Packet) : classify .frontEnd p = .pass ↔
    p.wellFormed = true ∧ p.unit ≠ 15 ∧ p.kind ≠ 10 ∧ p.kind ≠ 11 ∧ p.kind ≠ 12 := by
  refine ⟨fun h => ?_, fun ⟨hw, hk⟩ => ?_⟩
  · have hw := wellFormed_of_classify h (by decide) (by decide)
    rw [classify_frontEnd hw, classifyFrontEnd_pass_iff] at h
    exact ⟨hw, h⟩
  · rw [classify_frontEnd hw]
    exact (classifyFrontEnd_pass_iff p.unit p.kind).2 hk

theorem classify_misdirected_modem {p : Packet} (hw : p.wellFormed = true) (hu : p.unit = 15) (h9 : p.kind ≠ 9)
    (h1 : p.kind ≠ 1) : classify .modem p = .misdirected := by
  rw [classify_modem hw]
  rcases classifyModem_cases p.unit p.kind with ⟨h, _⟩ | ⟨_, _, h, _⟩ | ⟨_, _, _, e⟩ | ⟨h, _⟩ | ⟨h, _⟩
  case inr.inr.inl => exact e
  all_goals omega

theorem classify_misdirected_frontEnd {p : Packet} (hw : p.wellFormed = true) (hu : p.unit = 15) (h10 : p.kind ≠ 10)
    (h13 : p.kind ≠ 13) : classify .frontEnd p = .misdirected := by
  rw [classify_frontEnd hw]
  exact (if_pos hu).trans ((if_neg h10).trans (if_neg h13))

/-! ### A packet by its classification -/

/-- R148, R149, R152: packets and orders pass; an order is not ready. -/
theorem arrive_passing {port : Port} {p : Packet} (h : classify port p = .pass ∨ classify port p = .order) (s : State)
    (o : TurnOrder) : s.arrive port p o = s.pass port p (classify port p == .pass) id := by
  unfold State.arrive
  rcases h with h | h <;> rw [h] <;> rfl

theorem arrive_mark {p : Packet} (h : classify .modem p = .mark) (s : State) (o : TurnOrder) :
    s.arrive .modem p o = s.pass .modem p true fun u => u.takeMark ((p.word 0).toNat % 256) o := by
  unfold State.arrive
  rw [h]

theorem arrive_malformedDrop {port : Port} {p : Packet} (h : classify port p = .malformedDrop) (s : State) (o : TurnOrder) :
    s.arrive port p o = s.raise .linkError := by
  unfold State.arrive
  rw [h]

theorem arrive_malformedPass {port : Port} {p : Packet} (h : classify port p = .malformedPass) (s : State) (o : TurnOrder) :
    s.arrive port p o = s.pass port p true fun u => u.raise .linkError := by
  unfold State.arrive
  rw [h]

theorem arrive_misdirected {port : Port} {p : Packet} (h : classify port p = .misdirected) (s : State) (o : TurnOrder) :
    s.arrive port p o = s.raise .linkError := by
  unfold State.arrive
  rw [h]

theorem arrive_command {p : Packet} (h : classify .modem p = .command) (s : State) (o : TurnOrder) :
    s.arrive .modem p o = s.queueCommand p := by
  unfold State.arrive
  rw [h]

theorem queueCommand_room {s : State} (h : s.engine.queue.length < 8) (p : Packet) :
    s.queueCommand p = { s with engine := { s.engine with queue := s.engine.queue ++ [p] } } := if_pos h

theorem queueCommand_full {s : State} (h : 8 ≤ s.engine.queue.length) (p : Packet) : s.queueCommand p = s.raise .cmdDrop :=
  if_neg (not_lt.2 h)

/-- Every arrival row hands its packet to `State.arrive`, at its port (log 23). -/
theorem exec_arrival {c : Instr} {s t : State} {port : Port} {p : Packet} {o : TurnOrder} (hr : s.pins.resetN = true)
    (hc : exec c s = s.live fun s => s.arrive port p o) (h : s.arrive port p o = t) : exec c s = .next t := by
  rw [hc, live_high hr, h]

/-! ### The statements -/

/-- Settles O4: a passing packet by `arrive_passing`, entering or dropped by `pass_room` and `pass_full`; which packets pass by
the `classify` lemmas. -/
theorem passingPacketEntersItsBuffer : Obligations.PassingPacketEntersItsBuffer := by
  refine ⟨⟨fun s p hr hc => ?_, fun s p hr hc => ?_⟩, fun s p o hr hw hk hfull => ?_, fun p => ?_⟩
  · refine ⟨fun hroom => exec_arrival hr rfl ?_, fun hfull => exec_arrival hr rfl ?_⟩ <;> rw [arrive_passing hc]
    · exact pass_room (room_modem.2 hroom) p _ id
    · exact pass_full (full_modem.2 hfull) p _ id
  · refine ⟨fun hroom => exec_arrival hr rfl ?_, fun hfull => exec_arrival hr rfl ?_⟩ <;>
      rw [arrive_passing (Or.inl hc)]
    · exact pass_room (room_frontEnd.2 hroom) p _ id
    · exact pass_full (full_frontEnd.2 hfull) p _ id
  · exact exec_arrival hr rfl ((arrive_mark (classify_mark hw hk) s o).trans (pass_full (full_modem.2 hfull) p true _))
  · exact ⟨classify_order_iff p, classify_pass_modem_iff p, classify_pass_frontEnd_iff p⟩

/-- Settles O5: dropped or passed on by `classify_malformed`, entering or dropped by `pass_room` and `pass_full`; the header by
`header_fields`, well-formedness by `wellFormed_iff` and the kind table. -/
theorem malformedPacketIsDroppedOrPassedOn : Obligations.MalformedPacketIsDroppedOrPassedOn := by
  refine ⟨fun s p hr hw => ⟨fun hdrop port => ?_, fun hu hlength => ?_⟩, fun p => ⟨header_fields p, rfl, ?_⟩⟩
  · have hc : classify port p = .malformedDrop := (classify_malformed hw port).trans (if_pos hdrop)
    exact exec_arrival hr rfl (arrive_malformedDrop hc s .plain)
  · have hkept : ¬ (p.unit = 15 ∨ 15 < p.payload.length) := not_or.2 ⟨hu, not_lt.2 hlength⟩
    have harrive (port : Port) : s.arrive port p .plain = s.pass port p true fun u => u.raise .linkError :=
      arrive_malformedPass ((classify_malformed hw port).trans (if_neg hkept)) s .plain
    refine ⟨fun hfull => ?_, fun hroom => ?_, fun hfull => ?_, fun hroom => ?_⟩ <;>
      refine exec_arrival hr rfl ((harrive _).trans ?_)
    · exact pass_full (full_modem.2 hfull) p true _
    · exact pass_room (room_modem.2 hroom) p true _
    · exact pass_full (full_frontEnd.2 hfull) p true _
    · exact pass_room (room_frontEnd.2 hroom) p true _
  · show _ ↔ _ ∧ _ ∧ ∃ least greatest, kindTable[p.kind]? = some (least, greatest) ∧ _
    rw [wellFormed_iff, kindTable_getElem]
    refine and_congr_right fun _ => and_congr_right fun _ => ⟨fun h => ⟨_, _, rfl, h⟩, ?_⟩
    rintro ⟨least, greatest, hrange, h⟩
    rw [Option.some.injEq] at hrange
    rwa [hrange]

/-- Settles O6: a misdirected packet by the `classify_misdirected` lemmas, a command by `queueCommand_room` and
`queueCommand_full`. -/
theorem unitFifteenPacketsAreTakenOrDropped : Obligations.UnitFifteenPacketsAreTakenOrDropped := by
  refine ⟨⟨fun s p hr hw hu h9 h1 => ?_, fun s p hr hw hu h10 h13 => ?_⟩, fun s p hr hw hu hk => ?_⟩
  · exact exec_arrival hr rfl (arrive_misdirected (classify_misdirected_modem hw hu h9 h1) s .plain)
  · exact exec_arrival hr rfl (arrive_misdirected (classify_misdirected_frontEnd hw hu h10 h13) s .plain)
  · have harrive : s.arrive .modem p .plain = s.queueCommand p := arrive_command (classify_command hw hu hk) s .plain
    exact ⟨fun hroom => exec_arrival hr rfl (harrive.trans (queueCommand_room hroom p)),
      fun hfull => exec_arrival hr rfl (harrive.trans (queueCommand_full hfull p))⟩

end Sys2Proof.Machine
end

section
/-! PROOFS. The Event Register: a flag set, its rise announced through its mask bit (R176 to R181). -/

namespace Sys2Proof.Machine

/-! ### The Event Register: a flag's setting (R177, R179) -/

theorem Events.has_iff (e : Events) (f : Flag) : e.has f = true ↔ e.flags &&& f.bit ≠ 0 := bne_iff_ne

theorem Events.announces_iff (e : Events) (f : Flag) : e.announces f = true ↔ e.mask &&& f.bit ≠ 0 := bne_iff_ne

theorem Events.raise_set {e : Events} {f : Flag} (h : e.has f = true) : e.raise f = e := if_pos h

theorem Events.raise_clear {e : Events} {f : Flag} (h : e.has f = false) : e.raise f = { e with
    flags := e.flags ||| f.bit
    notice := if e.announces f then some (e.notice.getD 0 ||| f.bit) else e.notice } :=
  if_neg (Bool.eq_false_iff.1 h)

/-- A flag has one place of the flag word: its own among the sixteen, in the order of section 9.8. -/
theorem Flag.bit_eq_twoPow (f : Flag) : f.bit = BitVec.twoPow 16 f.ctorIdx := by cases f <;> rfl

/-- A word that meets a single bit holds it. -/
theorem or_twoPow_of_and {w : Word} {i : Nat} (h : w &&& BitVec.twoPow 16 i ≠ 0) : w ||| BitVec.twoPow 16 i = w := by
  rw [BitVec.and_twoPow] at h
  have hi : w.getLsbD i = true := by
    by_contra hclear
    exact h (if_neg hclear)
  ext j hj
  rw [BitVec.getElem_or, BitVec.getElem_twoPow]
  by_cases hij : j = i
  · subst hij
    simpa [BitVec.getLsbD_eq_getElem hj] using hi
  · simp [hij]

/-- A flag's setting sets its bit, whether it rises or stands set already. -/
theorem Events.raise_flags (e : Events) (f : Flag) : (e.raise f).flags = e.flags ||| f.bit := by
  cases h : e.has f with
  | false => rw [Events.raise_clear h]
  | true =>
    have hmeets := (Events.has_iff e f).1 h
    rw [Flag.bit_eq_twoPow] at hmeets
    rw [Events.raise_set h, Flag.bit_eq_twoPow, or_twoPow_of_and hmeets]

theorem Events.raise_announced {e : Events} {f : Flag} (h : e.has f = false) (ha : e.announces f = true) :
    (e.raise f).notice = some (e.notice.getD 0 ||| f.bit) := by
  rw [Events.raise_clear h]
  exact if_pos ha

theorem Events.raise_masked {e : Events} {f : Flag} (h : e.has f = false) (ha : e.announces f = false) :
    (e.raise f).notice = e.notice := by
  rw [Events.raise_clear h]
  exact if_neg (Bool.eq_false_iff.1 ha)

/-- Settles O7: the word by `Events.raise_flags`, the notice by `Events.raise_announced` and `Events.raise_masked`. -/
theorem flagRiseIsAnnouncedThroughItsMaskBit : Obligations.FlagRiseIsAnnouncedThroughItsMaskBit := by
  refine ⟨by decide, fun e f => ⟨Events.has_iff e f, Events.announces_iff e f⟩, fun s f => ?_⟩
  refine ⟨⟨rfl, Events.raise_flags s.events f⟩, Events.has_raise_self s.events f, Events.raise_mask s.events f,
    fun g hg => Events.has_raise hg f, fun hset => ?_, fun hclear ha => ⟨fun hempty => ?_, fun w hwaiting => ?_⟩,
    fun hclear ha => Events.raise_masked hclear ha⟩
  · exact congrArg (fun e => { s with events := e }) (Events.raise_set hset)
  · have hnotice := Events.raise_announced hclear ha
    rw [hempty, Option.getD_none] at hnotice
    exact hnotice.trans (congrArg some BitVec.zero_or)
  · have hnotice := Events.raise_announced hclear ha
    rw [hwaiting, Option.getD_some] at hnotice
    exact hnotice

end Sys2Proof.Machine
end

section
/-! PROOFS. The Command Engine: a command taken, waiting for its reply's place, and refused for its code or its length (R165 to
R168, section 9.8). -/

namespace Sys2Proof.Machine

/-! ### Taking and waiting (R143, R165, R167) -/

theorem copyWaiting_iff (t : Tables) : t.copyWaiting = true ↔ ∃ c, t.copy = some c ∧ c.progress = 4096 := by
  unfold Tables.copyWaiting
  cases t.copy <;> simp [bankSize]

theorem takeCommand_idle {s : State} {p : Packet} {rest : List Packet} (hc : s.engine.current = none)
    (hq : s.engine.queue = p :: rest) :
    s.takeCommand = { s with engine := { s.engine with queue := rest, current := some p } } := by
  unfold State.takeCommand
  rw [hc, hq]

theorem takeCommand_busy {s : State} (h : s.engine.current ≠ none) : s.takeCommand = s := by
  obtain ⟨p, hp⟩ := Option.ne_none_iff_exists'.1 h
  unfold State.takeCommand
  rw [hp]

theorem takeCommand_empty {s : State} (h : s.engine.queue = []) : s.takeCommand = s := by
  unfold State.takeCommand
  rw [h]
  cases s.engine.current <;> rfl

theorem replyRoom_full {s : State} (h : 8 ≤ s.engine.replies.length ∨ s.tables.copyWaiting = true) : s.replyRoom = false := by
  unfold State.replyRoom
  rcases h with h | h
  · simp [engineCapacity, not_lt.2 h]
  · simp [h]

theorem replyRoom_free {s : State} (hl : s.engine.replies.length < 8) (hw : s.tables.copyWaiting = false) :
    s.replyRoom = true := by
  simp [State.replyRoom, engineCapacity, hl, hw]

/-- An effect that leaves a state makes a command that leaves it, at either level of RESET_N. -/
theorem live_of_same {s : State} {f : State → State} (h : f s = s) : s.live f = .next s := by
  unfold State.live
  rw [h, ite_self]

/-- Every command the code table names, SOFT-RESET apart, is executed under its code. -/
theorem exec_commandRow {copied code : Nat} {c : Instr} (h : commandRow copied code = some c) (hs : code ≠ 0x1F) :
    ∃ effect, ∀ s : State, exec c s = s.live fun s => s.execute code effect := by
  rcases commandRow_cases h with ⟨rfl, rfl⟩ | ⟨rfl, rfl⟩ | ⟨rfl, rfl⟩ | ⟨rfl, rfl⟩ | ⟨rfl, rfl⟩ | ⟨rfl, rfl⟩ | ⟨rfl, rfl⟩ |
    ⟨rfl, rfl⟩ | ⟨rfl, rfl⟩ | ⟨rfl, rfl⟩ | ⟨rfl, rfl⟩ | ⟨rfl, rfl⟩ | ⟨rfl, rfl⟩ | ⟨rfl, rfl⟩
  case inr.inr.inr.inr.inr.inr.inr.inr.inr.inr.inr.inr.inr => exact absurd rfl hs
  all_goals exact ⟨_, fun _ => rfl⟩

theorem answerUnknown_waits {s : State} (h : s.replyRoom = false) : s.answerUnknown = s := by
  unfold State.answerUnknown
  split
  · exact if_neg (by simp [h])
  · rfl

/-- Settles O39: the take by the `takeCommand` lemmas, the wait by `execute_waits` and `answerUnknown_waits`. -/
theorem engineTakesTheHeadAndWaitsForAPlace : Obligations.EngineTakesTheHeadAndWaitsForAPlace := by
  refine ⟨copyWaiting_iff, fun s hr => ?_, fun s p copied c hc hfull => ?_⟩
  · have hexec : exec .commandTake s = .next s.takeCommand := live_high hr State.takeCommand
    rw [hexec]
    refine ⟨fun p rest hc hq => congrArg _ (takeCommand_idle hc hq), fun h => congrArg _ ?_⟩
    exact h.elim takeCommand_busy takeCommand_empty
  · have hwaits := replyRoom_full hfull
    refine ⟨fun hrow hcode => ?_, fun _ => live_of_same (answerUnknown_waits hwaits)⟩
    obtain ⟨effect, hexec⟩ := exec_commandRow hrow hcode
    rw [hexec]
    exact live_of_same (execute_waits hwaits effect)

/-! ### The code table (section 9.8) -/

/-- The codes that section 9.8 names. -/
def commandCodes : List Nat :=
  [0x01, 0x02, 0x03, 0x04, 0x05, 0x06, 0x07, 0x08, 0x10, 0x11, 0x12, 0x13, 0x14, 0x1F]

theorem commandRow_none_iff_code (copied code : Nat) : commandRow copied code = none ↔ code ∉ commandCodes := by
  refine ⟨fun hnone hmem => ?_, fun hmem => Option.eq_none_iff_forall_ne_some.2 fun c hrow => hmem ?_⟩
  · have hall : ∀ c ∈ commandCodes, commandLengths c ≠ none := by decide
    exact hall code hmem ((commandRow_none_iff copied code).1 hnone)
  · rcases commandRow_cases hrow with ⟨rfl, _⟩ | ⟨rfl, _⟩ | ⟨rfl, _⟩ | ⟨rfl, _⟩ | ⟨rfl, _⟩ | ⟨rfl, _⟩ | ⟨rfl, _⟩ | ⟨rfl, _⟩ |
      ⟨rfl, _⟩ | ⟨rfl, _⟩ | ⟨rfl, _⟩ | ⟨rfl, _⟩ | ⟨rfl, _⟩ | ⟨rfl, _⟩ <;> decide

/-- The codes of the commands of one payload word. -/
def oneWordCodes : List Nat := [0x01, 0x02, 0x04, 0x05, 0x06, 0x08, 0x12, 0x13, 0x14, 0x1F]

/-- The code table of section 9.8 by its lengths. -/
def lengthTable (code : Nat) : Option (Nat × Nat) :=
  if code ∈ oneWordCodes then some (1, 1)
  else if code = 0x03 ∨ code = 0x07 then some (2, 2)
  else if code = 0x10 then some (3, 3)
  else if code = 0x11 then some (3, 12)
  else none

theorem mem_commandCodes_of_lengthTable {code : Nat} (h : lengthTable code ≠ none) : code ∈ commandCodes := by
  simp only [lengthTable, oneWordCodes, commandCodes, List.mem_cons, List.not_mem_nil, or_false] at h ⊢
  split_ifs at h
  case neg => exact absurd rfl h
  all_goals omega

theorem commandLengths_eq (code : Nat) : commandLengths code = lengthTable code := by
  by_cases hcode : code ∈ commandCodes
  · have hall : ∀ c ∈ commandCodes, commandLengths c = lengthTable c := by decide
    exact hall code hcode
  · have hunlisted : lengthTable code = none := not_not.1 fun h => hcode (mem_commandCodes_of_lengthTable h)
    rw [hunlisted, ← commandRow_none_iff 0, commandRow_none_iff_code]
    exact hcode

theorem commandLengthOk_known {p : Packet} {lo hi : Nat} (h : commandLengths p.commandCode = some (lo, hi)) :
    commandLengthOk p = true ↔ lo ≤ p.payload.length ∧ p.payload.length ≤ hi := by
  simp [commandLengthOk, h]

theorem commandLengthOk_unknown {p : Packet} (h : commandLengths p.commandCode = none) : commandLengthOk p = false := by
  simp [commandLengthOk, h]

/-- The lengths the code table allows, row by row. -/
theorem commandLengthOk_table (p : Packet) : commandLengthOk p = true ↔
    (p.commandCode ∈ oneWordCodes ∧ p.payload.length = 1) ∨
      ((p.commandCode = 0x03 ∨ p.commandCode = 0x07) ∧ p.payload.length = 2) ∨
      (p.commandCode = 0x10 ∧ p.payload.length = 3) ∨
      (p.commandCode = 0x11 ∧ 3 ≤ p.payload.length ∧ p.payload.length ≤ 12) := by
  have htable := commandLengths_eq p.commandCode
  simp only [lengthTable, oneWordCodes, List.mem_cons, List.not_mem_nil, or_false] at htable ⊢
  split_ifs at htable
  case neg =>
    rw [commandLengthOk_unknown htable]
    simp only [Bool.false_eq_true, false_iff]
    omega
  all_goals
    rw [commandLengthOk_known htable]
    omega

/-- A command the code table gives one length has its effect at that length. -/
theorem exec_command_exact {c : Instr} {s : State} {p : Packet} {code n : Nat} {effect : State → Packet → State}
    (hr : s.pins.resetN = true) (hc : s.engine.current = some p) (hl : s.engine.replies.length < 8)
    (hw : s.tables.copyWaiting = false) (he : exec c s = s.live fun s => s.execute code effect) (hcode : p.commandCode = code)
    (hn : commandLengths code = some (n, n)) (hlen : p.payload.length = n) : exec c s = .next (effect s p) :=
  exec_command hr hc hl hw he hcode hn (le_of_eq hlen.symm) (le_of_eq hlen)

/-! ### Refusals (R166, R168) -/

theorem answerUnknown_known {s : State} {p : Packet} (hc : s.engine.current = some p)
    (hcode : commandLengths p.commandCode = none) (hroom : s.replyRoom = true) :
    s.answerUnknown = s.answerStatus p Status.unknown := by
  unfold State.answerUnknown
  rw [hc]
  exact if_pos ⟨hcode, hroom⟩

/-- A SOFT-RESET of a wrong length is refused as any other command is (log 18). -/
theorem runSoftReset_range {s : State} {p : Packet} (hc : s.engine.current = some p) (hcode : p.commandCode = 0x1F)
    (hlength : commandLengthOk p = false) (hroom : s.replyRoom = true) (copied : Nat) :
    s.runSoftReset copied = s.refuse p Status.range := by
  unfold State.runSoftReset
  rw [hc]
  exact (if_pos hcode).trans ((if_neg (Bool.eq_false_iff.1 hlength)).trans (if_pos hroom))

/-- R166: whatever its row, a command of a wrong length is refused with RANGE. -/
theorem exec_wrongLength {s : State} {p : Packet} {copied : Nat} {c : Instr} (hr : s.pins.resetN = true)
    (hc : s.engine.current = some p) (hl : s.engine.replies.length < 8) (hw : s.tables.copyWaiting = false)
    (hrow : commandRow copied p.commandCode = some c) (hlength : commandLengthOk p = false) :
    exec c s = .next (s.refuse p Status.range) := by
  by_cases hcode : p.commandCode = 0x1F
  · rw [hcode] at hrow
    obtain rfl : .softReset copied = c := Option.some.inj hrow
    exact (live_high hr fun s => s.runSoftReset copied).trans
      (congrArg _ (runSoftReset_range hc hcode hlength (replyRoom_free hl hw) copied))
  · obtain ⟨effect, hexec⟩ := exec_commandRow hrow hcode
    rw [hexec, live_high hr, execute_of hc rfl hl hw, if_neg (Bool.eq_false_iff.1 hlength)]

/-- Settles O40: the answers by `answerUnknown_known` and `exec_wrongLength`, the table by `commandLengthOk_table` and
`commandRow_none_iff_code`. -/
theorem unknownAndWrongLengthCommandsAreRefused : Obligations.UnknownAndWrongLengthCommandsAreRefused := by
  refine ⟨?_, fun p copied => ?_⟩
  · intro s p copied hr hc hl hw answer
    refine ⟨fun hrow => ?_, fun c hrow hlength => exec_wrongLength hr hc hl hw hrow hlength⟩
    exact (live_high hr State.answerUnknown).trans (congrArg _
      (answerUnknown_known hc ((commandRow_none_iff copied _).1 hrow) (replyRoom_free hl hw)))
  · exact ⟨⟨(wordBits_top (p.word 0) (lo := 8) (by decide)).symm, (wordBits_bottom (p.word 0) 7).symm⟩,
      commandLengthOk_table p, commandRow_none_iff_code copied _⟩

end Sys2Proof.Machine
end

section
/-! PROOFS. The read commands: the words of READ-STATUS, READ-ZONE, READ-PATH and READ-SCHEDULE (R170 to R172, section 9.8). -/

namespace Sys2Proof.Machine

/-! ### Reading by range and mode (R43, R89, R96, R109, R166, R171, R172) -/

theorem readZone_range {s : State} {p : Packet} (hcode : p.commandCode = 0x04) (h : 4 ≤ p.parameter) :
    s.readZone p = s.answerStatus p Status.range := by
  unfold State.readZone
  rw [index4_none h]
  exact refuse_eq (by rw [hcode]; decide) s _

theorem readZone_unset {s : State} {p : Packet} {z : Fin 4} (h : p.parameter = z.val) (hm : s.timer.mode = .unset) :
    s.readZone p = s.answer p (statusWord Code.readZone Status.noBank :: zonePowerUp) := by
  unfold State.readZone
  rw [index4_of h]
  exact if_pos hm

theorem readZone_done {s : State} {p : Packet} {z : Fin 4} (h : p.parameter = z.val) (hm : s.timer.mode ≠ .unset) :
    s.readZone p = s.answer p (statusWord Code.readZone Status.done :: s.zoneItems z) := by
  unfold State.readZone
  rw [index4_of h]
  exact if_neg hm

theorem readPath_range {s : State} {p : Packet} (hcode : p.commandCode = 0x05) (h : 4 ≤ p.parameter) :
    s.readPath p = s.answerStatus p Status.range := by
  unfold State.readPath
  rw [index4_none h]
  exact refuse_eq (by rw [hcode]; decide) s _

theorem readPath_unset {s : State} {p : Packet} {i : Fin 4} (h : p.parameter = i.val) (hm : s.timer.mode = .unset) :
    s.readPath p = s.answer p (statusWord Code.readPath Status.noBank :: pathPowerUp) := by
  unfold State.readPath
  rw [index4_of h]
  exact if_pos hm

theorem readPath_done {s : State} {p : Packet} {i : Fin 4} (h : p.parameter = i.val) (hm : s.timer.mode ≠ .unset) :
    s.readPath p = s.answer p (statusWord Code.readPath Status.done :: (s.path.get i).items) := by
  unfold State.readPath
  rw [index4_of h]
  exact if_neg hm

theorem readSchedule_unset {s : State} (hm : s.timer.mode = .unset) (p : Packet) :
    s.readSchedule p = s.answer p [statusWord Code.readSchedule Status.noBank, 0] := if_pos hm

theorem readSchedule_absent {s : State} {p : Packet} (hm : s.timer.mode ≠ .unset)
    (h : s.sched.entries.length ≤ p.parameter) :
    s.readSchedule p = s.answer p [statusWord Code.readSchedule Status.done, 0] := by
  unfold State.readSchedule
  rw [if_neg hm, List.getElem?_eq_none h]

theorem readSchedule_entry {s : State} {p : Packet} {e : Entry} (hm : s.timer.mode ≠ .unset)
    (h : s.sched.entries[p.parameter]? = some e) :
    s.readSchedule p = s.answer p (statusWord Code.readSchedule Status.done :: e.items p.parameter) := by
  unfold State.readSchedule
  rw [if_neg hm, h]

/-! ### The words, item by item (section 9.8) -/

/-- READ-STATUS tells a running copy by 1, none by 0. -/
theorem copyingBit_eq (copy : Option CopyRun) : (if copy.isSome then 1 else 0) = if copy = none then 0 else 1 := by
  cases copy <;> rfl

/-- Settles O41: the answers by range and mode, each word by the layout of its items. -/
theorem readCommandsReportState : Obligations.ReadCommandsReportState := by
  intro s p hr hc hl hw hlen answer u i
  refine ⟨fun hcode => ?_, fun hcode => ?_, fun hcode => ?_, fun hcode => ?_⟩
  · intro mode timer bank turns copying boost
    have hbank (b : Option BankId) : bankCode b = bank b := by rcases b with _ | _ | _ <;> rfl
    have hcopying : (if s.tables.copy.isSome then 1 else 0) = copying := copyingBit_eq s.tables.copy
    have hitems : s.statusItems = [u (mode * 4096 + timer * 256 + s.timer.frame), u (s.timer.grain * 256 + s.timer.missed),
        u (bank s.tables.active * 4096 + bank (s.tables.pending.map Prod.fst) * 256 + turns * 16 + copying),
        u (boost * 256 + s.sched.entries.length), i s.supply.ceiling] := by
      rw [← hcopying, ← hbank, ← hbank]
      rfl
    rw [exec_command_exact hr hc hl hw rfl hcode rfl hlen, hitems]
    rfl
  · rw [exec_command_exact hr hc hl hw rfl hcode rfl hlen]
    refine ⟨fun hrange => ?_, fun z hz => ⟨fun hm => ?_, fun hm => ?_⟩⟩
    · rw [readZone_range hcode hrange, State.answerStatus, hcode]; rfl
    · rw [readZone_unset hz hm]; rfl
    · rw [readZone_done hz hm]; rfl
  · rw [exec_command_exact hr hc hl hw rfl hcode rfl hlen]
    refine ⟨fun hrange => ?_, fun q hq => ⟨fun hm => ?_, fun hm => ?_⟩⟩
    · rw [readPath_range hcode hrange, State.answerStatus, hcode]; rfl
    · rw [readPath_unset hq hm]; rfl
    · rw [readPath_done hq hm]; rfl
  · rw [exec_command_exact hr hc hl hw rfl hcode rfl hlen]
    refine ⟨fun hm => ?_, fun hm => ⟨fun habsent => ?_, fun e he => ?_⟩⟩
    · rw [readSchedule_unset hm]; rfl
    · rw [readSchedule_absent hm habsent]; rfl
    · rw [readSchedule_entry hm he]; rfl

end Sys2Proof.Machine
end

section
/-! PROOFS. READ-EVENTS, SET-MASK, SET-CAP and CLEAR-BAR (R106, R107, R173, R178). -/

namespace Sys2Proof

theorem Four.set_get {α : Type} (v : Four α) (i : Fin 4) : v.set i (v.get i) = v := by
  fin_cases i <;> rfl

end Sys2Proof

namespace Sys2Proof.Machine

/-! ### SET-CAP (R107) -/

theorem setCap_range {s : State} {p : Packet} (hcode : p.commandCode = 0x07) (h : 4 ≤ p.parameter) :
    s.setCap p = s.answerStatus p Status.range := by
  unfold State.setCap
  rw [index4_none h]
  exact refuse_eq (by rw [hcode]; decide) s _

/-- What SET-CAP makes of a path in range, by the word it carries. -/
theorem setCap_path {s : State} {p : Packet} {i : Fin 4} (hcode : p.commandCode = 0x07) (h : p.parameter = i.val) :
    s.setCap p =
      if p.word 1 = 0x8000 then
        { s.answerStatus p Status.done with path := s.path.set i { s.path.get i with cap := none } }
      else if -400 ≤ (p.word 1).toInt ∧ (p.word 1).toInt ≤ 272 then
        { s.answerStatus p Status.done with path := s.path.set i { s.path.get i with cap := some (p.word 1).toInt } }
      else s.answerStatus p Status.range := by
  unfold State.setCap
  rw [index4_of h]
  dsimp only
  rw [refuse_eq (by rw [hcode]; decide)]
  rfl

/-- The no-cap value is no code of the valid range. -/
theorem ne_noCap_of_code {w : Word} (h : -400 ≤ w.toInt) : w ≠ 0x8000 := by
  rintro rfl
  exact absurd h (by decide)

/-! ### CLEAR-BAR (R106) -/

theorem clearBar_range {s : State} {p : Packet} (hcode : p.commandCode = 0x08) (h : 4 ≤ p.parameter) :
    s.clearBar p = s.answerStatus p Status.range := by
  unfold State.clearBar
  rw [index4_none h]
  exact refuse_eq (by rw [hcode]; decide) s _

theorem clearBar_barred {s : State} {p : Packet} {i : Fin 4} (h : p.parameter = i.val)
    (hb : (s.path.get i).state = .barred) :
    s.clearBar p = { s.answerStatus p Status.done with path := s.path.set i ((s.path.get i).barEnded s.limits) } := by
  unfold State.clearBar
  rw [index4_of h]
  dsimp only
  rw [if_pos hb]

theorem clearBar_other {s : State} {p : Packet} {i : Fin 4} (h : p.parameter = i.val)
    (hb : (s.path.get i).state ≠ .barred) : s.clearBar p = s.answerStatus p Status.done := by
  unfold State.clearBar
  rw [index4_of h]
  dsimp only
  rw [if_neg hb, Four.set_get]
  rfl

/-- Settles O42: SET-CAP by `setCap_path`, CLEAR-BAR by `clearBar_barred` and `clearBar_other`; READ-EVENTS and SET-MASK by
their effects. -/
theorem eventsMaskCapAndBarCommands : Obligations.EventsMaskCapAndBarCommands := by
  refine ⟨?_, ?_⟩
  · intro s p hr hc hl hw hcode hlen
    rw [exec_command_exact hr hc hl hw rfl hcode rfl hlen]; rfl
  · intro s p hr hc hl hw answer
    have hstatus : ∀ status, s.answerStatus p status = answer (statusWord p.commandCode status) := fun _ => rfl
    refine ⟨fun hcode hlen => ?_, fun hcode hlen => ?_, fun hcode hlen => ?_⟩
    · rw [exec_command_exact hr hc hl hw rfl hcode rfl hlen, hstatus, hcode]; rfl
    · rw [exec_command_exact hr hc hl hw rfl hcode rfl hlen]
      refine ⟨fun hrange => ?_, fun i hi => ?_⟩
      · rw [setCap_range hcode hrange, hstatus, hcode]; rfl
      · rw [setCap_path hcode hi, hstatus, hstatus, hcode]
        refine ⟨fun hnone => ?_, fun hlo hhi => ?_, fun hcap houtside => ?_⟩
        · rw [if_pos hnone]; rfl
        · rw [if_neg (ne_noCap_of_code hlo), if_pos ⟨hlo, hhi⟩]; rfl
        · rw [if_neg hcap, if_neg (by omega)]; rfl
    · rw [exec_command_exact hr hc hl hw rfl hcode rfl hlen]
      refine ⟨fun hrange => ?_, fun i hi => ⟨fun hbarred => ?_, fun hother => ?_⟩⟩
      · rw [clearBar_range hcode hrange, hstatus, hcode]; rfl
      · rw [clearBar_barred hi hbarred, hstatus, hcode]; rfl
      · rw [clearBar_other hi hother, hstatus, hcode]; rfl

end Sys2Proof.Machine
end

section
/-! PROOFS. SOFT-RESET, block by block (R69, R78, R99, R144, R161, R174 to R176). -/

namespace Sys2Proof.Machine

/-! ### The Boost Controller and the Originated Queue (R69, R161) -/

/-- The Boost Controller OFF, but for the release-due marker. -/
def Boost.switchedOff (b : Boost) : Boost :=
  { b with state := .off, wait := none, quiet := 0, cooldown := 0, boosted := false, requestDue := false }

/-- R69: a controller that is REQUESTED or READY releases the supply unit; any other is OFF at once. -/
theorem boostSoftReset_running {s : State} (h : s.boost.state = .requested ∨ s.boost.state = .ready) :
    s.boostSoftReset = { s with boost := s.boost.switchedOff }.releaseNow s.boost.releaseDue := by
  unfold State.boostSoftReset
  exact if_pos (by simpa using h)

theorem boostSoftReset_resting {s : State} (h : ¬ (s.boost.state = .requested ∨ s.boost.state = .ready)) :
    s.boostSoftReset = { s with boost := s.boost.switchedOff } := by
  unfold State.boostSoftReset
  exact if_neg (by simpa using h)

theorem boostSoftReset_room {s : State} (h : s.boost.state = .requested ∨ s.boost.state = .ready)
    (hroom : s.link.orig.length + s.supply.claimed < 12) :
    s.boostSoftReset = { s with
      boost := s.boost.switchedOff
      link := { s.link with orig := s.link.orig ++ [⟨s.limits.supplyTag, 8, 0, []⟩] } } :=
  (boostSoftReset_running h).trans (releaseNow_room (s := { s with boost := s.boost.switchedOff }) hroom s.boost.releaseDue)

theorem boostSoftReset_full {s : State} (h : s.boost.state = .requested ∨ s.boost.state = .ready)
    (hfull : 12 ≤ s.link.orig.length + s.supply.claimed) :
    s.boostSoftReset = { s with boost := { s.boost.switchedOff with releaseDue := true } } :=
  (boostSoftReset_running h).trans (releaseNow_full (s := { s with boost := s.boost.switchedOff }) hfull s.boost.releaseDue)

/-- R69: whatever it was, the controller is OFF and at rest. -/
theorem boostSoftReset_off (s : State) : let b := s.boostSoftReset.boost
    b.state = .off ∧ b.wait = none ∧ b.quiet = 0 ∧ b.cooldown = 0 ∧ b.boosted = false ∧ b.requestDue = false := by
  by_cases hrunning : s.boost.state = .requested ∨ s.boost.state = .ready
  · rcases Nat.lt_or_ge (s.link.orig.length + s.supply.claimed) 12 with hroom | hfull
    · rw [boostSoftReset_room hrunning hroom]; exact ⟨rfl, rfl, rfl, rfl, rfl, rfl⟩
    · rw [boostSoftReset_full hrunning hfull]; exact ⟨rfl, rfl, rfl, rfl, rfl, rfl⟩
  · rw [boostSoftReset_resting hrunning]; exact ⟨rfl, rfl, rfl, rfl, rfl, rfl⟩

/-! ### The Table Store (R144) -/

/-- A running copy seen further on moves no switch and no mark. -/
theorem advance_frame (t : Tables) (copied : Nat) :
    (t.advance copied).active = t.active ∧ (t.advance copied).pending = t.pending ∧
      (t.advance copied).launch = t.launch ∧ (t.advance copied).mark0 = t.mark0 ∧ (t.advance copied).mark1 = t.mark1 := by
  unfold Tables.advance
  cases t.copy with
  | none => exact ⟨rfl, rfl, rfl, rfl, rfl⟩
  | some c =>
    obtain ⟨dest, progress, tag⟩ := c
    cases dest <;> exact ⟨rfl, rfl, rfl, rfl, rfl⟩

theorem cancellable_iff (t : Tables) : t.cancellable = true ↔ ∃ b, t.pending = some (b, 2) := by
  unfold Tables.cancellable
  rcases t.pending with _ | ⟨b, n⟩ <;> simp

/-- R144: the running copy is aborted where it has come to; a switch at 2 turns is cancelled, any other stays. -/
theorem tables_softReset_eq (t : Tables) (copied : Nat) : t.softReset copied =
    if t.cancellable then { t.advance copied with copy := none, pending := none, launch := .cancelled }
    else { t.advance copied with copy := none } := by
  have hsame : ({ t.advance copied with copy := none } : Tables).cancellable = t.cancellable := by
    unfold Tables.cancellable
    dsimp only
    rw [Tables.advance_pending]
  unfold Tables.softReset
  dsimp only
  rw [hsame]
  rfl

theorem tables_softReset_frame (t : Tables) (copied : Nat) :
    (t.softReset copied).copy = none ∧ (t.softReset copied).active = t.active ∧ (t.softReset copied).mark0 = t.mark0 ∧
      (t.softReset copied).mark1 = t.mark1 := by
  obtain ⟨hactive, -, -, hmark0, hmark1⟩ := advance_frame t copied
  rw [tables_softReset_eq]
  split <;> exact ⟨rfl, hactive, hmark0, hmark1⟩

theorem tables_softReset_bank (t : Tables) (copied : Nat) (b : BankId) :
    (t.softReset copied).bank b = (t.advance copied).bank b := by
  rw [tables_softReset_eq]
  split <;> cases b <;> rfl

theorem tables_softReset_cancelled {t : Tables} {b : BankId} (h : t.pending = some (b, 2)) (copied : Nat) :
    (t.softReset copied).pending = none ∧ (t.softReset copied).launch = .cancelled := by
  rw [tables_softReset_eq, if_pos ((cancellable_iff t).2 ⟨b, h⟩)]
  exact ⟨rfl, rfl⟩

theorem tables_softReset_kept {t : Tables} (h : ∀ b, t.pending ≠ some (b, 2)) (copied : Nat) :
    (t.softReset copied).pending = t.pending ∧ (t.softReset copied).launch = t.launch := by
  obtain ⟨-, hpending, hlaunch, -⟩ := advance_frame t copied
  have hstays : ¬ t.cancellable = true := fun hc => ((cancellable_iff t).1 hc).elim h
  rw [tables_softReset_eq, if_neg hstays]
  exact ⟨hpending, hlaunch⟩

/-! ### Sensors and paths (R78, R99) -/

theorem softReset_sense (s : State) (copied : Nat) (p : Packet) (z : Fin 4) :
    (s.softReset copied p).sense.get z = { s.sense.get z with
      poll := none
      pollDue := decide (s.timer.mode ≠ .unset ∧ (s.sense.get z).fresh ≠ .fresh) } := by
  simp [State.softReset, Sense.softReset, bne, beq_eq_decide]

theorem softReset_path (s : State) (copied : Nat) (p : Packet) (i : Fin 4) :
    (s.softReset copied p).path.get i = ⟨.clear, 0, 0, none, (s.path.get i).thermal⟩ := by
  simp [State.softReset, PathState.softReset]

/-! ### The command (R165, R174, R175) -/

theorem runSoftReset_done {s : State} {p : Packet} (hc : s.engine.current = some p) (hcode : p.commandCode = 0x1F)
    (hlength : commandLengthOk p = true) (copied : Nat) : s.runSoftReset copied = s.softReset copied p := by
  unfold State.runSoftReset
  rw [hc]
  exact (if_pos hcode).trans (if_pos hlength)

/-- Settles O47: the Boost Controller and its packet by the `boostSoftReset` lemmas, the Table Store by the `tables_softReset`
lemmas and `advance_copying`. -/
theorem softResetMakesEveryBlocksPart : Obligations.SoftResetMakesEveryBlocksPart := by
  intro s p copied hr hc hcode hlen
  have hlength : commandLengthOk p = true :=
    (commandLengthOk_known (by rw [hcode]; rfl)).2 ⟨le_of_eq hlen.symm, le_of_eq hlen⟩
  have hexec : exec (.softReset copied) s = .next (s.softReset copied p) :=
    (live_high hr fun s => s.runSoftReset copied).trans (congrArg _ (runSoftReset_done hc hcode hlength copied))
  obtain ⟨hpins, htimer, hsched, hsupply, hheat, hcontrol, -⟩ := softReset_frame s copied p
  obtain ⟨hcopy, hactive, hmark0, hmark1⟩ := tables_softReset_frame s.tables copied
  refine ⟨_, hexec, htimer, hsched, hsupply, hheat, hcontrol, hpins, softReset_link s copied p, ?_,
    softReset_sense s copied p, softReset_path s copied p, ?_⟩
  · intro kept running room
    let u : State := { s with link := s.link.softReset }
    have hboost : (s.softReset copied p).boost = u.boostSoftReset.boost := rfl
    have horig : (s.softReset copied p).link.orig = u.boostSoftReset.link.orig := rfl
    obtain ⟨hstate, hwait, hquiet, hcooldown, hboosted, hdue⟩ := boostSoftReset_off u
    rw [hboost, horig]
    refine ⟨hstate, hwait, hquiet, hcooldown, hboosted, hdue, fun hrunning hroom => ?_, fun hrunning hfull => ?_,
      fun hresting => ?_⟩
    · rw [boostSoftReset_room (s := u) hrunning hroom]; exact ⟨rfl, rfl⟩
    · rw [boostSoftReset_full (s := u) hrunning (not_lt.1 hfull)]; exact ⟨rfl, rfl⟩
    · rw [boostSoftReset_resting (s := u) hresting]; exact ⟨rfl, rfl⟩
  · rw [softReset_tables]
    refine ⟨hcopy, hactive, hmark0, hmark1, fun b hb => tables_softReset_cancelled hb copied,
      fun hb => tables_softReset_kept hb copied, fun hnone => ?_, fun c hrun => ?_, rfl, rfl⟩
    · have hbank (b : BankId) : (s.tables.softReset copied).bank b = s.tables.bank b := by
        rw [tables_softReset_bank, advance_none hnone]
      exact ⟨hbank .bank0, hbank .bank1⟩
    · obtain ⟨hsource, n, hprogress, hn, -, hwords⟩ := advance_copying hrun copied
      simp only [tables_softReset_bank]
      exact ⟨hsource, n, hprogress, hn, hwords⟩

end Sys2Proof.Machine
end
